-- ==== Sys2Proof/Word.lean ====
section
/-! DEFINITION. The words of the machine and the two data types the spec builds from them: the bit slice
(`10_state.md` R16) and the tree (`10_state.md` R24). Types only; their operations stand under `Machine/`. -/

namespace Sys2Proof

/-- A byte, and so a symbol: SYM_W = 8 (`00_scope.md` section 4). -/
abbrev Byte := BitVec 8

/-- The 64-bit word of a bit slice and of a block length. -/
abbrev Word := BitVec 64

/-- A weight or a frequency count: WEIGHT_W = 64, unsigned (R20, R128). -/
abbrev Weight := BitVec 64

/-- R16: a BitSlice `{length, bits}`. The valid bits are the low `length` bits of the word, the earliest one
highest. That `length ≤ 64` and that the bits above are zero (R90) is `BitSlice.wf`, not the type. -/
structure BitSlice where
  length : Nat
  bits   : Word
  deriving DecidableEq, Repr, Inhabited

/-- R91: the empty BitSlice. -/
def BitSlice.empty : BitSlice := { length := 0, bits := 0 }

/-- R24: a node of the prefix tree: a leaf with a weight and a symbol (`none` is the spec's `unset`), or an
internal node with a weight and exactly two children. -/
inductive Tree where
  | leaf (weight : Weight) (symbol : Option Byte)
  | node (weight : Weight) (left right : Tree)
  deriving DecidableEq, Repr, Inhabited

end Sys2Proof
end

