-- ==== Sys2Proof/Config.lean ====
section
/-! DEFINITION. What an implementation fixes and the spec leaves OPEN (`00_scope.md` section 4, R4), and the
free values of the model. They are opaque: no proof can see what they are. -/

namespace Sys2Proof

/-- The parameters of an implementation (R4, R168).

`tie` is TIE_RULE as plain data. Each row gives, for one working list of the builder, the positions of the node
that becomes the LEFT and of the node that becomes the RIGHT child of the next merge. A working list without a
row, or with a row that R123 does not allow, is merged by the reference rule R126, so every value of `tie` is a
TIE_RULE in the sense of R124, and every finite behaviour of every such rule is a value of `tie`. (log 13)

A capacity `none` is unbounded, as in the reference model (R168). -/
structure Params where
  tie        : List (List Tree × (Nat × Nat))
  synSym     : Byte
  inbufCap   : Option Nat
  payloadCap : Option Nat
  nodeCap    : Option Nat
  deriving DecidableEq, Repr, Inhabited

/-- The reference values of `00_scope.md` section 4, which the spec's worked examples use. -/
def Params.reference : Params :=
  { tie := [], synSym := 0x00, inbufCap := none, payloadCap := none, nodeCap := none }

/-- The parameters of the machine that comes out of reset: some implementation, not known which. (log 13) -/
opaque Config.params : Params

/-- Free value (R42, U31): whether the sink write that failed as the n-th one had appended its byte. (log 11) -/
opaque Config.failedWriteLands : Nat → Bool

/-- Free value: the length field of a block whose payload has 2^64 bytes or more. `le64` is defined below 2^64 only
(`00_scope.md` 5.1). (log 32) -/
opaque Config.longLength : Nat → Word

end Sys2Proof
end

