-- ==== Sys2Proof/Syntax.lean ====
section
/-! DEFINITION. The operations of the block, one constructor per row of `spec/opcode_table.json`, with their
operand forms. Operands that a rule names as a state element (INBUF, PAY, FREQ, TREE, the reader, the writer)
are not written again here. -/

namespace Sys2Proof

/-- A BitSlice that an operation reads and writes: one of the two accumulators of `10_state.md` section 3
(R17, R19). -/
inductive SliceReg where
  | acc    -- BW.ACC
  | cwacc  -- CWACC
  deriving DecidableEq, Repr

/-- A BitSlice that an operation only reads: an accumulator, the codeword table's entry of a symbol (R22), or a
slice given as a value. -/
inductive SliceSrc where
  | reg (r : SliceReg)
  | cw  (symbol : Byte)
  | imm (t : BitSlice)
  deriving DecidableEq, Repr

/-- The block ids of R62. -/
inductive BlockId where
  | shape | leaves | data
  deriving DecidableEq, Repr

/-- One constructor per row of the operation table. -/
inductive Instr where
  -- CMD (R75)
  | encode
  | decode
  -- BLK: the processing of a block by its id (R62)
  | blkShape
  | blkLeaves
  | blkData
  -- SHAPEBIT (R63)
  | sLeaf
  | sInternal
  -- PATHBIT (R70, R71)
  | pLeft
  | pRight
  -- PADCNT (R197): the first byte of a DATA payload, 0..7
  | padcnt (p : BitVec 3)
  -- UOP (R76)
  | bsAppendBit (s : SliceReg) (b : Bool)
  | bsAppendSlice (s : SliceReg) (t : SliceSrc)
  | bsPadToByte (s : SliceReg)
  | bsPopByte (s : SliceReg)
  | brReadBit
  | brCountUnflushedBits
  | brFlushBits
  | bwWriteBit (b : Bool)
  | bwWriteSlice (t : SliceSrc)
  | bwCountPaddingBits
  | bwWritePaddingBits
  | tCount
  | tBuild
  | tWriteShape
  | tWriteLeaves
  | tBuildTable
  | tReadShape
  | tAssignLeaves
  | blkWrite (id : BlockId)
  | blkRead (expected : BlockId)
  | dWalkBit
  deriving DecidableEq, Repr

end Sys2Proof
end

