-- ==== Sys2Proof/Machine/State.lean ====
section
/-! DEFINITION. Everything the spec gives the block (`10_state.md`), the inputs of the step relation as plain data
(R34), the few fields of the model's own, and the state after reset (R35, R240). -/

namespace Sys2Proof.Machine

/-- STATUS.STATE (R12): 0 IDLE, 1 BUSY, 2 DONE, 3 FAULT. -/
inductive CallState where
  | idle | busy | done | fault
  deriving DecidableEq, Repr

/-- STATUS.ERR (R210): the codes 0 to 8, in this order. Codes 9 to 15 are never written. -/
inductive Err where
  | ok | truncated | blockId | capacity | treeMismatch | leafCount | io | badPadding | noTree
  deriving DecidableEq, Repr

/-- PHASE (R13): the sequencer's position in the call. -/
inductive Phase where
  | eRead | eCount | eBuild | eShape | eLeaves | eTable | eData | eEnd
  | dBlk0 | dShape | dBlk1 | dLeaves | dBlk2 | dBody | dTail | dEnd
  deriving DecidableEq, Repr

/-- What `SrcRead()` answers (R41). -/
inductive SrcAns where
  | byte (v : Byte)
  | eos
  | ioFail
  deriving DecidableEq, Repr

/-- What `SnkWrite(v)` answers (R42). -/
inductive SnkAns where
  | ok
  | ioFail
  deriving DecidableEq, Repr

/-- The origin a BitReader is bound to (R100): the byte source, or PAY from the position `pos` of the next byte. -/
inductive Origin where
  | src
  | pay (pos : Nat)
  deriving DecidableEq, Repr

/-- The destination a BitWriter is bound to (R105). -/
inductive Dest where
  | snk
  | pay
  deriving DecidableEq, Repr

/-- BR (R18). The unread bits are `buf[rem-1:0]`. -/
structure BitReader where
  buf    : Byte
  rem    : Nat
  origin : Origin
  deriving DecidableEq, Repr

/-- BW (R17). -/
structure BitWriter where
  acc  : BitSlice
  dest : Dest
  deriving DecidableEq, Repr

/-- What the host does at the block, between two steps (R11, R227, R240, R242). (log 3) -/
inductive HostEvent where
  /-- A request for one operation, as a frame. The host's own requests are the two commands: a write to CMD.
  Any other operation is a unit-level run (R33, R196). -/
  | request (frame : List Byte)
  /-- Bind a byte source and a byte sink: the answers they will give. -/
  | bind (src : List SrcAns) (snk : List SnkAns)
  /-- Assert reset (R240). -/
  | reset
  /-- Do nothing for one step. -/
  | tick
  /-- Read STATUS until it is not BUSY (R224). -/
  | await
  deriving DecidableEq, Repr

/-- Why the machine stops with a fault: states no call reaches, where the spec itself says that a read is a fault
of the model or that the machine has no next step. All safe: the model says nothing further. -/
inductive Fault where
  /-- Raised by `T.writeLeaves`, `T.buildTable`, `D.walkBit`, `P_LEFT`, `P_RIGHT`, `BLK_DATA` at a leaf whose symbol
  is `unset` (R24, R35: "a read of an unspecified element is a fault of the model, not a value"). Safe. -/
  | unsetSymbol
  /-- Raised by `D.walkBit`, `P_LEFT`, `P_RIGHT` when CUR refers to no node of TREE (R14). Safe. -/
  | danglingCursor
  /-- Raised in E_READ by input beyond MAX_INPUT: "outside the model (stuck)" (U25, D6). Safe. -/
  | inputTooLong
  deriving DecidableEq, Repr

/-- Why an operation is refused. All safe: the model says nothing further. -/
inductive Refusal where
  /-- An operation that has no meaning yet; raised by `exec`'s own arms only. Safe. -/
  | notModelled (mnemonic : String)
  /-- A requested frame that is no operation (R76: "names nothing"); raised by the step. Safe. -/
  | noOperation
  /-- `BS.popByte` with fewer than 8 bits held (R95: "a refusal, not a value"). Safe. -/
  | popUnderflow
  /-- `D.walkBit` with no meaningful bit left (R199: "require REMAINING > 0"). Safe. -/
  | noBitsRemaining
  /-- A slice operand `CW[s]` whose entry is `none` (R22, R178: "never `none`"). Safe. -/
  | noCodeword
  deriving DecidableEq, Repr

/-- An operation that waits for an answer of the host (R43), so that it can be taken up again: the elements it may have
changed so far, as they were at its start; the answers of the source it has taken; how many writes the sink has
accepted from it; and the operation itself where the host requested it (`none`: the operation of the sequencer's
present place). The model's own. (log 2, log 3) -/
structure Held where
  cur       : List Bool
  remaining : Nat
  bw        : BitWriter
  br        : BitReader
  pay       : List Byte
  blkId     : Byte
  blkLen    : Word
  padcnt    : Byte
  src       : List SrcAns
  snk       : Nat
  job       : Option Instr
  deriving DecidableEq, Repr

/-- The state. -/
structure State where
  -- control and status (`10_state.md` section 2)
  cmdMode   : BitVec 1
  st        : CallState
  err       : Err
  phase     : Phase
  cur       : List Bool
  remaining : Nat
  treeValid : Bool
  srcEos    : Bool
  -- bit accumulators (section 3)
  bw        : BitWriter
  br        : BitReader
  cwacc     : BitSlice
  -- tables and the tree (sections 4, 5)
  freq      : Vector Weight 256
  wl        : List Tree
  cw        : Vector (Option BitSlice) 256
  tree      : Option Tree
  -- buffers (section 6)
  inbuf     : List Byte
  pay       : List Byte
  blkId     : Byte
  blkLen    : Word
  padcnt    : Byte
  -- the model's own: place in the phase, loop index of R178, result of the last unit operation,
  -- the operation that waits for the host (R43), count of free values drawn
  pos       : Nat
  idx       : Nat
  res       : Byte
  held      : Option Held
  freeCtr   : Nat
  -- inputs of the step relation (R34) and the output log
  params    : Params
  src       : List SrcAns
  snk       : List SnkAns
  out       : List Byte
  host      : List HostEvent
  deriving DecidableEq, Repr

/-- The outcome of one step. -/
abbrev Outcome := Host.Outcome State Fault Refusal

/-- How an operation inside a step ends: with a value; with `raise E` at the point reached (R220); waiting for an
answer of the host, in the state reached (R43); or where the model stops. -/
inductive Res (α : Type) where
  | ok (a : α) (s : State)
  | raise (e : Err) (s : State)
  | wait (s : State)
  | fault (f : Fault)
  | refuse (r : Refusal)

/-- An operation on the state with a result. -/
abbrev Act (α : Type) := State → Res α

/-- Sequencing: the first end that is not a value is the end of the whole. -/
def Res.bind {α β : Type} : Res α → (α → State → Res β) → Res β
  | .ok a s,    k => k a s
  | .raise e s, _ => .raise e s
  | .wait s,    _ => .wait s
  | .fault f,   _ => .fault f
  | .refuse r,  _ => .refuse r

/-- R91, R105: an empty writer bound to `d`. -/
def BitWriter.fresh (d : Dest) : BitWriter := { acc := BitSlice.empty, dest := d }

/-- R100: a reader with no buffered bit, bound to `o`. With BR.REM = 0 the spec calls the content of BR.BUF not meaningful
(R18): the 0 here is the model's, for a reader made new inside a call (R188, R198) as for reset. (DESIGN CHOICE,
log 33) -/
def BitReader.fresh (o : Origin) : BitReader := { buf := 0, rem := 0, origin := o }

/-- The machine right after reset (R35, R240): STATUS IDLE with code 0, TREE_VALID 0, SRC_EOS 0, no tree. R35 calls
every other element unspecified; their values here are the model's (DESIGN CHOICE, log 6), and so are those of the model's
own fields: RES 0 and nothing waiting (log 34), the place in a phase (log 27), the count of free values (log 31). No host
input, no output yet; the parameters are those of some implementation (log 13). -/
def State.reset : State where
  cmdMode   := 0
  st        := .idle
  err       := .ok
  phase     := .eRead
  cur       := []
  remaining := 0
  treeValid := false
  srcEos    := false
  bw        := BitWriter.fresh .pay
  br        := BitReader.fresh (.pay 0)
  cwacc     := BitSlice.empty
  freq      := Vector.replicate 256 0
  wl        := []
  cw        := Vector.replicate 256 none
  tree      := none
  inbuf     := []
  pay       := []
  blkId     := 0
  blkLen    := 0
  padcnt    := 0
  pos       := 0
  idx       := 0
  res       := 0
  held      := none
  freeCtr   := 0
  params    := Config.params
  src       := []
  snk       := []
  out       := []
  host      := []

end Sys2Proof.Machine
end

