-- ==== Sys2Proof/Machine/Flags.lean ====
section
/-! DEFINITION. STATUS as the host reads it (R12) and the one-bit conditions of R15. -/

namespace Sys2Proof.Machine

/-- STATUS.STATE as a field (R12). -/
def CallState.code : CallState → BitVec 2
  | .idle => 0 | .busy => 1 | .done => 2 | .fault => 3

/-- STATUS.ERR as a field (R210). -/
def Err.code : Err → BitVec 4
  | .ok => 0 | .truncated => 1 | .blockId => 2 | .capacity => 3 | .treeMismatch => 4 | .leafCount => 5
  | .io => 6 | .badPadding => 7 | .noTree => 8

/-- R12: the STATUS register: STATE in bits [1:0], ERR in bits [5:2]. Reading it has no side effect. -/
def State.statusWord (s : State) : BitVec 6 := s.err.code ++ s.st.code

/-- A call is in progress (R12). -/
def State.busy (s : State) : Bool := s.st == .busy

/-- R15: the reader stands at a byte boundary. -/
def State.readerAtBoundary (s : State) : Bool := s.br.rem == 0

/-- R15: the writer stands at a byte boundary. -/
def State.writerAtBoundary (s : State) : Bool := s.bw.acc.length == 0

/-- R196: the decode body has a tree to walk. -/
def State.hasTree (s : State) : Bool := s.treeValid && s.tree.isSome

end Sys2Proof.Machine
end

