-- ==== Sys2Proof/Machine/Bits.lean ====
section
/-! DEFINITION. Bit and byte sequences (`00_scope.md` section 5.1): `padlen`, MSB-first packing, little-endian
integers. Sequences are lists, the earliest element first. -/

namespace Sys2Proof

/-- `padlen(n) = (8 - n mod 8) mod 8`. -/
def padlen (n : Nat) : Nat := (8 - n % 8) % 8

/-- `zeros(n)`. -/
def zeros (n : Nat) : List Bool := List.replicate n false

/-- The eight bits of a byte, bit 7 first (R45). -/
def unpackByte (v : Byte) : List Bool :=
  [v.getLsbD 7, v.getLsbD 6, v.getLsbD 5, v.getLsbD 4, v.getLsbD 3, v.getLsbD 2, v.getLsbD 1, v.getLsbD 0]

/-- The byte whose bit 7 is the first of eight bits. -/
def packByte (b7 b6 b5 b4 b3 b2 b1 b0 : Bool) : Byte :=
  BitVec.ofNat 8 (128 * b7.toNat + 64 * b6.toNat + 32 * b5.toNat + 16 * b4.toNat
    + 8 * b3.toNat + 4 * b2.toNat + 2 * b1.toNat + b0.toNat)

/-- `unpack(B)`. -/
def unpack (bytes : List Byte) : List Bool := bytes.flatMap unpackByte

/-- `pack(q)`, defined when `|q|` is a multiple of 8; here a shorter rest packs to nothing. -/
def pack : List Bool → List Byte
  | b7 :: b6 :: b5 :: b4 :: b3 :: b2 :: b1 :: b0 :: rest => packByte b7 b6 b5 b4 b3 b2 b1 b0 :: pack rest
  | _ => []

/-- Byte k of a 64-bit integer: bits [8k+7:8k]. -/
def byteAt (n : Word) (k : Nat) : Byte := BitVec.ofNat 8 (n.toNat / 2 ^ (8 * k))

/-- `le64(n)`: byte i holds n[8i+7:8i] (R44). -/
def le64 (n : Word) : List Byte :=
  [byteAt n 0, byteAt n 1, byteAt n 2, byteAt n 3, byteAt n 4, byteAt n 5, byteAt n 6, byteAt n 7]

/-- The little-endian value of a byte sequence: the first byte is the lowest (R67). -/
def leNat : List Byte → Nat
  | []      => 0
  | b :: bs => b.toNat + 256 * leNat bs

/-- `unle64(B)`, R67. -/
def unle64 (bytes : List Byte) : Word := BitVec.ofNat 64 (leNat bytes)

end Sys2Proof
end

