-- ==== Sys2Proof/WellFormed.lean ====
section
/-! DEFINITION. Which operands are well formed: a BitSlice given as a value satisfies R90. Every other operand is
well formed by its type. -/

namespace Sys2Proof

/-- R90: `0 <= length <= 64`, and every bit of the word above the valid bits is zero. -/
def BitSlice.wf (s : BitSlice) : Bool :=
  decide (s.length ≤ 64) && decide (s.bits.toNat < 2 ^ s.length)

def SliceSrc.wf : SliceSrc → Bool
  | .reg _ => true
  | .cw _  => true
  | .imm t => t.wf

/-- An operation is well formed when its slice operand is. -/
def Instr.wf : Instr → Bool
  | .bsAppendSlice _ t => t.wf
  | .bwWriteSlice t    => t.wf
  | .encode | .decode | .blkShape | .blkLeaves | .blkData | .sLeaf | .sInternal | .pLeft | .pRight
  | .padcnt _ | .bsAppendBit _ _ | .bsPadToByte _ | .bsPopByte _ | .brReadBit | .brCountUnflushedBits
  | .brFlushBits | .bwWriteBit _ | .bwCountPaddingBits | .bwWritePaddingBits | .tCount | .tBuild
  | .tWriteShape | .tWriteLeaves | .tBuildTable | .tReadShape | .tAssignLeaves | .blkWrite _ | .blkRead _
  | .dWalkBit => true

end Sys2Proof
end

