-- ==== Sys2Proof/Machine/Slice.lean ====
section
/-! DEFINITION. The four BitSlice operations as functions on a slice (`40_bitslice.md` R92 to R96), and the bit
sequence a slice denotes (R16). -/

namespace Sys2Proof

/-- R16: `seq(s) = [bits[length-1], ..., bits[0]]`. -/
def BitSlice.seq (s : BitSlice) : List Bool :=
  (List.range s.length).map fun i => s.bits.getLsbD (s.length - 1 - i)

/-- R92: one bit appended; `none` is ERR_CAPACITY. -/
def BitSlice.appendBit (s : BitSlice) (b : Bool) : Option BitSlice :=
  if s.length < 64 then
    some { length := s.length + 1, bits := (s.bits <<< 1) ||| BitVec.ofNat 64 b.toNat }
  else none

/-- R93: a whole slice appended; `none` is ERR_CAPACITY. -/
def BitSlice.appendSlice (s t : BitSlice) : Option BitSlice :=
  if s.length + t.length ≤ 64 then
    some { length := s.length + t.length, bits := BitVec.ofNat 64 (s.bits.toNat * 2 ^ t.length) ||| t.bits }
  else none

/-- R94: `padlen(length)` zero bits appended at the least significant end. -/
def BitSlice.padToByte (s : BitSlice) : BitSlice :=
  { length := s.length + padlen s.length, bits := BitVec.ofNat 64 (s.bits.toNat * 2 ^ padlen s.length) }

/-- R95: the leading complete byte and what is left; `none` with fewer than 8 bits. -/
def BitSlice.popByte (s : BitSlice) : Option (Byte × BitSlice) :=
  if 8 ≤ s.length then
    some (BitVec.ofNat 8 (s.bits.toNat / 2 ^ (s.length - 8)),
      { length := s.length - 8, bits := BitVec.ofNat 64 (s.bits.toNat % 2 ^ (s.length - 8)) })
  else none

end Sys2Proof
end

