-- ==== Sys2Proof/Machine/Ops.lean ====
section
/-! DEFINITION. The operations that several meanings share: the end of a call and `raise` (R220, R221, R181), the
start of a call and reset (R11, R35, R240), waiting for the host (R43), the two streams (R41, R42), the payload buffer (R105, R168), the bit
reader and the bit writer (R101, R106, R107, R109). -/

namespace Sys2Proof.Machine

/-! ### The life of a call -/

/-- R28, R221: TREE, FREQ, CW, INBUF, PAY, the working list, the bit accumulators and the decode cursor are
discarded at the end of a call. STATUS, CMD.MODE, PHASE, TREE_VALID, SRC_EOS, BLK_ID, BLK_LEN and PADCNT stay.
(log 8) -/
def State.discard (s : State) : State :=
  { s with
    cur := [], remaining := 0, bw := BitWriter.fresh .pay, br := BitReader.fresh (.pay 0),
    cwacc := BitSlice.empty, freq := Vector.replicate 256 0, wl := [], cw := Vector.replicate 256 none,
    tree := none, inbuf := [], pay := [] }

/-- R220: taking an error. STATUS becomes FAULT with the code, and the call in progress is abandoned: its elements
are discarded. The operation in progress stops there: nothing waits any more. An operation run outside any call has no
call to abandon: only STATUS changes (log 9). There is no handler, no saved context and no return (R223). -/
def State.raise (e : Err) (s : State) : State :=
  let t := { s with st := .fault, err := e, held := none }
  if s.busy then t.discard else t

/-- R181, R206: the normal end of a call. -/
def State.endCall (s : State) : State := { s.discard with st := .done, err := .ok }

/-- Every element of the block takes its "after reset" value; what belongs to the host stays (R240: "bytes it
already gave to the sink stay there"). (log 29) -/
def State.resetBlock (s : State) : State :=
  { State.reset with
    params := s.params, src := s.src, snk := s.snk, out := s.out, host := s.host, freeCtr := s.freeCtr }

/-- R11, R35: the start of a call: BUSY, code 0, the mode written, every element at its "start of call" value.
Where R35 calls that value unspecified the model takes the value after reset, so that nothing but the host's
streams reaches a call from before it (R28, R241; log 7). RES, the model's own, becomes 0 too (log 34). -/
def State.startCall (mode : BitVec 1) (ph : Phase) (s : State) : State :=
  { s.resetBlock with cmdMode := mode, st := .busy, phase := ph }

/-- R13: the sequencer moves to phase `ph`. -/
def State.enter (ph : Phase) (s : State) : State := { s with phase := ph, pos := 0, idx := 0 }

/-! ### Waiting for the host

An operation that meets a stream without an answer waits (R43). Everything it has done so far is done: the bytes it has
read are consumed (R41), the bytes it has written are in the sink (R42, R48), the elements hold what it gave them (R51),
and a reset finds them so (R240). When an answer may be there the operation is taken up again: it is run from its start
on the answers it has taken, and none of the accesses already made is made a second time. (log 2) -/

/-- `s` is the state at the start of an operation, `t` the state in which it waits. -/
def State.suspend (s t : State) : State :=
  { t with
    held := some
      { cur := s.cur, remaining := s.remaining, bw := s.bw, br := s.br, pay := s.pay, blkId := s.blkId,
        blkLen := s.blkLen, padcnt := s.padcnt
        src := s.src.take (s.src.length - t.src.length)
        snk := s.snk.length - t.snk.length
        job := none } }

/-- The state from which the operation that waits is run again: its start, with the answers it has taken in front of
those that are there now. Where nothing waits, the state itself. -/
def State.takeUp (s : State) : State :=
  match s.held with
  | none   => s
  | some h =>
    { s with
      held := none, cur := h.cur, remaining := h.remaining, bw := h.bw, br := h.br, pay := h.pay, blkId := h.blkId,
      blkLen := h.blkLen, padcnt := h.padcnt, src := h.src ++ s.src, snk := List.replicate h.snk .ok ++ s.snk }

/-- `t` is a state that the operation waiting in `s` has reached when run again: of its writes, the first ones are in
the sink already, and only those after them are new. -/
def State.rejoin (s t : State) : State :=
  match s.held with
  | none   => t
  | some h => { t with out := s.out ++ t.out.drop (s.out.length + h.snk) }

/-- What an operation's end is for the machine, `s` being the state at its start. -/
def settle {α : Type} (s : State) : Res α → Outcome
  | .ok _ t    => .next t
  | .raise e t => .next (t.raise e)
  | .wait t    => .next (s.suspend t)
  | .fault f   => .fault f
  | .refuse r  => .refused r

/-- A function of the next state. -/
def mapNext (f : State → State) : Outcome → Outcome
  | .next t    => .next (f t)
  | .fault r   => .fault r
  | .refused r => .refused r

/-! ### The streams -/

/-- R41: `SrcRead()`. EOS consumes nothing and is sticky for the rest of the call. No answer yet: wait. R41 speaks of one
call; that SRC_EOS holds on outside a call, until the next call or reset, is the model's choice (DESIGN CHOICE, log 35). -/
def srcRead : Act SrcAns := fun s =>
  if s.srcEos then .ok .eos s
  else
    match s.src with
    | []             => .wait s
    | .byte v :: r   => .ok (.byte v) { s with src := r }
    | .eos :: _      => .ok .eos { s with srcEos := true }
    | .ioFail :: r   => .ok .ioFail { s with src := r }

/-- `next()` of R163: a required byte of the source. -/
def nextByte : Act Byte := fun s =>
  (srcRead s).bind fun a t =>
    match a with
    | .byte v => .ok v t
    | .eos    => .raise .truncated t
    | .ioFail => .raise .io t

/-- R42, `emit` of R160 and R200: `SnkWrite(v)`, ERR_IO when it fails. Whether the byte of a failed write was
appended is unspecified: a free value (log 11). No answer yet: wait. -/
def emit (v : Byte) : Act Unit := fun s =>
  match s.snk with
  | []           => .wait s
  | .ok :: r     => .ok () { s with snk := r, out := s.out ++ [v] }
  | .ioFail :: r =>
    .raise .io
      { s with
        snk := r
        out := if Config.failedWriteLands s.freeCtr then s.out ++ [v] else s.out
        freeCtr := s.freeCtr + 1 }

/-- `emit` of each byte in order. -/
def emitAll : List Byte → Act Unit
  | [],      s => .ok () s
  | v :: vs, s => (emit v s).bind fun _ t => emitAll vs t

/-! ### The payload buffer -/

/-- R168: room for one more under a capacity. -/
def roomFor (cap : Option Nat) (n : Nat) : Bool :=
  match cap with
  | none   => true
  | some c => decide (n < c)

/-- Append a byte to PAY; the byte that would exceed PAYLOAD_CAP is ERR_IO (R105, R168). -/
def payAppend (v : Byte) : Act Unit := fun s =>
  if roomFor s.params.payloadCap s.pay.length then .ok () { s with pay := s.pay ++ [v] }
  else .raise .io s

/-- Append each byte in order. -/
def payAppendAll : List Byte → Act Unit
  | [],      s => .ok () s
  | v :: vs, s => (payAppend v s).bind fun _ t => payAppendAll vs t

/-- `PAY <- empty`. -/
def State.clearPay (s : State) : State := { s with pay := [] }

/-! ### The bit writer -/

/-- R105: a new BitWriter bound to `d`. -/
def State.newWriter (d : Dest) (s : State) : State := { s with bw := BitWriter.fresh d }

/-- R105: `DestWrite(v)`. -/
def destWrite (v : Byte) : Act Unit := fun s =>
  match s.bw.dest with
  | .snk => emit v s
  | .pay => payAppend v s

def State.setAcc (t : BitSlice) (s : State) : State := { s with bw := { s.bw with acc := t } }

/-- The loop `while BW.ACC.length >= 8` of R106, R107, R109, n times: pop a byte, give it to the destination. -/
def flushBytes : Nat → Act Unit
  | 0,     s => .ok () s
  | n + 1, s =>
    match s.bw.acc.popByte with
    | none        => .ok () s
    | some (v, t) => (destWrite v (s.setAcc t)).bind fun _ u => flushBytes n u

/-- The whole loop: it runs once per complete byte held (R96). -/
def flushWriter : Act Unit := fun s => flushBytes (s.bw.acc.length / 8) s

/-- R106. -/
def writeBit (b : Bool) : Act Unit := fun s =>
  match s.bw.acc.appendBit b with
  | none   => .raise .capacity s
  | some t => flushWriter (s.setAcc t)

/-- R107: the whole slice is appended before anything is flushed (D33). -/
def writeSlice (t : BitSlice) : Act Unit := fun s =>
  match s.bw.acc.appendSlice t with
  | none   => .raise .capacity s
  | some u => flushWriter (s.setAcc u)

/-- R109. -/
def writePaddingBits : Act Unit := fun s => flushWriter (s.setAcc s.bw.acc.padToByte)

/-! ### The bit reader -/

/-- R100: a new BitReader bound to `o`. -/
def State.newReader (o : Origin) (s : State) : State := { s with br := BitReader.fresh o }

/-- R188: the reader is discarded. What BR holds then is the model's: a reader with no bit, bound to PAY, as after reset.
(log 33) -/
def State.dropReader (s : State) : State := s.newReader (.pay 0)

/-- R100: `OriginRead()`. A payload origin answers PAY[pos] and advances, or EOS at PAYLEN. -/
def originRead : Act SrcAns := fun s =>
  match s.br.origin with
  | .src   => srcRead s
  | .pay p =>
    match s.pay[p]? with
    | some v => .ok (.byte v) { s with br := { s.br with origin := .pay (p + 1) } }
    | none   => .ok .eos s

/-- R101: the next bit, MSB first. The refill is lazy: it happens inside the read that needs the byte (D9). -/
def readBit : Act Bool := fun s =>
  if s.br.rem = 0 then
    (originRead s).bind fun a t =>
      match a with
      | .byte v => .ok (v.getLsbD 7) { t with br := { t.br with buf := v, rem := 7 } }
      | .eos    => .raise .truncated t
      | .ioFail => .raise .io t
  else .ok (s.br.buf.getLsbD (s.br.rem - 1)) { s with br := { s.br with rem := s.br.rem - 1 } }

/-- A bound on the bits the reader can still return: those buffered and those of its origin. -/
def State.bitsAhead (s : State) : Nat :=
  s.br.rem + 8 * (match s.br.origin with
    | .src   => s.src.length
    | .pay p => s.pay.length - p)

/-! ### The tree -/

/-- The tree an operation works on. No tree: ERR_NO_TREE, the typed form of a missing precondition (R196, R218,
D32; log 10). -/
def needTree : Act Tree := fun s =>
  match s.tree with
  | some t => .ok t s
  | none   => .raise .noTree s

/-- The symbol of a leaf; an unset one is a fault of the model (R24, R35). -/
def needSymbol (sym : Option Byte) : Act Byte := fun s =>
  match sym with
  | some v => .ok v s
  | none   => .fault .unsetSymbol

end Sys2Proof.Machine
end

