-- ==== Sys2Proof/Machine/Operands.lean ====
section
/-! DEFINITION. The operand forms of the unit operations (`30_encoding.md` section 3): which BitSlice an operation
reads or writes, and where a result goes. -/

namespace Sys2Proof.Machine

/-- A BitSlice that is read and written: BW.ACC (R17) or CWACC (R19). -/
def State.slice (r : SliceReg) (s : State) : BitSlice :=
  match r with
  | .acc   => s.bw.acc
  | .cwacc => s.cwacc

def State.setSlice (r : SliceReg) (t : BitSlice) (s : State) : State :=
  match r with
  | .acc   => s.setAcc t
  | .cwacc => { s with cwacc := t }

/-- `CW[s]` (R22). -/
def State.cwAt (s : State) (c : Byte) : Option BitSlice := s.cw[c.toNat]

/-- `FREQ[s]` (R20). -/
def State.freqAt (s : State) (c : Byte) : Weight := s.freq[c.toNat]

/-- A BitSlice that is only read. An entry of CW that is `none` holds no slice (R178: never so in a call). -/
def sliceOperand : SliceSrc → Act BitSlice
  | .reg r, s => .ok (s.slice r) s
  | .imm t, s => .ok t s
  | .cw c,  s =>
    match s.cwAt c with
    | some t => .ok t s
    | none   => .refuse .noCodeword

/-- The result of a unit operation, zero-extended to a byte. (log 17) -/
def State.setRes (v : Byte) (s : State) : State := { s with res := v }

end Sys2Proof.Machine
end

