-- ==== Sys2Proof/Machine/BitIO.lean ====
section
/-! DEFINITION. The meanings of the BitReader and BitWriter operations (`41_bitio.md` R101 to R103, R106 to R109). -/

namespace Sys2Proof.Machine

/-- `BR.readBit() -> b`, R101. -/
def execBrReadBit (s : State) : Outcome :=
  settle s <| (readBit s).bind fun b t => Res.ok () (t.setRes (BitVec.ofNat 8 b.toNat))

/-- `BR.countUnflushedBits() -> n`, R102. -/
def execBrCountUnflushedBits (s : State) : Outcome :=
  settle s <| Res.ok () (s.setRes (BitVec.ofNat 8 s.br.rem))

/-- `BR.flushBits()`, R103: the unread bits of the current byte are dropped; nothing is read. -/
def execBrFlushBits (s : State) : Outcome :=
  settle s <| Res.ok () { s with br := { s.br with rem := 0 } }

/-- `BW.writeBit(b)`, R106. -/
def execBwWriteBit (b : Bool) (s : State) : Outcome := settle s (writeBit b s)

/-- `BW.writeSlice(t)`, R107. -/
def execBwWriteSlice (src : SliceSrc) (s : State) : Outcome :=
  settle s <| (sliceOperand src s).bind fun t s => writeSlice t s

/-- `BW.countPaddingBits() -> k`, R108. -/
def execBwCountPaddingBits (s : State) : Outcome :=
  settle s <| Res.ok () (s.setRes (BitVec.ofNat 8 (padlen s.bw.acc.length)))

/-- `BW.writePaddingBits()`, R109. -/
def execBwWritePaddingBits (s : State) : Outcome := settle s (writePaddingBits s)

end Sys2Proof.Machine
end

