-- ==== Sys2Proof/Machine/BitSlice.lean ====
section
/-! DEFINITION. The meanings of the BitSlice operations (`40_bitslice.md` R92 to R95). -/

namespace Sys2Proof.Machine

/-- `BS.appendBit(s, b)`, R92. -/
def execBsAppendBit (r : SliceReg) (b : Bool) (s : State) : Outcome :=
  settle s <|
    match (s.slice r).appendBit b with
    | none   => Res.raise .capacity s
    | some t => Res.ok () (s.setSlice r t)

/-- `BS.appendSlice(s, t)`, R93. -/
def execBsAppendSlice (r : SliceReg) (src : SliceSrc) (s : State) : Outcome :=
  settle s <|
    (sliceOperand src s).bind fun t s =>
      match (s.slice r).appendSlice t with
      | none   => Res.raise .capacity s
      | some u => Res.ok () (s.setSlice r u)

/-- `BS.padToByte(s)`, R94: the result is k, the number of bits added. -/
def execBsPadToByte (r : SliceReg) (s : State) : Outcome :=
  settle s <|
    Res.ok () ((s.setSlice r (s.slice r).padToByte).setRes (BitVec.ofNat 8 (padlen (s.slice r).length)))

/-- `BS.popByte(s) -> v`, R95: with fewer than 8 bits held the operation has no meaning. -/
def execBsPopByte (r : SliceReg) (s : State) : Outcome :=
  settle s <|
    match (s.slice r).popByte with
    | none        => Res.refuse .popUnderflow
    | some (v, t) => Res.ok () ((s.setSlice r t).setRes v)

end Sys2Proof.Machine
end

