-- ==== Sys2Proof/Machine/Command.lean ====
section
/-! DEFINITION. The two host commands: a write to CMD (`10_state.md` R11, `45_encode.md` R170, `46_decode.md` R185). -/

namespace Sys2Proof.Machine

/-- R11: a write to CMD is accepted unless a call is in progress; a write while BUSY is refused: it changes no state
and starts nothing (D26). An accepted write starts the call; the sequencer then runs its phases. (log 21) -/
def writeCmd (mode : BitVec 1) (first : Phase) : Act Unit := fun s =>
  if s.busy then .ok () s else .ok () (s.startCall mode first)

/-- ENCODE, R170: CMD.MODE = 0. -/
def execEncode (s : State) : Outcome := settle s (writeCmd 0 .eRead s)

/-- DECODE, R185: CMD.MODE = 1. -/
def execDecode (s : State) : Outcome := settle s (writeCmd 1 .dBlk0 s)

end Sys2Proof.Machine
end

