-- ==== Sys2Proof/Decode.lean ====
section
/-! DEFINITION. From bytes to operations and back.

The spec gives each row a PATTERN (a value of CMD.MODE, a block id, a shape bit, a path bit, the padding-count
byte, a UOP index: `30_encoding.md` R75, R76, R78), and the place where a pattern stands says which of the six
formats it belongs to. It gives no unit operation a port and no operand a code. So that one operation can be
written down as bytes, the model lays it out as a FRAME: the pattern byte, a format byte, the operand bytes.
The pattern is the spec's; the format byte and the operand bytes are the model's (DESIGN CHOICE, log 5). -/

namespace Sys2Proof

/-- The six formats of R78. `bare` is a pattern whose place is not told: see `decodeBare`. -/
inductive Format where
  | bare | cmd | blk | shapebit | pathbit | padcnt | uop
  deriving DecidableEq, Repr

/-- Why bytes are no operation. -/
inductive DecodeError where
  | truncated        -- the frame ends inside an operation
  | unknownFormat    -- the format byte names no format
  | unknownPattern   -- no row of the format has this pattern (R76: "names nothing"; R73 for ids and padding counts)
  | badBit           -- a bit operand other than 0 and 1
  | badSliceReg      -- no accumulator has this number
  | badSliceKind     -- no form of slice operand has this number
  | badSlice         -- a slice value that breaks R90
  | badBlockId       -- a block id operand other than 0, 1, 2
  deriving DecidableEq, Repr

/-- The pattern byte of each operation: the `match` column of the table (R62, R63, R70, R75, R76). -/
def Instr.pattern : Instr → Byte
  | .encode => 0x00
  | .decode => 0x01
  | .blkShape => 0x00
  | .blkLeaves => 0x01
  | .blkData => 0x02
  | .sLeaf => 0x00
  | .sInternal => 0x01
  | .pLeft => 0x00
  | .pRight => 0x01
  | .padcnt p => p.setWidth 8
  | .bsAppendBit _ _ => 0x00
  | .bsAppendSlice _ _ => 0x01
  | .bsPadToByte _ => 0x02
  | .bsPopByte _ => 0x03
  | .brReadBit => 0x08
  | .brCountUnflushedBits => 0x09
  | .brFlushBits => 0x0A
  | .bwWriteBit _ => 0x10
  | .bwWriteSlice _ => 0x11
  | .bwCountPaddingBits => 0x12
  | .bwWritePaddingBits => 0x13
  | .tCount => 0x18
  | .tBuild => 0x19
  | .tWriteShape => 0x20
  | .tWriteLeaves => 0x21
  | .tBuildTable => 0x22
  | .tReadShape => 0x23
  | .tAssignLeaves => 0x24
  | .blkWrite _ => 0x28
  | .blkRead _ => 0x29
  | .dWalkBit => 0x30

/-- The format of each operation's row. -/
def Instr.format : Instr → Format
  | .encode | .decode => .cmd
  | .blkShape | .blkLeaves | .blkData => .blk
  | .sLeaf | .sInternal => .shapebit
  | .pLeft | .pRight => .pathbit
  | .padcnt _ => .padcnt
  | .bsAppendBit _ _ | .bsAppendSlice _ _ | .bsPadToByte _ | .bsPopByte _ | .brReadBit
  | .brCountUnflushedBits | .brFlushBits | .bwWriteBit _ | .bwWriteSlice _ | .bwCountPaddingBits
  | .bwWritePaddingBits | .tCount | .tBuild | .tWriteShape | .tWriteLeaves | .tBuildTable | .tReadShape
  | .tAssignLeaves | .blkWrite _ | .blkRead _ | .dWalkBit => .uop

/-- The format byte of the frame (log 5). -/
def Format.code : Format → Byte
  | .bare => 0 | .cmd => 1 | .blk => 2 | .shapebit => 3 | .pathbit => 4 | .padcnt => 5 | .uop => 6

def Format.ofCode (c : Byte) : Option Format :=
  match c.toNat with
  | 0 => some .bare
  | 1 => some .cmd
  | 2 => some .blk
  | 3 => some .shapebit
  | 4 => some .pathbit
  | 5 => some .padcnt
  | 6 => some .uop
  | _ => none

/-- R62: the id byte of a block. -/
def BlockId.code : BlockId → Byte
  | .shape => 0 | .leaves => 1 | .data => 2

/-- R62, R73: ids 3 to 255 name no block. -/
def BlockId.ofCode (c : Byte) : Option BlockId :=
  match c.toNat with
  | 0 => some .shape
  | 1 => some .leaves
  | 2 => some .data
  | _ => none

/-! ### Operand bytes -/

def SliceReg.code : SliceReg → Byte
  | .acc => 0 | .cwacc => 1

def takeBit : List Byte → Except DecodeError (Bool × List Byte)
  | [] => .error .truncated
  | b :: rest =>
    match b.toNat with
    | 0 => .ok (false, rest)
    | 1 => .ok (true, rest)
    | _ => .error .badBit

def takeReg : List Byte → Except DecodeError (SliceReg × List Byte)
  | [] => .error .truncated
  | b :: rest =>
    match b.toNat with
    | 0 => .ok (.acc, rest)
    | 1 => .ok (.cwacc, rest)
    | _ => .error .badSliceReg

def takeBlockId : List Byte → Except DecodeError (BlockId × List Byte)
  | [] => .error .truncated
  | b :: rest =>
    match BlockId.ofCode b with
    | some id => .ok (id, rest)
    | none    => .error .badBlockId

/-- A slice value: its length in one byte, then its word as `le64`. -/
def takeSlice : List Byte → Except DecodeError (BitSlice × List Byte)
  | len :: b0 :: b1 :: b2 :: b3 :: b4 :: b5 :: b6 :: b7 :: rest =>
    let t : BitSlice := { length := len.toNat, bits := unle64 [b0, b1, b2, b3, b4, b5, b6, b7] }
    if t.wf then .ok (t, rest) else .error .badSlice
  | _ => .error .truncated

/-- A slice operand: kind 0 a value, kind 1 an accumulator, kind 2 the table entry of a symbol. -/
def takeSliceSrc : List Byte → Except DecodeError (SliceSrc × List Byte)
  | [] => .error .truncated
  | k :: rest =>
    match k.toNat with
    | 0 => (takeSlice rest).map fun (t, r) => (.imm t, r)
    | 1 => (takeReg rest).map fun (s, r) => (.reg s, r)
    | 2 =>
      match rest with
      | [] => .error .truncated
      | c :: r => .ok (.cw c, r)
    | _ => .error .badSliceKind

/-! ### The formats -/

/-- CMD: the 1-bit MODE, 0 ENCODE, 1 DECODE (R75). -/
def decodeCmd (p : Byte) : Except DecodeError Instr :=
  match p.toNat with
  | 0 => .ok .encode
  | 1 => .ok .decode
  | _ => .error .unknownPattern

/-- BLK: the id byte (R62). -/
def decodeBlk (p : Byte) : Except DecodeError Instr :=
  match BlockId.ofCode p with
  | some .shape  => .ok .blkShape
  | some .leaves => .ok .blkLeaves
  | some .data   => .ok .blkData
  | none         => .error .unknownPattern

/-- SHAPEBIT: 0 a leaf, 1 an internal node (R63). -/
def decodeShapeBit (p : Byte) : Except DecodeError Instr :=
  match p.toNat with
  | 0 => .ok .sLeaf
  | 1 => .ok .sInternal
  | _ => .error .unknownPattern

/-- PATHBIT: 0 left, 1 right (R70, R71). -/
def decodePathBit (p : Byte) : Except DecodeError Instr :=
  match p.toNat with
  | 0 => .ok .pLeft
  | 1 => .ok .pRight
  | _ => .error .unknownPattern

/-- PADCNT: bits [7:3] zero, bits [2:0] the count (R197, D17). -/
def decodePadcnt (p : Byte) : Except DecodeError Instr :=
  if p &&& 0xF8 = 0 then .ok (.padcnt (p.setWidth 3)) else .error .unknownPattern

/-- UOP: the index of R76, then the operands. -/
def decodeUop (p : Byte) (ops : List Byte) : Except DecodeError (Instr × List Byte) :=
  match p.toNat with
  | 0x00 =>
    match takeReg ops with
    | .error e => .error e
    | .ok (s, r) => (takeBit r).map fun (b, r') => (.bsAppendBit s b, r')
  | 0x01 =>
    match takeReg ops with
    | .error e => .error e
    | .ok (s, r) => (takeSliceSrc r).map fun (t, r') => (.bsAppendSlice s t, r')
  | 0x02 => (takeReg ops).map fun (s, r) => (.bsPadToByte s, r)
  | 0x03 => (takeReg ops).map fun (s, r) => (.bsPopByte s, r)
  | 0x08 => .ok (.brReadBit, ops)
  | 0x09 => .ok (.brCountUnflushedBits, ops)
  | 0x0A => .ok (.brFlushBits, ops)
  | 0x10 => (takeBit ops).map fun (b, r) => (.bwWriteBit b, r)
  | 0x11 => (takeSliceSrc ops).map fun (t, r) => (.bwWriteSlice t, r)
  | 0x12 => .ok (.bwCountPaddingBits, ops)
  | 0x13 => .ok (.bwWritePaddingBits, ops)
  | 0x18 => .ok (.tCount, ops)
  | 0x19 => .ok (.tBuild, ops)
  | 0x20 => .ok (.tWriteShape, ops)
  | 0x21 => .ok (.tWriteLeaves, ops)
  | 0x22 => .ok (.tBuildTable, ops)
  | 0x23 => .ok (.tReadShape, ops)
  | 0x24 => .ok (.tAssignLeaves, ops)
  | 0x28 => (takeBlockId ops).map fun (id, r) => (.blkWrite id, r)
  | 0x29 => (takeBlockId ops).map fun (id, r) => (.blkRead id, r)
  | 0x30 => .ok (.dWalkBit, ops)
  | _    => .error .unknownPattern

/-- A pattern whose place is not told (the table's own numbering of a row, with nothing around it). The six
formats share the patterns 0x00 to 0x07, so no reader of a bare pattern can serve every row: this one takes the
host's two commands first, then the unit operations, then the padding count. (DESIGN CHOICE, log 5) -/
def decodeBare (p : Byte) (ops : List Byte) : Except DecodeError (Instr × List Byte) :=
  match decodeCmd p with
  | .ok i => .ok (i, ops)
  | .error _ =>
    match decodeUop p ops with
    | .ok r => .ok r
    | .error .unknownPattern => (decodePadcnt p).map fun i => (i, ops)
    | .error e => .error e

/-- The decoder: total, refuses by name, and answers the operation with the bytes after it. -/
def decode : List Byte → Except DecodeError (Instr × List Byte)
  | p :: f :: ops =>
    match Format.ofCode f with
    | none           => .error .unknownFormat
    | some .bare     => decodeBare p ops
    | some .cmd      => (decodeCmd p).map fun i => (i, ops)
    | some .blk      => (decodeBlk p).map fun i => (i, ops)
    | some .shapebit => (decodeShapeBit p).map fun i => (i, ops)
    | some .pathbit  => (decodePathBit p).map fun i => (i, ops)
    | some .padcnt   => (decodePadcnt p).map fun i => (i, ops)
    | some .uop      => decodeUop p ops
  | _ => .error .truncated

/-! ### The encoder -/

def encodeBit (b : Bool) : List Byte := [if b then 1 else 0]

def encodeSliceSrc : SliceSrc → List Byte
  | .imm t => 0 :: BitVec.ofNat 8 t.length :: le64 t.bits
  | .reg r => [1, r.code]
  | .cw c  => [2, c]

def Instr.operandBytes : Instr → List Byte
  | .bsAppendBit s b   => s.code :: encodeBit b
  | .bsAppendSlice s t => s.code :: encodeSliceSrc t
  | .bsPadToByte s     => [s.code]
  | .bsPopByte s       => [s.code]
  | .bwWriteBit b      => encodeBit b
  | .bwWriteSlice t    => encodeSliceSrc t
  | .blkWrite id       => [id.code]
  | .blkRead id        => [id.code]
  | .encode | .decode | .blkShape | .blkLeaves | .blkData | .sLeaf | .sInternal | .pLeft | .pRight
  | .padcnt _ | .brReadBit | .brCountUnflushedBits | .brFlushBits | .bwCountPaddingBits
  | .bwWritePaddingBits | .tCount | .tBuild | .tWriteShape | .tWriteLeaves | .tBuildTable | .tReadShape
  | .tAssignLeaves | .dWalkBit => []

/-- The frame of an operation: pattern, format, operands. -/
def encode (i : Instr) : List Byte := i.pattern :: i.format.code :: i.operandBytes

/-! ### A row's word as the table numbers it -/

/-- The longest frame (`BS.appendSlice` with a slice value). -/
def frameBytes : Nat := 13

/-- The bytes of a frame whose bits are `w`, bit 0 the least significant bit of the first byte; every bit at
`nbits` and above is 0. -/
def tableFrame (nbits w : Nat) : List Byte :=
  (List.range frameBytes).map fun k => BitVec.ofNat 8 ((w % 2 ^ nbits) / 2 ^ (8 * k))

/-- The operation the decoder reads from a row's word. -/
def decodeTableWord (nbits w : Nat) : Option Instr :=
  match decode (tableFrame nbits w) with
  | .ok (i, _) => some i
  | .error _   => none

end Sys2Proof
end

