-- ==== Sys2Proof/Machine/Framer.lean ====
section
/-! DEFINITION. The block framer (`44_block_framer.md` R160, R163). -/

namespace Sys2Proof.Machine

/-- The length field of a payload of n bytes (R60, R161); from 2^64 on the spec states no value (log 32). -/
def lengthWord (n : Nat) : Word := if n < 2 ^ 64 then BitVec.ofNat 64 n else Config.longLength n

/-- `BLK.write(id)`, R160: the id, the payload length as `le64`, the payload. -/
def blockWrite (id : BlockId) : Act Unit := fun s =>
  emitAll (id.code :: le64 (lengthWord s.pay.length) ++ s.pay) s

def execBlkWrite (id : BlockId) (s : State) : Outcome := settle s (blockWrite id s)

/-- R163: `BLK_LEN[8k+7:8k] <- next()`. -/
def readLenByte (k : Nat) : Act Unit := fun s =>
  (nextByte s).bind fun v s => .ok () { s with blkLen := s.blkLen ||| BitVec.ofNat 64 (v.toNat * 2 ^ (8 * k)) }

/-- The bytes of BLK_LEN from byte k on, n of them. -/
def readLen : Nat → Nat → Act Unit
  | 0,     _, s => .ok () s
  | n + 1, k, s => (readLenByte k s).bind fun _ s => readLen n (k + 1) s

/-- R163: n payload bytes. -/
def readPayload : Nat → Act Unit
  | 0,     s => .ok () s
  | n + 1, s => (nextByte s).bind fun v s => (payAppend v s).bind fun _ s => readPayload n s

/-- `BLK.read(expected)`, R163: the id is compared before the length is read (R165). -/
def blockRead (expected : BlockId) : Act Unit := fun s =>
  (nextByte s).bind fun v s =>
    let s := { s with blkId := v }
    if v = expected.code then
      (readLen 8 0 { s with blkLen := 0 }).bind fun _ s => readPayload s.blkLen.toNat s.clearPay
    else .raise .blockId s

def execBlkRead (expected : BlockId) (s : State) : Outcome := settle s (blockRead expected s)

end Sys2Proof.Machine
end

