-- ==== Sys2Proof/Machine/TreeBuild.lean ====
section
/-! DEFINITION. The frequency count and the tree builder (`42_tree_build.md`). -/

namespace Sys2Proof

/-- The weight of a node (R24). -/
def Tree.weight : Tree → Weight
  | .leaf w _   => w
  | .node w _ _ => w

/-- The number of nodes of a tree. -/
def Tree.size : Tree → Nat
  | .leaf _ _   => 1
  | .node _ l r => 1 + l.size + r.size

/-- R120: `FREQ[s] <- FREQ[s] + 1`. -/
def bumpFreq (f : Vector Weight 256) (c : Byte) : Vector Weight 256 :=
  f.set c.toNat (f[c.toNat] + 1)

/-- R120: the histogram of a byte sequence. -/
def countBytes (bytes : List Byte) : Vector Weight 256 :=
  bytes.foldl bumpFreq (Vector.replicate 256 0)

/-- R121: one singleton leaf per observed symbol, in the order of the symbols. -/
def initialWL (f : Vector Weight 256) : List Tree :=
  f.toList.zipIdx.filterMap fun (w, i) => if w = 0 then none else some (.leaf w (some (BitVec.ofNat 8 i)))

/-- R123: positions (left, right) of two different entries such that no other entry weighs less than either. -/
def mergeAllowed (wl : List Tree) (p : Nat × Nat) : Bool :=
  match wl[p.1]?, wl[p.2]? with
  | some l, some r =>
    p.1 != p.2 &&
      wl.zipIdx.all fun (z, k) =>
        k == p.1 || k == p.2 || (decide (l.weight ≤ z.weight) && decide (r.weight ≤ z.weight))
  | _, _ => false

/-- The last position of the least weight, leaving out the positions in `skip`. -/
def lastLightest (wl : List Tree) (skip : List Nat) : Nat :=
  ((wl.zipIdx.filter fun (_, k) => !skip.contains k).foldl
    (fun best (z, k) =>
      match best with
      | none        => some (z.weight, k)
      | some (w, j) => if z.weight ≤ w then some (z.weight, k) else some (w, j))
    none).elim 0 Prod.snd

/-- R126: the reference rule. The working list is kept in ascending `ord` (a new node goes to its front), so the
last of the lightest is y, the right child, and the last of the lightest of the others is x, the left child. -/
def referencePair (wl : List Tree) : Nat × Nat :=
  let y := lastLightest wl []
  (lastLightest wl [y], y)

/-- TIE_RULE (R124): the rule's own row where it has one that R123 allows, else the reference rule. -/
def tiePair (p : Params) (wl : List Tree) : Nat × Nat :=
  match p.tie.lookup wl with
  | some q => if mergeAllowed wl q then q else referencePair wl
  | none   => referencePair wl

/-- R123: the merge step at a pair of positions. -/
def mergeAt (wl : List Tree) (p : Nat × Nat) : List Tree :=
  match wl[p.1]?, wl[p.2]? with
  | some l, some r =>
    .node (l.weight + r.weight) l r ::
      (wl.zipIdx.filterMap fun (z, k) => if k == p.1 || k == p.2 then none else some z)
  | _, _ => wl

/-- R122: the merges, at most n of them, until one tree is left. -/
def mergeAll (p : Params) : Nat → List Tree → List Tree
  | 0,     wl => wl
  | n + 1, wl => if wl.length ≤ 1 then wl else mergeAll p n (mergeAt wl (tiePair p wl))

/-- The working list when the builder ends. Every merge shortens it by one (R123). -/
def finalWL (p : Params) (f : Vector Weight 256) : List Tree :=
  mergeAll p (initialWL f).length (initialWL f)

/-- R122: the tree of a histogram. -/
def buildTree (p : Params) (f : Vector Weight 256) : Tree :=
  match initialWL f with
  | []  => .leaf 0 (some p.synSym)
  | [t] => .node t.weight t (.leaf 0 (some p.synSym))
  | _   => (finalWL p f).headD (.leaf 0 (some p.synSym))

namespace Machine

/-- `T.count()`, R120. -/
def execTCount (s : State) : Outcome := settle s <| Res.ok () { s with freq := countBytes s.inbuf }

/-- `T.build()`, R122. The nodes of the tree must fit the tree store (R168; log 14). WL is scratch: what it holds afterwards,
the last working list, or its old value after ERR_IO outside a call, is the model's choice (DESIGN CHOICE, log 22). -/
def execTBuild (s : State) : Outcome :=
  let t := buildTree s.params s.freq
  settle s <|
    if roomFor s.params.nodeCap (t.size - 1) then
      Res.ok () { s with wl := finalWL s.params s.freq, tree := some t, treeValid := true }
    else Res.raise .io s

end Machine
end Sys2Proof
end

