-- ==== Sys2Proof/Machine/TreeSerial.lean ====
section
/-! DEFINITION. Tree serialization, the codeword table and tree reconstruction (`43_tree_serial.md`). -/

namespace Sys2Proof

/-- The symbols of the leaves in preorder, left first (R65). -/
def Tree.symbols : Tree → List (Option Byte)
  | .leaf _ s   => [s]
  | .node _ l r => l.symbols ++ r.symbols

/-- `nleaves(t)`. -/
def Tree.nleaves : Tree → Nat
  | .leaf _ _   => 1
  | .node _ l r => l.nleaves + r.nleaves

/-- R151: the bytes given to the leaves in preorder; the tree with its symbols and the bytes left over, or `none`
where the bytes run out. -/
def Tree.assign : Tree → List Byte → Option (Tree × List Byte)
  | .leaf _ _,   []      => none
  | .leaf w _,   b :: bs => some (.leaf w (some b), bs)
  | .node w l r, bs =>
    match l.assign bs with
    | none => none
    | some (l', bs') =>
      match r.assign bs' with
      | none            => none
      | some (r', bs'') => some (.node w l' r', bs'')

namespace Machine

/-- R140: the shape word of a tree to the bit writer. -/
def writeShape : Tree → Act Unit
  | .leaf _ _,   s => writeBit false s
  | .node _ l r, s =>
    (writeBit true s).bind fun _ s => (writeShape l s).bind fun _ s => writeShape r s

/-- `T.writeShape(t, BW)`, R140, t the tree of the call. -/
def execTWriteShape (s : State) : Outcome :=
  settle s <| (needTree s).bind fun t s => writeShape t s

/-- R143: the symbols of the leaves to PAY, in preorder. -/
def writeLeaves : Tree → Act Unit
  | .leaf _ sym, s => (needSymbol sym s).bind fun v s => payAppend v s
  | .node _ l r, s => (writeLeaves l s).bind fun _ s => writeLeaves r s

/-- `T.writeLeaves(t)`, R143. -/
def execTWriteLeaves (s : State) : Outcome :=
  settle s <| (needTree s).bind fun t s => writeLeaves t s

/-- R146: `table(t, c)`. CWACC holds the codeword passed to the node being visited (R19). It is scratch: what it holds
afterwards, also after ERR_CAPACITY outside a call, is the model's choice: the codeword of the leaf visited last, or its
old value where no leaf was visited. (log 22) -/
def table : Tree → BitSlice → Act Unit
  | .leaf _ sym, c, s =>
    (needSymbol sym s).bind fun v s =>
      Res.ok () { s with cwacc := c, cw := s.cw.set v.toNat (some c) }
  | .node _ l r, c, s =>
    match c.appendBit false, c.appendBit true with
    | some c0, some c1 => (table l c0 s).bind fun _ s => table r c1 s
    | _, _             => .raise .capacity s

/-- `T.buildTable(t)`, R146. -/
def execTBuildTable (s : State) : Outcome :=
  settle s <|
    (needTree s).bind fun t s => table t BitSlice.empty { s with cw := Vector.replicate 256 none }

/-- R168: a further node of the tree being read, after n nodes. -/
def countNode (n : Nat) : Act Nat := fun s =>
  if roomFor s.params.nodeCap n then .ok (n + 1) s else .raise .io s

/-- R148: the subtree whose word the reader stands at, after n nodes, with the number of nodes now. Every level
reads at least one bit, so `fuel` above the bits ahead never runs out. -/
def readSubtree : Nat → Nat → Act (Tree × Nat)
  | 0,        _, s => .raise .truncated s
  | fuel + 1, n, s =>
    (readBit s).bind fun b s =>
      (countNode n s).bind fun n s =>
        if b then
          (readSubtree fuel n s).bind fun (l, n) s =>
            (readSubtree fuel n s).bind fun (r, n) s => .ok (.node 0 l r, n) s
        else .ok (.leaf 0 none, n) s

/-- R148: the reading result becomes TREE (R187). -/
def State.setTree (t : Tree) (s : State) : State := { s with tree := some t }

/-- R149: the subtree is a leaf without a symbol, weight 0 (D22). -/
def shapeLeaf : Act Tree := fun s => (countNode 0 s).bind fun _ s => .ok (.leaf 0 none) s

/-- R150: the subtree is an internal node; its left subtree is read first, then its right subtree. -/
def shapeInternal : Act Tree := fun s =>
  (countNode 0 s).bind fun n s =>
    (readSubtree (s.bitsAhead + 1) n s).bind fun (l, n) s =>
      (readSubtree (s.bitsAhead + 1) n s).bind fun (r, _) s => .ok (.node 0 l r) s

/-- R148: read one bit, then the rule of that bit. -/
def readShape : Act Tree := fun s =>
  (readBit s).bind fun b s => if b then shapeInternal s else shapeLeaf s

/-- S_LEAF, R149. (log 19) -/
def execSLeaf (s : State) : Outcome :=
  settle s <| (shapeLeaf s).bind fun t s => Res.ok () (s.setTree t)

/-- S_INTERNAL, R150. (log 19) -/
def execSInternal (s : State) : Outcome :=
  settle s <| (shapeInternal s).bind fun t s => Res.ok () (s.setTree t)

/-- `T.readShape(BR) -> t`, R148. -/
def execTReadShape (s : State) : Outcome :=
  settle s <| (readShape s).bind fun t s => Res.ok () (s.setTree t)

/-- R151: PAY's bytes to the leaves of TREE, exactly one each. (log 30) -/
def assignLeaves : Act Unit := fun s =>
  (needTree s).bind fun t s =>
    match t.assign s.pay with
    | some (u, []) => .ok () (s.setTree u)
    | _            => .raise .leafCount s

/-- `T.assignLeaves(t)`, R151. -/
def execTAssignLeaves (s : State) : Outcome := settle s (assignLeaves s)

end Machine
end Sys2Proof
end

