-- ==== Sys2Proof/Machine/Walk.lean ====
section
/-! DEFINITION. The processing of the three blocks and the tree walk (`46_decode.md` R187 to R204). -/

namespace Sys2Proof

/-- The node a path from the root leads to: `false` left (R201), `true` right (R202). -/
def Tree.nodeAt : Tree → List Bool → Option Tree
  | t,           []          => some t
  | .node _ l _, false :: bs => l.nodeAt bs
  | .node _ _ r, true :: bs  => r.nodeAt bs
  | .leaf _ _,   _ :: _      => none

namespace Machine

/-- R187, R188: the processing of a SHAPE block: a new reader over PAY, then `T.readShape`; the reader is discarded when
it returns. -/
def execBlkShape (s : State) : Outcome :=
  settle s <| (readShape (s.newReader (.pay 0))).bind fun t s => Res.ok () (s.setTree t).dropReader

/-- R190: the processing of a LEAVES block: `T.assignLeaves`, then TREE_VALID. -/
def execBlkLeaves (s : State) : Outcome :=
  settle s <| (assignLeaves s).bind fun _ s => Res.ok () { s with treeValid := true }

/-- R196: the decode body requires TREE_VALID = 1, and a tree (log 10). -/
def requireTree : Act Tree := fun s => if s.treeValid then needTree s else .raise .noTree s

/-- R199, R201, R202: the move of the walk for one path bit. At a leaf there is no child: ERR_TREE_MISMATCH. A leaf
reached gives its symbol to the sink (R200) and puts CUR back to the root. -/
def walkTo (b : Bool) : Act Unit := fun s =>
  (requireTree s).bind fun t s =>
    match t.nodeAt s.cur with
    | none               => .fault .danglingCursor
    | some (.leaf _ _)   => .raise .treeMismatch s
    | some (.node _ l r) =>
      match (if b then r else l) with
      | .leaf _ sym   => (needSymbol sym s).bind fun v s => (emit v s).bind fun _ s => .ok () { s with cur := [] }
      | .node _ _ _   => .ok () { s with cur := s.cur ++ [b] }

/-- P_LEFT, R201. (log 19) -/
def execPLeft (s : State) : Outcome := settle s (walkTo false s)

/-- P_RIGHT, R202. (log 19) -/
def execPRight (s : State) : Outcome := settle s (walkTo true s)

/-- R199: one step of the decode body. -/
def walkBit : Act Unit := fun s =>
  (requireTree s).bind fun _ s =>
    if s.remaining = 0 then .refuse .noBitsRemaining
    else
      (readBit s).bind fun b s =>
        (walkTo b s).bind fun _ s => .ok () { s with remaining := s.remaining - 1 }

/-- `D.walkBit()`, R199. -/
def execDWalkBit (s : State) : Outcome := settle s (walkBit s)

/-- R197, with `v` the first payload byte: PADCNT, the two checks, REMAINING. -/
def padHeader (v : Byte) : Act Unit := fun s =>
  if s.pay.length = 0 then .raise .truncated s
  else
    let s := { s with padcnt := v }
    if 7 < v.toNat ∨ 8 * (s.pay.length - 1) < v.toNat then .raise .badPadding s
    else .ok () { s with remaining := 8 * (s.pay.length - 1) - v.toNat }

/-- PADCNT, R197: the row is the first byte of the DATA payload itself, with its count p. (log 19) -/
def execPadcnt (p : BitVec 3) (s : State) : Outcome := settle s (padHeader (p.setWidth 8) s)

/-- R196 to R198: the tree is checked, the header byte read, the bit count computed, the reader made over
`PAY[1 ..]`, and CUR put at the root. -/
def bodyHeader : Act Unit := fun s =>
  (requireTree s).bind fun _ s =>
    (padHeader (s.pay.headD 0) s).bind fun _ s => .ok () { s.newReader (.pay 1) with cur := [] }

/-- R203: `while REMAINING > 0 do D.walkBit()`, n steps. -/
def walkSteps : Nat → Act Unit
  | 0,     s => .ok () s
  | n + 1, s => (walkBit s).bind fun _ s => walkSteps n s

/-- R195: the processing of a DATA block: rules R196 to R204 in order. -/
def execBlkData (s : State) : Outcome :=
  settle s <| (bodyHeader s).bind fun _ s => walkSteps s.remaining s

end Machine
end Sys2Proof
end

