-- ==== Sys2Proof/Machine/Dispatch.lean ====
section
/-! DEFINITION. One arm per operation. -/

namespace Sys2Proof.Machine

def exec (i : Instr) (s : State) : Host.Outcome State Fault Refusal :=
  match i with
  | .encode => Sys2Proof.Machine.execEncode s
  | .decode => Sys2Proof.Machine.execDecode s
  | .blkShape => Sys2Proof.Machine.execBlkShape s
  | .blkLeaves => Sys2Proof.Machine.execBlkLeaves s
  | .blkData => Sys2Proof.Machine.execBlkData s
  | .sLeaf => Sys2Proof.Machine.execSLeaf s
  | .sInternal => Sys2Proof.Machine.execSInternal s
  | .pLeft => Sys2Proof.Machine.execPLeft s
  | .pRight => Sys2Proof.Machine.execPRight s
  | .padcnt p => Sys2Proof.Machine.execPadcnt p s
  | .bsAppendBit r b => Sys2Proof.Machine.execBsAppendBit r b s
  | .bsAppendSlice r t => Sys2Proof.Machine.execBsAppendSlice r t s
  | .bsPadToByte r => Sys2Proof.Machine.execBsPadToByte r s
  | .bsPopByte r => Sys2Proof.Machine.execBsPopByte r s
  | .brReadBit => Sys2Proof.Machine.execBrReadBit s
  | .brCountUnflushedBits => Sys2Proof.Machine.execBrCountUnflushedBits s
  | .brFlushBits => Sys2Proof.Machine.execBrFlushBits s
  | .bwWriteBit b => Sys2Proof.Machine.execBwWriteBit b s
  | .bwWriteSlice t => Sys2Proof.Machine.execBwWriteSlice t s
  | .bwCountPaddingBits => Sys2Proof.Machine.execBwCountPaddingBits s
  | .bwWritePaddingBits => Sys2Proof.Machine.execBwWritePaddingBits s
  | .tCount => Sys2Proof.Machine.execTCount s
  | .tBuild => Sys2Proof.Machine.execTBuild s
  | .tWriteShape => Sys2Proof.Machine.execTWriteShape s
  | .tWriteLeaves => Sys2Proof.Machine.execTWriteLeaves s
  | .tBuildTable => Sys2Proof.Machine.execTBuildTable s
  | .tReadShape => Sys2Proof.Machine.execTReadShape s
  | .tAssignLeaves => Sys2Proof.Machine.execTAssignLeaves s
  | .blkWrite id => Sys2Proof.Machine.execBlkWrite id s
  | .blkRead e => Sys2Proof.Machine.execBlkRead e s
  | .dWalkBit => Sys2Proof.Machine.execDWalkBit s

end Sys2Proof.Machine
end

