-- ==== Sys2Proof/Machine/Sequencer.lean ====
section
/-! DEFINITION. The sequencer: the phases of R170 (ENCODE) and R185 (DECODE) as the operations they issue, one per
step, and the host's events. PHASE and the place inside the phase (`pos`, and the loop index `idx` of R178) stand
where a program counter would (R13; log 1, log 27).

A phase's line is run in three parts: what the phase does before the operation (`prepare`), the operation itself
(`exec`), and what it does after it (`advance`). -/

namespace Sys2Proof

/-- The two rows of the CMD format: the host's writes to CMD. -/
def Instr.isCommand (i : Instr) : Bool := i == .encode || i == .decode

namespace Machine

/-- MAX_INPUT (`00_scope.md` section 4, D6). -/
def maxInput : Nat := 2 ^ 64 - 1

/-- The operation the sequencer issues at its present place, if it issues one there. -/
def nextOp (s : State) : Option Instr :=
  match s.phase with
  | .eRead   => none
  | .eCount  => some .tCount
  | .eBuild  => some .tBuild
  | .eShape  => some (if s.pos = 0 then .tWriteShape else if s.pos = 1 then .bwWritePaddingBits else .blkWrite .shape)
  | .eLeaves => some (if s.pos = 0 then .tWriteLeaves else .blkWrite .leaves)
  | .eTable  => some .tBuildTable
  | .eData   =>
    if s.pos = 0 then none
    else if s.pos = 1 then
      match s.inbuf[s.idx]? with
      | some c => some (.bwWriteSlice (.cw c))
      | none   => some .bwCountPaddingBits
    else some (if s.pos = 2 then .bwWritePaddingBits else .blkWrite .data)
  | .eEnd    => none
  | .dBlk0   => some (.blkRead .shape)
  | .dShape  => some .blkShape
  | .dBlk1   => some (.blkRead .leaves)
  | .dLeaves => some .blkLeaves
  | .dBlk2   => some (.blkRead .data)
  | .dBody   => if s.pos = 0 then none else if s.remaining = 0 then none else some .dWalkBit
  | .dTail   => none
  | .dEnd    => none

/-- What the phase does before the operation it issues: R174 and R175 begin with an empty PAY, R174 with a new
writer bound to it. -/
def prepare (s : State) : State :=
  match s.phase with
  | .eShape  => if s.pos = 0 then s.clearPay.newWriter .pay else s
  | .eLeaves => if s.pos = 0 then s.clearPay else s
  | .eRead | .eCount | .eBuild | .eTable | .eData | .eEnd | .dBlk0 | .dShape | .dBlk1 | .dLeaves | .dBlk2
  | .dBody | .dTail | .dEnd => s

/-- What the phase does after its operation: R179 stores the padding count as PADCNT and as the first payload byte;
then the next place of the sequence. -/
def advance (s : State) : State :=
  match s.phase with
  | .eRead   => s
  | .eCount  => s.enter .eBuild
  | .eBuild  => s.enter .eShape
  | .eShape  => if s.pos < 2 then { s with pos := s.pos + 1 } else s.enter .eLeaves
  | .eLeaves => if s.pos < 1 then { s with pos := s.pos + 1 } else s.enter .eTable
  | .eTable  => s.enter .eData
  | .eData   =>
    if s.pos = 1 then
      if s.idx < s.inbuf.length then { s with idx := s.idx + 1 }
      else { s with padcnt := s.res, pay := s.pay.set 0 s.res, pos := 2 }
    else if s.pos = 2 then { s with pos := 3 }
    else s.enter .eEnd
  | .eEnd    => s
  | .dBlk0   => s.enter .dShape
  | .dShape  => s.enter .dBlk1
  | .dBlk1   => s.enter .dLeaves
  | .dLeaves => s.enter .dBlk2
  | .dBlk2   => s.enter .dBody
  | .dBody   => s
  | .dTail   => s
  | .dEnd    => s

/-- R171: one turn of the loop of E_READ. The byte that would exceed INBUF_CAP is ERR_IO (R168); input beyond
MAX_INPUT is outside the model (D6, U25). -/
def readInput : Act Unit := fun s =>
  (srcRead s).bind fun a t =>
    match a with
    | .eos    => .ok () (t.enter .eCount)
    | .ioFail => .raise .io t
    | .byte v =>
      if maxInput ≤ t.inbuf.length then .fault .inputTooLong
      else if roomFor t.params.inbufCap t.inbuf.length then .ok () { t with inbuf := t.inbuf ++ [v] }
      else .raise .io t

/-- R178, first lines: the place of the padding count, and a new writer bound to PAY. -/
def beginData : Act Unit := fun s =>
  (payAppend 0 s.clearPay).bind fun _ t => .ok () { t.newWriter .pay with pos := 1, idx := 0 }

/-- R205: the end probe. -/
def endProbe : Act Unit := fun s =>
  (srcRead s).bind fun a t =>
    match a with
    | .eos    => .ok () (t.enter .dEnd)
    | .byte _ => .raise .blockId t
    | .ioFail => .raise .io t

/-- The places of the sequence that issue no operation of the table. -/
def ownAction (s : State) : Res Unit :=
  match s.phase with
  | .eRead => readInput s
  | .eData => beginData s
  | .eEnd  => .ok () s.endCall
  | .dBody => if s.pos = 0 then (bodyHeader s).bind fun _ t => .ok () { t with pos := 1 } else .ok () (s.enter .dTail)
  | .dTail => endProbe s
  | .dEnd  => .ok () s.endCall
  | .eCount | .eBuild | .eShape | .eLeaves | .eTable | .dBlk0 | .dShape | .dBlk1 | .dLeaves | .dBlk2 => .ok () s

/-- What an operation's end is for the sequence: an operation that waits stays at its place; an error has ended the
call; else the sequence advances. -/
def State.retired (t : State) : State := if t.held.isSome then t else if t.busy then advance t else t

/-- One step of the block by itself: nothing unless a call is in progress (R240), else the next line of its phase, or the
line that waits, taken up again. -/
def sequencerStep (s : State) : Outcome :=
  if s.busy then
    mapNext s.rejoin
      (match nextOp s.takeUp with
      | some i => mapNext State.retired (exec i (prepare s.takeUp))
      | none   => settle s.takeUp (ownAction s.takeUp))
  else .next s

/-- An operation that waits, marked as the requested operation `i`. -/
def State.keepJob (i : Instr) (t : State) : State := { t with held := t.held.map fun h => { h with job := some i } }

/-- A requested operation, run from its start or taken up again. -/
def runJob (i : Instr) (s : State) : Outcome := mapNext (fun t => s.rejoin (t.keepJob i)) (exec i s.takeUp)

/-- The block goes on: with the requested operation that waits, else by itself. -/
def goOn (s : State) : Outcome :=
  match s.held.bind Held.job with
  | some i => runJob i s
  | none   => sequencerStep s

/-- A request of the host. A command is a write to CMD, which never waits (R11). Any other operation is run at once,
but not before an operation that waits has ended (R51): till then the request stays the next event. (log 3) -/
def request (s : State) (frame : List Byte) (rest : List HostEvent) : Outcome :=
  match decode frame with
  | .error _   => .refused .noOperation
  | .ok (i, _) =>
    if i.isCommand then exec i { s with host := rest }
    else if s.held.isSome then goOn s
    else runJob i { s with host := rest }

/-- One step: the host's next event, or the block by itself. Binding new streams leaves SRC_EOS as it is, in a call (R41)
and, by the model's choice, outside one (DESIGN CHOICE, log 35). -/
def stepOnce (s : State) : Outcome :=
  match s.host with
  | []                 => goOn s
  | .request f :: rest => request s f rest
  | .bind a b :: rest  => .next { s with host := rest, src := a, snk := b }
  | .reset :: rest     => .next { s with host := rest }.resetBlock
  | .tick :: rest      => goOn { s with host := rest }
  | .await :: rest     => if s.busy then goOn s else .next { s with host := rest }

/-- Place a frame where the next step takes its operation from. -/
def placeRequest (s : State) (frame : List Byte) : State := { s with host := .request frame :: s.host }

end Machine
end Sys2Proof
end

