-- ==== Sys2Proof/Machine/Step.lean ====
section
/-! DEFINITION. The step of the machine, and an operation placed where the next step takes it from. -/

namespace Sys2Proof.Machine

/-- One step (log 1, log 3). -/
def step : State → Host.Outcome State Fault Refusal := stepOnce

/-- The operation whose bits are `w`, placed as the host's next event: the very next step decodes it and runs it.
The block fetches no instruction (R53); log 4 says how a program comes to run. -/
def State.withFetchWord (s : State) (nbits w : Nat) : State := placeRequest s (tableFrame nbits w)

end Sys2Proof.Machine
end

