-- ==== Sys2Proof/Safety.lean ====
section
/-! DEFINITION. The terms in which claims about the machine are written: what a tree, a bit sequence and a container
are worth (`30_encoding.md`, `43_tree_serial.md`, `45_encode.md` R182), the invariants of the machine, and what a
host that keeps to the host interface does. -/

namespace Sys2Proof

/-! ### Trees and codes -/

/-- R63, R140: the word of the shape grammar for a tree. -/
def Tree.shapeBits : Tree → List Bool
  | .leaf _ _   => [false]
  | .node _ l r => true :: (l.shapeBits ++ r.shapeBits)

/-- The number of edges on the longest path from the root. -/
def Tree.depth : Tree → Nat
  | .leaf _ _   => 0
  | .node _ l r => 1 + max l.depth r.depth

/-- The tree that a shape word describes: no symbols, weights 0 (R149, R150). -/
def Tree.skeleton : Tree → Tree
  | .leaf _ _   => .leaf 0 none
  | .node _ l r => .node 0 l.skeleton r.skeleton

/-- The tree without its weights. -/
def Tree.dropWeights : Tree → Tree
  | .leaf _ s   => .leaf 0 s
  | .node _ l r => .node 0 l.dropWeights r.dropWeights

/-- The tree without its symbols: its shape and the weight of every node. -/
def Tree.dropSymbols : Tree → Tree
  | .leaf w _   => .leaf w none
  | .node w l r => .node w l.dropSymbols r.dropSymbols

/-- Every leaf has a symbol. -/
def Tree.complete : Tree → Bool
  | .leaf _ s   => s.isSome
  | .node _ l r => l.complete && r.complete

/-- A root with children. -/
def Tree.isNode : Tree → Bool
  | .leaf _ _   => false
  | .node _ _ _ => true

/-- R70: each leaf's symbol with its codeword, in preorder; `pre` is the codeword passed to the root. -/
def Tree.codes : Tree → List Bool → List (Option Byte × List Bool)
  | .leaf _ s,   pre => [(s, pre)]
  | .node _ l r, pre => l.codes (pre ++ [false]) ++ r.codes (pre ++ [true])

/-- R146: the codeword recorded for a symbol: that of the leaf visited last (D12). -/
def Tree.codeOf (t : Tree) (c : Byte) : Option (List Bool) :=
  ((t.codes []).filterMap fun (s, q) => if s = some c then some q else none).getLast?

/-- The leaves in preorder, with their weights. -/
def Tree.leafList : Tree → List (Weight × Option Byte)
  | .leaf w s   => [(w, s)]
  | .node _ l r => l.leafList ++ r.leafList

/-- R125 item 3: the weight of every internal node is the sum of the weights of its children. -/
def Tree.sumsWeights : Tree → Bool
  | .leaf _ _   => true
  | .node w l r => w == l.weight + r.weight && l.sumsWeights && r.sumsWeights

/-- R125 item 5: the weighted length of a code for the histogram f: each leaf's depth times the count of its symbol. -/
def Tree.cost (f : Byte → Nat) (t : Tree) : Nat :=
  ((t.codes []).map fun (s, q) => (s.elim 0 f) * q.length).sum

/-- The symbols observed in a histogram, in order (R121). -/
def observed (f : Vector Weight 256) : List Byte :=
  f.toList.zipIdx.filterMap fun (w, i) => if w = 0 then none else some (BitVec.ofNat 8 i)

/-- R123: one merge step, up to the order of the working list: two entries such that no other weighs less than
either leave the list and their parent enters it. -/
def MergeStep (wl wl' : List Tree) : Prop :=
  ∃ l r rest, wl.Perm (l :: r :: rest) ∧ (∀ z ∈ rest, l.weight ≤ z.weight ∧ r.weight ≤ z.weight) ∧
    wl'.Perm (.node (l.weight + r.weight) l r :: rest)

/-- R124: the trees that the merge steps can produce from a working list: the greedy trees. -/
inductive Greedy : List Tree → Tree → Prop where
  | done (t : Tree) : Greedy [t] t
  | merge {wl wl' : List Tree} {t : Tree} : MergeStep wl wl' → Greedy wl' t → Greedy wl t

/-! ### Bit slices -/

/-- R96: `popByte` n times: the bytes in the order popped, and what is left. -/
def BitSlice.popAll : Nat → BitSlice → List Byte × BitSlice
  | 0,     s => ([], s)
  | n + 1, s =>
    match s.popByte with
    | none        => ([], s)
    | some (v, t) => let (vs, u) := popAll n t; (v :: vs, u)

/-- R92 for each bit of a sequence in order. -/
def BitSlice.appendBits (s : BitSlice) : List Bool → Option BitSlice
  | []      => some s
  | b :: bs =>
    match s.appendBit b with
    | none   => none
    | some t => t.appendBits bs

/-! ### Walks and containers -/

/-- R199, R203: what the walk emits, and where the cursor stands, when it reads `bits` from the node at path `cur`:
a leaf reached gives its symbol and puts the cursor back to the root. -/
def walkOutput (t : Tree) : List Bool → List Bool → List Byte × List Bool
  | cur, []      => ([], cur)
  | cur, b :: bs =>
    match t.nodeAt (cur ++ [b]) with
    | some (.leaf _ (some v)) => let (vs, c) := walkOutput t [] bs; (v :: vs, c)
    | some (.node _ _ _)      => walkOutput t (cur ++ [b]) bs
    | _                       => ([], cur)

/-- R60: a block as bytes. -/
def blockBytes (id : BlockId) (payload : List Byte) : List Byte :=
  id.code :: le64 (Machine.lengthWord payload.length) ++ payload

/-- `pack(q ++ zeros(padlen(|q|)))`. -/
def padPack (q : List Bool) : List Byte := pack (q ++ zeros (padlen q.length))

/-- R66: the DATA payload of a bit sequence. -/
def dataPayload (c : List Bool) : List Byte := BitVec.ofNat 8 (padlen c.length) :: padPack c

/-- The tree of an input (R172, R173). -/
def treeOf (p : Params) (input : List Byte) : Tree := buildTree p (countBytes input)

/-- R182: the concatenated codewords of the input. -/
def codeBits (p : Params) (input : List Byte) : List Bool :=
  input.flatMap fun c => ((treeOf p input).codeOf c).getD []

/-- R182: the container of an input. -/
def container (p : Params) (input : List Byte) : List Byte :=
  blockBytes .shape (padPack (treeOf p input).shapeBits) ++
    blockBytes .leaves ((treeOf p input).symbols.map fun s => s.getD 0) ++
      blockBytes .data (dataPayload (codeBits p input))

namespace Machine

/-! ### Unit-level views -/

/-- The value a slice operand has in a state: the three forms of `SliceSrc`. -/
def State.reads (s : State) (src : SliceSrc) (t : BitSlice) : Prop :=
  src = .imm t ∨ (∃ r, src = .reg r ∧ s.slice r = t) ∨ (∃ c, src = .cw c ∧ s.cwAt c = some t)

/-- The bits a payload-bound reader can still return, in order (R18, R100); for a source-bound one those buffered. -/
def State.readerBits (s : State) : List Bool :=
  ((List.range s.br.rem).map fun i => s.br.buf.getLsbD (s.br.rem - 1 - i)) ++
    match s.br.origin with
    | .pay p => unpack (s.pay.drop p)
    | .src   => []

/-- `readBit` n times. -/
def readBits : Nat → Act (List Bool)
  | 0,     s => .ok [] s
  | n + 1, s => (readBit s).bind fun b s => (readBits n s).bind fun bs s => .ok (b :: bs) s

/-- Any mixture of `writeBit` and `writeSlice` (R111). -/
def writeMix : List (Bool ⊕ BitSlice) → Act Unit
  | [],           s => .ok () s
  | .inl b :: ws, s => (writeBit b s).bind fun _ s => writeMix ws s
  | .inr t :: ws, s => (writeSlice t s).bind fun _ s => writeMix ws s

/-- The bit sequence a mixture of writes stands for. -/
def mixBits (ws : List (Bool ⊕ BitSlice)) : List Bool :=
  ws.flatMap fun w => match w with
    | .inl b => [b]
    | .inr t => t.seq

/-- The three capacities are unbounded, as in the reference model (R168). -/
def State.unbounded (s : State) : Prop :=
  s.params.inbufCap = none ∧ s.params.payloadCap = none ∧ s.params.nodeCap = none

/-- R168: PAY has room for n more bytes. -/
def State.payRoom (s : State) (n : Nat) : Prop := ∀ c, s.params.payloadCap = some c → s.pay.length + n ≤ c

/-- R168: the tree store has room for a tree of n nodes. -/
def State.nodeRoom (s : State) (n : Nat) : Prop := ∀ c, s.params.nodeCap = some c → n ≤ c

/-- The writer as it is between two BitWriter operations (R90, R110). -/
def State.writerReady (s : State) : Prop := s.bw.acc.wf = true ∧ s.bw.acc.length ≤ 7

/-- The state with another TIE_RULE and another SYN_SYM. -/
def State.withTie (tie : List (List Tree × (Nat × Nat))) (syn : Byte) (s : State) : State :=
  { s with params := { s.params with tie := tie, synSym := syn } }

/-! ### The host -/

/-- The phases of DECODE (R13). -/
def Phase.isDecode : Phase → Bool
  | .dBlk0 | .dShape | .dBlk1 | .dLeaves | .dBlk2 | .dBody | .dTail | .dEnd => true
  | .eRead | .eCount | .eBuild | .eShape | .eLeaves | .eTable | .eData | .eEnd => false

/-- R13: the phase after a phase. -/
def Phase.succ : Phase → Option Phase
  | .eRead => some .eCount | .eCount => some .eBuild | .eBuild => some .eShape | .eShape => some .eLeaves
  | .eLeaves => some .eTable | .eTable => some .eData | .eData => some .eEnd | .eEnd => none
  | .dBlk0 => some .dShape | .dShape => some .dBlk1 | .dBlk1 => some .dLeaves | .dLeaves => some .dBlk2
  | .dBlk2 => some .dBody | .dBody => some .dTail | .dTail => some .dEnd | .dEnd => none

/-- A write to CMD, as a frame. -/
def isCmdFrame (f : List Byte) : Bool :=
  match decode f with
  | .ok (i, _) => i.isCommand
  | .error _   => false

/-- A host that keeps to its ports: the operations it requests are the two commands (R227, R33). -/
def State.hostLegal (s : State) : Bool :=
  s.host.all fun e => match e with
    | .request f => isCmdFrame f
    | .bind _ _ | .reset | .tick | .await => true

/-! ### Invariants -/

/-- An operation that waits began with a well-formed accumulator and reader; where the host requested it, it is a
well-formed operation and no command. -/
def Held.wf (h : Held) : Bool :=
  h.bw.acc.wf && decide (h.br.rem ≤ 7) && h.job.all fun i => i.wf && !i.isCommand

/-- What every step keeps, whatever is requested: every bit slice of the machine satisfies R90, the reader holds at
most seven unread bits (R102), STATUS.ERR is 0 unless STATE is FAULT (R12), and an operation that waits can be taken up
again. -/
def State.Inv (s : State) : Prop :=
  s.bw.acc.wf = true ∧ s.cwacc.wf = true ∧ (∀ c t, s.cwAt c = some t → t.wf = true) ∧ s.br.rem ≤ 7 ∧
    (s.st ≠ .fault → s.err = .ok) ∧ (s.st = .fault → s.err ≠ .ok) ∧ ∀ h, s.held = some h → h.wf = true

/-- No requested operation waits: what waits, if anything does, is the sequencer's own. -/
def State.noJob (s : State) : Prop := ∀ h, s.held = some h → h.job = none

/-- The tree of the call is there and every leaf has its symbol (R190, R122). -/
def State.treeReady (s : State) : Prop := s.treeValid = true ∧ ∃ t, s.tree = some t ∧ t.complete = true

/-- CUR names the root or an internal node of TREE (R14). -/
def State.cursorReady (s : State) : Prop :=
  ∃ t n, s.tree = some t ∧ t.nodeAt s.cur = some n ∧ (s.cur = [] ∨ n.isNode = true)

/-- What holds at each place of a call that is run by the sequencer: the hazards R245 to R250 and R252 as facts
about the state. -/
def State.phaseReady (s : State) : Prop :=
  s.inbuf.length ≤ maxInput ∧
  match s.phase with
  | .eRead | .eCount => True
  | .eBuild  => s.freq = countBytes s.inbuf
  | .eShape  =>
    s.treeValid = true ∧ s.tree = some (treeOf s.params s.inbuf) ∧
      (s.pos = 0 ∨ (s.bw.dest = .pay ∧ s.writerReady))
  | .eLeaves => s.treeValid = true ∧ s.tree = some (treeOf s.params s.inbuf)
  | .eTable  => s.treeValid = true ∧ s.tree = some (treeOf s.params s.inbuf)
  | .eData   =>
    s.treeValid = true ∧ s.tree = some (treeOf s.params s.inbuf) ∧
      (∀ c ∈ s.inbuf, (s.cwAt c).isSome = true) ∧
        (s.pos = 0 ∨ (s.bw.dest = .pay ∧ s.writerReady ∧ s.pay ≠ []))
  | .eEnd | .dBlk0 | .dShape => True
  | .dBlk1 | .dLeaves => s.tree.isSome = true
  | .dBlk2  => s.treeReady
  | .dBody  =>
    s.treeReady ∧ s.pay.length < 2 ^ 64 ∧
      (s.pos = 0 ∨
        (s.cursorReady ∧ (∃ p, s.br.origin = .pay p) ∧ s.remaining ≤ s.readerBits.length ∧
          s.remaining < 2 ^ 67))
  | .dTail | .dEnd => True

/-- The invariant of a machine whose host keeps to its ports: no requested operation waits, and in a call its place's facts
hold. Where an operation waits, the facts hold of the state it is run from when it is taken up again. -/
def State.CallInv (s : State) : Prop := s.Inv ∧ s.noJob ∧ (s.busy = true → s.takeUp.phaseReady)

end Machine
end Sys2Proof
end

