-- ==== Sys2Proof/Certificates/Slice0/Obligations.lean ====
section
/-! DEFINITION. The statements for the provers. Each docstring names the rule of `spec/` that it formalises. Where a
clause rests on a choice of the model, the docstring names the log entry. Where a statement gives `s.raise e` as a next
state, STATUS is what the rule gives (R220); what the elements then hold is the model's choice in every such clause:
log 8, and log 9 for an error raised outside a call. -/

open Sys2Proof Sys2Proof.Machine

/-! ### Control and status -/

/-- `10_state.md` R11: a write to CMD starts the call of its mode when no call is in progress; a write while BUSY
changes no state. -/
def Obligations.CmdWriteStartsCallUnlessBusy : Prop :=
  ∀ s : State,
    (s.st ≠ .busy →
      exec .encode s = .next (s.startCall 0 .eRead) ∧ exec .decode s = .next (s.startCall 1 .dBlk0)) ∧
    (s.st = .busy → exec .encode s = .next s ∧ exec .decode s = .next s)

/-- `10_state.md` R35 (column "at the start of every call", the values it gives), R28, `70_reset_and_hazards.md` R241:
a call starts BUSY, with code 0 and the mode written, from empty elements, and from nothing that an earlier call
left: two states with the same host side start the same call. -/
def Obligations.CallStartsFresh : Prop :=
  ∀ (mode : BitVec 1) (ph : Phase) (s : State),
    let t := s.startCall mode ph
    (t.st = .busy ∧ t.err = .ok ∧ t.cmdMode = mode ∧ t.phase = ph ∧ t.treeValid = false ∧ t.srcEos = false ∧
      t.tree = none ∧ (∀ c, t.freqAt c = 0) ∧ t.wl = [] ∧ (∀ c, t.cwAt c = none) ∧
      t.cwacc = BitSlice.empty ∧ t.bw.acc = BitSlice.empty ∧ t.br.rem = 0 ∧ t.inbuf = [] ∧ t.pay = []) ∧
    (t.params = s.params ∧ t.src = s.src ∧ t.snk = s.snk ∧ t.out = s.out ∧ t.host = s.host) ∧
    ∀ s' : State,
      s'.params = s.params → s'.src = s.src → s'.snk = s.snk → s'.out = s.out → s'.host = s.host →
        s'.freeCtr = s.freeCtr → s'.startCall mode ph = t

/-- `70_reset_and_hazards.md` R240: reset at any time. STATUS is IDLE with code 0, TREE_VALID and SRC_EOS are 0, the
bytes already given to the sink stay, no stream is accessed, no operation waits any more; after it the block does
nothing by itself. -/
def Obligations.ResetAbandonsEverything : Prop :=
  ∀ (s : State) (rest : List HostEvent), s.host = .reset :: rest →
    ∃ t, step s = .next t ∧ t.st = .idle ∧ t.err = .ok ∧ t.treeValid = false ∧ t.srcEos = false ∧
      t.tree = none ∧ t.held = none ∧ t.out = s.out ∧ t.src = s.src ∧ t.snk = s.snk ∧ t.host = rest ∧
      (rest = [] → step t = .next t)

/-- `20_memory.md` R54: when no call is in progress (and no unit-level run waits, log 3) the block by itself accesses neither
stream, and STATUS keeps its value (`10_state.md` R12). -/
def Obligations.NoStreamAccessOutsideCall : Prop :=
  ∀ s : State, s.st ≠ .busy → s.noJob → (s.host = [] ∨ ∃ rest, s.host = .tick :: rest ∨ s.host = .await :: rest) →
    ∃ t, step s = .next t ∧ t.src = s.src ∧ t.snk = s.snk ∧ t.out = s.out ∧ t.st = s.st ∧ t.err = s.err

/-- `60_exceptions.md` R220: `raise E` puts STATUS to FAULT with the code of E and abandons the call in progress, whose
elements are discarded (the values they then hold are the model's, log 8); no stream is accessed; the block then waits.
The STATUS word is 3 + 4 * code. -/
def Obligations.RaiseEndsTheCall : Prop :=
  ∀ (e : Err) (s : State),
    let t := s.raise e
    t.st = .fault ∧ t.err = e ∧ t.held = none ∧ t.statusWord.toNat = 3 + 4 * e.code.toNat ∧
    t.src = s.src ∧ t.snk = s.snk ∧ t.out = s.out ∧ t.host = s.host ∧
    (s.st = .busy → t.tree = none ∧ t.inbuf = [] ∧ t.pay = [] ∧ t.bw.acc = BitSlice.empty ∧
      t.cwacc = BitSlice.empty ∧ (∀ c, t.freqAt c = 0) ∧ ∀ c, t.cwAt c = none) ∧
    (t.host = [] → step t = .next t)

/-- `60_exceptions.md` R223: FAULT is left only by a write to CMD, which starts a fresh call with code 0, or by reset. For
the states in which what waits is no command (`State.Inv`, which every step keeps: StepKeepsInvariant). -/
def Obligations.FaultIsLeftByCommandOrReset : Prop :=
  ∀ s t : State, s.Inv → s.st = .fault → step s = .next t → t.st ≠ .fault →
    (∃ rest, s.host = .reset :: rest ∧ t.st = .idle ∧ t.err = .ok) ∨
    (∃ f rest, s.host = .request f :: rest ∧ isCmdFrame f = true ∧ t.st = .busy ∧ t.err = .ok ∧
      (t = State.startCall 0 .eRead { s with host := rest } ∨ t = State.startCall 1 .dBlk0 { s with host := rest }))

/-! ### Streams -/

/-- `20_memory.md` R41, R42: what the two stream primitives do for each answer of the host. A source byte is consumed;
EOS consumes nothing and is sticky; a sink write appends; after a failed one it is open whether the byte was
appended. R41 makes EOS sticky for the reads of the same call; that SRC_EOS answers them outside a call too is the
model's choice (log 35), and so is that a failing answer is taken off its queue (log 23). -/
def Obligations.StreamPrimitives : Prop :=
  ∀ s : State,
    (s.srcEos = true → srcRead s = .ok .eos s) ∧
    (s.srcEos = false →
      (∀ v r, s.src = .byte v :: r → srcRead s = .ok (.byte v) { s with src := r }) ∧
      (∀ r, s.src = .eos :: r → srcRead s = .ok .eos { s with srcEos := true }) ∧
      (∀ r, s.src = .ioFail :: r → srcRead s = .ok .ioFail { s with src := r })) ∧
    (∀ v r, s.snk = .ok :: r → emit v s = .ok () { s with snk := r, out := s.out ++ [v] }) ∧
    (∀ v r, s.snk = .ioFail :: r →
      ∃ o n, emit v s = .raise .io { s with snk := r, out := o, freeCtr := n } ∧ (o = s.out ∨ o = s.out ++ [v]))

/-- `10_state.md` R34, `20_memory.md` R42: whatever a step does, a reset included, the output log only grows. -/
def Obligations.OutputOnlyGrows : Prop :=
  ∀ s t : State, step s = .next t → s.out <+: t.out

/-- `20_memory.md` R43, R41, R42, R48, R51, for an operation that has to wait: what it has read is consumed, what it has
written is in the output log, nothing else happens; once the missing answers are there it is taken up again, and ends
exactly as it would have ended had all answers been there at once, no access being made twice. That it is taken up by
running it from its start on the answers it has taken is the model's choice (log 2). -/
def Obligations.WaitingKeepsWhatIsDone : Prop :=
  ∀ (i : Instr) (s u : State) (h : Held), s.held = none → exec i s = .next u → u.held = some h →
    (∃ taken given : List Byte,
      s.src = taken.map .byte ++ u.src ∧ h.src = taken.map .byte ∧
      s.snk = List.replicate given.length .ok ++ u.snk ∧ h.snk = given.length ∧ u.out = s.out ++ given) ∧
    (u.src = [] ∨ u.snk = []) ∧ u.srcEos = s.srcEos ∧ u.st = s.st ∧ u.err = s.err ∧ u.freeCtr = s.freeCtr ∧
    ∀ (a : List SrcAns) (b : List SnkAns),
      let v : State := { u with src := u.src ++ a, snk := u.snk ++ b }
      let w : State := { s with src := s.src ++ a, snk := s.snk ++ b }
      v.takeUp = { w with out := u.out } ∧ mapNext v.rejoin (exec i v.takeUp) = exec i w

/-! ### BitSlice -/

/-- `40_bitslice.md` R92. -/
def Obligations.AppendBitResult : Prop :=
  ∀ (r : SliceReg) (b : Bool) (s : State), (s.slice r).wf = true →
    ((s.slice r).length < 64 →
      ∃ u : BitSlice, u.length = (s.slice r).length + 1 ∧
        u.bits = ((s.slice r).bits <<< 1) ||| BitVec.ofNat 64 b.toNat ∧ u.wf = true ∧
        u.seq = (s.slice r).seq ++ [b] ∧ exec (.bsAppendBit r b) s = .next (s.setSlice r u)) ∧
    ((s.slice r).length = 64 → exec (.bsAppendBit r b) s = .next (s.raise .capacity))

/-- `40_bitslice.md` R93, for every form of the operand t (the same slice as s included). -/
def Obligations.AppendSliceResult : Prop :=
  ∀ (r : SliceReg) (src : SliceSrc) (t : BitSlice) (s : State),
    s.reads src t → (s.slice r).wf = true → t.wf = true →
    ((s.slice r).length + t.length ≤ 64 →
      ∃ u : BitSlice, u.length = (s.slice r).length + t.length ∧ u.wf = true ∧
        u.bits.toNat = (s.slice r).bits.toNat * 2 ^ t.length % 2 ^ 64 + t.bits.toNat ∧
        u.seq = (s.slice r).seq ++ t.seq ∧ exec (.bsAppendSlice r src) s = .next (s.setSlice r u)) ∧
    (64 < (s.slice r).length + t.length → exec (.bsAppendSlice r src) s = .next (s.raise .capacity))

/-- `40_bitslice.md` R94, R95; the returned k or byte is in RES (log 17). With fewer than 8 bits there is no byte to pop and
the operation is refused. -/
def Obligations.PadAndPopResult : Prop :=
  ∀ (r : SliceReg) (s : State), (s.slice r).wf = true →
    (∃ u : BitSlice, u.length = (s.slice r).length + padlen (s.slice r).length ∧ u.length % 8 = 0 ∧ u.wf = true ∧
      u.seq = (s.slice r).seq ++ zeros (padlen (s.slice r).length) ∧
      exec (.bsPadToByte r) s =
        .next ((s.setSlice r u).setRes (BitVec.ofNat 8 (padlen (s.slice r).length)))) ∧
    (8 ≤ (s.slice r).length →
      ∃ (v : Byte) (u : BitSlice), u.length = (s.slice r).length - 8 ∧ u.wf = true ∧
        (s.slice r).seq = unpackByte v ++ u.seq ∧
        exec (.bsPopByte r) s = .next ((s.setSlice r u).setRes v)) ∧
    ((s.slice r).length < 8 → exec (.bsPopByte r) s = .refused .popUnderflow)

/-- `40_bitslice.md` R98: the four laws. -/
def Obligations.SliceLaws : Prop :=
  (∀ s t : BitSlice, s.wf = true → t.wf = true → s.appendBits t.seq = s.appendSlice t) ∧
  (∀ s : BitSlice, s.wf = true → s.padToByte.length % 8 = 0 ∧
    s.padToByte.popAll (s.padToByte.length / 8) = (pack s.padToByte.seq, BitSlice.empty)) ∧
  (∀ b7 b6 b5 b4 b3 b2 b1 b0 : Bool, ∃ u, BitSlice.empty.appendBits [b7, b6, b5, b4, b3, b2, b1, b0] = some u ∧
    u.popByte = some (packByte b7 b6 b5 b4 b3 b2 b1 b0, BitSlice.empty)) ∧
  (∀ s : BitSlice, s.wf = true →
    (∀ b u, s.appendBit b = some u → s.seq <+: u.seq) ∧
    (∀ t u, t.wf = true → s.appendSlice t = some u → s.seq <+: u.seq) ∧
    s.seq <+: s.padToByte.seq ∧
    ∀ v u, s.popByte = some (v, u) → s.seq = unpackByte v ++ u.seq)

/-! ### BitReader and BitWriter -/

/-- `41_bitio.md` R101: every case of `BR.readBit`; the bit is in RES (log 17). A source that has not answered yet makes
the operation wait, with nothing done (`20_memory.md` R43, log 2). Where SRC_EOS is set a reader bound to the source
meets the end: R41 says so of the reads of a call, outside one it is the model's choice (log 35); that BR stays at an
error raised outside a call is the model's too (log 9). R102, R103: the count of unread bits changes nothing else; the
flush drops the unread bits, reads nothing, and makes the next read pull a fresh byte. -/
def Obligations.ReaderResults : Prop :=
  ∀ s : State,
    (∀ n, s.br.rem = n + 1 → exec .brReadBit s =
      .next { s with br := { s.br with rem := n }, res := BitVec.ofNat 8 (s.br.buf.getLsbD n).toNat }) ∧
    (s.br.rem = 0 →
      (∀ p v, s.br.origin = .pay p → s.pay[p]? = some v → exec .brReadBit s =
        .next { s with br := { buf := v, rem := 7, origin := .pay (p + 1) },
                       res := BitVec.ofNat 8 (v.getLsbD 7).toNat }) ∧
      (∀ p, s.br.origin = .pay p → s.pay.length ≤ p → exec .brReadBit s = .next (s.raise .truncated)) ∧
      (s.br.origin = .src →
        (s.srcEos = true → exec .brReadBit s = .next (s.raise .truncated)) ∧
        (s.srcEos = false →
          (∀ v r, s.src = .byte v :: r → exec .brReadBit s =
            .next { s with src := r, br := { buf := v, rem := 7, origin := .src },
                           res := BitVec.ofNat 8 (v.getLsbD 7).toNat }) ∧
          (∀ r, s.src = .eos :: r → ∃ t, exec .brReadBit s = .next t ∧ t.st = .fault ∧ t.err = .truncated ∧
            (s.st ≠ .busy → t.br = s.br)) ∧
          (∀ r, s.src = .ioFail :: r → ∃ t, exec .brReadBit s = .next t ∧ t.st = .fault ∧ t.err = .io ∧
            (s.st ≠ .busy → t.br = s.br)) ∧
          (s.src = [] → exec .brReadBit s = .next (s.suspend s))))) ∧
    exec .brCountUnflushedBits s = .next { s with res := BitVec.ofNat 8 s.br.rem } ∧
    exec .brFlushBits s = .next { s with br := { s.br with rem := 0 } } ∧
    (s.br.rem = 0 → exec .brFlushBits s = .next s) ∧
    ∀ p v, s.br.origin = .pay p → s.pay[p]? = some v →
      ∃ t, exec .brReadBit { s with br := { s.br with rem := 0 } } = .next t ∧ t.br.buf = v ∧ t.br.rem = 7 ∧
        t.res = BitVec.ofNat 8 (v.getLsbD 7).toNat

/-- `41_bitio.md` R104, R100: a new reader (with no buffered bit) over `PAY[a ..]` asked for n bits gives the first n bits of those bytes and
consumes `ceil(n / 8)` of them. -/
def Obligations.ReaderReturnsOriginBits : Prop :=
  ∀ (s : State) (a n : Nat), s.br.rem = 0 → s.br.origin = .pay a → n ≤ 8 * (s.pay.length - a) →
    ∃ t, readBits n s = .ok ((unpack (s.pay.drop a)).take n) t ∧ t = { s with br := t.br } ∧
      t.br.origin = .pay (a + (n + 7) / 8)

/-- `41_bitio.md` R106: a bit that completes no byte stays pending; the bit that completes one gives that byte to the
destination at once. -/
def Obligations.WriteBitResult : Prop :=
  ∀ (b : Bool) (s : State), s.writerReady →
    (s.bw.acc.length < 7 →
      ∃ u : BitSlice, u.wf = true ∧ u.seq = s.bw.acc.seq ++ [b] ∧ exec (.bwWriteBit b) s = .next (s.setAcc u)) ∧
    (s.bw.acc.length = 7 → ∀ v : Byte, unpackByte v = s.bw.acc.seq ++ [b] →
      (s.bw.dest = .pay → s.payRoom 1 → exec (.bwWriteBit b) s =
        .next { s.setAcc BitSlice.empty with pay := s.pay ++ [v] }) ∧
      (s.bw.dest = .pay → ¬ s.payRoom 1 → ∃ t, exec (.bwWriteBit b) s = .next t ∧ t.st = .fault ∧ t.err = .io) ∧
      (s.bw.dest = .snk →
        (∀ r, s.snk = .ok :: r → exec (.bwWriteBit b) s =
          .next { s.setAcc BitSlice.empty with snk := r, out := s.out ++ [v] }) ∧
        (∀ r, s.snk = .ioFail :: r → ∃ t, exec (.bwWriteBit b) s = .next t ∧ t.st = .fault ∧ t.err = .io)))

/-- `41_bitio.md` R107: the slice is appended whole, the complete bytes go to the destination in order, the rest stays
pending; a slice that does not fit with the pending bits is ERR_CAPACITY and writes nothing. -/
def Obligations.WriteSliceResult : Prop :=
  ∀ (src : SliceSrc) (t : BitSlice) (s : State), s.reads src t → t.wf = true → s.writerReady →
    (s.bw.acc.length + t.length ≤ 64 →
      ∃ (bytes : List Byte) (u : BitSlice),
        bytes.length = (s.bw.acc.length + t.length) / 8 ∧ u.wf = true ∧ u.length ≤ 7 ∧
        unpack bytes ++ u.seq = s.bw.acc.seq ++ t.seq ∧
        (s.bw.dest = .pay → s.payRoom bytes.length →
          exec (.bwWriteSlice src) s = .next { s.setAcc u with pay := s.pay ++ bytes }) ∧
        (s.bw.dest = .pay → 0 < bytes.length → ¬ s.payRoom bytes.length →
          ∃ w, exec (.bwWriteSlice src) s = .next w ∧ w.st = .fault ∧ w.err = .io) ∧
        (s.bw.dest = .snk →
          (∀ r, s.snk = List.replicate bytes.length .ok ++ r →
            exec (.bwWriteSlice src) s = .next { s.setAcc u with snk := r, out := s.out ++ bytes }) ∧
          (∀ k r, k < bytes.length → s.snk = List.replicate k .ok ++ .ioFail :: r →
            ∃ w, exec (.bwWriteSlice src) s = .next w ∧ w.st = .fault ∧ w.err = .io))) ∧
    (64 < s.bw.acc.length + t.length → exec (.bwWriteSlice src) s = .next (s.raise .capacity))

/-- `41_bitio.md` R108, R109: the number of padding bits, in RES (log 17); the padding itself, which writes one byte
(pending bits high, zeros below) when bits are pending and nothing otherwise. -/
def Obligations.PaddingCountAndPadding : Prop :=
  ∀ s : State, s.writerReady →
    exec .bwCountPaddingBits s = .next { s with res := BitVec.ofNat 8 (padlen s.bw.acc.length) } ∧
    (s.bw.acc.length = 0 → exec .bwWritePaddingBits s = .next s) ∧
    (0 < s.bw.acc.length → ∀ v : Byte, unpackByte v = s.bw.acc.seq ++ zeros (padlen s.bw.acc.length) →
      (s.bw.dest = .pay → s.payRoom 1 →
        exec .bwWritePaddingBits s = .next { s.setAcc BitSlice.empty with pay := s.pay ++ [v] }) ∧
      (s.bw.dest = .pay → ¬ s.payRoom 1 → ∃ t, exec .bwWritePaddingBits s = .next t ∧ t.st = .fault ∧ t.err = .io) ∧
      (s.bw.dest = .snk →
        (∀ r, s.snk = .ok :: r →
          exec .bwWritePaddingBits s = .next { s.setAcc BitSlice.empty with snk := r, out := s.out ++ [v] }) ∧
        (∀ r, s.snk = .ioFail :: r → ∃ t, exec .bwWritePaddingBits s = .next t ∧ t.st = .fault ∧ t.err = .io)))

/-- `41_bitio.md` R111: a new writer on PAY given the bits q by any mixture of writes, then padded, has written
`pack(q ++ zeros(padlen(|q|)))`; the count taken before is `padlen(|q|)`; a reader over those bytes returns q. -/
def Obligations.WriterLaw : Prop :=
  ∀ (ws : List (Bool ⊕ BitSlice)) (s t : State),
    (∀ u, .inr u ∈ ws → u.wf = true) → s.bw = BitWriter.fresh .pay → s.payRoom (padPack (mixBits ws)).length →
    writeMix ws s = .ok () t →
    exec .bwCountPaddingBits t = .next { t with res := BitVec.ofNat 8 (padlen (mixBits ws).length) } ∧
    ∃ u, exec .bwWritePaddingBits t = .next u ∧ u.pay = s.pay ++ padPack (mixBits ws) ∧ u.bw.acc.length = 0 ∧
      ∃ w, readBits (mixBits ws).length (u.newReader (.pay s.pay.length)) = .ok (mixBits ws) w

/-! ### The tree builder -/

/-- `42_tree_build.md` R120: FREQ is the histogram of INBUF; nothing else changes; no counter overflows up to
MAX_INPUT, and the counters add up to INLEN. That beyond MAX_INPUT, where R120 says nothing, a counter wraps is the
model's (log 25). -/
def Obligations.FrequencyCount : Prop :=
  ∀ s : State, ∃ f : Vector Weight 256, exec .tCount s = .next { s with freq := f } ∧
    (∀ c : Byte, State.freqAt { s with freq := f } c = BitVec.ofNat 64 (s.inbuf.count c)) ∧
    (s.inbuf.length ≤ maxInput →
      (∀ c : Byte, (State.freqAt { s with freq := f } c).toNat = s.inbuf.count c) ∧
      ((List.range 256).map fun i => (State.freqAt { s with freq := f } (BitVec.ofNat 8 i)).toNat).sum =
        s.inbuf.length)

/-- `42_tree_build.md` R122: the tree of no symbol, of one symbol, and of two or more, which is a greedy tree of the
leaves of R121; TREE_VALID is set. For a histogram that no input gives, the sums of weights wrap (log 25). -/
def Obligations.BuildGivesTree : Prop :=
  ∀ s : State, s.nodeRoom (buildTree s.params s.freq).size →
    ∃ (wl : List Tree) (t : Sys2Proof.Tree),
      exec .tBuild s = .next { s with wl := wl, tree := some t, treeValid := true } ∧
      (observed s.freq = [] → t = .leaf 0 (some s.params.synSym)) ∧
      (∀ c, observed s.freq = [c] →
        t = .node (s.freqAt c) (.leaf (s.freqAt c) (some c)) (.leaf 0 (some s.params.synSym))) ∧
      (2 ≤ (observed s.freq).length →
        Greedy ((observed s.freq).map fun c => .leaf (s.freqAt c) (some c)) t)

/-- `42_tree_build.md` R125, items 1 to 4 and 6, for every TIE_RULE: with D ≥ 2 observed symbols the leaves are
exactly those symbols with their counts, every internal weight is the sum of its children's, the root weighs the
sum of the counts, there are 2D - 1 nodes, no leaf is the root, and the depth is at most D - 1. Sums are of 64-bit words:
for a histogram that no input gives they wrap (log 25). -/
def Obligations.TreeProperties : Prop :=
  ∀ (p : Params) (f : Vector Weight 256), 2 ≤ (observed f).length →
    let t := buildTree p f
    t.leafList.Perm ((observed f).map fun c => (f[c.toNat]?.getD 0, some c)) ∧
    t.sumsWeights = true ∧ t.weight = ((List.range 256).map fun i => f[i]?.getD 0).sum ∧
    t.size = 2 * (observed f).length - 1 ∧ t.isNode = true ∧ t.depth ≤ (observed f).length - 1

/-- `42_tree_build.md` R125 item 5, R1 ("builds an optimal prefix tree"): for every TIE_RULE, the weighted length of the
tree built is the least that any tree over the observed symbols has, as long as the counts add up below 2^64. -/
def Obligations.TreeIsOptimal : Prop :=
  ∀ (p : Params) (f : Vector Weight 256) (t : Sys2Proof.Tree), 2 ≤ (observed f).length →
    ((List.range 256).map fun i => (f[i]?.getD 0).toNat).sum < 2 ^ 64 →
    t.symbols.Perm ((observed f).map some) →
    (buildTree p f).cost (fun c => (f[c.toNat]?.getD 0).toNat) ≤ t.cost (fun c => (f[c.toNat]?.getD 0).toNat)

/-- `42_tree_build.md` R124, R126, R127: every TIE_RULE of the model merges a pair that R123 allows (log 13). The reference
rule of R126, with the working list in ascending `ord`: the list begins with the leaves in ascending order of their
symbols; the right child is the last of the lightest entries, the left child the last of the lightest of the others;
their parent comes to the front and the entries that stay keep their order. -/
def Obligations.TieRuleIsAllowed : Prop :=
  (∀ f : Vector Weight 256,
    initialWL f = ((observed f).map fun c => .leaf (f[c.toNat]?.getD 0) (some c)) ∧
      (observed f).Pairwise (fun a b => a.toNat < b.toNat)) ∧
  ∀ (p : Params) (wl : List Sys2Proof.Tree), 2 ≤ wl.length →
    mergeAllowed wl (tiePair p wl) = true ∧
    (p.tie = [] → tiePair p wl = referencePair wl) ∧
    ∃ x y, wl[(referencePair wl).1]? = some x ∧ wl[(referencePair wl).2]? = some y ∧
      (referencePair wl).1 ≠ (referencePair wl).2 ∧
      (∀ k z, wl[k]? = some z → k ≠ (referencePair wl).2 →
        y.weight < z.weight ∨ (y.weight = z.weight ∧ k < (referencePair wl).2)) ∧
      (∀ k z, wl[k]? = some z → k ≠ (referencePair wl).2 → k ≠ (referencePair wl).1 →
        x.weight < z.weight ∨ (x.weight = z.weight ∧ k < (referencePair wl).1)) ∧
      ∃ rest, mergeAt wl (referencePair wl) = .node (x.weight + y.weight) x y :: rest ∧
        rest.Sublist wl ∧ wl.Perm (x :: y :: rest)

/-! ### Serialization -/

/-- `43_tree_serial.md` R140: the shape word of TREE goes to the bit writer, after what is pending. -/
def Obligations.WriteShapeResult : Prop :=
  ∀ (s : State) (t : Sys2Proof.Tree), s.tree = some t → s.writerReady →
    ∃ (bytes : List Byte) (u : BitSlice), u.wf = true ∧ u.length ≤ 7 ∧
      unpack bytes ++ u.seq = s.bw.acc.seq ++ t.shapeBits ∧
      (s.bw.dest = .pay → s.payRoom bytes.length →
        exec .tWriteShape s = .next { s.setAcc u with pay := s.pay ++ bytes }) ∧
      (s.bw.dest = .pay → 0 < bytes.length → ¬ s.payRoom bytes.length →
        ∃ w, exec .tWriteShape s = .next w ∧ w.st = .fault ∧ w.err = .io) ∧
      (s.bw.dest = .snk →
        (∀ r, s.snk = List.replicate bytes.length .ok ++ r →
          exec .tWriteShape s = .next { s.setAcc u with snk := r, out := s.out ++ bytes }) ∧
        (∀ k r, k < bytes.length → s.snk = List.replicate k .ok ++ .ioFail :: r →
          ∃ w, exec .tWriteShape s = .next w ∧ w.st = .fault ∧ w.err = .io))

/-- `43_tree_serial.md` R141, `30_encoding.md` R64: one bit per node, 2L - 1 in all; in a proper prefix the ones are at
least the zeros, in the whole word the zeros are one more; no shape word is a proper prefix of another. -/
def Obligations.ShapeWordProperties : Prop :=
  ∀ t : Sys2Proof.Tree,
    t.shapeBits.length = t.size ∧ t.shapeBits.length = 2 * t.nleaves - 1 ∧
    t.shapeBits.count false = t.shapeBits.count true + 1 ∧
    (∀ n, n < t.shapeBits.length → (t.shapeBits.take n).count false ≤ (t.shapeBits.take n).count true) ∧
    ∀ u : Sys2Proof.Tree, t.shapeBits <+: u.shapeBits → t.shapeBits = u.shapeBits

/-- `43_tree_serial.md` R143: the symbols of the leaves, in preorder, are appended to PAY; the byte that would
exceed PAYLOAD_CAP is ERR_IO (R168). -/
def Obligations.WriteLeavesResult : Prop :=
  ∀ (s : State) (t : Sys2Proof.Tree) (vs : List Byte), s.tree = some t → t.symbols = vs.map some →
    (s.payRoom vs.length → exec .tWriteLeaves s = .next { s with pay := s.pay ++ vs }) ∧
    (¬ s.payRoom vs.length → ∃ u, exec .tWriteLeaves s = .next u ∧ u.st = .fault ∧ u.err = .io)

/-- `43_tree_serial.md` R146: CW[c] is the path to the leaf of c visited last, `none` where c has no leaf; a tree with a
node at depth 65 or more is ERR_CAPACITY. -/
def Obligations.BuildTableResult : Prop :=
  ∀ (s : State) (t : Sys2Proof.Tree), s.tree = some t → t.complete = true →
    (t.depth ≤ 64 →
      ∃ cw last, exec .tBuildTable s = .next { s with cw := cw, cwacc := last } ∧
        ∀ c : Byte,
          (∀ q, t.codeOf c = some q →
            ∃ u : BitSlice, State.cwAt { s with cw := cw } c = some u ∧ u.wf = true ∧ u.seq = q) ∧
          (t.codeOf c = none → State.cwAt { s with cw := cw } c = none)) ∧
    (64 < t.depth → ∃ u, exec .tBuildTable s = .next u ∧ u.st = .fault ∧ u.err = .capacity)

/-- `43_tree_serial.md` R147, `30_encoding.md` R70, R71: each codeword is the path to its leaf, and no codeword is a
prefix of the codeword of another leaf. -/
def Obligations.CodewordsAreAPrefixCode : Prop :=
  ∀ t : Sys2Proof.Tree,
    (∀ e ∈ t.codes [], ∃ w, t.nodeAt e.2 = some (.leaf w e.1)) ∧
    (t.codes []).Pairwise fun a b => ¬ a.2 <+: b.2 ∧ ¬ b.2 <+: a.2

/-- `43_tree_serial.md` R148: a shape word at the front of the reader's bits becomes the tree it describes, and exactly
its bits are consumed; where the bits end before the grammar is satisfied, ERR_TRUNCATED. -/
def Obligations.ReadShapeResult : Prop :=
  ∀ (s : State) (p : Nat), s.br.origin = .pay p →
    (∀ (t : Sys2Proof.Tree) (rest : List Bool), s.nodeRoom t.size → s.readerBits = t.shapeBits ++ rest →
      ∃ br, exec .tReadShape s = .next { s with br := br, tree := some t.skeleton } ∧
        State.readerBits { s with br := br } = rest) ∧
    (s.nodeRoom s.readerBits.length → (∀ t : Sys2Proof.Tree, ¬ t.shapeBits <+: s.readerBits) →
      ∃ u, exec .tReadShape s = .next u ∧ u.st = .fault ∧ u.err = .truncated)

/-- `43_tree_serial.md` R149, R150: the two shape bits as operations of their own. That the subtree read is put into TREE
is the model's choice (log 19). -/
def Obligations.ShapeBitRows : Prop :=
  ∀ s : State,
    (s.nodeRoom 1 → exec .sLeaf s = .next { s with tree := some (.leaf 0 none) }) ∧
    ∀ p, s.br.origin = .pay p →
      (∀ (l r : Sys2Proof.Tree) (rest : List Bool), s.nodeRoom (1 + l.size + r.size) → s.readerBits = l.shapeBits ++ (r.shapeBits ++ rest) →
        ∃ br, exec .sInternal s = .next { s with br := br, tree := some (.node 0 l.skeleton r.skeleton) } ∧
          State.readerBits { s with br := br } = rest) ∧
      (s.nodeRoom (1 + s.readerBits.length) → (∀ l r : Sys2Proof.Tree, ¬ l.shapeBits ++ r.shapeBits <+: s.readerBits) →
        ∃ u, exec .sInternal s = .next u ∧ u.st = .fault ∧ u.err = .truncated)

/-- `43_tree_serial.md` R151: one byte of PAY per leaf in preorder, shape and the weight of every node kept; any other length is ERR_LEAF_COUNT. -/
def Obligations.AssignLeavesResult : Prop :=
  ∀ (s : State) (t : Sys2Proof.Tree), s.tree = some t →
    (s.pay.length = t.nleaves →
      ∃ u : Sys2Proof.Tree, exec .tAssignLeaves s = .next { s with tree := some u } ∧
        u.symbols = s.pay.map some ∧ u.shapeBits = t.shapeBits ∧ u.dropSymbols = t.dropSymbols) ∧
    (s.pay.length ≠ t.nleaves → ∃ u, exec .tAssignLeaves s = .next u ∧ u.st = .fault ∧ u.err = .leafCount)

/-- `43_tree_serial.md` R152: reading back the shape word of a tree, followed by any bits, and then its symbols gives
the tree without its weights. -/
def Obligations.SerializationRoundTrip : Prop :=
  ∀ (s : State) (p : Nat) (t : Sys2Proof.Tree) (vs : List Byte) (rest : List Bool),
    s.br.origin = .pay p → s.nodeRoom t.size → s.readerBits = t.shapeBits ++ rest →
    t.symbols = vs.map some →
    ∃ u v, exec .tReadShape s = .next u ∧ exec .tAssignLeaves { u with pay := vs } = .next v ∧
      v.tree = some t.dropWeights

/-! ### The block framer -/

/-- `44_block_framer.md` R160: id, length and payload go to the sink in this order; the first write that fails is ERR_IO
and the bytes written before it stay written (`60_exceptions.md` R221). Where the sink has answered only for the first k
bytes, those are written (`20_memory.md` R42) and the operation waits (R43); the form of the waiting, `held`, is the
model's choice (log 2). -/
def Obligations.BlockWriteResult : Prop :=
  ∀ (id : BlockId) (s : State), s.pay.length < 2 ^ 64 →
    let bytes := id.code :: le64 (BitVec.ofNat 64 s.pay.length) ++ s.pay
    (∀ r, s.snk = List.replicate bytes.length .ok ++ r →
      exec (.blkWrite id) s = .next { s with snk := r, out := s.out ++ bytes }) ∧
    (∀ k r, k < bytes.length → s.snk = List.replicate k .ok ++ .ioFail :: r →
      ∃ t, exec (.blkWrite id) s = .next t ∧ t.st = .fault ∧ t.err = .io ∧ s.out ++ bytes.take k <+: t.out) ∧
    (∀ k, k < bytes.length → s.snk = List.replicate k .ok →
      ∃ t, exec (.blkWrite id) s = .next t ∧ t.held.isSome = true ∧ t.snk = [] ∧ t.out = s.out ++ bytes.take k)

/-- `44_block_framer.md` R163, R164, R165: a block with the expected id is taken whole into PAY; another id is
ERR_BLOCK_ID as soon as it is read, and stays in BLK_ID; the end of the source inside the block is ERR_TRUNCATED, a
failing source ERR_IO. That SRC_EOS keeps the EOS (`20_memory.md` R41) after that FAULT is the model's choice (log 8,
log 35). -/
def Obligations.BlockReadResult : Prop :=
  ∀ (id : BlockId) (s : State), s.srcEos = false →
    (∀ v r, s.src = .byte v :: r → v ≠ id.code →
      ∃ t, exec (.blkRead id) s = .next t ∧ t.st = .fault ∧ t.err = .blockId ∧ t.blkId = v) ∧
    ∀ len payload : List Byte, len.length = 8 → leNat len = payload.length →
      s.clearPay.payRoom payload.length →
      (∀ r, s.src = (id.code :: (len ++ payload)).map .byte ++ r →
        exec (.blkRead id) s =
          .next { s with src := r, blkId := id.code, blkLen := unle64 len, pay := payload }) ∧
      ∀ k r, k < 9 + payload.length →
        (s.src = ((id.code :: (len ++ payload)).take k).map .byte ++ .eos :: r →
          ∃ t, exec (.blkRead id) s = .next t ∧ t.st = .fault ∧ t.err = .truncated ∧ t.srcEos = true) ∧
        (s.src = ((id.code :: (len ++ payload)).take k).map .byte ++ .ioFail :: r →
          ∃ t, exec (.blkRead id) s = .next t ∧ t.st = .fault ∧ t.err = .io)

/-- `30_encoding.md` R67, `20_memory.md` R44: the length is assembled low byte first, every 8-byte pattern is a legal
length, and the two directions are inverse. -/
def Obligations.LengthIsLittleEndian : Prop :=
  (∀ bytes : List Byte, bytes.length = 8 → (unle64 bytes).toNat = leNat bytes ∧ le64 (unle64 bytes) = bytes) ∧
  ∀ n : Word, unle64 (le64 n) = n ∧ (le64 n).length = 8

/-! ### The tree walk and the block rows -/

/-- `46_decode.md` R201, R202, R200: the two path bits as operations of their own: CUR moves to the child; a leaf reached
gives its symbol to the sink and puts CUR back to the root; at a leaf there is no child. R197: the padding-count byte
as an operation of its own. That these rows stand alone is the model's choice (log 19), and so is that PADCNT keeps an
impossible count after the FAULT (log 8). -/
def Obligations.PathBitAndPadcntRows : Prop :=
  (∀ (s : State) (t : Sys2Proof.Tree), s.treeValid = true → s.tree = some t →
    (∀ w l r, t.nodeAt s.cur = some (.node w l r) →
      (∀ lw ll lr, l = .node lw ll lr → exec .pLeft s = .next { s with cur := s.cur ++ [false] }) ∧
      (∀ rw rl rr, r = .node rw rl rr → exec .pRight s = .next { s with cur := s.cur ++ [true] }) ∧
      (∀ lw v k, l = .leaf lw (some v) → s.snk = .ok :: k →
        exec .pLeft s = .next { s with cur := [], snk := k, out := s.out ++ [v] }) ∧
      (∀ rw v k, r = .leaf rw (some v) → s.snk = .ok :: k →
        exec .pRight s = .next { s with cur := [], snk := k, out := s.out ++ [v] })) ∧
    (∀ w x, t.nodeAt s.cur = some (.leaf w x) →
      exec .pLeft s = .next (s.raise .treeMismatch) ∧ exec .pRight s = .next (s.raise .treeMismatch))) ∧
  ∀ (p : BitVec 3) (s : State),
    (s.pay = [] → exec (.padcnt p) s = .next (s.raise .truncated)) ∧
    (s.pay ≠ [] → p.toNat ≤ 8 * (s.pay.length - 1) → exec (.padcnt p) s =
      .next { s with padcnt := p.setWidth 8, remaining := 8 * (s.pay.length - 1) - p.toNat }) ∧
    (s.pay ≠ [] → 8 * (s.pay.length - 1) < p.toNat → exec (.padcnt p) s =
      .next ({ s with padcnt := p.setWidth 8 }.raise .badPadding))

/-- `46_decode.md` R199 to R202: one step of the walk, over a payload-bound reader whose next bit is b. -/
def Obligations.WalkBitResult : Prop :=
  ∀ (s : State) (t : Sys2Proof.Tree) (p : Nat) (b : Bool) (bits : List Bool),
    s.treeValid = true → s.tree = some t → s.br.origin = .pay p → s.readerBits = b :: bits → 0 < s.remaining →
    ∃ br, State.readerBits { s with br := br } = bits ∧
      (∀ w l r, t.nodeAt s.cur = some (.node w l r) →
        (∀ cw cl cr, (if b then r else l) = .node cw cl cr → exec .dWalkBit s =
          .next { s with br := br, cur := s.cur ++ [b], remaining := s.remaining - 1 }) ∧
        (∀ cw v, (if b then r else l) = .leaf cw (some v) →
          (∀ k, s.snk = .ok :: k → exec .dWalkBit s =
            .next { s with br := br, cur := [], remaining := s.remaining - 1, snk := k, out := s.out ++ [v] }) ∧
          (∀ k, s.snk = .ioFail :: k → ∃ u, exec .dWalkBit s = .next u ∧ u.st = .fault ∧ u.err = .io))) ∧
      (∀ w x, t.nodeAt s.cur = some (.leaf w x) →
        exec .dWalkBit s = .next ({ s with br := br }.raise .treeMismatch))

/-- `46_decode.md` R187, R188, R190: the SHAPE block's payload becomes the tree skeleton, bits after the word are ignored,
the reader is gone (no bit of it is left), and TREE_VALID stays as it is; the LEAVES block's payload gives the leaves
their symbols and sets TREE_VALID. That these rows can be run alone is the model's choice (log 19). -/
def Obligations.ShapeAndLeavesBlocks : Prop :=
  ∀ s : State,
    ((∀ (t : Sys2Proof.Tree) (rest : List Bool), s.nodeRoom t.size → unpack s.pay = t.shapeBits ++ rest →
        ∃ br, exec .blkShape s = .next { s with br := br, tree := some t.skeleton } ∧ br.rem = 0) ∧
      (s.nodeRoom (8 * s.pay.length) → (∀ t : Sys2Proof.Tree, ¬ t.shapeBits <+: unpack s.pay) →
        ∃ u, exec .blkShape s = .next u ∧ u.st = .fault ∧ u.err = .truncated)) ∧
    ∀ t : Sys2Proof.Tree, s.tree = some t →
      (s.pay.length = t.nleaves →
        ∃ u : Sys2Proof.Tree, exec .blkLeaves s = .next { s with tree := some u, treeValid := true } ∧
          u.symbols = s.pay.map some ∧ u.shapeBits = t.shapeBits ∧ u.dropSymbols = t.dropSymbols) ∧
      (s.pay.length ≠ t.nleaves → ∃ u, exec .blkLeaves s = .next u ∧ u.st = .fault ∧ u.err = .leafCount)

/-- `46_decode.md` R195 to R204: the processing of a DATA block: the tree check, the padding count, and the walk over the
meaningful bits, which emits one symbol per leaf reached; a partial codeword at the end and the padding bits are
ignored. That PADCNT keeps an impossible count after the FAULT is the model's choice (log 8). -/
def Obligations.DataBlock : Prop :=
  ∀ s : State,
    (s.treeValid = false → exec .blkData s = .next (s.raise .noTree)) ∧
    ∀ t : Sys2Proof.Tree, s.treeValid = true → s.tree = some t → t.complete = true →
      (s.pay = [] → exec .blkData s = .next (s.raise .truncated)) ∧
      ∀ (pad : Byte) (packed : List Byte), s.pay = pad :: packed →
        (7 < pad.toNat ∨ 8 * packed.length < pad.toNat →
          exec .blkData s = .next ({ s with padcnt := pad }.raise .badPadding)) ∧
        (pad.toNat ≤ 7 → pad.toNat ≤ 8 * packed.length →
          (t.isNode = true ∨ 8 * packed.length = pad.toNat →
            ∀ r, s.snk = List.replicate
                (walkOutput t [] ((unpack packed).take (8 * packed.length - pad.toNat))).1.length .ok ++ r →
              ∃ br, exec .blkData s =
                .next { s with
                  padcnt := pad, remaining := 0, br := br, snk := r,
                  cur := (walkOutput t [] ((unpack packed).take (8 * packed.length - pad.toNat))).2,
                  out := s.out ++ (walkOutput t [] ((unpack packed).take (8 * packed.length - pad.toNat))).1 }) ∧
          (t.isNode = false → pad.toNat < 8 * packed.length →
            ∃ u, exec .blkData s = .next u ∧ u.st = .fault ∧ u.err = .treeMismatch))

/-- `46_decode.md` R205: after the DATA block the source is asked once more: its end lets the call end, a byte is
ERR_BLOCK_ID whatever it is, a failure is ERR_IO; what the walk has written stays written, and nothing more is claimed of
either stream after the FAULT (`60_exceptions.md` R221; log 12). Without an answer the call waits there (`20_memory.md`
R43); the form of the waiting, `held`, is the model's choice (log 2). -/
def Obligations.EndProbe : Prop :=
  ∀ s : State, s.host = [] → s.st = .busy → s.phase = .dTail → s.held = none →
    (s.srcEos = true ∨ (∃ r, s.src = .eos :: r) →
      ∃ t, step s = .next t ∧ t.st = .busy ∧ t.phase = .dEnd ∧ t.srcEos = true ∧ t.out = s.out) ∧
    (s.srcEos = false →
      (∀ v r, s.src = .byte v :: r →
        ∃ t, step s = .next t ∧ t.st = .fault ∧ t.err = .blockId ∧ s.out <+: t.out) ∧
      (∀ r, s.src = .ioFail :: r → ∃ t, step s = .next t ∧ t.st = .fault ∧ t.err = .io ∧ s.out <+: t.out) ∧
      (s.src = [] → ∃ t, step s = .next t ∧ t.st = .busy ∧ t.phase = .dTail ∧ t.held.isSome = true))

/-! ### Where operations stop, and frames -/

/-- Where an operation has no meaning the model stops by name (R95 and the model's choices of log 20): too few bits to
pop; no meaningful bit to walk (R199 "require"); no codeword in the table entry (R178); a leaf whose symbol is unset
where the symbol is needed (R24, R35), on any tree, by T.writeLeaves, T.buildTable, P_LEFT, P_RIGHT, D.walkBit and
BLK_DATA; a CUR that names no node (R14, R35). The operations that need a tree raise ERR_NO_TREE where there is none
(R196, R218; log 10). -/
def Obligations.StopsByName : Prop :=
  (∀ (r : SliceReg) (s : State), (s.slice r).length < 8 → exec (.bsPopByte r) s = .refused .popUnderflow) ∧
  (∀ s : State, s.treeValid = true → s.tree.isSome = true → s.remaining = 0 →
    exec .dWalkBit s = .refused .noBitsRemaining) ∧
  (∀ (s : State) (c : Byte) (r : SliceReg), s.cwAt c = none →
    exec (.bsAppendSlice r (.cw c)) s = .refused .noCodeword ∧
      exec (.bwWriteSlice (.cw c)) s = .refused .noCodeword) ∧
  (∀ (s : State) (t : Sys2Proof.Tree), s.tree = some t →
    (∀ (vs : List Byte) (rest : List (Option Byte)), t.symbols = vs.map some ++ none :: rest →
      (vs = [] ∨ s.payRoom vs.length) → exec .tWriteLeaves s = .fault .unsetSymbol) ∧
    (t.complete = false → t.depth ≤ 64 → exec .tBuildTable s = .fault .unsetSymbol)) ∧
  (∀ (s : State) (t : Sys2Proof.Tree), s.treeValid = true → s.tree = some t →
    (∀ (w : Weight) (l r : Sys2Proof.Tree), t.nodeAt s.cur = some (.node w l r) →
      (∀ u, l = .leaf u none → exec .pLeft s = .fault .unsetSymbol) ∧
      (∀ u, r = .leaf u none → exec .pRight s = .fault .unsetSymbol) ∧
      (∀ u p b bits, s.br.origin = .pay p → s.readerBits = b :: bits → 0 < s.remaining →
        (if b then r else l) = .leaf u none → exec .dWalkBit s = .fault .unsetSymbol)) ∧
    (t.nodeAt s.cur = none →
      exec .pLeft s = .fault .danglingCursor ∧ exec .pRight s = .fault .danglingCursor ∧
      (∀ p b bits, s.br.origin = .pay p → s.readerBits = b :: bits → 0 < s.remaining →
        exec .dWalkBit s = .fault .danglingCursor)) ∧
    (∀ (pad : Byte) (packed : List Byte) (pre post : List Bool) (b : Bool) (w : Weight) (k : List SnkAns),
      s.pay = pad :: packed → pad.toNat ≤ 7 → pad.toNat ≤ 8 * packed.length →
      (unpack packed).take (8 * packed.length - pad.toNat) = pre ++ b :: post →
      t.nodeAt ((walkOutput t [] pre).2 ++ [b]) = some (.leaf w none) →
      s.snk = List.replicate (walkOutput t [] pre).1.length .ok ++ k →
        exec .blkData s = .fault .unsetSymbol)) ∧
  (∀ s : State, s.tree = none →
    exec .tWriteShape s = .next (s.raise .noTree) ∧ exec .tWriteLeaves s = .next (s.raise .noTree) ∧
      exec .tBuildTable s = .next (s.raise .noTree) ∧ exec .tAssignLeaves s = .next (s.raise .noTree) ∧
      exec .blkLeaves s = .next (s.raise .noTree)) ∧
  (∀ s : State, s.treeValid = false ∨ s.tree = none →
    exec .pLeft s = .next (s.raise .noTree) ∧ exec .pRight s = .next (s.raise .noTree) ∧
      exec .dWalkBit s = .next (s.raise .noTree) ∧ exec .blkData s = .next (s.raise .noTree))

/-- `44_block_framer.md` R168: the node, the payload byte or the input byte that would exceed a finite capacity ends the
call with ERR_IO, wherever the model checks one (where that is: log 14). The writes of BitWriter to PAY: WriteBitResult,
WriteSliceResult, PaddingCountAndPadding, WriteShapeResult. -/
def Obligations.CapacityExceededIsIoError : Prop :=
  ∀ (s : State) (c : Nat),
    (s.params.nodeCap = some c →
      (c < (buildTree s.params s.freq).size → exec .tBuild s = .next (s.raise .io)) ∧
      (∀ p (t : Sys2Proof.Tree) (rest : List Bool), s.br.origin = .pay p → c < t.size →
        s.readerBits = t.shapeBits ++ rest → ∃ u, exec .tReadShape s = .next u ∧ u.st = .fault ∧ u.err = .io) ∧
      (∀ (t : Sys2Proof.Tree) (rest : List Bool), c < t.size → unpack s.pay = t.shapeBits ++ rest →
        ∃ u, exec .blkShape s = .next u ∧ u.st = .fault ∧ u.err = .io) ∧
      (c = 0 → exec .sLeaf s = .next (s.raise .io)) ∧
      (∀ p (l r : Sys2Proof.Tree) (rest : List Bool), s.br.origin = .pay p → c < 1 + l.size + r.size →
        s.readerBits = l.shapeBits ++ (r.shapeBits ++ rest) →
          ∃ u, exec .sInternal s = .next u ∧ u.st = .fault ∧ u.err = .io)) ∧
    (s.params.payloadCap = some c →
      (∀ (t : Sys2Proof.Tree) (vs : List Byte), s.tree = some t → t.symbols = vs.map some →
        c < s.pay.length + vs.length → ∃ u, exec .tWriteLeaves s = .next u ∧ u.st = .fault ∧ u.err = .io) ∧
      (∀ (id : BlockId) (len payload : List Byte) (r : List SrcAns), s.srcEos = false → len.length = 8 →
        payload.length ≤ leNat len → c < payload.length →
        s.src = (id.code :: (len ++ payload)).map .byte ++ r →
          ∃ u, exec (.blkRead id) s = .next u ∧ u.st = .fault ∧ u.err = .io) ∧
      (c = 0 → s.st = .busy → s.phase = .eData → s.pos = 0 → s.host = [] → s.held = none →
        ∃ t, step s = .next t ∧ t.st = .fault ∧ t.err = .io)) ∧
    (s.params.inbufCap = some c → c ≤ s.inbuf.length → s.inbuf.length < maxInput →
      s.st = .busy → s.phase = .eRead → s.host = [] → s.held = none → s.srcEos = false → ∀ v r, s.src = .byte v :: r →
        ∃ t, step s = .next t ∧ t.st = .fault ∧ t.err = .io)

/-- What no operation but the two commands does: it leaves the parameters, the host's events, CMD.MODE, PHASE and the place
in it as they are; of the streams, answers are only taken and bytes only given; STATE stays or becomes FAULT. Where it
does not end in FAULT, INBUF (`10_state.md` R30: written in E_READ only) and ERR stay as they are, and PAY only grows,
but for `BLK.read`, which overwrites it (`10_state.md` R31). Where the operation ends in FAULT no rule gives CMD.MODE,
PHASE and the place a value (R13, R35, `60_exceptions.md` R221): that they stay there too is the model's choice (log 8,
log 24), the place being its own (log 27); of the streams only the suffixes and the prefix are said there (log 12). -/
def Obligations.OperationFrame : Prop :=
  ∀ (i : Instr) (s t : State), i ≠ .encode → i ≠ .decode → exec i s = .next t →
    t.params = s.params ∧ t.host = s.host ∧ t.cmdMode = s.cmdMode ∧ t.phase = s.phase ∧ t.pos = s.pos ∧
    t.idx = s.idx ∧ t.src <:+ s.src ∧ t.snk <:+ s.snk ∧ s.out <+: t.out ∧ (t.st = s.st ∨ t.st = .fault) ∧
    (t.st ≠ .fault → t.inbuf = s.inbuf ∧ t.err = s.err ∧ t.freeCtr = s.freeCtr ∧
      ((∀ e, i ≠ .blkRead e) → s.pay <+: t.pay))

/-- Frames of the bit operations (R92 to R95, R101 to R103, R106 to R109, R140), where no error is raised: only the
named elements change. PAY is stored to at PAYLEN and above only, and only by a writer bound to PAY; the sink only
by a writer bound to the sink; the source is read only by a reader bound to it. -/
def Obligations.BitOperationFrame : Prop :=
  ∀ s t : State, s.st ≠ .fault → t.st ≠ .fault →
    (∀ r b, exec (.bsAppendBit r b) s = .next t → t = s.setSlice r (t.slice r)) ∧
    (∀ r x, exec (.bsAppendSlice r x) s = .next t → t = s.setSlice r (t.slice r)) ∧
    (∀ r, exec (.bsPadToByte r) s = .next t → t = (s.setSlice r (t.slice r)).setRes t.res) ∧
    (∀ r, exec (.bsPopByte r) s = .next t → t = (s.setSlice r (t.slice r)).setRes t.res) ∧
    (exec .brReadBit s = .next t →
      t = { s with br := t.br, res := t.res, src := t.src, srcEos := t.srcEos, held := t.held } ∧
      (∀ p, s.br.origin = .pay p → t.src = s.src ∧ t.srcEos = s.srcEos ∧ t.held = s.held)) ∧
    (exec .brCountUnflushedBits s = .next t → t = { s with res := t.res }) ∧
    (exec .brFlushBits s = .next t → t = { s with br := t.br }) ∧
    (exec .bwCountPaddingBits s = .next t → t = { s with res := t.res }) ∧
    (∀ i, (i = .bwWritePaddingBits ∨ i = .tWriteShape ∨ (∃ b, i = .bwWriteBit b) ∨ ∃ x, i = .bwWriteSlice x) →
      exec i s = .next t →
      t = { s.setAcc t.bw.acc with pay := t.pay, snk := t.snk, out := t.out, held := t.held } ∧
      (∀ k, k < s.pay.length → t.pay[k]? = s.pay[k]?) ∧
      (s.bw.dest = .pay → t.snk = s.snk ∧ t.out = s.out ∧ t.held = s.held) ∧
      (s.bw.dest = .snk → t.pay = s.pay))

/-- Frames of the tree, block and walk operations, where no error is raised: only the named elements change. -/
def Obligations.TreeAndBlockFrame : Prop :=
  ∀ s t : State, s.st ≠ .fault → t.st ≠ .fault →
    (exec .tCount s = .next t → t = { s with freq := t.freq }) ∧
    (exec .tBuild s = .next t → t = { s with wl := t.wl, tree := t.tree, treeValid := t.treeValid }) ∧
    (exec .tWriteLeaves s = .next t → t = { s with pay := t.pay } ∧ ∀ k, k < s.pay.length → t.pay[k]? = s.pay[k]?) ∧
    (exec .tBuildTable s = .next t → t = { s with cw := t.cw, cwacc := t.cwacc }) ∧
    (∀ i, (i = .tReadShape ∨ i = .sInternal) → exec i s = .next t →
      t = { s with br := t.br, tree := t.tree, src := t.src, srcEos := t.srcEos, held := t.held }) ∧
    (exec .sLeaf s = .next t → t = { s with tree := t.tree }) ∧
    (exec .tAssignLeaves s = .next t → t = { s with tree := t.tree }) ∧
    (exec .blkShape s = .next t → t = { s with br := t.br, tree := t.tree }) ∧
    (exec .blkLeaves s = .next t → t = { s with tree := t.tree, treeValid := t.treeValid }) ∧
    (∀ id, exec (.blkWrite id) s = .next t →
      t = { s with snk := t.snk, out := t.out, held := t.held }) ∧
    (∀ id, exec (.blkRead id) s = .next t →
      t = { s with src := t.src, srcEos := t.srcEos, blkId := t.blkId, blkLen := t.blkLen, pay := t.pay,
                   held := t.held }) ∧
    (∀ i, (i = .pLeft ∨ i = .pRight) → exec i s = .next t →
      t = { s with cur := t.cur, snk := t.snk, out := t.out, held := t.held }) ∧
    (∀ p, exec (.padcnt p) s = .next t → t = { s with padcnt := t.padcnt, remaining := t.remaining }) ∧
    (exec .dWalkBit s = .next t →
      t = { s with cur := t.cur, remaining := t.remaining, br := t.br, snk := t.snk, out := t.out,
                   src := t.src, srcEos := t.srcEos, held := t.held }) ∧
    (exec .blkData s = .next t →
      t = { s with cur := t.cur, remaining := t.remaining, br := t.br, padcnt := t.padcnt, snk := t.snk,
                   out := t.out, held := t.held })

/-! ### The step -/

/-- What a step runs (the host's events and the requests of unit operations: log 3, log 4, log 5). A command requested as
a frame is run at the state without the request. Any other operation is run so too, if no operation waits; if one does,
it is gone on with first, and the request stays (R51). With no host event, an operation that waits is taken up again
(log 2); else, in a call, the operation that its place in the pipeline issues is run (`45_encode.md` R170,
`46_decode.md` R185), after what the phase prepares and before what it does next; an operation that waits stays at its
place, and an error ends the sequence at once (R13). -/
def Obligations.StepRunsDecodedOperation : Prop :=
  (∀ (s : State) (frame : List Byte) (rest : List HostEvent) (i : Instr) (r : List Byte),
    s.host = .request frame :: rest → decode frame = .ok (i, r) →
    (i.isCommand = true → step s = exec i { s with host := rest }) ∧
    (i.isCommand = false → s.held = none → step s = mapNext (State.keepJob i) (exec i { s with host := rest })) ∧
    (i.isCommand = false → s.held.isSome = true → step s = goOn s)) ∧
  (∀ (s : State) (h : Held) (i : Instr), s.host = [] → s.held = some h → h.job = some i →
    step s = mapNext (fun t => s.rejoin (t.keepJob i)) (exec i s.takeUp)) ∧
  ∀ (s : State) (i : Instr), s.host = [] → s.st = .busy → s.noJob → nextOp s.takeUp = some i →
    (∀ t, exec i (prepare s.takeUp) = .next t →
      (t.held.isSome = true → step s = .next (s.rejoin t)) ∧
      (t.held = none → t.st = .busy → step s = .next (s.rejoin (advance t))) ∧
      (t.held = none → t.st ≠ .busy → step s = .next (s.rejoin t))) ∧
    (∀ f, exec i (prepare s.takeUp) = .fault f → step s = .fault f) ∧
    (∀ f, exec i (prepare s.takeUp) = .refused f → step s = .refused f)

/-- The patterns of `30_encoding.md` R62, R63, R71, R75, R76, one per format and unit, decode to their operations
(frame bytes after the pattern: log 5). -/
def Obligations.PatternsDecode : Prop :=
  decode [0x01, 1] = .ok (.decode, []) ∧ decode [0x02, 2] = .ok (.blkData, []) ∧
  decode [0x01, 3] = .ok (.sInternal, []) ∧ decode [0x00, 4] = .ok (.pLeft, []) ∧
  decode [0x07, 5] = .ok (.padcnt 7, []) ∧ decode [0x03, 6, 0] = .ok (.bsPopByte .acc, []) ∧
  decode [0x0A, 6] = .ok (.brFlushBits, []) ∧ decode [0x13, 6] = .ok (.bwWritePaddingBits, []) ∧
  decode [0x19, 6] = .ok (.tBuild, []) ∧ decode [0x24, 6] = .ok (.tAssignLeaves, []) ∧
  decode [0x29, 6, 2] = .ok (.blkRead .data, []) ∧ decode [0x30, 6] = .ok (.dWalkBit, []) ∧
  decode [0x03, 2] = .error .unknownPattern ∧ decode [0x08, 5] = .error .unknownPattern ∧
  decode [0x04, 6] = .error .unknownPattern

/-- Decoding the frame of a well-formed operation gives that operation back, and the bytes after it. -/
def Obligations.DecodeOfEncode : Prop :=
  ∀ (i : Instr) (rest : List Byte), i.wf = true → decode (encode i ++ rest) = .ok (i, rest)

/-- What is decoded is well formed, and a frame that names its format is the only one of its operation. -/
def Obligations.EncodeOfDecode : Prop :=
  ∀ (p f : Byte) (ops rest : List Byte) (i : Instr), decode (p :: f :: ops) = .ok (i, rest) →
    i.wf = true ∧ (f ≠ 0 → encode i ++ rest = p :: f :: ops)

/-! ### Whole-machine rules -/

/-- The invariants hold at reset. -/
def Obligations.InvariantsHoldAtReset : Prop := State.reset.Inv ∧ State.reset.CallInv ∧ State.reset.hostLegal = true

/-- Every step, whatever the host requests, keeps every bit slice canonical (`40_bitslice.md` R90), the reader below eight
unread bits (`41_bitio.md` R102), and STATUS.ERR 0 exactly when STATE is not FAULT (`10_state.md` R12); the same of what
an operation that waits started from (log 2). -/
def Obligations.StepKeepsInvariant : Prop :=
  ∀ s t : State, s.Inv → step s = .next t → t.Inv

/-- With a host that keeps to its ports, every step keeps the facts that the pipeline needs at each of its places: the
tree is built from the whole input before it is used (R245), the table before the data (R250), the shape before the
leaves before the data (R247), the walk never asks for a bit that is not there (R198), at most seven bits are
pending (R110). -/
def Obligations.StepKeepsCallInvariant : Prop :=
  ∀ s t : State, s.CallInv → s.hostLegal = true → step s = .next t → t.CallInv ∧ t.hostLegal = true

/-- With a host that keeps to its ports, the machine never stops, but for input beyond MAX_INPUT (D6): every step of
every call answers a next state. -/
def Obligations.CallsNeverStop : Prop :=
  ∀ s : State, s.CallInv → s.hostLegal = true →
    (∃ t, step s = .next t) ∨
      (step s = .fault .inputTooLong ∧ s.phase = .eRead ∧ maxInput ≤ s.inbuf.length)

/-- `10_state.md` R13: a call passes through its phases in order, never backwards and never skipping one. -/
def Obligations.PhasesRunInOrder : Prop :=
  ∀ s t : State, s.st = .busy → step s = .next t → t.st = .busy →
    t.phase = s.phase ∨ s.phase.succ = some t.phase

/-- `60_exceptions.md` R219: which command can raise which error. -/
def Obligations.ErrorsOfEachCommand : Prop :=
  ∀ s t : State, s.CallInv → s.hostLegal = true → s.st = .busy → step s = .next t → t.st = .fault →
    (s.phase.isDecode = false → t.err = .io ∨ t.err = .capacity) ∧
    (s.phase.isDecode = true →
      t.err = .truncated ∨ t.err = .blockId ∨ t.err = .treeMismatch ∨ t.err = .leafCount ∨ t.err = .io ∨
        t.err = .badPadding)

/-- `46_decode.md` R185, `70_reset_and_hazards.md` R255: TIE_RULE and SYN_SYM play no part in DECODE: every step of a
DECODE call is the same under any other values of both. -/
def Obligations.DecodeIgnoresTieRule : Prop :=
  ∀ (s : State) (tie : List (List Sys2Proof.Tree × (Nat × Nat))) (syn : Byte),
    s.st = .busy → s.phase.isDecode = true → s.host = [] → s.noJob →
    step (s.withTie tie syn) = mapNext (State.withTie tie syn) (step s)

/-- `45_encode.md` R182, R181, R183: an ENCODE call, from any state without a call in progress, over a source that
answers the input and then EOS and a sink that answers OK, ends DONE having written exactly the container of the
input, or with ERR_CAPACITY, and surely DONE when the tree is at most 57 deep. For every TIE_RULE and SYN_SYM. -/
def Obligations.EncodeWritesContainer : Prop :=
  ∀ (s : State) (input : List Byte) (n : Nat),
    s.st ≠ .busy → s.host = [.request (encode .encode)] → s.unbounded → input.length ≤ maxInput →
    s.src = input.map .byte ++ [.eos] → s.snk = List.replicate n .ok →
    (container s.params input).length ≤ n →
    ∃ k t, Host.Core.run core k s = .next t ∧ t.host = [] ∧
      ((t.st = .done ∧ t.err = .ok ∧ t.out = s.out ++ container s.params input) ∨
        (t.st = .fault ∧ t.err = .capacity ∧ 57 < (treeOf s.params input).depth))

/-- `46_decode.md` R206, R208, R203, R204, R205, `30_encoding.md` R73: a DECODE call accepts every container whose SHAPE
payload begins with a shape word, whose LEAVES payload has a byte per leaf and whose padding count is legal, whatever the
tree is and whatever the padding holds, and writes what the walk over the meaningful bits gives. A byte after the
container is ERR_BLOCK_ID, a source that fails there ERR_IO. -/
def Obligations.DecodeAcceptsContainer : Prop :=
  ∀ (s : State) (t : Sys2Proof.Tree) (shape leaves packed : List Byte) (pad : Byte) (rest : List Bool) (n : Nat)
      (after : List SrcAns),
    s.st ≠ .busy → s.host = [.request (encode .decode)] → s.unbounded →
    shape.length < 2 ^ 64 → leaves.length < 2 ^ 64 → packed.length + 1 < 2 ^ 64 →
    unpack shape = t.shapeBits ++ rest → t.symbols = leaves.map some →
    pad.toNat ≤ 7 → pad.toNat ≤ 8 * packed.length → (t.isNode = true ∨ 8 * packed.length = pad.toNat) →
    s.src = (blockBytes .shape shape ++ blockBytes .leaves leaves ++ blockBytes .data (pad :: packed)).map .byte
      ++ after →
    s.snk = List.replicate n .ok → 8 * packed.length ≤ n →
    (∀ r, after = .eos :: r →
      ∃ k u, Host.Core.run core k s = .next u ∧ u.host = [] ∧ u.st = .done ∧ u.err = .ok ∧
        u.out = s.out ++ (walkOutput t [] ((unpack packed).take (8 * packed.length - pad.toNat))).1) ∧
    (∀ v r, after = .byte v :: r →
      ∃ k u, Host.Core.run core k s = .next u ∧ u.host = [] ∧ u.st = .fault ∧ u.err = .blockId) ∧
    (∀ r, after = .ioFail :: r →
      ∃ k u, Host.Core.run core k s = .next u ∧ u.host = [] ∧ u.st = .fault ∧ u.err = .io)

/-- `46_decode.md` R207: the round trip. If ENCODE of the input has ended DONE having written a container, DECODE of
exactly that container ends DONE having written exactly the input: for every input, TIE_RULE and SYN_SYM, between
machines that need not share either. The payload of the DATA block has a length that LEN_W can hold. -/
def Obligations.RoundTrip : Prop :=
  ∀ (s t d : State) (input written : List Byte) (k n m : Nat),
    s.st ≠ .busy → s.host = [.request (encode .encode)] → s.unbounded →
    s.src = input.map .byte ++ [.eos] → s.snk = List.replicate n .ok →
    (dataPayload (codeBits s.params input)).length < 2 ^ 64 →
    Host.Core.run core k s = .next t → t.host = [] → t.st = .done → t.out = s.out ++ written →
    d.st ≠ .busy → d.host = [.request (encode .decode)] → d.unbounded →
    d.src = written.map .byte ++ [.eos] → d.snk = List.replicate m .ok → input.length ≤ m →
    ∃ j u, Host.Core.run core j d = .next u ∧ u.host = [] ∧ u.st = .done ∧ u.err = .ok ∧ u.out = d.out ++ input
end

