-- ==== Sys2Proof/Laws/Slice.lean ====
section
/-! SUPPORT. Bit slices as bit sequences: a well-formed slice is `BitSlice.ofBits` of its sequence, and each operation
of `40_bitslice.md` is what it is on sequences. Later proofs cite these lemmas and never unfold a slice. -/

namespace Sys2Proof

/-- The number a bit sequence spells, first bit most significant. -/
def bitsNat : List Bool → Nat
  | []      => 0
  | b :: bs => b.toNat * 2 ^ bs.length + bitsNat bs

/-- The slice of a bit sequence. -/
def BitSlice.ofBits (q : List Bool) : BitSlice := { length := q.length, bits := BitVec.ofNat 64 (bitsNat q) }

theorem bitsNat_lt (q : List Bool) : bitsNat q < 2 ^ q.length := by
  induction q with
  | nil => simp [bitsNat]
  | cons b bs ih =>
    simp only [bitsNat, List.length_cons, Nat.pow_succ]
    cases b <;> simp <;> omega

theorem bitsNat_append (q r : List Bool) : bitsNat (q ++ r) = bitsNat q * 2 ^ r.length + bitsNat r := by
  induction q with
  | nil => simp [bitsNat]
  | cons b bs ih => simp only [List.cons_append, bitsNat, ih, List.length_append]; ring

theorem bitsNat_zeros (n : Nat) : bitsNat (zeros n) = 0 := by
  induction n with
  | zero => rfl
  | succ n ih => simp_all [zeros, List.replicate_succ, bitsNat]

/-- Bit i of the number counts from the end of the sequence. -/
theorem testBit_bitsNat (q : List Bool) (i : Nat) (h : i < q.length) :
    (bitsNat q).testBit i = q[q.length - 1 - i]'(by omega) := by
  induction q with
  | nil => simp at h
  | cons b bs ih =>
    simp only [List.length_cons] at h
    have hlt := bitsNat_lt bs
    rcases Nat.lt_or_ge i bs.length with hi | hi
    · rw [bitsNat, Nat.mul_comm, Nat.testBit_two_pow_mul_add _ hlt, if_pos hi, ih hi]
      rw [List.getElem_cons]
      simp only [List.length_cons, Nat.add_sub_cancel]
      have : ¬ bs.length - i = 0 := by omega
      simp [this]
      congr 1; omega
    · have : i = bs.length := by omega
      subst this
      rw [bitsNat, Nat.mul_comm, Nat.testBit_two_pow_mul_add _ hlt, if_neg (by omega)]
      cases b <;> simp

@[simp] theorem BitSlice.ofBits_length (q : List Bool) : (BitSlice.ofBits q).length = q.length := rfl

@[simp] theorem BitSlice.ofBits_nil : BitSlice.ofBits [] = BitSlice.empty := rfl

theorem BitSlice.ofBits_toNat {q : List Bool} (h : q.length ≤ 64) : (BitSlice.ofBits q).bits.toNat = bitsNat q := by
  have := bitsNat_lt q
  have : 2 ^ q.length ≤ 2 ^ 64 := Nat.pow_le_pow_right (by omega) h
  simp only [BitSlice.ofBits, BitVec.toNat_ofNat]
  exact Nat.mod_eq_of_lt (by omega)

@[simp] theorem BitSlice.ofBits_wf {q : List Bool} (h : q.length ≤ 64) : (BitSlice.ofBits q).wf = true := by
  simp only [BitSlice.wf, BitSlice.ofBits_toNat h, BitSlice.ofBits_length, Bool.and_eq_true]
  exact ⟨decide_eq_true h, decide_eq_true (bitsNat_lt q)⟩

@[simp] theorem BitSlice.seq_length (s : BitSlice) : s.seq.length = s.length := by simp [BitSlice.seq]

theorem BitSlice.seq_ofBits {q : List Bool} (h : q.length ≤ 64) : (BitSlice.ofBits q).seq = q := by
  apply List.ext_getElem
  · simp
  · intro i h1 h2
    simp only [BitSlice.seq_length, BitSlice.ofBits_length] at h1
    have e : ((BitSlice.ofBits q).bits.getLsbD (q.length - 1 - i)) = q[i] := by
      rw [BitVec.getLsbD, BitSlice.ofBits_toNat h, testBit_bitsNat q _ (by omega)]
      congr 1; omega
    simpa [BitSlice.seq] using e

/-- A slice in the sense of R90 is the slice of its own sequence. -/
theorem BitSlice.ofBits_seq {s : BitSlice} (h : s.wf = true) : BitSlice.ofBits s.seq = s := by
  simp only [BitSlice.wf, Bool.and_eq_true, decide_eq_true_eq] at h
  obtain ⟨n, w⟩ := s
  simp only at h
  have key : bitsNat (BitSlice.seq ⟨n, w⟩) = w.toNat := by
    apply Nat.eq_of_testBit_eq
    intro i
    rcases Nat.lt_or_ge i n with hi | hi
    · rw [testBit_bitsNat _ _ (by simpa using hi)]
      simp only [BitSlice.seq, List.getElem_map, List.getElem_range, List.length_map, List.length_range]
      rw [← BitVec.testBit_toNat]
      congr 1; omega
    · have h1 : bitsNat (BitSlice.seq ⟨n, w⟩) < 2 ^ n := by simpa using bitsNat_lt (BitSlice.seq ⟨n, w⟩)
      have h2 : 2 ^ n ≤ 2 ^ i := Nat.pow_le_pow_right (by omega) hi
      rw [Nat.testBit_lt_two_pow (by omega), Nat.testBit_lt_two_pow (by omega)]
  simp only [BitSlice.ofBits, BitSlice.seq_length, key, BitVec.ofNat_toNat, BitVec.setWidth_eq]

/-- To prove something of every well-formed slice, prove it of the slice of every short sequence. -/
theorem BitSlice.wf_iff {s : BitSlice} : s.wf = true ↔ ∃ q : List Bool, q.length ≤ 64 ∧ s = BitSlice.ofBits q := by
  constructor
  · intro h
    refine ⟨s.seq, ?_, (BitSlice.ofBits_seq h).symm⟩
    simp only [BitSlice.wf, Bool.and_eq_true, decide_eq_true_eq] at h
    simpa using h.1
  · rintro ⟨q, h, rfl⟩; exact BitSlice.ofBits_wf h

theorem BitSlice.wf_length {s : BitSlice} (h : s.wf = true) : s.length ≤ 64 := by
  simp only [BitSlice.wf, Bool.and_eq_true, decide_eq_true_eq] at h; exact h.1

theorem BitSlice.wf_bits {s : BitSlice} (h : s.wf = true) : s.bits.toNat < 2 ^ s.length := by
  simp only [BitSlice.wf, Bool.and_eq_true, decide_eq_true_eq] at h; exact h.2

@[simp] theorem BitSlice.empty_wf : BitSlice.empty.wf = true := by decide

@[simp] theorem BitSlice.empty_length : BitSlice.empty.length = 0 := rfl

@[simp] theorem BitSlice.empty_seq : BitSlice.empty.seq = [] := rfl

/-- R92 on sequences. -/
theorem BitSlice.appendBit_ofBits (q : List Bool) (b : Bool) :
    (BitSlice.ofBits q).appendBit b = if q.length < 64 then some (BitSlice.ofBits (q ++ [b])) else none := by
  unfold BitSlice.appendBit
  rw [BitSlice.ofBits_length]
  by_cases h : q.length < 64
  · rw [if_pos h, if_pos h]
    have hq := bitsNat_lt q
    have h2 : 2 ^ q.length ≤ 2 ^ 63 := Nat.pow_le_pow_right (by omega) (by omega)
    have e : ((BitSlice.ofBits q).bits <<< 1 ||| BitVec.ofNat 64 b.toNat) = BitVec.ofNat 64 (bitsNat (q ++ [b])) := by
      apply BitVec.eq_of_toNat_eq
      rw [BitVec.toNat_or, BitVec.toNat_shiftLeft, BitSlice.ofBits_toNat (by omega), BitVec.toNat_ofNat, BitVec.toNat_ofNat,
        bitsNat_append, Nat.shiftLeft_eq]
      have hb : b.toNat ≤ 1 := by cases b <;> simp
      rw [Nat.mod_eq_of_lt (by omega), Nat.mod_eq_of_lt (by omega), Nat.mod_eq_of_lt (by cases b <;> simp [bitsNat] <;> omega)]
      rw [← Nat.shiftLeft_eq, ← Nat.shiftLeft_add_eq_or_of_lt (by cases b <;> simp)]
      cases b <;> simp [bitsNat, Nat.shiftLeft_eq]
    rw [e]; simp [BitSlice.ofBits]
  · rw [if_neg h, if_neg h]

/-- R93 on sequences. -/
theorem BitSlice.appendSlice_ofBits {q r : List Bool} (hq : q.length ≤ 64) (hr : r.length ≤ 64) :
    (BitSlice.ofBits q).appendSlice (BitSlice.ofBits r) =
      if q.length + r.length ≤ 64 then some (BitSlice.ofBits (q ++ r)) else none := by
  unfold BitSlice.appendSlice
  rw [BitSlice.ofBits_length, BitSlice.ofBits_length]
  by_cases h : q.length + r.length ≤ 64
  · rw [if_pos h, if_pos h]
    have h1 := bitsNat_lt q
    have h2 := bitsNat_lt r
    have h3 : bitsNat (q ++ r) < 2 ^ 64 :=
      Nat.lt_of_lt_of_le (bitsNat_lt _) (Nat.pow_le_pow_right (by omega) (by simpa using h))
    rw [bitsNat_append] at h3
    have e : (BitVec.ofNat 64 ((BitSlice.ofBits q).bits.toNat * 2 ^ r.length) ||| (BitSlice.ofBits r).bits) =
        BitVec.ofNat 64 (bitsNat (q ++ r)) := by
      apply BitVec.eq_of_toNat_eq
      rw [BitVec.toNat_or, BitVec.toNat_ofNat, BitVec.toNat_ofNat, BitSlice.ofBits_toNat hq, BitSlice.ofBits_toNat hr,
        bitsNat_append, Nat.mod_eq_of_lt h3, Nat.mod_eq_of_lt (by omega), ← Nat.shiftLeft_eq,
        ← Nat.shiftLeft_add_eq_or_of_lt h2]
    rw [e]; simp [BitSlice.ofBits]
  · rw [if_neg h, if_neg h]

theorem padlen_lt (n : Nat) : padlen n ≤ 7 := by unfold padlen; omega

theorem padlen_add (n : Nat) : (n + padlen n) % 8 = 0 := by unfold padlen; omega

/-- R94 on sequences. -/
theorem BitSlice.padToByte_ofBits {q : List Bool} (hq : q.length ≤ 64) :
    (BitSlice.ofBits q).padToByte = BitSlice.ofBits (q ++ zeros (padlen q.length)) := by
  simp only [BitSlice.padToByte, BitSlice.ofBits, List.length_append, bitsNat_append, bitsNat_zeros, Nat.add_zero]
  have : (zeros (padlen q.length)).length = padlen q.length := by simp [zeros]
  rw [this]
  congr 2
  rw [show (BitVec.ofNat 64 (bitsNat q)).toNat = bitsNat q from BitSlice.ofBits_toNat hq]

theorem bitsNat_eight (b7 b6 b5 b4 b3 b2 b1 b0 : Bool) :
    BitVec.ofNat 8 (bitsNat [b7, b6, b5, b4, b3, b2, b1, b0]) = packByte b7 b6 b5 b4 b3 b2 b1 b0 := by
  simp only [packByte, bitsNat, List.length_cons, List.length_nil]
  congr 1; ring

theorem unpackByte_packByte (b7 b6 b5 b4 b3 b2 b1 b0 : Bool) :
    unpackByte (packByte b7 b6 b5 b4 b3 b2 b1 b0) = [b7, b6, b5, b4, b3, b2, b1, b0] := by
  revert b7 b6 b5 b4 b3 b2 b1 b0; decide

theorem packByte_unpackByte (v : Byte) : ∃ b7 b6 b5 b4 b3 b2 b1 b0,
    unpackByte v = [b7, b6, b5, b4, b3, b2, b1, b0] ∧ packByte b7 b6 b5 b4 b3 b2 b1 b0 = v := by
  refine ⟨_, _, _, _, _, _, _, _, rfl, ?_⟩
  revert v; decide +kernel

theorem unpackByte_inj {v w : Byte} (h : unpackByte v = unpackByte w) : v = w := by
  obtain ⟨_, _, _, _, _, _, _, _, h1, rfl⟩ := packByte_unpackByte v
  obtain ⟨_, _, _, _, _, _, _, _, h2, rfl⟩ := packByte_unpackByte w
  rw [h1, h2] at h; simp at h; simp [h]

/-- A sequence of at least eight bits, cut after the eighth. -/
theorem eight_of_le {q : List Bool} (h : 8 ≤ q.length) :
    ∃ b7 b6 b5 b4 b3 b2 b1 b0 r, q = b7 :: b6 :: b5 :: b4 :: b3 :: b2 :: b1 :: b0 :: r := by
  match q, h with
  | b7 :: b6 :: b5 :: b4 :: b3 :: b2 :: b1 :: b0 :: r, _ => exact ⟨_, _, _, _, _, _, _, _, _, rfl⟩

/-- R95 on sequences. -/
theorem BitSlice.popByte_ofBits (b7 b6 b5 b4 b3 b2 b1 b0 : Bool) {r : List Bool} (h : r.length ≤ 56) :
    (BitSlice.ofBits (b7 :: b6 :: b5 :: b4 :: b3 :: b2 :: b1 :: b0 :: r)).popByte =
      some (packByte b7 b6 b5 b4 b3 b2 b1 b0, BitSlice.ofBits r) := by
  have hr := bitsNat_lt r
  have e : bitsNat (b7 :: b6 :: b5 :: b4 :: b3 :: b2 :: b1 :: b0 :: r) =
      2 ^ r.length * bitsNat [b7, b6, b5, b4, b3, b2, b1, b0] + bitsNat r := by
    rw [Nat.mul_comm]; exact bitsNat_append [b7, b6, b5, b4, b3, b2, b1, b0] r
  have hp : 0 < 2 ^ r.length := Nat.two_pow_pos _
  rw [BitSlice.popByte, BitSlice.ofBits_toNat (by simp; omega), e, if_pos (by simp)]
  have hl : (BitSlice.ofBits (b7 :: b6 :: b5 :: b4 :: b3 :: b2 :: b1 :: b0 :: r)).length - 8 = r.length := by simp
  rw [hl, Nat.mul_add_div hp, Nat.div_eq_of_lt hr, Nat.add_zero, bitsNat_eight, Nat.mul_add_mod,
    Nat.mod_eq_of_lt hr]
  rfl

theorem BitSlice.popByte_short {s : BitSlice} (h : s.length < 8) : s.popByte = none := by
  simp [BitSlice.popByte]; omega

/-- R96 on sequences: popping every complete byte gives the packed bytes and leaves the rest. -/
theorem pack_eight (b7 b6 b5 b4 b3 b2 b1 b0 : Bool) (r : List Bool) :
    pack (b7 :: b6 :: b5 :: b4 :: b3 :: b2 :: b1 :: b0 :: r) = packByte b7 b6 b5 b4 b3 b2 b1 b0 :: pack r := rfl

theorem pack_short {q : List Bool} (h : q.length < 8) : pack q = [] := by
  match q, h with
  | [], _ | [_], _ | [_, _], _ | [_, _, _], _ | [_, _, _, _], _ | [_, _, _, _, _], _ | [_, _, _, _, _, _], _
  | [_, _, _, _, _, _, _], _ => rfl

@[simp] theorem unpack_append (x y : List Byte) : unpack (x ++ y) = unpack x ++ unpack y := by simp [unpack]

@[simp] theorem unpack_cons (v : Byte) (y : List Byte) : unpack (v :: y) = unpackByte v ++ unpack y := rfl

@[simp] theorem unpackByte_length (v : Byte) : (unpackByte v).length = 8 := rfl

@[simp] theorem unpack_length (x : List Byte) : (unpack x).length = 8 * x.length := by
  induction x with
  | nil => rfl
  | cons v y ih => simp [ih]; omega

/-- The complete bytes of a sequence spell its front. -/
theorem unpack_pack (q : List Bool) : unpack (pack q) = q.take (8 * (q.length / 8)) := by
  induction hn : q.length using Nat.strong_induction_on generalizing q with
  | _ n ih =>
    subst hn
    rcases Nat.lt_or_ge q.length 8 with h | h
    · rw [pack_short h, Nat.div_eq_of_lt h]; rfl
    · obtain ⟨b7, b6, b5, b4, b3, b2, b1, b0, r, rfl⟩ := eight_of_le h
      rw [pack_eight, unpack_cons, unpackByte_packByte, ih r.length (by simp; omega) r rfl]
      have : 8 * ((b7 :: b6 :: b5 :: b4 :: b3 :: b2 :: b1 :: b0 :: r).length / 8) = 8 * (r.length / 8) + 8 := by
        simp; omega
      rw [this]; simp

theorem pack_length (q : List Bool) : (pack q).length = q.length / 8 := by
  have := congrArg List.length (unpack_pack q)
  simp at this; omega

/-- `unpack` is the inverse of `pack` on whole bytes (`00_scope.md` 5.1). -/
theorem unpack_pack_of_dvd {q : List Bool} (h : q.length % 8 = 0) : unpack (pack q) = q := by
  rw [unpack_pack, List.take_of_length_le (by omega)]

end Sys2Proof
end

