-- ==== Sys2Proof/Laws/State.lean ====
section
/-! SUPPORT. One lemma per field per named update of the state, so that no proof unfolds an update. -/

namespace Sys2Proof.Machine

@[simp] theorem State.discard_cmdMode (s : State) : (s.discard).cmdMode = s.cmdMode := rfl
@[simp] theorem State.discard_st (s : State) : (s.discard).st = s.st := rfl
@[simp] theorem State.discard_err (s : State) : (s.discard).err = s.err := rfl
@[simp] theorem State.discard_phase (s : State) : (s.discard).phase = s.phase := rfl
@[simp] theorem State.discard_cur (s : State) : (s.discard).cur = [] := rfl
@[simp] theorem State.discard_remaining (s : State) : (s.discard).remaining = 0 := rfl
@[simp] theorem State.discard_treeValid (s : State) : (s.discard).treeValid = s.treeValid := rfl
@[simp] theorem State.discard_srcEos (s : State) : (s.discard).srcEos = s.srcEos := rfl
@[simp] theorem State.discard_bw (s : State) : (s.discard).bw = BitWriter.fresh .pay := rfl
@[simp] theorem State.discard_br (s : State) : (s.discard).br = BitReader.fresh (.pay 0) := rfl
@[simp] theorem State.discard_cwacc (s : State) : (s.discard).cwacc = BitSlice.empty := rfl
@[simp] theorem State.discard_freq (s : State) : (s.discard).freq = Vector.replicate 256 0 := rfl
@[simp] theorem State.discard_wl (s : State) : (s.discard).wl = [] := rfl
@[simp] theorem State.discard_cw (s : State) : (s.discard).cw = Vector.replicate 256 none := rfl
@[simp] theorem State.discard_tree (s : State) : (s.discard).tree = none := rfl
@[simp] theorem State.discard_inbuf (s : State) : (s.discard).inbuf = [] := rfl
@[simp] theorem State.discard_pay (s : State) : (s.discard).pay = [] := rfl
@[simp] theorem State.discard_blkId (s : State) : (s.discard).blkId = s.blkId := rfl
@[simp] theorem State.discard_blkLen (s : State) : (s.discard).blkLen = s.blkLen := rfl
@[simp] theorem State.discard_padcnt (s : State) : (s.discard).padcnt = s.padcnt := rfl
@[simp] theorem State.discard_pos (s : State) : (s.discard).pos = s.pos := rfl
@[simp] theorem State.discard_idx (s : State) : (s.discard).idx = s.idx := rfl
@[simp] theorem State.discard_res (s : State) : (s.discard).res = s.res := rfl
@[simp] theorem State.discard_held (s : State) : (s.discard).held = s.held := rfl
@[simp] theorem State.discard_freeCtr (s : State) : (s.discard).freeCtr = s.freeCtr := rfl
@[simp] theorem State.discard_params (s : State) : (s.discard).params = s.params := rfl
@[simp] theorem State.discard_src (s : State) : (s.discard).src = s.src := rfl
@[simp] theorem State.discard_snk (s : State) : (s.discard).snk = s.snk := rfl
@[simp] theorem State.discard_out (s : State) : (s.discard).out = s.out := rfl
@[simp] theorem State.discard_host (s : State) : (s.discard).host = s.host := rfl

@[simp] theorem State.endCall_cmdMode (s : State) : (s.endCall).cmdMode = s.cmdMode := rfl
@[simp] theorem State.endCall_st (s : State) : (s.endCall).st = .done := rfl
@[simp] theorem State.endCall_err (s : State) : (s.endCall).err = .ok := rfl
@[simp] theorem State.endCall_phase (s : State) : (s.endCall).phase = s.phase := rfl
@[simp] theorem State.endCall_cur (s : State) : (s.endCall).cur = [] := rfl
@[simp] theorem State.endCall_remaining (s : State) : (s.endCall).remaining = 0 := rfl
@[simp] theorem State.endCall_treeValid (s : State) : (s.endCall).treeValid = s.treeValid := rfl
@[simp] theorem State.endCall_srcEos (s : State) : (s.endCall).srcEos = s.srcEos := rfl
@[simp] theorem State.endCall_bw (s : State) : (s.endCall).bw = BitWriter.fresh .pay := rfl
@[simp] theorem State.endCall_br (s : State) : (s.endCall).br = BitReader.fresh (.pay 0) := rfl
@[simp] theorem State.endCall_cwacc (s : State) : (s.endCall).cwacc = BitSlice.empty := rfl
@[simp] theorem State.endCall_freq (s : State) : (s.endCall).freq = Vector.replicate 256 0 := rfl
@[simp] theorem State.endCall_wl (s : State) : (s.endCall).wl = [] := rfl
@[simp] theorem State.endCall_cw (s : State) : (s.endCall).cw = Vector.replicate 256 none := rfl
@[simp] theorem State.endCall_tree (s : State) : (s.endCall).tree = none := rfl
@[simp] theorem State.endCall_inbuf (s : State) : (s.endCall).inbuf = [] := rfl
@[simp] theorem State.endCall_pay (s : State) : (s.endCall).pay = [] := rfl
@[simp] theorem State.endCall_blkId (s : State) : (s.endCall).blkId = s.blkId := rfl
@[simp] theorem State.endCall_blkLen (s : State) : (s.endCall).blkLen = s.blkLen := rfl
@[simp] theorem State.endCall_padcnt (s : State) : (s.endCall).padcnt = s.padcnt := rfl
@[simp] theorem State.endCall_pos (s : State) : (s.endCall).pos = s.pos := rfl
@[simp] theorem State.endCall_idx (s : State) : (s.endCall).idx = s.idx := rfl
@[simp] theorem State.endCall_res (s : State) : (s.endCall).res = s.res := rfl
@[simp] theorem State.endCall_held (s : State) : (s.endCall).held = s.held := rfl
@[simp] theorem State.endCall_freeCtr (s : State) : (s.endCall).freeCtr = s.freeCtr := rfl
@[simp] theorem State.endCall_params (s : State) : (s.endCall).params = s.params := rfl
@[simp] theorem State.endCall_src (s : State) : (s.endCall).src = s.src := rfl
@[simp] theorem State.endCall_snk (s : State) : (s.endCall).snk = s.snk := rfl
@[simp] theorem State.endCall_out (s : State) : (s.endCall).out = s.out := rfl
@[simp] theorem State.endCall_host (s : State) : (s.endCall).host = s.host := rfl

@[simp] theorem State.resetBlock_cmdMode (s : State) : (s.resetBlock).cmdMode = 0 := rfl
@[simp] theorem State.resetBlock_st (s : State) : (s.resetBlock).st = .idle := rfl
@[simp] theorem State.resetBlock_err (s : State) : (s.resetBlock).err = .ok := rfl
@[simp] theorem State.resetBlock_phase (s : State) : (s.resetBlock).phase = .eRead := rfl
@[simp] theorem State.resetBlock_cur (s : State) : (s.resetBlock).cur = [] := rfl
@[simp] theorem State.resetBlock_remaining (s : State) : (s.resetBlock).remaining = 0 := rfl
@[simp] theorem State.resetBlock_treeValid (s : State) : (s.resetBlock).treeValid = false := rfl
@[simp] theorem State.resetBlock_srcEos (s : State) : (s.resetBlock).srcEos = false := rfl
@[simp] theorem State.resetBlock_bw (s : State) : (s.resetBlock).bw = BitWriter.fresh .pay := rfl
@[simp] theorem State.resetBlock_br (s : State) : (s.resetBlock).br = BitReader.fresh (.pay 0) := rfl
@[simp] theorem State.resetBlock_cwacc (s : State) : (s.resetBlock).cwacc = BitSlice.empty := rfl
@[simp] theorem State.resetBlock_freq (s : State) : (s.resetBlock).freq = Vector.replicate 256 0 := rfl
@[simp] theorem State.resetBlock_wl (s : State) : (s.resetBlock).wl = [] := rfl
@[simp] theorem State.resetBlock_cw (s : State) : (s.resetBlock).cw = Vector.replicate 256 none := rfl
@[simp] theorem State.resetBlock_tree (s : State) : (s.resetBlock).tree = none := rfl
@[simp] theorem State.resetBlock_inbuf (s : State) : (s.resetBlock).inbuf = [] := rfl
@[simp] theorem State.resetBlock_pay (s : State) : (s.resetBlock).pay = [] := rfl
@[simp] theorem State.resetBlock_blkId (s : State) : (s.resetBlock).blkId = 0 := rfl
@[simp] theorem State.resetBlock_blkLen (s : State) : (s.resetBlock).blkLen = 0 := rfl
@[simp] theorem State.resetBlock_padcnt (s : State) : (s.resetBlock).padcnt = 0 := rfl
@[simp] theorem State.resetBlock_pos (s : State) : (s.resetBlock).pos = 0 := rfl
@[simp] theorem State.resetBlock_idx (s : State) : (s.resetBlock).idx = 0 := rfl
@[simp] theorem State.resetBlock_res (s : State) : (s.resetBlock).res = 0 := rfl
@[simp] theorem State.resetBlock_held (s : State) : (s.resetBlock).held = none := rfl
@[simp] theorem State.resetBlock_freeCtr (s : State) : (s.resetBlock).freeCtr = s.freeCtr := rfl
@[simp] theorem State.resetBlock_params (s : State) : (s.resetBlock).params = s.params := rfl
@[simp] theorem State.resetBlock_src (s : State) : (s.resetBlock).src = s.src := rfl
@[simp] theorem State.resetBlock_snk (s : State) : (s.resetBlock).snk = s.snk := rfl
@[simp] theorem State.resetBlock_out (s : State) : (s.resetBlock).out = s.out := rfl
@[simp] theorem State.resetBlock_host (s : State) : (s.resetBlock).host = s.host := rfl

@[simp] theorem State.startCall_cmdMode (m : BitVec 1) (ph : Phase) (s : State) : (s.startCall m ph).cmdMode = m := rfl
@[simp] theorem State.startCall_st (m : BitVec 1) (ph : Phase) (s : State) : (s.startCall m ph).st = .busy := rfl
@[simp] theorem State.startCall_err (m : BitVec 1) (ph : Phase) (s : State) : (s.startCall m ph).err = .ok := rfl
@[simp] theorem State.startCall_phase (m : BitVec 1) (ph : Phase) (s : State) : (s.startCall m ph).phase = ph := rfl
@[simp] theorem State.startCall_cur (m : BitVec 1) (ph : Phase) (s : State) : (s.startCall m ph).cur = [] := rfl
@[simp] theorem State.startCall_remaining (m : BitVec 1) (ph : Phase) (s : State) : (s.startCall m ph).remaining = 0 := rfl
@[simp] theorem State.startCall_treeValid (m : BitVec 1) (ph : Phase) (s : State) : (s.startCall m ph).treeValid = false := rfl
@[simp] theorem State.startCall_srcEos (m : BitVec 1) (ph : Phase) (s : State) : (s.startCall m ph).srcEos = false := rfl
@[simp] theorem State.startCall_bw (m : BitVec 1) (ph : Phase) (s : State) : (s.startCall m ph).bw = BitWriter.fresh .pay := rfl
@[simp] theorem State.startCall_br (m : BitVec 1) (ph : Phase) (s : State) : (s.startCall m ph).br = BitReader.fresh (.pay 0) := rfl
@[simp] theorem State.startCall_cwacc (m : BitVec 1) (ph : Phase) (s : State) : (s.startCall m ph).cwacc = BitSlice.empty := rfl
@[simp] theorem State.startCall_freq (m : BitVec 1) (ph : Phase) (s : State) : (s.startCall m ph).freq = Vector.replicate 256 0 := rfl
@[simp] theorem State.startCall_wl (m : BitVec 1) (ph : Phase) (s : State) : (s.startCall m ph).wl = [] := rfl
@[simp] theorem State.startCall_cw (m : BitVec 1) (ph : Phase) (s : State) : (s.startCall m ph).cw = Vector.replicate 256 none := rfl
@[simp] theorem State.startCall_tree (m : BitVec 1) (ph : Phase) (s : State) : (s.startCall m ph).tree = none := rfl
@[simp] theorem State.startCall_inbuf (m : BitVec 1) (ph : Phase) (s : State) : (s.startCall m ph).inbuf = [] := rfl
@[simp] theorem State.startCall_pay (m : BitVec 1) (ph : Phase) (s : State) : (s.startCall m ph).pay = [] := rfl
@[simp] theorem State.startCall_blkId (m : BitVec 1) (ph : Phase) (s : State) : (s.startCall m ph).blkId = 0 := rfl
@[simp] theorem State.startCall_blkLen (m : BitVec 1) (ph : Phase) (s : State) : (s.startCall m ph).blkLen = 0 := rfl
@[simp] theorem State.startCall_padcnt (m : BitVec 1) (ph : Phase) (s : State) : (s.startCall m ph).padcnt = 0 := rfl
@[simp] theorem State.startCall_pos (m : BitVec 1) (ph : Phase) (s : State) : (s.startCall m ph).pos = 0 := rfl
@[simp] theorem State.startCall_idx (m : BitVec 1) (ph : Phase) (s : State) : (s.startCall m ph).idx = 0 := rfl
@[simp] theorem State.startCall_res (m : BitVec 1) (ph : Phase) (s : State) : (s.startCall m ph).res = 0 := rfl
@[simp] theorem State.startCall_held (m : BitVec 1) (ph : Phase) (s : State) : (s.startCall m ph).held = none := rfl
@[simp] theorem State.startCall_freeCtr (m : BitVec 1) (ph : Phase) (s : State) : (s.startCall m ph).freeCtr = s.freeCtr := rfl
@[simp] theorem State.startCall_params (m : BitVec 1) (ph : Phase) (s : State) : (s.startCall m ph).params = s.params := rfl
@[simp] theorem State.startCall_src (m : BitVec 1) (ph : Phase) (s : State) : (s.startCall m ph).src = s.src := rfl
@[simp] theorem State.startCall_snk (m : BitVec 1) (ph : Phase) (s : State) : (s.startCall m ph).snk = s.snk := rfl
@[simp] theorem State.startCall_out (m : BitVec 1) (ph : Phase) (s : State) : (s.startCall m ph).out = s.out := rfl
@[simp] theorem State.startCall_host (m : BitVec 1) (ph : Phase) (s : State) : (s.startCall m ph).host = s.host := rfl

@[simp] theorem State.enter_cmdMode (ph : Phase) (s : State) : (s.enter ph).cmdMode = s.cmdMode := rfl
@[simp] theorem State.enter_st (ph : Phase) (s : State) : (s.enter ph).st = s.st := rfl
@[simp] theorem State.enter_err (ph : Phase) (s : State) : (s.enter ph).err = s.err := rfl
@[simp] theorem State.enter_phase (ph : Phase) (s : State) : (s.enter ph).phase = ph := rfl
@[simp] theorem State.enter_cur (ph : Phase) (s : State) : (s.enter ph).cur = s.cur := rfl
@[simp] theorem State.enter_remaining (ph : Phase) (s : State) : (s.enter ph).remaining = s.remaining := rfl
@[simp] theorem State.enter_treeValid (ph : Phase) (s : State) : (s.enter ph).treeValid = s.treeValid := rfl
@[simp] theorem State.enter_srcEos (ph : Phase) (s : State) : (s.enter ph).srcEos = s.srcEos := rfl
@[simp] theorem State.enter_bw (ph : Phase) (s : State) : (s.enter ph).bw = s.bw := rfl
@[simp] theorem State.enter_br (ph : Phase) (s : State) : (s.enter ph).br = s.br := rfl
@[simp] theorem State.enter_cwacc (ph : Phase) (s : State) : (s.enter ph).cwacc = s.cwacc := rfl
@[simp] theorem State.enter_freq (ph : Phase) (s : State) : (s.enter ph).freq = s.freq := rfl
@[simp] theorem State.enter_wl (ph : Phase) (s : State) : (s.enter ph).wl = s.wl := rfl
@[simp] theorem State.enter_cw (ph : Phase) (s : State) : (s.enter ph).cw = s.cw := rfl
@[simp] theorem State.enter_tree (ph : Phase) (s : State) : (s.enter ph).tree = s.tree := rfl
@[simp] theorem State.enter_inbuf (ph : Phase) (s : State) : (s.enter ph).inbuf = s.inbuf := rfl
@[simp] theorem State.enter_pay (ph : Phase) (s : State) : (s.enter ph).pay = s.pay := rfl
@[simp] theorem State.enter_blkId (ph : Phase) (s : State) : (s.enter ph).blkId = s.blkId := rfl
@[simp] theorem State.enter_blkLen (ph : Phase) (s : State) : (s.enter ph).blkLen = s.blkLen := rfl
@[simp] theorem State.enter_padcnt (ph : Phase) (s : State) : (s.enter ph).padcnt = s.padcnt := rfl
@[simp] theorem State.enter_pos (ph : Phase) (s : State) : (s.enter ph).pos = 0 := rfl
@[simp] theorem State.enter_idx (ph : Phase) (s : State) : (s.enter ph).idx = 0 := rfl
@[simp] theorem State.enter_res (ph : Phase) (s : State) : (s.enter ph).res = s.res := rfl
@[simp] theorem State.enter_held (ph : Phase) (s : State) : (s.enter ph).held = s.held := rfl
@[simp] theorem State.enter_freeCtr (ph : Phase) (s : State) : (s.enter ph).freeCtr = s.freeCtr := rfl
@[simp] theorem State.enter_params (ph : Phase) (s : State) : (s.enter ph).params = s.params := rfl
@[simp] theorem State.enter_src (ph : Phase) (s : State) : (s.enter ph).src = s.src := rfl
@[simp] theorem State.enter_snk (ph : Phase) (s : State) : (s.enter ph).snk = s.snk := rfl
@[simp] theorem State.enter_out (ph : Phase) (s : State) : (s.enter ph).out = s.out := rfl
@[simp] theorem State.enter_host (ph : Phase) (s : State) : (s.enter ph).host = s.host := rfl

@[simp] theorem State.clearPay_cmdMode (s : State) : (s.clearPay).cmdMode = s.cmdMode := rfl
@[simp] theorem State.clearPay_st (s : State) : (s.clearPay).st = s.st := rfl
@[simp] theorem State.clearPay_err (s : State) : (s.clearPay).err = s.err := rfl
@[simp] theorem State.clearPay_phase (s : State) : (s.clearPay).phase = s.phase := rfl
@[simp] theorem State.clearPay_cur (s : State) : (s.clearPay).cur = s.cur := rfl
@[simp] theorem State.clearPay_remaining (s : State) : (s.clearPay).remaining = s.remaining := rfl
@[simp] theorem State.clearPay_treeValid (s : State) : (s.clearPay).treeValid = s.treeValid := rfl
@[simp] theorem State.clearPay_srcEos (s : State) : (s.clearPay).srcEos = s.srcEos := rfl
@[simp] theorem State.clearPay_bw (s : State) : (s.clearPay).bw = s.bw := rfl
@[simp] theorem State.clearPay_br (s : State) : (s.clearPay).br = s.br := rfl
@[simp] theorem State.clearPay_cwacc (s : State) : (s.clearPay).cwacc = s.cwacc := rfl
@[simp] theorem State.clearPay_freq (s : State) : (s.clearPay).freq = s.freq := rfl
@[simp] theorem State.clearPay_wl (s : State) : (s.clearPay).wl = s.wl := rfl
@[simp] theorem State.clearPay_cw (s : State) : (s.clearPay).cw = s.cw := rfl
@[simp] theorem State.clearPay_tree (s : State) : (s.clearPay).tree = s.tree := rfl
@[simp] theorem State.clearPay_inbuf (s : State) : (s.clearPay).inbuf = s.inbuf := rfl
@[simp] theorem State.clearPay_pay (s : State) : (s.clearPay).pay = [] := rfl
@[simp] theorem State.clearPay_blkId (s : State) : (s.clearPay).blkId = s.blkId := rfl
@[simp] theorem State.clearPay_blkLen (s : State) : (s.clearPay).blkLen = s.blkLen := rfl
@[simp] theorem State.clearPay_padcnt (s : State) : (s.clearPay).padcnt = s.padcnt := rfl
@[simp] theorem State.clearPay_pos (s : State) : (s.clearPay).pos = s.pos := rfl
@[simp] theorem State.clearPay_idx (s : State) : (s.clearPay).idx = s.idx := rfl
@[simp] theorem State.clearPay_res (s : State) : (s.clearPay).res = s.res := rfl
@[simp] theorem State.clearPay_held (s : State) : (s.clearPay).held = s.held := rfl
@[simp] theorem State.clearPay_freeCtr (s : State) : (s.clearPay).freeCtr = s.freeCtr := rfl
@[simp] theorem State.clearPay_params (s : State) : (s.clearPay).params = s.params := rfl
@[simp] theorem State.clearPay_src (s : State) : (s.clearPay).src = s.src := rfl
@[simp] theorem State.clearPay_snk (s : State) : (s.clearPay).snk = s.snk := rfl
@[simp] theorem State.clearPay_out (s : State) : (s.clearPay).out = s.out := rfl
@[simp] theorem State.clearPay_host (s : State) : (s.clearPay).host = s.host := rfl

@[simp] theorem State.newWriter_cmdMode (d : Dest) (s : State) : (s.newWriter d).cmdMode = s.cmdMode := rfl
@[simp] theorem State.newWriter_st (d : Dest) (s : State) : (s.newWriter d).st = s.st := rfl
@[simp] theorem State.newWriter_err (d : Dest) (s : State) : (s.newWriter d).err = s.err := rfl
@[simp] theorem State.newWriter_phase (d : Dest) (s : State) : (s.newWriter d).phase = s.phase := rfl
@[simp] theorem State.newWriter_cur (d : Dest) (s : State) : (s.newWriter d).cur = s.cur := rfl
@[simp] theorem State.newWriter_remaining (d : Dest) (s : State) : (s.newWriter d).remaining = s.remaining := rfl
@[simp] theorem State.newWriter_treeValid (d : Dest) (s : State) : (s.newWriter d).treeValid = s.treeValid := rfl
@[simp] theorem State.newWriter_srcEos (d : Dest) (s : State) : (s.newWriter d).srcEos = s.srcEos := rfl
@[simp] theorem State.newWriter_bw (d : Dest) (s : State) : (s.newWriter d).bw = BitWriter.fresh d := rfl
@[simp] theorem State.newWriter_br (d : Dest) (s : State) : (s.newWriter d).br = s.br := rfl
@[simp] theorem State.newWriter_cwacc (d : Dest) (s : State) : (s.newWriter d).cwacc = s.cwacc := rfl
@[simp] theorem State.newWriter_freq (d : Dest) (s : State) : (s.newWriter d).freq = s.freq := rfl
@[simp] theorem State.newWriter_wl (d : Dest) (s : State) : (s.newWriter d).wl = s.wl := rfl
@[simp] theorem State.newWriter_cw (d : Dest) (s : State) : (s.newWriter d).cw = s.cw := rfl
@[simp] theorem State.newWriter_tree (d : Dest) (s : State) : (s.newWriter d).tree = s.tree := rfl
@[simp] theorem State.newWriter_inbuf (d : Dest) (s : State) : (s.newWriter d).inbuf = s.inbuf := rfl
@[simp] theorem State.newWriter_pay (d : Dest) (s : State) : (s.newWriter d).pay = s.pay := rfl
@[simp] theorem State.newWriter_blkId (d : Dest) (s : State) : (s.newWriter d).blkId = s.blkId := rfl
@[simp] theorem State.newWriter_blkLen (d : Dest) (s : State) : (s.newWriter d).blkLen = s.blkLen := rfl
@[simp] theorem State.newWriter_padcnt (d : Dest) (s : State) : (s.newWriter d).padcnt = s.padcnt := rfl
@[simp] theorem State.newWriter_pos (d : Dest) (s : State) : (s.newWriter d).pos = s.pos := rfl
@[simp] theorem State.newWriter_idx (d : Dest) (s : State) : (s.newWriter d).idx = s.idx := rfl
@[simp] theorem State.newWriter_res (d : Dest) (s : State) : (s.newWriter d).res = s.res := rfl
@[simp] theorem State.newWriter_held (d : Dest) (s : State) : (s.newWriter d).held = s.held := rfl
@[simp] theorem State.newWriter_freeCtr (d : Dest) (s : State) : (s.newWriter d).freeCtr = s.freeCtr := rfl
@[simp] theorem State.newWriter_params (d : Dest) (s : State) : (s.newWriter d).params = s.params := rfl
@[simp] theorem State.newWriter_src (d : Dest) (s : State) : (s.newWriter d).src = s.src := rfl
@[simp] theorem State.newWriter_snk (d : Dest) (s : State) : (s.newWriter d).snk = s.snk := rfl
@[simp] theorem State.newWriter_out (d : Dest) (s : State) : (s.newWriter d).out = s.out := rfl
@[simp] theorem State.newWriter_host (d : Dest) (s : State) : (s.newWriter d).host = s.host := rfl

@[simp] theorem State.newReader_cmdMode (o : Origin) (s : State) : (s.newReader o).cmdMode = s.cmdMode := rfl
@[simp] theorem State.newReader_st (o : Origin) (s : State) : (s.newReader o).st = s.st := rfl
@[simp] theorem State.newReader_err (o : Origin) (s : State) : (s.newReader o).err = s.err := rfl
@[simp] theorem State.newReader_phase (o : Origin) (s : State) : (s.newReader o).phase = s.phase := rfl
@[simp] theorem State.newReader_cur (o : Origin) (s : State) : (s.newReader o).cur = s.cur := rfl
@[simp] theorem State.newReader_remaining (o : Origin) (s : State) : (s.newReader o).remaining = s.remaining := rfl
@[simp] theorem State.newReader_treeValid (o : Origin) (s : State) : (s.newReader o).treeValid = s.treeValid := rfl
@[simp] theorem State.newReader_srcEos (o : Origin) (s : State) : (s.newReader o).srcEos = s.srcEos := rfl
@[simp] theorem State.newReader_bw (o : Origin) (s : State) : (s.newReader o).bw = s.bw := rfl
@[simp] theorem State.newReader_br (o : Origin) (s : State) : (s.newReader o).br = BitReader.fresh o := rfl
@[simp] theorem State.newReader_cwacc (o : Origin) (s : State) : (s.newReader o).cwacc = s.cwacc := rfl
@[simp] theorem State.newReader_freq (o : Origin) (s : State) : (s.newReader o).freq = s.freq := rfl
@[simp] theorem State.newReader_wl (o : Origin) (s : State) : (s.newReader o).wl = s.wl := rfl
@[simp] theorem State.newReader_cw (o : Origin) (s : State) : (s.newReader o).cw = s.cw := rfl
@[simp] theorem State.newReader_tree (o : Origin) (s : State) : (s.newReader o).tree = s.tree := rfl
@[simp] theorem State.newReader_inbuf (o : Origin) (s : State) : (s.newReader o).inbuf = s.inbuf := rfl
@[simp] theorem State.newReader_pay (o : Origin) (s : State) : (s.newReader o).pay = s.pay := rfl
@[simp] theorem State.newReader_blkId (o : Origin) (s : State) : (s.newReader o).blkId = s.blkId := rfl
@[simp] theorem State.newReader_blkLen (o : Origin) (s : State) : (s.newReader o).blkLen = s.blkLen := rfl
@[simp] theorem State.newReader_padcnt (o : Origin) (s : State) : (s.newReader o).padcnt = s.padcnt := rfl
@[simp] theorem State.newReader_pos (o : Origin) (s : State) : (s.newReader o).pos = s.pos := rfl
@[simp] theorem State.newReader_idx (o : Origin) (s : State) : (s.newReader o).idx = s.idx := rfl
@[simp] theorem State.newReader_res (o : Origin) (s : State) : (s.newReader o).res = s.res := rfl
@[simp] theorem State.newReader_held (o : Origin) (s : State) : (s.newReader o).held = s.held := rfl
@[simp] theorem State.newReader_freeCtr (o : Origin) (s : State) : (s.newReader o).freeCtr = s.freeCtr := rfl
@[simp] theorem State.newReader_params (o : Origin) (s : State) : (s.newReader o).params = s.params := rfl
@[simp] theorem State.newReader_src (o : Origin) (s : State) : (s.newReader o).src = s.src := rfl
@[simp] theorem State.newReader_snk (o : Origin) (s : State) : (s.newReader o).snk = s.snk := rfl
@[simp] theorem State.newReader_out (o : Origin) (s : State) : (s.newReader o).out = s.out := rfl
@[simp] theorem State.newReader_host (o : Origin) (s : State) : (s.newReader o).host = s.host := rfl

@[simp] theorem State.setAcc_cmdMode (t : BitSlice) (s : State) : (s.setAcc t).cmdMode = s.cmdMode := rfl
@[simp] theorem State.setAcc_st (t : BitSlice) (s : State) : (s.setAcc t).st = s.st := rfl
@[simp] theorem State.setAcc_err (t : BitSlice) (s : State) : (s.setAcc t).err = s.err := rfl
@[simp] theorem State.setAcc_phase (t : BitSlice) (s : State) : (s.setAcc t).phase = s.phase := rfl
@[simp] theorem State.setAcc_cur (t : BitSlice) (s : State) : (s.setAcc t).cur = s.cur := rfl
@[simp] theorem State.setAcc_remaining (t : BitSlice) (s : State) : (s.setAcc t).remaining = s.remaining := rfl
@[simp] theorem State.setAcc_treeValid (t : BitSlice) (s : State) : (s.setAcc t).treeValid = s.treeValid := rfl
@[simp] theorem State.setAcc_srcEos (t : BitSlice) (s : State) : (s.setAcc t).srcEos = s.srcEos := rfl
@[simp] theorem State.setAcc_bw (t : BitSlice) (s : State) : (s.setAcc t).bw = { s.bw with acc := t } := rfl
@[simp] theorem State.setAcc_br (t : BitSlice) (s : State) : (s.setAcc t).br = s.br := rfl
@[simp] theorem State.setAcc_cwacc (t : BitSlice) (s : State) : (s.setAcc t).cwacc = s.cwacc := rfl
@[simp] theorem State.setAcc_freq (t : BitSlice) (s : State) : (s.setAcc t).freq = s.freq := rfl
@[simp] theorem State.setAcc_wl (t : BitSlice) (s : State) : (s.setAcc t).wl = s.wl := rfl
@[simp] theorem State.setAcc_cw (t : BitSlice) (s : State) : (s.setAcc t).cw = s.cw := rfl
@[simp] theorem State.setAcc_tree (t : BitSlice) (s : State) : (s.setAcc t).tree = s.tree := rfl
@[simp] theorem State.setAcc_inbuf (t : BitSlice) (s : State) : (s.setAcc t).inbuf = s.inbuf := rfl
@[simp] theorem State.setAcc_pay (t : BitSlice) (s : State) : (s.setAcc t).pay = s.pay := rfl
@[simp] theorem State.setAcc_blkId (t : BitSlice) (s : State) : (s.setAcc t).blkId = s.blkId := rfl
@[simp] theorem State.setAcc_blkLen (t : BitSlice) (s : State) : (s.setAcc t).blkLen = s.blkLen := rfl
@[simp] theorem State.setAcc_padcnt (t : BitSlice) (s : State) : (s.setAcc t).padcnt = s.padcnt := rfl
@[simp] theorem State.setAcc_pos (t : BitSlice) (s : State) : (s.setAcc t).pos = s.pos := rfl
@[simp] theorem State.setAcc_idx (t : BitSlice) (s : State) : (s.setAcc t).idx = s.idx := rfl
@[simp] theorem State.setAcc_res (t : BitSlice) (s : State) : (s.setAcc t).res = s.res := rfl
@[simp] theorem State.setAcc_held (t : BitSlice) (s : State) : (s.setAcc t).held = s.held := rfl
@[simp] theorem State.setAcc_freeCtr (t : BitSlice) (s : State) : (s.setAcc t).freeCtr = s.freeCtr := rfl
@[simp] theorem State.setAcc_params (t : BitSlice) (s : State) : (s.setAcc t).params = s.params := rfl
@[simp] theorem State.setAcc_src (t : BitSlice) (s : State) : (s.setAcc t).src = s.src := rfl
@[simp] theorem State.setAcc_snk (t : BitSlice) (s : State) : (s.setAcc t).snk = s.snk := rfl
@[simp] theorem State.setAcc_out (t : BitSlice) (s : State) : (s.setAcc t).out = s.out := rfl
@[simp] theorem State.setAcc_host (t : BitSlice) (s : State) : (s.setAcc t).host = s.host := rfl

@[simp] theorem State.setRes_cmdMode (v : Byte) (s : State) : (s.setRes v).cmdMode = s.cmdMode := rfl
@[simp] theorem State.setRes_st (v : Byte) (s : State) : (s.setRes v).st = s.st := rfl
@[simp] theorem State.setRes_err (v : Byte) (s : State) : (s.setRes v).err = s.err := rfl
@[simp] theorem State.setRes_phase (v : Byte) (s : State) : (s.setRes v).phase = s.phase := rfl
@[simp] theorem State.setRes_cur (v : Byte) (s : State) : (s.setRes v).cur = s.cur := rfl
@[simp] theorem State.setRes_remaining (v : Byte) (s : State) : (s.setRes v).remaining = s.remaining := rfl
@[simp] theorem State.setRes_treeValid (v : Byte) (s : State) : (s.setRes v).treeValid = s.treeValid := rfl
@[simp] theorem State.setRes_srcEos (v : Byte) (s : State) : (s.setRes v).srcEos = s.srcEos := rfl
@[simp] theorem State.setRes_bw (v : Byte) (s : State) : (s.setRes v).bw = s.bw := rfl
@[simp] theorem State.setRes_br (v : Byte) (s : State) : (s.setRes v).br = s.br := rfl
@[simp] theorem State.setRes_cwacc (v : Byte) (s : State) : (s.setRes v).cwacc = s.cwacc := rfl
@[simp] theorem State.setRes_freq (v : Byte) (s : State) : (s.setRes v).freq = s.freq := rfl
@[simp] theorem State.setRes_wl (v : Byte) (s : State) : (s.setRes v).wl = s.wl := rfl
@[simp] theorem State.setRes_cw (v : Byte) (s : State) : (s.setRes v).cw = s.cw := rfl
@[simp] theorem State.setRes_tree (v : Byte) (s : State) : (s.setRes v).tree = s.tree := rfl
@[simp] theorem State.setRes_inbuf (v : Byte) (s : State) : (s.setRes v).inbuf = s.inbuf := rfl
@[simp] theorem State.setRes_pay (v : Byte) (s : State) : (s.setRes v).pay = s.pay := rfl
@[simp] theorem State.setRes_blkId (v : Byte) (s : State) : (s.setRes v).blkId = s.blkId := rfl
@[simp] theorem State.setRes_blkLen (v : Byte) (s : State) : (s.setRes v).blkLen = s.blkLen := rfl
@[simp] theorem State.setRes_padcnt (v : Byte) (s : State) : (s.setRes v).padcnt = s.padcnt := rfl
@[simp] theorem State.setRes_pos (v : Byte) (s : State) : (s.setRes v).pos = s.pos := rfl
@[simp] theorem State.setRes_idx (v : Byte) (s : State) : (s.setRes v).idx = s.idx := rfl
@[simp] theorem State.setRes_res (v : Byte) (s : State) : (s.setRes v).res = v := rfl
@[simp] theorem State.setRes_held (v : Byte) (s : State) : (s.setRes v).held = s.held := rfl
@[simp] theorem State.setRes_freeCtr (v : Byte) (s : State) : (s.setRes v).freeCtr = s.freeCtr := rfl
@[simp] theorem State.setRes_params (v : Byte) (s : State) : (s.setRes v).params = s.params := rfl
@[simp] theorem State.setRes_src (v : Byte) (s : State) : (s.setRes v).src = s.src := rfl
@[simp] theorem State.setRes_snk (v : Byte) (s : State) : (s.setRes v).snk = s.snk := rfl
@[simp] theorem State.setRes_out (v : Byte) (s : State) : (s.setRes v).out = s.out := rfl
@[simp] theorem State.setRes_host (v : Byte) (s : State) : (s.setRes v).host = s.host := rfl

@[simp] theorem State.setTree_cmdMode (t : Tree) (s : State) : (s.setTree t).cmdMode = s.cmdMode := rfl
@[simp] theorem State.setTree_st (t : Tree) (s : State) : (s.setTree t).st = s.st := rfl
@[simp] theorem State.setTree_err (t : Tree) (s : State) : (s.setTree t).err = s.err := rfl
@[simp] theorem State.setTree_phase (t : Tree) (s : State) : (s.setTree t).phase = s.phase := rfl
@[simp] theorem State.setTree_cur (t : Tree) (s : State) : (s.setTree t).cur = s.cur := rfl
@[simp] theorem State.setTree_remaining (t : Tree) (s : State) : (s.setTree t).remaining = s.remaining := rfl
@[simp] theorem State.setTree_treeValid (t : Tree) (s : State) : (s.setTree t).treeValid = s.treeValid := rfl
@[simp] theorem State.setTree_srcEos (t : Tree) (s : State) : (s.setTree t).srcEos = s.srcEos := rfl
@[simp] theorem State.setTree_bw (t : Tree) (s : State) : (s.setTree t).bw = s.bw := rfl
@[simp] theorem State.setTree_br (t : Tree) (s : State) : (s.setTree t).br = s.br := rfl
@[simp] theorem State.setTree_cwacc (t : Tree) (s : State) : (s.setTree t).cwacc = s.cwacc := rfl
@[simp] theorem State.setTree_freq (t : Tree) (s : State) : (s.setTree t).freq = s.freq := rfl
@[simp] theorem State.setTree_wl (t : Tree) (s : State) : (s.setTree t).wl = s.wl := rfl
@[simp] theorem State.setTree_cw (t : Tree) (s : State) : (s.setTree t).cw = s.cw := rfl
@[simp] theorem State.setTree_tree (t : Tree) (s : State) : (s.setTree t).tree = some t := rfl
@[simp] theorem State.setTree_inbuf (t : Tree) (s : State) : (s.setTree t).inbuf = s.inbuf := rfl
@[simp] theorem State.setTree_pay (t : Tree) (s : State) : (s.setTree t).pay = s.pay := rfl
@[simp] theorem State.setTree_blkId (t : Tree) (s : State) : (s.setTree t).blkId = s.blkId := rfl
@[simp] theorem State.setTree_blkLen (t : Tree) (s : State) : (s.setTree t).blkLen = s.blkLen := rfl
@[simp] theorem State.setTree_padcnt (t : Tree) (s : State) : (s.setTree t).padcnt = s.padcnt := rfl
@[simp] theorem State.setTree_pos (t : Tree) (s : State) : (s.setTree t).pos = s.pos := rfl
@[simp] theorem State.setTree_idx (t : Tree) (s : State) : (s.setTree t).idx = s.idx := rfl
@[simp] theorem State.setTree_res (t : Tree) (s : State) : (s.setTree t).res = s.res := rfl
@[simp] theorem State.setTree_held (t : Tree) (s : State) : (s.setTree t).held = s.held := rfl
@[simp] theorem State.setTree_freeCtr (t : Tree) (s : State) : (s.setTree t).freeCtr = s.freeCtr := rfl
@[simp] theorem State.setTree_params (t : Tree) (s : State) : (s.setTree t).params = s.params := rfl
@[simp] theorem State.setTree_src (t : Tree) (s : State) : (s.setTree t).src = s.src := rfl
@[simp] theorem State.setTree_snk (t : Tree) (s : State) : (s.setTree t).snk = s.snk := rfl
@[simp] theorem State.setTree_out (t : Tree) (s : State) : (s.setTree t).out = s.out := rfl
@[simp] theorem State.setTree_host (t : Tree) (s : State) : (s.setTree t).host = s.host := rfl

@[simp] theorem State.raise_cmdMode (e : Err) (s : State) : (s.raise e).cmdMode = s.cmdMode := by unfold State.raise; split <;> rfl
@[simp] theorem State.raise_st (e : Err) (s : State) : (s.raise e).st = .fault := by unfold State.raise; split <;> rfl
@[simp] theorem State.raise_err (e : Err) (s : State) : (s.raise e).err = e := by unfold State.raise; split <;> rfl
@[simp] theorem State.raise_phase (e : Err) (s : State) : (s.raise e).phase = s.phase := by unfold State.raise; split <;> rfl
@[simp] theorem State.raise_cur (e : Err) (s : State) : (s.raise e).cur = if s.busy then [] else s.cur := by unfold State.raise; split <;> simp_all
@[simp] theorem State.raise_remaining (e : Err) (s : State) : (s.raise e).remaining = if s.busy then 0 else s.remaining := by unfold State.raise; split <;> simp_all
@[simp] theorem State.raise_treeValid (e : Err) (s : State) : (s.raise e).treeValid = s.treeValid := by unfold State.raise; split <;> rfl
@[simp] theorem State.raise_srcEos (e : Err) (s : State) : (s.raise e).srcEos = s.srcEos := by unfold State.raise; split <;> rfl
@[simp] theorem State.raise_bw (e : Err) (s : State) : (s.raise e).bw = if s.busy then BitWriter.fresh .pay else s.bw := by unfold State.raise; split <;> simp_all
@[simp] theorem State.raise_br (e : Err) (s : State) : (s.raise e).br = if s.busy then BitReader.fresh (.pay 0) else s.br := by unfold State.raise; split <;> simp_all
@[simp] theorem State.raise_cwacc (e : Err) (s : State) : (s.raise e).cwacc = if s.busy then BitSlice.empty else s.cwacc := by unfold State.raise; split <;> simp_all
@[simp] theorem State.raise_freq (e : Err) (s : State) : (s.raise e).freq = if s.busy then Vector.replicate 256 0 else s.freq := by unfold State.raise; split <;> simp_all
@[simp] theorem State.raise_wl (e : Err) (s : State) : (s.raise e).wl = if s.busy then [] else s.wl := by unfold State.raise; split <;> simp_all
@[simp] theorem State.raise_cw (e : Err) (s : State) : (s.raise e).cw = if s.busy then Vector.replicate 256 none else s.cw := by unfold State.raise; split <;> simp_all
@[simp] theorem State.raise_tree (e : Err) (s : State) : (s.raise e).tree = if s.busy then none else s.tree := by unfold State.raise; split <;> simp_all
@[simp] theorem State.raise_inbuf (e : Err) (s : State) : (s.raise e).inbuf = if s.busy then [] else s.inbuf := by unfold State.raise; split <;> simp_all
@[simp] theorem State.raise_pay (e : Err) (s : State) : (s.raise e).pay = if s.busy then [] else s.pay := by unfold State.raise; split <;> simp_all
@[simp] theorem State.raise_blkId (e : Err) (s : State) : (s.raise e).blkId = s.blkId := by unfold State.raise; split <;> rfl
@[simp] theorem State.raise_blkLen (e : Err) (s : State) : (s.raise e).blkLen = s.blkLen := by unfold State.raise; split <;> rfl
@[simp] theorem State.raise_padcnt (e : Err) (s : State) : (s.raise e).padcnt = s.padcnt := by unfold State.raise; split <;> rfl
@[simp] theorem State.raise_pos (e : Err) (s : State) : (s.raise e).pos = s.pos := by unfold State.raise; split <;> rfl
@[simp] theorem State.raise_idx (e : Err) (s : State) : (s.raise e).idx = s.idx := by unfold State.raise; split <;> rfl
@[simp] theorem State.raise_res (e : Err) (s : State) : (s.raise e).res = s.res := by unfold State.raise; split <;> rfl
@[simp] theorem State.raise_held (e : Err) (s : State) : (s.raise e).held = none := by unfold State.raise; split <;> rfl
@[simp] theorem State.raise_freeCtr (e : Err) (s : State) : (s.raise e).freeCtr = s.freeCtr := by unfold State.raise; split <;> rfl
@[simp] theorem State.raise_params (e : Err) (s : State) : (s.raise e).params = s.params := by unfold State.raise; split <;> rfl
@[simp] theorem State.raise_src (e : Err) (s : State) : (s.raise e).src = s.src := by unfold State.raise; split <;> rfl
@[simp] theorem State.raise_snk (e : Err) (s : State) : (s.raise e).snk = s.snk := by unfold State.raise; split <;> rfl
@[simp] theorem State.raise_out (e : Err) (s : State) : (s.raise e).out = s.out := by unfold State.raise; split <;> rfl
@[simp] theorem State.raise_host (e : Err) (s : State) : (s.raise e).host = s.host := by unfold State.raise; split <;> rfl

@[simp] theorem State.suspend_cmdMode (s t : State) : (s.suspend t).cmdMode = t.cmdMode := rfl
@[simp] theorem State.suspend_st (s t : State) : (s.suspend t).st = t.st := rfl
@[simp] theorem State.suspend_err (s t : State) : (s.suspend t).err = t.err := rfl
@[simp] theorem State.suspend_phase (s t : State) : (s.suspend t).phase = t.phase := rfl
@[simp] theorem State.suspend_cur (s t : State) : (s.suspend t).cur = t.cur := rfl
@[simp] theorem State.suspend_remaining (s t : State) : (s.suspend t).remaining = t.remaining := rfl
@[simp] theorem State.suspend_treeValid (s t : State) : (s.suspend t).treeValid = t.treeValid := rfl
@[simp] theorem State.suspend_srcEos (s t : State) : (s.suspend t).srcEos = t.srcEos := rfl
@[simp] theorem State.suspend_bw (s t : State) : (s.suspend t).bw = t.bw := rfl
@[simp] theorem State.suspend_br (s t : State) : (s.suspend t).br = t.br := rfl
@[simp] theorem State.suspend_cwacc (s t : State) : (s.suspend t).cwacc = t.cwacc := rfl
@[simp] theorem State.suspend_freq (s t : State) : (s.suspend t).freq = t.freq := rfl
@[simp] theorem State.suspend_wl (s t : State) : (s.suspend t).wl = t.wl := rfl
@[simp] theorem State.suspend_cw (s t : State) : (s.suspend t).cw = t.cw := rfl
@[simp] theorem State.suspend_tree (s t : State) : (s.suspend t).tree = t.tree := rfl
@[simp] theorem State.suspend_inbuf (s t : State) : (s.suspend t).inbuf = t.inbuf := rfl
@[simp] theorem State.suspend_pay (s t : State) : (s.suspend t).pay = t.pay := rfl
@[simp] theorem State.suspend_blkId (s t : State) : (s.suspend t).blkId = t.blkId := rfl
@[simp] theorem State.suspend_blkLen (s t : State) : (s.suspend t).blkLen = t.blkLen := rfl
@[simp] theorem State.suspend_padcnt (s t : State) : (s.suspend t).padcnt = t.padcnt := rfl
@[simp] theorem State.suspend_pos (s t : State) : (s.suspend t).pos = t.pos := rfl
@[simp] theorem State.suspend_idx (s t : State) : (s.suspend t).idx = t.idx := rfl
@[simp] theorem State.suspend_res (s t : State) : (s.suspend t).res = t.res := rfl
@[simp] theorem State.suspend_freeCtr (s t : State) : (s.suspend t).freeCtr = t.freeCtr := rfl
@[simp] theorem State.suspend_params (s t : State) : (s.suspend t).params = t.params := rfl
@[simp] theorem State.suspend_src (s t : State) : (s.suspend t).src = t.src := rfl
@[simp] theorem State.suspend_snk (s t : State) : (s.suspend t).snk = t.snk := rfl
@[simp] theorem State.suspend_out (s t : State) : (s.suspend t).out = t.out := rfl
@[simp] theorem State.suspend_host (s t : State) : (s.suspend t).host = t.host := rfl

@[simp] theorem State.takeUp_cmdMode (s : State) : (s.takeUp).cmdMode = s.cmdMode := by unfold State.takeUp; split <;> rfl
@[simp] theorem State.takeUp_st (s : State) : (s.takeUp).st = s.st := by unfold State.takeUp; split <;> rfl
@[simp] theorem State.takeUp_err (s : State) : (s.takeUp).err = s.err := by unfold State.takeUp; split <;> rfl
@[simp] theorem State.takeUp_phase (s : State) : (s.takeUp).phase = s.phase := by unfold State.takeUp; split <;> rfl
@[simp] theorem State.takeUp_treeValid (s : State) : (s.takeUp).treeValid = s.treeValid := by unfold State.takeUp; split <;> rfl
@[simp] theorem State.takeUp_srcEos (s : State) : (s.takeUp).srcEos = s.srcEos := by unfold State.takeUp; split <;> rfl
@[simp] theorem State.takeUp_cwacc (s : State) : (s.takeUp).cwacc = s.cwacc := by unfold State.takeUp; split <;> rfl
@[simp] theorem State.takeUp_freq (s : State) : (s.takeUp).freq = s.freq := by unfold State.takeUp; split <;> rfl
@[simp] theorem State.takeUp_wl (s : State) : (s.takeUp).wl = s.wl := by unfold State.takeUp; split <;> rfl
@[simp] theorem State.takeUp_cw (s : State) : (s.takeUp).cw = s.cw := by unfold State.takeUp; split <;> rfl
@[simp] theorem State.takeUp_tree (s : State) : (s.takeUp).tree = s.tree := by unfold State.takeUp; split <;> rfl
@[simp] theorem State.takeUp_inbuf (s : State) : (s.takeUp).inbuf = s.inbuf := by unfold State.takeUp; split <;> rfl
@[simp] theorem State.takeUp_pos (s : State) : (s.takeUp).pos = s.pos := by unfold State.takeUp; split <;> rfl
@[simp] theorem State.takeUp_idx (s : State) : (s.takeUp).idx = s.idx := by unfold State.takeUp; split <;> rfl
@[simp] theorem State.takeUp_res (s : State) : (s.takeUp).res = s.res := by unfold State.takeUp; split <;> rfl
@[simp] theorem State.takeUp_freeCtr (s : State) : (s.takeUp).freeCtr = s.freeCtr := by unfold State.takeUp; split <;> rfl
@[simp] theorem State.takeUp_params (s : State) : (s.takeUp).params = s.params := by unfold State.takeUp; split <;> rfl
@[simp] theorem State.takeUp_out (s : State) : (s.takeUp).out = s.out := by unfold State.takeUp; split <;> rfl
@[simp] theorem State.takeUp_host (s : State) : (s.takeUp).host = s.host := by unfold State.takeUp; split <;> rfl
@[simp] theorem State.takeUp_held (s : State) : (s.takeUp).held = none := by unfold State.takeUp; split <;> simp_all
@[simp] theorem State.takeUp_busy (s : State) : (s.takeUp).busy = s.busy := by simp [State.busy]

/-- Where nothing waits, there is nothing to take up again. -/
@[simp] theorem State.takeUp_of_none {s : State} (h : s.held = none) : s.takeUp = s := by simp [State.takeUp, h]

/-- The start of the operation that waits. -/
theorem State.takeUp_of_some {s : State} {h : Held} (e : s.held = some h) :
    s.takeUp =
      { s with
        held := none, cur := h.cur, remaining := h.remaining, bw := h.bw, br := h.br, pay := h.pay, blkId := h.blkId,
        blkLen := h.blkLen, padcnt := h.padcnt, src := h.src ++ s.src, snk := List.replicate h.snk .ok ++ s.snk } := by
  simp [State.takeUp, e]

@[simp] theorem State.rejoin_cmdMode (s t : State) : (s.rejoin t).cmdMode = t.cmdMode := by unfold State.rejoin; split <;> rfl
@[simp] theorem State.rejoin_st (s t : State) : (s.rejoin t).st = t.st := by unfold State.rejoin; split <;> rfl
@[simp] theorem State.rejoin_err (s t : State) : (s.rejoin t).err = t.err := by unfold State.rejoin; split <;> rfl
@[simp] theorem State.rejoin_phase (s t : State) : (s.rejoin t).phase = t.phase := by unfold State.rejoin; split <;> rfl
@[simp] theorem State.rejoin_cur (s t : State) : (s.rejoin t).cur = t.cur := by unfold State.rejoin; split <;> rfl
@[simp] theorem State.rejoin_remaining (s t : State) : (s.rejoin t).remaining = t.remaining := by unfold State.rejoin; split <;> rfl
@[simp] theorem State.rejoin_treeValid (s t : State) : (s.rejoin t).treeValid = t.treeValid := by unfold State.rejoin; split <;> rfl
@[simp] theorem State.rejoin_srcEos (s t : State) : (s.rejoin t).srcEos = t.srcEos := by unfold State.rejoin; split <;> rfl
@[simp] theorem State.rejoin_bw (s t : State) : (s.rejoin t).bw = t.bw := by unfold State.rejoin; split <;> rfl
@[simp] theorem State.rejoin_br (s t : State) : (s.rejoin t).br = t.br := by unfold State.rejoin; split <;> rfl
@[simp] theorem State.rejoin_cwacc (s t : State) : (s.rejoin t).cwacc = t.cwacc := by unfold State.rejoin; split <;> rfl
@[simp] theorem State.rejoin_freq (s t : State) : (s.rejoin t).freq = t.freq := by unfold State.rejoin; split <;> rfl
@[simp] theorem State.rejoin_wl (s t : State) : (s.rejoin t).wl = t.wl := by unfold State.rejoin; split <;> rfl
@[simp] theorem State.rejoin_cw (s t : State) : (s.rejoin t).cw = t.cw := by unfold State.rejoin; split <;> rfl
@[simp] theorem State.rejoin_tree (s t : State) : (s.rejoin t).tree = t.tree := by unfold State.rejoin; split <;> rfl
@[simp] theorem State.rejoin_inbuf (s t : State) : (s.rejoin t).inbuf = t.inbuf := by unfold State.rejoin; split <;> rfl
@[simp] theorem State.rejoin_pay (s t : State) : (s.rejoin t).pay = t.pay := by unfold State.rejoin; split <;> rfl
@[simp] theorem State.rejoin_blkId (s t : State) : (s.rejoin t).blkId = t.blkId := by unfold State.rejoin; split <;> rfl
@[simp] theorem State.rejoin_blkLen (s t : State) : (s.rejoin t).blkLen = t.blkLen := by unfold State.rejoin; split <;> rfl
@[simp] theorem State.rejoin_padcnt (s t : State) : (s.rejoin t).padcnt = t.padcnt := by unfold State.rejoin; split <;> rfl
@[simp] theorem State.rejoin_pos (s t : State) : (s.rejoin t).pos = t.pos := by unfold State.rejoin; split <;> rfl
@[simp] theorem State.rejoin_idx (s t : State) : (s.rejoin t).idx = t.idx := by unfold State.rejoin; split <;> rfl
@[simp] theorem State.rejoin_res (s t : State) : (s.rejoin t).res = t.res := by unfold State.rejoin; split <;> rfl
@[simp] theorem State.rejoin_held (s t : State) : (s.rejoin t).held = t.held := by unfold State.rejoin; split <;> rfl
@[simp] theorem State.rejoin_freeCtr (s t : State) : (s.rejoin t).freeCtr = t.freeCtr := by unfold State.rejoin; split <;> rfl
@[simp] theorem State.rejoin_params (s t : State) : (s.rejoin t).params = t.params := by unfold State.rejoin; split <;> rfl
@[simp] theorem State.rejoin_src (s t : State) : (s.rejoin t).src = t.src := by unfold State.rejoin; split <;> rfl
@[simp] theorem State.rejoin_snk (s t : State) : (s.rejoin t).snk = t.snk := by unfold State.rejoin; split <;> rfl
@[simp] theorem State.rejoin_host (s t : State) : (s.rejoin t).host = t.host := by unfold State.rejoin; split <;> rfl

@[simp] theorem State.rejoin_of_none {s : State} (h : s.held = none) (t : State) : s.rejoin t = t := by
  simp [State.rejoin, h]

theorem State.rejoin_of_some {s : State} {h : Held} (e : s.held = some h) (t : State) :
    s.rejoin t = { t with out := s.out ++ t.out.drop (s.out.length + h.snk) } := by
  simp [State.rejoin, e]

/-- R42: whatever is reached, the output log has grown. -/
theorem State.out_prefix_rejoin {s t : State} (h : s.out <+: t.out) : s.out <+: (s.rejoin t).out := by
  unfold State.rejoin; split
  · exact h
  · exact List.prefix_append _ _

@[simp] theorem State.keepJob_of_none {t : State} (h : t.held = none) (i : Instr) : t.keepJob i = t := by
  cases t; simp_all [State.keepJob]

@[simp] theorem State.keepJob_cmdMode (i : Instr) (t : State) : (t.keepJob i).cmdMode = t.cmdMode := rfl
@[simp] theorem State.keepJob_st (i : Instr) (t : State) : (t.keepJob i).st = t.st := rfl
@[simp] theorem State.keepJob_err (i : Instr) (t : State) : (t.keepJob i).err = t.err := rfl
@[simp] theorem State.keepJob_phase (i : Instr) (t : State) : (t.keepJob i).phase = t.phase := rfl
@[simp] theorem State.keepJob_cur (i : Instr) (t : State) : (t.keepJob i).cur = t.cur := rfl
@[simp] theorem State.keepJob_remaining (i : Instr) (t : State) : (t.keepJob i).remaining = t.remaining := rfl
@[simp] theorem State.keepJob_treeValid (i : Instr) (t : State) : (t.keepJob i).treeValid = t.treeValid := rfl
@[simp] theorem State.keepJob_srcEos (i : Instr) (t : State) : (t.keepJob i).srcEos = t.srcEos := rfl
@[simp] theorem State.keepJob_bw (i : Instr) (t : State) : (t.keepJob i).bw = t.bw := rfl
@[simp] theorem State.keepJob_br (i : Instr) (t : State) : (t.keepJob i).br = t.br := rfl
@[simp] theorem State.keepJob_cwacc (i : Instr) (t : State) : (t.keepJob i).cwacc = t.cwacc := rfl
@[simp] theorem State.keepJob_freq (i : Instr) (t : State) : (t.keepJob i).freq = t.freq := rfl
@[simp] theorem State.keepJob_wl (i : Instr) (t : State) : (t.keepJob i).wl = t.wl := rfl
@[simp] theorem State.keepJob_cw (i : Instr) (t : State) : (t.keepJob i).cw = t.cw := rfl
@[simp] theorem State.keepJob_tree (i : Instr) (t : State) : (t.keepJob i).tree = t.tree := rfl
@[simp] theorem State.keepJob_inbuf (i : Instr) (t : State) : (t.keepJob i).inbuf = t.inbuf := rfl
@[simp] theorem State.keepJob_pay (i : Instr) (t : State) : (t.keepJob i).pay = t.pay := rfl
@[simp] theorem State.keepJob_blkId (i : Instr) (t : State) : (t.keepJob i).blkId = t.blkId := rfl
@[simp] theorem State.keepJob_blkLen (i : Instr) (t : State) : (t.keepJob i).blkLen = t.blkLen := rfl
@[simp] theorem State.keepJob_padcnt (i : Instr) (t : State) : (t.keepJob i).padcnt = t.padcnt := rfl
@[simp] theorem State.keepJob_pos (i : Instr) (t : State) : (t.keepJob i).pos = t.pos := rfl
@[simp] theorem State.keepJob_idx (i : Instr) (t : State) : (t.keepJob i).idx = t.idx := rfl
@[simp] theorem State.keepJob_res (i : Instr) (t : State) : (t.keepJob i).res = t.res := rfl
@[simp] theorem State.keepJob_freeCtr (i : Instr) (t : State) : (t.keepJob i).freeCtr = t.freeCtr := rfl
@[simp] theorem State.keepJob_params (i : Instr) (t : State) : (t.keepJob i).params = t.params := rfl
@[simp] theorem State.keepJob_src (i : Instr) (t : State) : (t.keepJob i).src = t.src := rfl
@[simp] theorem State.keepJob_snk (i : Instr) (t : State) : (t.keepJob i).snk = t.snk := rfl
@[simp] theorem State.keepJob_out (i : Instr) (t : State) : (t.keepJob i).out = t.out := rfl
@[simp] theorem State.keepJob_host (i : Instr) (t : State) : (t.keepJob i).host = t.host := rfl

@[simp] theorem State.dropReader_cmdMode (s : State) : (s.dropReader).cmdMode = s.cmdMode := rfl
@[simp] theorem State.dropReader_st (s : State) : (s.dropReader).st = s.st := rfl
@[simp] theorem State.dropReader_err (s : State) : (s.dropReader).err = s.err := rfl
@[simp] theorem State.dropReader_phase (s : State) : (s.dropReader).phase = s.phase := rfl
@[simp] theorem State.dropReader_cur (s : State) : (s.dropReader).cur = s.cur := rfl
@[simp] theorem State.dropReader_remaining (s : State) : (s.dropReader).remaining = s.remaining := rfl
@[simp] theorem State.dropReader_treeValid (s : State) : (s.dropReader).treeValid = s.treeValid := rfl
@[simp] theorem State.dropReader_srcEos (s : State) : (s.dropReader).srcEos = s.srcEos := rfl
@[simp] theorem State.dropReader_bw (s : State) : (s.dropReader).bw = s.bw := rfl
@[simp] theorem State.dropReader_br (s : State) : (s.dropReader).br = BitReader.fresh (.pay 0) := rfl
@[simp] theorem State.dropReader_cwacc (s : State) : (s.dropReader).cwacc = s.cwacc := rfl
@[simp] theorem State.dropReader_freq (s : State) : (s.dropReader).freq = s.freq := rfl
@[simp] theorem State.dropReader_wl (s : State) : (s.dropReader).wl = s.wl := rfl
@[simp] theorem State.dropReader_cw (s : State) : (s.dropReader).cw = s.cw := rfl
@[simp] theorem State.dropReader_tree (s : State) : (s.dropReader).tree = s.tree := rfl
@[simp] theorem State.dropReader_inbuf (s : State) : (s.dropReader).inbuf = s.inbuf := rfl
@[simp] theorem State.dropReader_pay (s : State) : (s.dropReader).pay = s.pay := rfl
@[simp] theorem State.dropReader_blkId (s : State) : (s.dropReader).blkId = s.blkId := rfl
@[simp] theorem State.dropReader_blkLen (s : State) : (s.dropReader).blkLen = s.blkLen := rfl
@[simp] theorem State.dropReader_padcnt (s : State) : (s.dropReader).padcnt = s.padcnt := rfl
@[simp] theorem State.dropReader_pos (s : State) : (s.dropReader).pos = s.pos := rfl
@[simp] theorem State.dropReader_idx (s : State) : (s.dropReader).idx = s.idx := rfl
@[simp] theorem State.dropReader_res (s : State) : (s.dropReader).res = s.res := rfl
@[simp] theorem State.dropReader_held (s : State) : (s.dropReader).held = s.held := rfl
@[simp] theorem State.dropReader_freeCtr (s : State) : (s.dropReader).freeCtr = s.freeCtr := rfl
@[simp] theorem State.dropReader_params (s : State) : (s.dropReader).params = s.params := rfl
@[simp] theorem State.dropReader_src (s : State) : (s.dropReader).src = s.src := rfl
@[simp] theorem State.dropReader_snk (s : State) : (s.dropReader).snk = s.snk := rfl
@[simp] theorem State.dropReader_out (s : State) : (s.dropReader).out = s.out := rfl
@[simp] theorem State.dropReader_host (s : State) : (s.dropReader).host = s.host := rfl

@[simp] theorem mapNext_next (f : State → State) (t : State) : mapNext f (.next t) = .next (f t) := rfl
@[simp] theorem mapNext_fault (f : State → State) (r : Fault) : mapNext f (.fault r) = .fault r := rfl
@[simp] theorem mapNext_refused (f : State → State) (r : Refusal) : mapNext f (.refused r) = .refused r := rfl

/-- The next states of a changed outcome. -/
theorem mapNext_eq_next {f : State → State} {o : Outcome} {t : State} :
    mapNext f o = .next t ↔ ∃ u, o = .next u ∧ f u = t := by
  cases o <;> simp [mapNext]

/-- An error outside a call changes STATUS only. -/
theorem State.raise_of_not_busy (e : Err) (s : State) (h : s.busy = false) :
    s.raise e = { s with st := .fault, err := e, held := none } := by
  unfold State.raise; simp [h]

/-- An error inside a call also discards its elements. -/
theorem State.raise_of_busy (e : Err) (s : State) (h : s.busy = true) :
    s.raise e = State.discard { s with st := .fault, err := e, held := none } := by
  unfold State.raise; simp [h]

@[simp] theorem State.busy_iff (s : State) : s.busy = true ↔ s.st = .busy := by simp [State.busy]

@[simp] theorem State.busy_eq_false (s : State) : s.busy = false ↔ s.st ≠ .busy := by simp [State.busy]

@[simp] theorem State.slice_acc (s : State) : s.slice .acc = s.bw.acc := rfl

@[simp] theorem State.slice_cwacc (s : State) : s.slice .cwacc = s.cwacc := rfl

@[simp] theorem State.slice_setSlice (r : SliceReg) (t : BitSlice) (s : State) : (s.setSlice r t).slice r = t := by
  cases r <;> rfl

@[simp] theorem State.setSlice_acc (t : BitSlice) (s : State) : s.setSlice .acc t = s.setAcc t := rfl

@[simp] theorem State.setSlice_cwacc (t : BitSlice) (s : State) : s.setSlice .cwacc t = { s with cwacc := t } := rfl

theorem State.setSlice_self (r : SliceReg) (s : State) : s.setSlice r (s.slice r) = s := by cases r <;> rfl

@[simp] theorem State.setAcc_setAcc (t u : BitSlice) (s : State) : (s.setAcc t).setAcc u = s.setAcc u := rfl

theorem State.setAcc_self (s : State) : s.setAcc s.bw.acc = s := rfl

end Sys2Proof.Machine
end

