-- ==== Sys2Proof/Laws/Ops.lean ====
section
/-! SUPPORT. What each shared operation can do, said once: how ends are sequenced, what an operation may change
(`_sat`: in its value end, and in its error and waiting ends), what it does to the streams where it does not fail
(`_steady`), and what it does on given streams and bits (`_run`). -/

namespace Sys2Proof.Machine

/-! ### Ends and their sequencing -/

section
variable {α β : Type}

@[simp] theorem Res.bind_ok (a : α) (s : State) (k : α → State → Res β) : (Res.ok a s).bind k = k a s := rfl
@[simp] theorem Res.bind_raise (e : Err) (s : State) (k : α → State → Res β) : (Res.raise e s).bind k = .raise e s := rfl
@[simp] theorem Res.bind_wait (s : State) (k : α → State → Res β) : (Res.wait s).bind k = .wait s := rfl
@[simp] theorem Res.bind_fault (f : Fault) (k : α → State → Res β) : (Res.fault f).bind k = .fault f := rfl
@[simp] theorem Res.bind_refuse (r : Refusal) (k : α → State → Res β) : (Res.refuse r).bind k = .refuse r := rfl

@[simp] theorem settle_ok (s : State) (a : α) (t : State) : settle s (.ok a t) = .next t := rfl
@[simp] theorem settle_raise (s : State) (e : Err) (t : State) : settle s (.raise e t : Res α) = .next (t.raise e) := rfl
@[simp] theorem settle_wait (s t : State) : settle s (.wait t : Res α) = .next (s.suspend t) := rfl
@[simp] theorem settle_fault (s : State) (f : Fault) : settle s (.fault f : Res α) = .fault f := rfl
@[simp] theorem settle_refuse (s : State) (r : Refusal) : settle s (.refuse r : Res α) = .refused r := rfl

theorem Res.bind_assoc {γ : Type} (r : Res α) (k : α → State → Res β) (l : β → State → Res γ) :
    (r.bind k).bind l = r.bind fun a s => (k a s).bind l := by cases r <;> rfl

/-- A sequence has a value only through the values of its parts. -/
theorem Res.bind_eq_ok {r : Res α} {k : α → State → Res β} {b : β} {t : State} :
    r.bind k = .ok b t ↔ ∃ a s, r = .ok a s ∧ k a s = .ok b t := by
  cases r <;> simp [Res.bind]

/-- The three ways to a next state. -/
theorem settle_eq_next {s t : State} {r : Res α} :
    settle s r = .next t ↔
      (∃ a, r = .ok a t) ∨ (∃ e u, r = .raise e u ∧ t = u.raise e) ∨ (∃ u, r = .wait u ∧ t = s.suspend u) := by
  cases r <;> simp [settle, eq_comm]

/-- What holds of an operation's end: P of its value and state, or Q of its error (`none` where it waits) and state.
Nothing is said of an operation that stops. -/
def Res.Sat (r : Res α) (P : α → State → Prop) (Q : Option Err → State → Prop) : Prop :=
  match r with
  | .ok a s    => P a s
  | .raise e s => Q (some e) s
  | .wait s    => Q none s
  | .fault _ | .refuse _ => True

@[simp] theorem Res.sat_ok {P : α → State → Prop} {Q : Option Err → State → Prop} {a : α} {s : State} :
    (Res.ok a s).Sat P Q ↔ P a s := Iff.rfl
@[simp] theorem Res.sat_raise {P : α → State → Prop} {Q : Option Err → State → Prop} {e : Err} {s : State} :
    (Res.raise e s : Res α).Sat P Q ↔ Q (some e) s := Iff.rfl
@[simp] theorem Res.sat_wait {P : α → State → Prop} {Q : Option Err → State → Prop} {s : State} :
    (Res.wait s : Res α).Sat P Q ↔ Q none s := Iff.rfl
@[simp] theorem Res.sat_fault {P : α → State → Prop} {Q : Option Err → State → Prop} {f : Fault} :
    (Res.fault f : Res α).Sat P Q := trivial
@[simp] theorem Res.sat_refuse {P : α → State → Prop} {Q : Option Err → State → Prop} {f : Refusal} :
    (Res.refuse f : Res α).Sat P Q := trivial

theorem Res.Sat.mono {r : Res α} {P P' : α → State → Prop} {Q Q' : Option Err → State → Prop} (h : r.Sat P Q)
    (hP : ∀ a s, P a s → P' a s) (hQ : ∀ e s, Q e s → Q' e s) : r.Sat P' Q' := by
  cases r <;> simp_all [Res.Sat]

/-- Sequencing two descriptions. -/
theorem Res.Sat.bind {r : Res α} {k : α → State → Res β} {P : α → State → Prop} {Q Q' : Option Err → State → Prop}
    {P' : β → State → Prop} (h : r.Sat P Q) (hk : ∀ a s, P a s → (k a s).Sat P' Q') (hQ : ∀ e s, Q e s → Q' e s) :
    (r.bind k).Sat P' Q' := by
  cases r <;> simp_all [Res.Sat, Res.bind]

/-- From a description to the next state of an operation. -/
theorem Res.Sat.next {r : Res α} {s t : State} {P : α → State → Prop} {Q : Option Err → State → Prop} (h : r.Sat P Q)
    (ht : settle s r = .next t) :
    (∃ a, P a t) ∨ (∃ e u, Q (some e) u ∧ t = u.raise e) ∨ ∃ u, Q none u ∧ t = s.suspend u := by
  cases r <;> simp_all [settle, Res.Sat] <;> grind

end

/-! ### Frames -/

/-- A change made through the sink only. -/
def SinkStep (s t : State) : Prop :=
  t = { s with snk := t.snk, out := t.out, freeCtr := t.freeCtr } ∧ s.out <+: t.out

theorem SinkStep.refl (s : State) : SinkStep s s := ⟨rfl, List.prefix_rfl⟩

theorem SinkStep.trans {s t u : State} (h : SinkStep s t) (h' : SinkStep t u) : SinkStep s u :=
  ⟨by rw [h'.1, h.1], h.2.trans h'.2⟩

/-- A change made through the source only. -/
def SourceStep (s t : State) : Prop := t = { s with src := t.src, srcEos := t.srcEos }

theorem SourceStep.refl (s : State) : SourceStep s s := rfl

theorem SourceStep.trans {s t u : State} (h : SourceStep s t) (h' : SourceStep t u) : SourceStep s u := by
  unfold SourceStep at *; rw [h', h]

/-- A change made by the bit reader: the reader itself, and the source where it is bound to it. -/
def ReaderStep (s t : State) : Prop :=
  t = { s with br := t.br, src := t.src, srcEos := t.srcEos } ∧
    ∀ p, s.br.origin = .pay p → t.src = s.src ∧ t.srcEos = s.srcEos ∧ ∃ p', t.br.origin = .pay p'

theorem ReaderStep.refl (s : State) : ReaderStep s s := ⟨rfl, fun p h => ⟨rfl, rfl, p, h⟩⟩

theorem ReaderStep.trans {s t u : State} (h : ReaderStep s t) (h' : ReaderStep t u) : ReaderStep s u := by
  refine ⟨by rw [h'.1, h.1], fun p hp => ?_⟩
  obtain ⟨a, b, p', hp'⟩ := h.2 p hp
  obtain ⟨c, d, e⟩ := h'.2 p' hp'
  exact ⟨c.trans a, d.trans b, e⟩

/-- A change made by the bit writer: the pending bits, and what its destination is. -/
def WriterStep (s t : State) : Prop :=
  t = { s with
    bw := { s.bw with acc := t.bw.acc }, pay := t.pay, snk := t.snk, out := t.out, freeCtr := t.freeCtr } ∧
    s.pay <+: t.pay ∧ s.out <+: t.out ∧ (s.bw.dest = .pay → t.snk = s.snk ∧ t.out = s.out ∧ t.freeCtr = s.freeCtr) ∧
      (s.bw.dest = .snk → t.pay = s.pay)

theorem WriterStep.dest {s t : State} (h : WriterStep s t) : t.bw.dest = s.bw.dest := by rw [h.1]

theorem WriterStep.refl (s : State) : WriterStep s s :=
  ⟨rfl, List.prefix_rfl, List.prefix_rfl, fun _ => ⟨rfl, rfl, rfl⟩, fun _ => rfl⟩

theorem WriterStep.setAcc (s : State) (u : BitSlice) : WriterStep s (s.setAcc u) :=
  ⟨rfl, List.prefix_rfl, List.prefix_rfl, fun _ => ⟨rfl, rfl, rfl⟩, fun _ => rfl⟩

theorem WriterStep.trans {s t u : State} (h : WriterStep s t) (h' : WriterStep t u) : WriterStep s u := by
  have hd := h.dest
  refine ⟨by rw [h'.1, h.1], h.2.1.trans h'.2.1, h.2.2.1.trans h'.2.2.1, fun e => ?_, fun e => ?_⟩
  · obtain ⟨a, b, c⟩ := h.2.2.2.1 e
    obtain ⟨a', b', c'⟩ := h'.2.2.2.1 (hd.trans e)
    exact ⟨a'.trans a, b'.trans b, c'.trans c⟩
  · exact (h'.2.2.2.2 (hd.trans e)).trans (h.2.2.2.2 e)

/-- Bytes appended to PAY. -/
def PayStep (s t : State) : Prop := t = { s with pay := t.pay } ∧ s.pay <+: t.pay

theorem PayStep.refl (s : State) : PayStep s s := ⟨rfl, List.prefix_rfl⟩

theorem PayStep.trans {s t u : State} (h : PayStep s t) (h' : PayStep t u) : PayStep s u :=
  ⟨by rw [h'.1, h.1], h.2.trans h'.2⟩

theorem srcRead_sat (s : State) : (srcRead s).Sat (fun _ t => SourceStep s t) (fun e t => t = s ∧ e = none) := by
  unfold srcRead
  split
  · simp [SourceStep]
  · split <;> simp [SourceStep]

theorem nextByte_sat (s : State) :
    (nextByte s).Sat (fun _ t => SourceStep s t)
      fun e t => SourceStep s t ∧ (e = none ∨ e = some .truncated ∨ e = some .io) := by
  refine Res.Sat.bind (srcRead_sat s) (fun a t h => ?_) (fun _ _ h => ⟨h.1 ▸ SourceStep.refl s, .inl h.2⟩)
  cases a <;> simp [h]

theorem emit_sat (v : Byte) (s : State) :
    (emit v s).Sat (fun _ t => SinkStep s t ∧ t.freeCtr = s.freeCtr)
      fun e t => SinkStep s t ∧ (e = none ∨ e = some .io) := by
  unfold emit
  split
  · exact ⟨SinkStep.refl s, .inl rfl⟩
  · simp [SinkStep]
  · simp only [Res.sat_raise, SinkStep, true_and, reduceCtorEq, false_or, and_true]; split <;> simp

theorem emitAll_sat (vs : List Byte) (s : State) :
    (emitAll vs s).Sat (fun _ t => SinkStep s t ∧ t.freeCtr = s.freeCtr)
      fun e t => SinkStep s t ∧ (e = none ∨ e = some .io) := by
  induction vs generalizing s with
  | nil => exact ⟨SinkStep.refl s, rfl⟩
  | cons v vs ih =>
    refine Res.Sat.bind (emit_sat v s) (fun _ t h => ?_) fun _ _ h => h
    exact (ih t).mono (fun _ u hu => ⟨h.1.trans hu.1, hu.2.trans h.2⟩) fun e u hu => ⟨h.1.trans hu.1, hu.2⟩

theorem payAppend_sat (v : Byte) (s : State) :
    (payAppend v s).Sat (fun _ t => PayStep s t) fun e t => t = s ∧ e = some .io := by
  unfold payAppend; split <;> simp [PayStep]

theorem destWrite_sat (v : Byte) (s : State) :
    (destWrite v s).Sat (fun _ t => WriterStep s t ∧ t.bw = s.bw ∧ t.freeCtr = s.freeCtr)
      fun e t => WriterStep s t ∧ ((e = none ∧ s.bw.dest = .snk) ∨ e = some .io) := by
  unfold destWrite
  split
  · rename_i hd
    refine (emit_sat v s).mono (fun _ t h => ?_) fun e t h => ?_
    · have hb : t.bw = s.bw := by rw [h.1.1]
      have hp : t.pay = s.pay := by rw [h.1.1]
      refine ⟨⟨?_, by rw [hp], h.1.2, by simp [hd], fun _ => hp⟩, hb, h.2⟩
      rw [h.1.1]
    · have hp : t.pay = s.pay := by rw [h.1.1]
      refine ⟨⟨?_, by rw [hp], h.1.2, by simp [hd], fun _ => hp⟩, h.2.imp_left fun h => ⟨h, hd⟩⟩
      rw [h.1.1]
  · rename_i hd
    refine (payAppend_sat v s).mono (fun _ t h => ?_) fun e t h => ?_
    · have hb : t.bw = s.bw := by rw [h.1]
      refine ⟨⟨?_, h.2, by rw [h.1], fun _ => by rw [h.1]; exact ⟨rfl, rfl, rfl⟩, by simp [hd]⟩, hb, by rw [h.1]⟩
      rw [h.1]
    · rw [h.1]; exact ⟨WriterStep.refl s, .inr h.2⟩

theorem flushBytes_sat (n : Nat) (s : State) :
    (flushBytes n s).Sat (fun _ t => WriterStep s t ∧ t.freeCtr = s.freeCtr)
      fun e t => WriterStep s t ∧ ((e = none ∧ s.bw.dest = .snk) ∨ e = some .io) := by
  induction n generalizing s with
  | zero => exact ⟨WriterStep.refl s, rfl⟩
  | succ n ih =>
    rw [flushBytes]
    split
    · exact ⟨WriterStep.refl s, rfl⟩
    · rename_i v t _
      refine Res.Sat.bind (destWrite_sat v (s.setAcc t)) (fun _ u h => ?_) fun e u h => ?_
      · have hw := (WriterStep.setAcc s t).trans h.1
        exact (ih u).mono (fun _ w hu => ⟨hw.trans hu.1, hu.2.trans h.2.2⟩) fun e w hu =>
          ⟨hw.trans hu.1, hu.2.imp_left fun h' => ⟨h'.1, hw.dest ▸ h'.2⟩⟩
      · exact ⟨(WriterStep.setAcc s t).trans h.1, h.2⟩

theorem flushWriter_sat (s : State) :
    (flushWriter s).Sat (fun _ t => WriterStep s t ∧ t.freeCtr = s.freeCtr)
      fun e t => WriterStep s t ∧ ((e = none ∧ s.bw.dest = .snk) ∨ e = some .io) :=
  flushBytes_sat _ s

theorem writeBit_sat (b : Bool) (s : State) :
    (writeBit b s).Sat (fun _ t => WriterStep s t ∧ t.freeCtr = s.freeCtr)
      fun e t => WriterStep s t ∧ ((e = none ∧ s.bw.dest = .snk) ∨ e = some .io ∨ e = some .capacity) := by
  unfold writeBit
  split
  · exact ⟨WriterStep.refl s, .inr (.inr rfl)⟩
  · exact (flushWriter_sat _).mono (fun _ t h => ⟨(WriterStep.setAcc s _).trans h.1, h.2⟩)
      fun e t h => ⟨(WriterStep.setAcc s _).trans h.1, h.2.imp_right .inl⟩

theorem writeSlice_sat (u : BitSlice) (s : State) :
    (writeSlice u s).Sat (fun _ t => WriterStep s t ∧ t.freeCtr = s.freeCtr)
      fun e t => WriterStep s t ∧ ((e = none ∧ s.bw.dest = .snk) ∨ e = some .io ∨ e = some .capacity) := by
  unfold writeSlice
  split
  · exact ⟨WriterStep.refl s, .inr (.inr rfl)⟩
  · exact (flushWriter_sat _).mono (fun _ t h => ⟨(WriterStep.setAcc s _).trans h.1, h.2⟩)
      fun e t h => ⟨(WriterStep.setAcc s _).trans h.1, h.2.imp_right .inl⟩

theorem writePaddingBits_sat (s : State) :
    (writePaddingBits s).Sat (fun _ t => WriterStep s t ∧ t.freeCtr = s.freeCtr)
      fun e t => WriterStep s t ∧ ((e = none ∧ s.bw.dest = .snk) ∨ e = some .io) :=
  (flushWriter_sat _).mono (fun _ _ h => ⟨(WriterStep.setAcc s _).trans h.1, h.2⟩)
    fun _ _ h => ⟨(WriterStep.setAcc s _).trans h.1, h.2⟩

theorem originRead_sat (s : State) : (originRead s).Sat (fun _ t => ReaderStep s t)
      fun e t => t = s ∧ e = none ∧ s.br.origin = .src := by
  unfold originRead
  split
  · rename_i h
    refine (srcRead_sat s).mono (fun _ t ht => ?_) (fun _ _ h' => ⟨h'.1, h'.2, h⟩)
    refine ⟨?_, by simp [h]⟩
    rw [ht]
  · rename_i p h
    split
    · simp [ReaderStep]
    · exact ReaderStep.refl s

/-- The reader's read: at most seven bits stay unread. -/
theorem readBit_sat (s : State) :
    (readBit s).Sat (fun _ t => ReaderStep s t ∧ (s.br.rem ≤ 7 → t.br.rem ≤ 7))
      fun e t => ReaderStep s t ∧ (s.br.rem ≤ 7 → t.br.rem ≤ 7) ∧
        (e = some .truncated ∨ ((e = none ∨ e = some .io) ∧ ∀ p, s.br.origin ≠ .pay p)) := by
  unfold readBit
  split
  · rename_i h0
    cases ho : s.br.origin with
    | pay p =>
      simp only [originRead, ho]
      split <;> simp [ReaderStep, ho, h0]
    | src =>
      have := originRead_sat s
      cases hr : originRead s with
      | ok a t =>
        rw [hr] at this
        simp only [Res.sat_ok] at this
        have hb : t.br = s.br := by
          simp only [originRead, ho] at hr
          have := srcRead_sat s; rw [hr] at this; simp only [Res.sat_ok] at this; rw [this]
        cases a with
        | byte v =>
          simp only [Res.bind_ok, Res.sat_ok]
          refine ⟨⟨?_, by simp [ho]⟩, by simp⟩
          rw [this.1]
        | eos => simp [this, hb]
        | ioFail => simp [this, hb]
      | wait u => simp_all [ReaderStep.refl]
      | _ => simp_all
  · refine ⟨⟨rfl, fun p h => ⟨rfl, rfl, p, h⟩⟩, fun _ => ?_⟩
    simp; omega

/-! ### The streams of an operation that does not fail -/

/-- From `s` to `t` every access to the streams was answered, and none failed: the bytes taken are gone from the source
(R41), the bytes given are at the end of the output log (R42), and no free value was drawn. -/
def Went (s t : State) : Prop :=
  t.srcEos = s.srcEos ∧ t.freeCtr = s.freeCtr ∧ (∃ taken : List Byte, s.src = taken.map .byte ++ t.src) ∧
    ∃ given : List Byte, s.snk = List.replicate given.length .ok ++ t.snk ∧ t.out = s.out ++ given

theorem Went.refl (s : State) : Went s s := ⟨rfl, rfl, ⟨[], rfl⟩, [], rfl, by simp⟩

/-- A change that leaves the streams alone. -/
theorem Went.of_eq {s t : State} (h : t = { t with srcEos := s.srcEos, freeCtr := s.freeCtr, src := s.src, snk := s.snk, out := s.out }) :
    Went s t := by
  rw [h]; exact ⟨rfl, rfl, ⟨[], rfl⟩, [], rfl, by simp⟩

theorem Went.trans {s t u : State} (h : Went s t) (h' : Went t u) : Went s u := by
  obtain ⟨a, b, ⟨tk, c⟩, gv, d, e⟩ := h
  obtain ⟨a', b', ⟨tk', c'⟩, gv', d', e'⟩ := h'
  refine ⟨a'.trans a, b'.trans b, ⟨tk ++ tk', by rw [c, c']; simp⟩, gv ++ gv', ?_, by rw [e', e]; simp⟩
  rw [d, d', List.length_append, ← List.replicate_append_replicate, List.append_assoc]

/-- An operation that, unless it fails, went on from `s` over answered accesses, with a value or waiting. -/
def Res.Steady {α : Type} (r : Res α) (s : State) : Prop := r.Sat (fun _ t => Went s t) fun e t => e = none → Went s t

theorem Res.Steady.bind {α β : Type} {r : Res α} {k : α → State → Res β} {s : State} (h : r.Steady s)
    (hk : ∀ a t, r = .ok a t → (k a t).Steady t) : (r.bind k).Steady s := by
  cases r with
  | ok a t => exact (hk a t rfl).mono (fun _ u hu => Went.trans h hu) fun e u hu he => Went.trans h (hu he)
  | _ => exact h

theorem Res.Steady.ok {α : Type} {a : α} {s t : State} (h : Went s t) : (Res.ok a t).Steady s := h

/-- The operation begins with a change that leaves the streams alone. -/
theorem Res.Steady.of_went {α : Type} {r : Res α} {s t : State} (h : r.Steady t) (ht : Went s t) : r.Steady s :=
  h.mono (fun _ _ hu => ht.trans hu) fun _ _ hu he => ht.trans (hu he)

/-- Where an operation that waits has come to: what it took and gave is recorded in `held`, and it starts, when taken up
again, from where it started. -/
theorem Went.takeUp_suspend {s t : State} (h : Went s t) (hh : s.held = none)
    (ht : t = { s with
      cur := t.cur, remaining := t.remaining, bw := t.bw, br := t.br, pay := t.pay, blkId := t.blkId, blkLen := t.blkLen,
      padcnt := t.padcnt, src := t.src, snk := t.snk, out := t.out }) :
    (s.suspend t).takeUp = { s with out := t.out } := by
  obtain ⟨_, _, ⟨tk, c⟩, gv, d, e⟩ := h
  have h1 : s.src.take (s.src.length - t.src.length) ++ t.src = s.src := by
    rw [c]; simp
  have h2 : List.replicate (s.snk.length - t.snk.length) .ok ++ t.snk = s.snk := by
    rw [d]; simp
  simp only [State.suspend, State.takeUp, h1, h2]
  rw [ht]
  cases s
  simp only at hh ⊢
  rw [hh]

/-- R41: a byte answered is taken; without an answer nothing has happened. -/
theorem srcRead_went {s t : State} : (∀ v, srcRead s = .ok (.byte v) t → Went s t) ∧ (srcRead s = .wait t → t = s) := by
  unfold srcRead
  split
  · simp
  · split <;> rename_i hs
    · simp [eq_comm]
    · refine ⟨fun v h => ?_, by simp⟩
      simp only [Res.ok.injEq, SrcAns.byte.injEq] at h
      rw [← h.2]; exact ⟨rfl, rfl, ⟨[_], hs⟩, [], rfl, by simp⟩
    · simp
    · simp

theorem nextByte_steady (s : State) : (nextByte s).Steady s := by
  unfold nextByte
  cases hr : srcRead s with
  | ok a t =>
    cases a with
    | byte v => exact srcRead_went.1 v hr
    | _ => exact fun h => nomatch h
  | wait u => exact fun _ => srcRead_went.2 hr ▸ Went.refl s
  | _ => simp [Res.Steady, Res.Sat, Res.bind]

theorem emit_steady (v : Byte) (s : State) : (emit v s).Steady s := by
  unfold emit
  split
  · exact fun _ => Went.refl s
  · rename_i r hs; exact ⟨rfl, rfl, ⟨[], rfl⟩, [v], by simpa using hs, rfl⟩
  · exact fun h => nomatch h

theorem emitAll_steady (vs : List Byte) (s : State) : (emitAll vs s).Steady s := by
  induction vs generalizing s with
  | nil => exact Went.refl s
  | cons v vs ih => exact (emit_steady v s).bind fun _ t _ => ih t

theorem payAppend_steady (v : Byte) (s : State) : (payAppend v s).Steady s := by
  unfold payAppend; split
  · exact Went.of_eq rfl
  · exact fun h => nomatch h

theorem destWrite_steady (v : Byte) (s : State) : (destWrite v s).Steady s := by
  unfold destWrite; split
  · exact emit_steady v s
  · exact payAppend_steady v s

theorem flushBytes_steady (n : Nat) (s : State) : (flushBytes n s).Steady s := by
  induction n generalizing s with
  | zero => exact Went.refl s
  | succ n ih =>
    rw [flushBytes]; split
    · exact Went.refl s
    · exact ((destWrite_steady _ _).bind fun _ t _ => ih t).of_went (Went.of_eq rfl)

theorem flushWriter_steady (s : State) : (flushWriter s).Steady s := flushBytes_steady _ s

theorem writeBit_steady (b : Bool) (s : State) : (writeBit b s).Steady s := by
  unfold writeBit; split
  · exact fun h => nomatch h
  · exact (flushWriter_steady _).of_went (Went.of_eq rfl)

theorem writeSlice_steady (t : BitSlice) (s : State) : (writeSlice t s).Steady s := by
  unfold writeSlice; split
  · exact fun h => nomatch h
  · exact (flushWriter_steady _).of_went (Went.of_eq rfl)

theorem writePaddingBits_steady (s : State) : (writePaddingBits s).Steady s :=
  (flushWriter_steady _).of_went (Went.of_eq rfl)

theorem readBit_steady (s : State) : (readBit s).Steady s := by
  unfold readBit; split
  · unfold originRead; split
    · cases hr : srcRead s with
      | ok a t =>
        cases a with
        | byte v => exact Went.trans (srcRead_went.1 v hr) (Went.of_eq rfl)
        | _ => exact fun h => nomatch h
      | wait u => exact fun _ => srcRead_went.2 hr ▸ Went.refl s
      | _ => simp [Res.Steady, Res.Sat, Res.bind]
    · split
      · exact Went.of_eq rfl
      · exact fun h => nomatch h
  · exact Went.of_eq rfl

/-! ### Runs on given streams -/

/-- R42 on a sink that answers OK for every byte. -/
theorem emitAll_run (vs : List Byte) (s : State) (r : List SnkAns) (h : s.snk = List.replicate vs.length .ok ++ r) :
    emitAll vs s = .ok () { s with snk := r, out := s.out ++ vs } := by
  induction vs generalizing s with
  | nil => simp [emitAll] at *; rw [← h]
  | cons v vs ih =>
    simp only [List.length_cons, List.replicate_succ, List.cons_append] at h
    simp only [emitAll, emit, h, Res.bind_ok]
    rw [ih _ rfl]; simp

/-- R42, R43: a sink that has answered OK only for some of the bytes: those are written, and the sequence waits. -/
theorem emitAll_wait (vs : List Byte) (s : State) (k : Nat) (hk : k < vs.length) (h : s.snk = List.replicate k .ok) :
    emitAll vs s = .wait { s with snk := [], out := s.out ++ vs.take k } := by
  induction vs generalizing s k with
  | nil => simp at hk
  | cons v vs ih =>
    cases k with
    | zero =>
      have h' : s.snk = [] := by simpa using h
      simp only [emitAll, emit, h', Res.bind_wait, List.take_zero, List.append_nil]
      rw [← h']
    | succ k =>
      simp only [List.replicate_succ] at h
      simp only [emitAll, emit, h, Res.bind_ok]
      rw [ih { s with snk := List.replicate k .ok, out := s.out ++ [v] } k (by simpa using hk) rfl]
      simp

/-- R42, R221: the first write that fails ends the sequence; what was written before it stays. -/
theorem emitAll_fail (vs : List Byte) (s : State) (k : Nat) (r : List SnkAns) (hk : k < vs.length)
    (h : s.snk = List.replicate k .ok ++ .ioFail :: r) :
    ∃ t, emitAll vs s = .raise .io t ∧ SinkStep s t ∧ s.out ++ vs.take k <+: t.out := by
  induction vs generalizing s k with
  | nil => simp at hk
  | cons v vs ih =>
    cases k with
    | zero =>
      simp only [List.replicate_zero, List.nil_append] at h
      simp only [emitAll, emit, h, Res.bind_raise]
      refine ⟨_, rfl, ⟨rfl, ?_⟩, ?_⟩ <;> (simp; split <;> simp)
    | succ k =>
      simp only [List.replicate_succ, List.cons_append] at h
      simp only [emitAll, emit, h, Res.bind_ok]
      obtain ⟨t, ht, hs, hp⟩ := ih { s with snk := List.replicate k .ok ++ .ioFail :: r, out := s.out ++ [v] } k
        (by simpa using hk) rfl
      refine ⟨t, ht, SinkStep.trans ⟨rfl, by simp⟩ hs, by simpa using hp⟩

theorem roomFor_iff {cap : Option Nat} {n : Nat} : roomFor cap n = true ↔ ∀ c, cap = some c → n < c := by
  cases cap <;> simp [roomFor]

theorem payAppend_run {s : State} (h : s.payRoom 1) (v : Byte) :
    payAppend v s = .ok () { s with pay := s.pay ++ [v] } := by
  rw [payAppend, if_pos]
  exact roomFor_iff.2 fun c hc => h c hc

theorem payAppendAll_run (vs : List Byte) (s : State) (h : s.payRoom vs.length) :
    payAppendAll vs s = .ok () { s with pay := s.pay ++ vs } := by
  induction vs generalizing s with
  | nil => simp [payAppendAll]
  | cons v vs ih =>
    rw [payAppendAll, payAppend_run (fun c hc => by have := h c hc; simp at this; omega), Res.bind_ok, ih]
    · simp
    · intro c hc; have := h c hc; simp at this ⊢; omega

/-- R106, R107, R109: the flush of a writer bound to PAY whose pending bits are the bytes and then the rest. -/
theorem flushBytes_pay_run (bytes : List Byte) (q : List Bool) (s : State) (hd : s.bw.dest = .pay)
    (hq : (unpack bytes ++ q).length ≤ 64) (hs : s.bw.acc = BitSlice.ofBits (unpack bytes ++ q))
    (h : s.payRoom bytes.length) :
    flushBytes bytes.length s = .ok () { s.setAcc (BitSlice.ofBits q) with pay := s.pay ++ bytes } := by
  induction bytes generalizing s with
  | nil =>
    have e : s.bw.acc = BitSlice.ofBits q := by simpa [unpack] using hs
    rw [← e]; simp [flushBytes, State.setAcc]
  | cons v vs ih =>
    obtain ⟨b7, b6, b5, b4, b3, b2, b1, b0, hv, rfl⟩ := packByte_unpackByte v
    simp only [unpack_cons, hv, List.cons_append, List.nil_append, List.length_cons] at hs hq
    rw [List.length_cons, flushBytes, hs, BitSlice.popByte_ofBits _ _ _ _ _ _ _ _ (by omega)]
    have hd' : (s.setAcc (BitSlice.ofBits (unpack vs ++ q))).bw.dest = .pay := hd
    simp only [destWrite, hd']
    rw [payAppend_run (fun c hc => by have := h c hc; simp at this ⊢; omega), Res.bind_ok, ih]
    · simp [State.setAcc]
    · exact hd
    · omega
    · rfl
    · intro c hc; have := h c hc; simp at this ⊢; omega

/-- The same for a writer bound to the sink. -/
theorem flushBytes_snk_run (bytes : List Byte) (q : List Bool) (s : State) (hd : s.bw.dest = .snk)
    (hq : (unpack bytes ++ q).length ≤ 64) (hs : s.bw.acc = BitSlice.ofBits (unpack bytes ++ q)) (r : List SnkAns)
    (h : s.snk = List.replicate bytes.length .ok ++ r) :
    flushBytes bytes.length s = .ok () { s.setAcc (BitSlice.ofBits q) with snk := r, out := s.out ++ bytes } := by
  induction bytes generalizing s with
  | nil =>
    have e : s.bw.acc = BitSlice.ofBits q := by simpa [unpack] using hs
    have e' : s.snk = r := by simpa using h
    rw [← e, ← e']; simp [flushBytes, State.setAcc]
  | cons v vs ih =>
    obtain ⟨b7, b6, b5, b4, b3, b2, b1, b0, hv, rfl⟩ := packByte_unpackByte v
    simp only [unpack_cons, hv, List.cons_append, List.nil_append, List.length_cons] at hs hq
    rw [List.length_cons, flushBytes, hs, BitSlice.popByte_ofBits _ _ _ _ _ _ _ _ (by omega)]
    have hd' : (s.setAcc (BitSlice.ofBits (unpack vs ++ q))).bw.dest = .snk := hd
    simp only [List.length_cons, List.replicate_succ, List.cons_append] at h
    simp only [destWrite, hd', emit, State.setAcc_snk, h, Res.bind_ok]
    rw [ih]
    · simp [State.setAcc]
    · exact hd
    · omega
    · rfl
    · rfl

/-- A sink that fails before the last complete byte makes the flush fail. -/
theorem flushBytes_snk_fail (bytes : List Byte) (q : List Bool) (s : State) (hd : s.bw.dest = .snk)
    (hq : (unpack bytes ++ q).length ≤ 64) (hs : s.bw.acc = BitSlice.ofBits (unpack bytes ++ q)) (k : Nat)
    (r : List SnkAns) (hk : k < bytes.length) (h : s.snk = List.replicate k .ok ++ .ioFail :: r) :
    ∃ t, flushBytes bytes.length s = .raise .io t := by
  induction bytes generalizing s k with
  | nil => simp at hk
  | cons v vs ih =>
    obtain ⟨b7, b6, b5, b4, b3, b2, b1, b0, hv, rfl⟩ := packByte_unpackByte v
    simp only [unpack_cons, hv, List.cons_append, List.nil_append, List.length_cons] at hs hq
    rw [List.length_cons, flushBytes, hs, BitSlice.popByte_ofBits _ _ _ _ _ _ _ _ (by omega)]
    have hd' : (s.setAcc (BitSlice.ofBits (unpack vs ++ q))).bw.dest = .snk := hd
    cases k with
    | zero =>
      simp only [List.replicate_zero, List.nil_append] at h
      simp only [destWrite, hd', emit, State.setAcc_snk, h, Res.bind_raise]
      exact ⟨_, rfl⟩
    | succ k =>
      simp only [List.replicate_succ, List.cons_append] at h
      simp only [destWrite, hd', emit, State.setAcc_snk, h, Res.bind_ok]
      exact ih _ hd (by omega) rfl k (by simpa using hk) rfl

/-- A sequence of bits is the complete bytes it holds and fewer than eight bits. -/
theorem bytes_and_rest (q : List Bool) : ∃ bytes r, q = unpack bytes ++ r ∧ bytes.length = q.length / 8 ∧ r.length ≤ 7 := by
  refine ⟨pack q, q.drop (8 * (q.length / 8)), ?_, pack_length q, ?_⟩
  · rw [unpack_pack, List.take_append_drop]
  · simp; omega

/-- The bit a payload-bound reader gives is the first of the bits ahead of it. -/
theorem readBit_run {s : State} {p : Nat} {b : Bool} {bits : List Bool} (ho : s.br.origin = .pay p)
    (h : s.readerBits = b :: bits) :
    ∃ br p', readBit s = .ok b { s with br := br } ∧ br.origin = .pay p' ∧
      State.readerBits { s with br := br } = bits := by
  unfold readBit
  split
  · rename_i h0
    simp only [State.readerBits, h0, List.range_zero, List.map_nil, List.nil_append, ho] at h
    simp only [originRead, ho]
    cases hd : s.pay.drop p with
    | nil => rw [hd] at h; simp [unpack] at h
    | cons v vs =>
      have hv : s.pay[p]? = some v := by
        have := congrArg List.head? hd; simpa [List.head?_drop] using this
      rw [hd, unpack_cons] at h
      simp only [unpackByte, List.cons_append, List.nil_append, List.cons.injEq] at h
      simp only [hv, Res.bind_ok]
      refine ⟨_, p + 1, by rw [h.1], rfl, ?_⟩
      have hdrop : s.pay.drop (p + 1) = vs := by
        rw [← List.drop_drop, hd]; rfl
      simp only [State.readerBits, hdrop]
      rw [← h.2]; rfl
  · rename_i h0
    obtain ⟨n, hn⟩ : ∃ n, s.br.rem = n + 1 := ⟨s.br.rem - 1, by omega⟩
    simp only [State.readerBits, hn, ho, List.range_succ_eq_map, List.map_cons, List.map_map, List.cons_append,
      List.cons.injEq] at h
    refine ⟨{ s.br with rem := n }, p, ?_, ho, ?_⟩
    · rw [hn, Nat.add_sub_cancel]
      have h1 := h.1
      rw [Nat.add_sub_cancel, Nat.sub_zero] at h1
      rw [h1]
    · simp only [State.readerBits, ho, Nat.add_sub_cancel] at h ⊢
      rw [← h.2]
      congr 1
      apply List.map_congr_left
      intro i _
      simp only [Function.comp_apply]
      congr 1; omega

/-- With no bit ahead a payload-bound reader raises ERR_TRUNCATED (R101). -/
theorem readBit_empty {s : State} {p : Nat} (ho : s.br.origin = .pay p) (h : s.readerBits = []) :
    readBit s = .raise .truncated s := by
  have h0 : s.br.rem = 0 := by
    by_contra hc; simp [State.readerBits] at h; omega
  have hp : s.pay[p]? = none := by
    simp only [State.readerBits, h0, ho, List.range_zero, List.map_nil, List.nil_append] at h
    have := congrArg List.length h
    rw [unpack_length] at this
    simp at this ⊢; omega
  simp [readBit, h0, originRead, ho, hp]

/-- The bits ahead of a payload-bound reader, counted. -/
theorem bitsAhead_eq {s : State} {p : Nat} (ho : s.br.origin = .pay p) : s.bitsAhead = s.readerBits.length := by
  simp [State.bitsAhead, State.readerBits, ho]

/-- R41: a required byte that the source answers. -/
theorem nextByte_run {s : State} {v : Byte} {r : List SrcAns} (he : s.srcEos = false) (h : s.src = .byte v :: r) :
    nextByte s = .ok v { s with src := r } := by
  simp [nextByte, srcRead, he, h]

end Sys2Proof.Machine
end

