-- ==== Sys2Proof/Laws/PerInstr.lean ====
section
/-! SUPPORT. Statements made once per constructor of the operation type. -/

/-- A frame holds its pattern and its format, and fits the longest frame a table word is laid out in. -/
def Sys2Proof.Laws.FrameBound.Statement (i : Sys2Proof.Instr) : Prop :=
  2 ≤ (Sys2Proof.encode i).length ∧ (Sys2Proof.encode i).length ≤ Sys2Proof.frameBytes

namespace Sys2Proof

theorem encodeSliceSrc_length (t : SliceSrc) : (encodeSliceSrc t).length ≤ 10 := by
  cases t <;> simp [encodeSliceSrc, le64]

end Sys2Proof

open Sys2Proof

theorem Sys2Proof.Laws.FrameBound.encode :
    Sys2Proof.Laws.FrameBound.Statement .encode := ⟨by decide, by decide⟩

theorem Sys2Proof.Laws.FrameBound.decode :
    Sys2Proof.Laws.FrameBound.Statement .decode := ⟨by decide, by decide⟩

theorem Sys2Proof.Laws.FrameBound.blkShape :
    Sys2Proof.Laws.FrameBound.Statement .blkShape := ⟨by decide, by decide⟩

theorem Sys2Proof.Laws.FrameBound.blkLeaves :
    Sys2Proof.Laws.FrameBound.Statement .blkLeaves := ⟨by decide, by decide⟩

theorem Sys2Proof.Laws.FrameBound.blkData :
    Sys2Proof.Laws.FrameBound.Statement .blkData := ⟨by decide, by decide⟩

theorem Sys2Proof.Laws.FrameBound.sLeaf :
    Sys2Proof.Laws.FrameBound.Statement .sLeaf := ⟨by decide, by decide⟩

theorem Sys2Proof.Laws.FrameBound.sInternal :
    Sys2Proof.Laws.FrameBound.Statement .sInternal := ⟨by decide, by decide⟩

theorem Sys2Proof.Laws.FrameBound.pLeft :
    Sys2Proof.Laws.FrameBound.Statement .pLeft := ⟨by decide, by decide⟩

theorem Sys2Proof.Laws.FrameBound.pRight :
    Sys2Proof.Laws.FrameBound.Statement .pRight := ⟨by decide, by decide⟩

theorem Sys2Proof.Laws.FrameBound.padcnt (p : BitVec 3) :
    Sys2Proof.Laws.FrameBound.Statement (.padcnt p) := by
  simp [Sys2Proof.Laws.FrameBound.Statement, Sys2Proof.encode, Instr.operandBytes, frameBytes]

theorem Sys2Proof.Laws.FrameBound.bsAppendBit (r : SliceReg) (b : Bool) :
    Sys2Proof.Laws.FrameBound.Statement (.bsAppendBit r b) := by
  simp [Sys2Proof.Laws.FrameBound.Statement, Sys2Proof.encode, Instr.operandBytes, frameBytes, encodeBit]

theorem Sys2Proof.Laws.FrameBound.bsAppendSlice (r : SliceReg) (t : SliceSrc) :
    Sys2Proof.Laws.FrameBound.Statement (.bsAppendSlice r t) := by
  have := encodeSliceSrc_length t
  simp [Sys2Proof.Laws.FrameBound.Statement, Sys2Proof.encode, Instr.operandBytes, frameBytes]; omega

theorem Sys2Proof.Laws.FrameBound.bsPadToByte (r : SliceReg) :
    Sys2Proof.Laws.FrameBound.Statement (.bsPadToByte r) := by
  simp [Sys2Proof.Laws.FrameBound.Statement, Sys2Proof.encode, Instr.operandBytes, frameBytes]

theorem Sys2Proof.Laws.FrameBound.bsPopByte (r : SliceReg) :
    Sys2Proof.Laws.FrameBound.Statement (.bsPopByte r) := by
  simp [Sys2Proof.Laws.FrameBound.Statement, Sys2Proof.encode, Instr.operandBytes, frameBytes]

theorem Sys2Proof.Laws.FrameBound.brReadBit :
    Sys2Proof.Laws.FrameBound.Statement .brReadBit := ⟨by decide, by decide⟩

theorem Sys2Proof.Laws.FrameBound.brCountUnflushedBits :
    Sys2Proof.Laws.FrameBound.Statement .brCountUnflushedBits := ⟨by decide, by decide⟩

theorem Sys2Proof.Laws.FrameBound.brFlushBits :
    Sys2Proof.Laws.FrameBound.Statement .brFlushBits := ⟨by decide, by decide⟩

theorem Sys2Proof.Laws.FrameBound.bwWriteBit (b : Bool) :
    Sys2Proof.Laws.FrameBound.Statement (.bwWriteBit b) := by
  simp [Sys2Proof.Laws.FrameBound.Statement, Sys2Proof.encode, Instr.operandBytes, frameBytes, encodeBit]

theorem Sys2Proof.Laws.FrameBound.bwWriteSlice (t : SliceSrc) :
    Sys2Proof.Laws.FrameBound.Statement (.bwWriteSlice t) := by
  have := encodeSliceSrc_length t
  simp [Sys2Proof.Laws.FrameBound.Statement, Sys2Proof.encode, Instr.operandBytes, frameBytes]; omega

theorem Sys2Proof.Laws.FrameBound.bwCountPaddingBits :
    Sys2Proof.Laws.FrameBound.Statement .bwCountPaddingBits := ⟨by decide, by decide⟩

theorem Sys2Proof.Laws.FrameBound.bwWritePaddingBits :
    Sys2Proof.Laws.FrameBound.Statement .bwWritePaddingBits := ⟨by decide, by decide⟩

theorem Sys2Proof.Laws.FrameBound.tCount :
    Sys2Proof.Laws.FrameBound.Statement .tCount := ⟨by decide, by decide⟩

theorem Sys2Proof.Laws.FrameBound.tBuild :
    Sys2Proof.Laws.FrameBound.Statement .tBuild := ⟨by decide, by decide⟩

theorem Sys2Proof.Laws.FrameBound.tWriteShape :
    Sys2Proof.Laws.FrameBound.Statement .tWriteShape := ⟨by decide, by decide⟩

theorem Sys2Proof.Laws.FrameBound.tWriteLeaves :
    Sys2Proof.Laws.FrameBound.Statement .tWriteLeaves := ⟨by decide, by decide⟩

theorem Sys2Proof.Laws.FrameBound.tBuildTable :
    Sys2Proof.Laws.FrameBound.Statement .tBuildTable := ⟨by decide, by decide⟩

theorem Sys2Proof.Laws.FrameBound.tReadShape :
    Sys2Proof.Laws.FrameBound.Statement .tReadShape := ⟨by decide, by decide⟩

theorem Sys2Proof.Laws.FrameBound.tAssignLeaves :
    Sys2Proof.Laws.FrameBound.Statement .tAssignLeaves := ⟨by decide, by decide⟩

theorem Sys2Proof.Laws.FrameBound.blkWrite (id : BlockId) :
    Sys2Proof.Laws.FrameBound.Statement (.blkWrite id) := by
  simp [Sys2Proof.Laws.FrameBound.Statement, Sys2Proof.encode, Instr.operandBytes, frameBytes]

theorem Sys2Proof.Laws.FrameBound.blkRead (id : BlockId) :
    Sys2Proof.Laws.FrameBound.Statement (.blkRead id) := by
  simp [Sys2Proof.Laws.FrameBound.Statement, Sys2Proof.encode, Instr.operandBytes, frameBytes]

theorem Sys2Proof.Laws.FrameBound.dWalkBit :
    Sys2Proof.Laws.FrameBound.Statement .dWalkBit := ⟨by decide, by decide⟩
end

