-- ==== Sys2Proof/Laws/Tree.lean ====
section
/-! SUPPORT. What the operations on the tree, the blocks and the walk can change, said once, and their runs on given
trees and bits. -/

namespace Sys2Proof.Machine

theorem writeShape_sat (t : Tree) (s : State) :
    (writeShape t s).Sat (fun _ u => WriterStep s u ∧ u.freeCtr = s.freeCtr)
      fun e u => WriterStep s u ∧ ((e = none ∧ s.bw.dest = .snk) ∨ e = some .io ∨ e = some .capacity) := by
  induction t generalizing s with
  | leaf w x => exact writeBit_sat false s
  | node w l r ihl ihr =>
    refine Res.Sat.bind (writeBit_sat true s) (fun _ u hu => ?_) fun _ _ h => h
    refine Res.Sat.bind (ihl u) (fun _ v hv => ?_)
      fun _ _ h => ⟨hu.1.trans h.1, h.2.imp_left fun h' => ⟨h'.1, hu.1.dest ▸ h'.2⟩⟩
    exact (ihr v).mono (fun _ x hx => ⟨hu.1.trans (hv.1.trans hx.1), hx.2.trans (hv.2.trans hu.2)⟩)
      fun _ x hx => ⟨hu.1.trans (hv.1.trans hx.1), hx.2.imp_left fun h' => ⟨h'.1, (hu.1.trans hv.1).dest ▸ h'.2⟩⟩

theorem writeLeaves_sat (t : Tree) (s : State) :
    (writeLeaves t s).Sat (fun _ u => PayStep s u) fun e u => PayStep s u ∧ e = some .io := by
  induction t generalizing s with
  | leaf w x =>
    cases x with
    | none => trivial
    | some v => exact (payAppend_sat v s).mono (fun _ _ h => h) fun _ u h => ⟨h.1 ▸ PayStep.refl s, h.2⟩
  | node w l r ihl ihr =>
    refine Res.Sat.bind (ihl s) (fun _ u hu => ?_) fun _ _ h => h
    exact (ihr u).mono (fun _ x hx => hu.trans hx) fun _ x hx => ⟨hu.trans hx.1, hx.2⟩

/-- R146: only CW and CWACC change, to well-formed slices from a well-formed one. -/
theorem table_sat (t : Tree) (q : List Bool) (hq : q.length ≤ 64) (s : State) :
    (table t (BitSlice.ofBits q) s).Sat
      (fun _ u => u = { s with cw := u.cw, cwacc := u.cwacc } ∧
        (s.cwacc.wf = true → u.cwacc.wf = true) ∧
        ∀ c x, u.cwAt c = some x → s.cwAt c = some x ∨ x.wf = true)
      fun e u => u = { s with cw := u.cw, cwacc := u.cwacc } ∧ e = some .capacity := by
  induction t generalizing q s with
  | leaf w x =>
    cases x with
    | none => trivial
    | some v =>
      refine ⟨rfl, fun _ => BitSlice.ofBits_wf hq, fun c x h => ?_⟩
      simp only [State.cwAt] at h ⊢
      by_cases hc : v.toNat = c.toNat
      · simp only [hc] at h; simp at h; rw [← h]; exact Or.inr (BitSlice.ofBits_wf hq)
      · rw [Vector.getElem_set_ne _ _ hc] at h; exact Or.inl h
  | node w l r ihl ihr =>
    simp only [table, BitSlice.appendBit_ofBits]
    by_cases hlt : q.length < 64
    · simp only [if_pos hlt]
      refine Res.Sat.bind (ihl _ (by simp; omega) s) (fun _ u hu => ?_) fun _ _ h => h
      refine (ihr _ (by simp; omega) u).mono (fun _ x hx => ⟨by rw [hx.1, hu.1], fun h => hx.2.1 (hu.2.1 h), ?_⟩)
        fun _ x hx => ⟨by rw [hx.1, hu.1], hx.2⟩
      intro c y hy
      rcases hx.2.2 c y hy with h | h
      · exact hu.2.2 c y h
      · exact Or.inr h
    · simp only [if_neg hlt]
      exact ⟨rfl, rfl⟩

theorem countNode_sat (n : Nat) (s : State) :
    (countNode n s).Sat (fun m t => t = s ∧ m = n + 1) fun e t => t = s ∧ e = some .io := by
  unfold countNode; split <;> simp

/-- The reader after a read: only it has moved. -/
def Read (s t : State) : Prop := ReaderStep s t ∧ (s.br.rem ≤ 7 → t.br.rem ≤ 7)

theorem Read.refl (s : State) : Read s s := ⟨ReaderStep.refl s, id⟩

theorem Read.trans {s t u : State} (h : Read s t) (h' : Read t u) : Read s u :=
  ⟨h.1.trans h'.1, fun hs => h'.2 (h.2 hs)⟩

/-- Reading a shape without a result: it waits only where the reader is bound to the source. -/
def ReadErr (s : State) (e : Option Err) (t : State) : Prop :=
  Read s t ∧ (e = some .truncated ∨ e = some .io ∨ (e = none ∧ ∀ p, s.br.origin ≠ .pay p))

theorem ReadErr.after {s t u : State} {e : Option Err} (h' : ReadErr t e u) (h : Read s t) : ReadErr s e u := by
  refine ⟨h.trans h'.1, ?_⟩
  rcases h'.2 with h2 | h2 | ⟨h2, h3⟩
  · exact .inl h2
  · exact .inr (.inl h2)
  · refine .inr (.inr ⟨h2, fun p hp => ?_⟩)
    obtain ⟨-, -, p', hp'⟩ := h.1.2 p hp
    exact h3 p' hp'

theorem readBit_read (s : State) : (readBit s).Sat (fun _ t => Read s t) (ReadErr s) := by
  refine (readBit_sat s).mono (fun _ _ h => h) fun e t h => ⟨⟨h.1, h.2.1⟩, ?_⟩
  rcases h.2.2 with h | ⟨h | h, hp⟩
  · exact .inl h
  · exact .inr (.inr ⟨h, hp⟩)
  · exact .inr (.inl h)

theorem readSubtree_sat (fuel n : Nat) (s : State) : (readSubtree fuel n s).Sat (fun _ t => Read s t) (ReadErr s) := by
  induction fuel generalizing n s with
  | zero => exact ⟨Read.refl s, .inl rfl⟩
  | succ fuel ih =>
    rw [readSubtree]
    refine Res.Sat.bind (readBit_read s) (fun b t ht => ?_) fun _ _ h => h
    refine Res.Sat.bind (countNode_sat n t) (fun m u hu => ?_) fun e u hu => ⟨hu.1 ▸ ht, .inr (.inl hu.2)⟩
    obtain ⟨rfl, rfl⟩ := hu
    split
    · refine Res.Sat.bind (ih _ u) (fun x v hv => ?_) fun _ _ h => h.after ht
      exact Res.Sat.bind (ih _ v) (fun y w hw => ht.trans (hv.trans hw)) fun _ _ h => h.after (ht.trans hv)
    · exact ht

theorem shapeLeaf_sat (s : State) : (shapeLeaf s).Sat (fun _ t => t = s) fun e t => t = s ∧ e = some .io :=
  Res.Sat.bind (countNode_sat 0 s) (fun _ _ h => h.1) fun _ _ h => h

theorem shapeInternal_sat (s : State) : (shapeInternal s).Sat (fun _ t => Read s t) (ReadErr s) := by
  refine Res.Sat.bind (countNode_sat 0 s) (fun m t h => ?_) fun e t h => ⟨h.1 ▸ Read.refl s, .inr (.inl h.2)⟩
  obtain ⟨rfl, rfl⟩ := h
  refine Res.Sat.bind (readSubtree_sat _ _ t) (fun x v hv => ?_) fun _ _ h => h
  exact Res.Sat.bind (readSubtree_sat _ _ v) (fun y w hw => hv.trans hw) fun _ _ h => h.after hv

theorem readShape_sat (s : State) : (readShape s).Sat (fun _ t => Read s t) (ReadErr s) := by
  refine Res.Sat.bind (readBit_read s) (fun b t ht => ?_) fun _ _ h => h
  split
  · exact (shapeInternal_sat t).mono (fun _ u hu => ht.trans hu) fun _ u hu => hu.after ht
  · exact (shapeLeaf_sat t).mono (fun _ u hu => hu ▸ ht) fun _ u hu => ⟨hu.1 ▸ ht, .inr (.inl hu.2)⟩

theorem needTree_sat (s : State) :
    (needTree s).Sat (fun t u => u = s ∧ s.tree = some t) fun e u => u = s ∧ e = some .noTree ∧ s.tree = none := by
  unfold needTree; split <;> simp_all

theorem requireTree_sat (s : State) :
    (requireTree s).Sat (fun t u => u = s ∧ s.treeValid = true ∧ s.tree = some t)
      fun e u => u = s ∧ e = some .noTree ∧ (s.treeValid = false ∨ s.tree = none) := by
  unfold requireTree
  split
  · exact (needTree_sat s).mono (fun _ _ h => ⟨h.1, ‹_›, h.2⟩) fun _ _ h => ⟨h.1, h.2.1, Or.inr h.2.2⟩
  · rename_i h; simp at h; exact ⟨rfl, rfl, Or.inl h⟩

theorem needSymbol_sat (x : Option Byte) (s : State) :
    (needSymbol x s).Sat (fun v u => u = s ∧ x = some v) fun _ _ => False := by
  cases x <;> simp [needSymbol]

theorem assignLeaves_sat (s : State) :
    (assignLeaves s).Sat
      (fun _ u => ∃ t t', s.tree = some t ∧ t.assign s.pay = some (t', []) ∧ u = s.setTree t')
      fun e u => u = s ∧ (e = some .leafCount ∨ (e = some .noTree ∧ s.tree = none)) := by
  refine Res.Sat.bind (needTree_sat s) (fun t u hu => ?_) fun e u hu => ⟨hu.1, Or.inr hu.2⟩
  obtain ⟨rfl, ht⟩ := hu
  split
  · rename_i t' ha; exact ⟨t, t', ht, ha, rfl⟩
  · exact ⟨rfl, Or.inl rfl⟩

theorem readLen_sat (n k : Nat) (s : State) :
    (readLen n k s).Sat (fun _ t => t = { s with src := t.src, srcEos := t.srcEos, blkLen := t.blkLen })
      fun e t => t = { s with src := t.src, srcEos := t.srcEos, blkLen := t.blkLen } ∧ (e = none ∨ e = some .truncated ∨ e = some .io) := by
  induction n generalizing k s with
  | zero => exact rfl
  | succ n ih =>
    rw [readLen, readLenByte, Res.bind_assoc]
    refine Res.Sat.bind (nextByte_sat s) (fun v t ht => ?_) fun e t h => ⟨?_, h.2⟩
    · simp only [Res.bind_ok]
      unfold SourceStep at ht
      refine (ih (k + 1) _).mono (fun _ u hu => ?_) fun _ u hu => ⟨?_, hu.2⟩
      · rw [hu, ht]
      · rw [hu.1, ht]
    · have := h.1; unfold SourceStep at this; rw [this]

theorem readPayload_sat (n : Nat) (s : State) :
    (readPayload n s).Sat
      (fun _ t => t = { s with src := t.src, srcEos := t.srcEos, pay := t.pay } ∧ t.pay.length = s.pay.length + n)
      fun e t => t = { s with src := t.src, srcEos := t.srcEos, pay := t.pay } ∧ (e = none ∨ e = some .truncated ∨ e = some .io) := by
  induction n generalizing s with
  | zero => exact ⟨rfl, rfl⟩
  | succ n ih =>
    refine Res.Sat.bind (nextByte_sat s) (fun v t ht => ?_) fun e t h => ⟨?_, h.2⟩
    · unfold SourceStep at ht
      unfold payAppend
      split
      · simp only [Res.bind_ok]
        refine (ih _).mono (fun _ u hu => ⟨?_, ?_⟩) fun _ u hu => ⟨?_, hu.2⟩
        · rw [hu.1, ht]
        · rw [hu.2, ht]; simp; omega
        · rw [hu.1, ht]
      · exact ⟨by rw [ht], by simp⟩
    · have := h.1; unfold SourceStep at this; rw [this]

/-- R163: what a block read can change, and that PAY then holds BLK_LEN bytes. -/
theorem blockRead_sat (id : BlockId) (s : State) :
    (blockRead id s).Sat
      (fun _ t =>
        t = { s with src := t.src, srcEos := t.srcEos, blkId := t.blkId, blkLen := t.blkLen, pay := t.pay } ∧
          t.pay.length = t.blkLen.toNat)
      fun e t =>
        t = { s with src := t.src, srcEos := t.srcEos, blkId := t.blkId, blkLen := t.blkLen, pay := t.pay } ∧
          (e = none ∨ e = some .truncated ∨ e = some .io ∨ e = some .blockId) := by
  refine Res.Sat.bind (nextByte_sat s) (fun v t ht => ?_) fun e t h => ⟨?_, ?_⟩
  · unfold SourceStep at ht
    simp only
    split
    · refine Res.Sat.bind (readLen_sat 8 0 _) (fun _ u hu => ?_) fun _ u hu => ⟨?_, ?_⟩
      · refine (readPayload_sat _ _).mono (fun _ w hw => ⟨?_, ?_⟩) fun _ w hw => ⟨?_, ?_⟩
        · rw [hw.1, hu, ht]; rfl
        · rw [hw.2, hw.1]; simp [State.clearPay]
        · rw [hw.1, hu, ht]; rfl
        · exact by tauto
      · rw [hu.1, ht]
      · exact by tauto
    · refine ⟨?_, by simp⟩
      simp only; rw [ht]
  · have := h.1; unfold SourceStep at this; rw [this]
  · tauto

theorem walkTo_sat (b : Bool) (s : State) :
    (walkTo b s).Sat
      (fun _ t => t = { s with cur := t.cur, snk := t.snk, out := t.out } ∧ s.out <+: t.out ∧
        s.treeValid = true ∧ ∃ tr w l r, s.tree = some tr ∧ tr.nodeAt s.cur = some (.node w l r) ∧
          (t.cur = [] ∨ (t.cur = s.cur ++ [b] ∧ (if b then r else l).isNode = true)))
      fun e t => SinkStep s t ∧
        (e = none ∨ e = some .io ∨ e = some .treeMismatch ∨ (e = some .noTree ∧ (s.treeValid = false ∨ s.tree = none))) := by
  refine Res.Sat.bind (requireTree_sat s) (fun tr u hu => ?_) fun e u hu => ?_
  · obtain ⟨rfl, hv, ht⟩ := hu
    split
    · trivial
    · exact ⟨SinkStep.refl _, by simp⟩
    · rename_i w l r hn
      split
      · refine Res.Sat.bind (needSymbol_sat _ u) (fun v x hx => ?_) fun _ _ h => h.elim
        obtain ⟨rfl, _⟩ := hx
        refine Res.Sat.bind (emit_sat v x) (fun _ y hy => ?_) fun e y hy => ⟨hy.1, by tauto⟩
        refine ⟨?_, hy.1.2, hv, tr, w, l, r, ht, hn, Or.inl rfl⟩
        have h1 := hy.1.1
        have h2 := hy.2
        rw [h2] at h1
        simp only; rw [h1]
      · rename_i hc
        exact ⟨rfl, List.prefix_rfl, hv, tr, w, l, r, ht, hn, Or.inr ⟨rfl, by rw [hc]; rfl⟩⟩
  · obtain ⟨rfl, rfl, h⟩ := hu; exact ⟨SinkStep.refl _, by simp [h]⟩

/-- R199: one step of the walk. -/
theorem walkBit_sat (s : State) :
    (walkBit s).Sat
      (fun _ t =>
        t = { s with
          cur := t.cur, remaining := t.remaining, br := t.br, snk := t.snk, out := t.out, src := t.src,
          srcEos := t.srcEos } ∧
          ReaderStep s { s with br := t.br, src := t.src, srcEos := t.srcEos } ∧ s.out <+: t.out ∧
          (s.br.rem ≤ 7 → t.br.rem ≤ 7) ∧ t.remaining + 1 = s.remaining)
      fun e t =>
        t = { s with
          br := t.br, snk := t.snk, out := t.out, src := t.src, srcEos := t.srcEos, freeCtr := t.freeCtr } ∧
          s.out <+: t.out ∧ (s.br.rem ≤ 7 → t.br.rem ≤ 7) ∧
          (e = none ∨ e = some .io ∨ e = some .treeMismatch ∨ e = some .truncated ∨
            (e = some .noTree ∧ (s.treeValid = false ∨ s.tree = none))) := by
  refine Res.Sat.bind (requireTree_sat s) (fun tr u hu => ?_) fun e u hu => ?_
  · obtain ⟨rfl, hv, ht⟩ := hu
    split
    · trivial
    · rename_i hr
      refine Res.Sat.bind (readBit_sat u) (fun b v hb => ?_) fun e v hb => ?_
      · have h1 := hb.1.1
        refine Res.Sat.bind (walkTo_sat b v) (fun _ w hw => ?_) fun e w hw => ?_
        · have h2 := hw.1
          have e1 : v.remaining = u.remaining := by rw [h1]
          have e2 : w.remaining = v.remaining := by rw [h2]
          have e3 : w.br = v.br := by rw [h2]
          have e4 : w.src = v.src := by rw [h2]
          have e5 : w.srcEos = v.srcEos := by rw [h2]
          have e6 : v.out = u.out := by rw [h1]
          refine ⟨?_, ?_, ?_, ?_, ?_⟩
          · simp only; rw [h2, h1]
          · simp only; rw [e3, e4, e5, ← h1]; exact hb.1
          · rw [← e6]; exact hw.2.1
          · simp only; rw [e3]; exact hb.2
          · simp only; omega
        · have h2 := hw.1.1
          have e3 : w.br = v.br := by rw [h2]
          have e6 : v.out = u.out := by rw [h1]
          refine ⟨by rw [h2, h1], by rw [← e6]; exact hw.1.2, by rw [e3]; exact hb.2, ?_⟩
          have e7 : v.treeValid = u.treeValid := by rw [h1]
          have e8 : v.tree = u.tree := by rw [h1]
          rw [← e7, ← e8]; have := hw.2; tauto
      · have h1 := hb.1.1
        have e6 : v.out = u.out := by rw [h1]
        refine ⟨by rw [h1], by rw [e6], hb.2.1, ?_⟩
        have := hb.2.2; tauto
  · obtain ⟨rfl, rfl, h⟩ := hu
    exact ⟨rfl, List.prefix_rfl, fun h => h, by simp [h]⟩

/-- R197. -/
theorem padHeader_sat (v : Byte) (s : State) :
    (padHeader v s).Sat
      (fun _ t => t = { s with padcnt := v, remaining := 8 * (s.pay.length - 1) - v.toNat } ∧ s.pay ≠ [] ∧ v.toNat ≤ 7)
      fun e t => t = { s with padcnt := t.padcnt } ∧ (e = some .truncated ∨ e = some .badPadding) := by
  unfold padHeader
  split
  · exact ⟨rfl, Or.inl rfl⟩
  · rename_i h
    simp only
    split
    · exact ⟨rfl, Or.inr rfl⟩
    · rename_i h'
      refine ⟨rfl, fun hc => h (by rw [hc]; rfl), by omega⟩

/-- R196 to R198. -/
theorem bodyHeader_sat (s : State) :
    (bodyHeader s).Sat
      (fun _ t =>
        t = { s with
          padcnt := s.pay.headD 0, remaining := 8 * (s.pay.length - 1) - (s.pay.headD 0).toNat,
          br := BitReader.fresh (.pay 1), cur := [] } ∧ s.pay ≠ [] ∧ s.treeValid = true ∧ s.tree.isSome = true)
      fun e t =>
        t = { s with padcnt := t.padcnt } ∧
          (e = some .truncated ∨ e = some .badPadding ∨ (e = some .noTree ∧ (s.treeValid = false ∨ s.tree = none))) := by
  refine Res.Sat.bind (requireTree_sat s) (fun tr u hu => ?_) fun e u hu => ?_
  · obtain ⟨rfl, hv, ht⟩ := hu
    refine Res.Sat.bind (padHeader_sat _ u) (fun _ v h => ?_) fun e v h => ⟨h.1, ?_⟩
    · refine ⟨?_, h.2.1, hv, by rw [ht]; rfl⟩
      rw [h.1]; rfl
    · exact h.2.imp_right Or.inl
  · obtain ⟨rfl, rfl, h⟩ := hu
    exact ⟨rfl, Or.inr (Or.inr ⟨rfl, h⟩)⟩

/-- R203: the loop of the walk, over a reader bound to PAY. -/
theorem walkSteps_sat (n : Nat) (s : State) (p : Nat) (hp : s.br.origin = .pay p) :
    (walkSteps n s).Sat
      (fun _ t =>
        t = { s with cur := t.cur, remaining := t.remaining, br := t.br, snk := t.snk, out := t.out } ∧
          s.out <+: t.out ∧ (s.br.rem ≤ 7 → t.br.rem ≤ 7))
      fun e t =>
        t = { s with
          cur := t.cur, remaining := t.remaining, br := t.br, snk := t.snk, out := t.out, src := t.src,
          srcEos := t.srcEos, freeCtr := t.freeCtr } ∧
          s.out <+: t.out ∧ (s.br.rem ≤ 7 → t.br.rem ≤ 7) ∧
          (e = none ∨ e = some .io ∨ e = some .treeMismatch ∨ e = some .truncated ∨
            (e = some .noTree ∧ (s.treeValid = false ∨ s.tree = none))) := by
  induction n generalizing s p with
  | zero => exact ⟨rfl, List.prefix_rfl, fun h => h⟩
  | succ n ih =>
    refine Res.Sat.bind (walkBit_sat s) (fun _ u h => ?_) fun e u h => ?_
    · obtain ⟨h1, h2, h3, h4, h5⟩ := h
      obtain ⟨e1, e2, p', hp'⟩ := h2.2 p hp
      simp only at e1 e2 hp'
      have e7 : u.treeValid = s.treeValid := by rw [h1]
      have e8 : u.tree = s.tree := by rw [h1]
      rw [e1, e2] at h1
      refine (ih u p' hp').mono (fun _ v hv => ⟨?_, h3.trans hv.2.1, fun h => hv.2.2 (h4 h)⟩)
        fun e v hv => ⟨?_, h3.trans hv.2.1, fun h => hv.2.2.1 (h4 h), ?_⟩
      · rw [hv.1, h1]
      · rw [hv.1, h1]
      · rw [← e7, ← e8]; exact hv.2.2.2
    · refine ⟨?_, h.2⟩
      rw [h.1]

/-! ### The streams of an operation that does not fail -/

theorem needTree_steady (s : State) : (needTree s).Steady s := by
  unfold needTree; split
  · exact Went.refl s
  · exact fun h => nomatch h

theorem requireTree_steady (s : State) : (requireTree s).Steady s := by
  unfold requireTree; split
  · exact needTree_steady s
  · exact fun h => nomatch h

theorem needSymbol_steady (x : Option Byte) (s : State) : (needSymbol x s).Steady s := by
  cases x
  · trivial
  · exact Went.refl s

theorem writeShape_steady (t : Tree) (s : State) : (writeShape t s).Steady s := by
  induction t generalizing s with
  | leaf w x => exact writeBit_steady false s
  | node w l r ihl ihr =>
    exact (writeBit_steady true s).bind fun _ u _ => (ihl u).bind fun _ v _ => ihr v

theorem writeLeaves_steady (t : Tree) (s : State) : (writeLeaves t s).Steady s := by
  induction t generalizing s with
  | leaf w x => exact (needSymbol_steady x s).bind fun _ u _ => payAppend_steady _ u
  | node w l r ihl ihr => exact (ihl s).bind fun _ u _ => ihr u

theorem table_steady (t : Tree) (c : BitSlice) (s : State) : (table t c s).Steady s := by
  induction t generalizing c s with
  | leaf w x => exact (needSymbol_steady x s).bind fun _ u _ => Went.of_eq rfl
  | node w l r ihl ihr =>
    rw [table]; split
    · exact (ihl _ s).bind fun _ u _ => ihr _ u
    · exact fun h => nomatch h

theorem countNode_steady (n : Nat) (s : State) : (countNode n s).Steady s := by
  unfold countNode; split
  · exact Went.refl s
  · exact fun h => nomatch h

theorem readSubtree_steady (fuel n : Nat) (s : State) : (readSubtree fuel n s).Steady s := by
  induction fuel generalizing n s with
  | zero => exact fun h => nomatch h
  | succ fuel ih =>
    rw [readSubtree]
    refine (readBit_steady s).bind fun b t _ => (countNode_steady n t).bind fun m u _ => ?_
    split
    · exact (ih m u).bind fun x v _ => (ih x.2 v).bind fun y w _ => Went.refl w
    · exact Went.refl u

theorem shapeLeaf_steady (s : State) : (shapeLeaf s).Steady s :=
  (countNode_steady 0 s).bind fun _ t _ => Went.refl t

theorem shapeInternal_steady (s : State) : (shapeInternal s).Steady s :=
  (countNode_steady 0 s).bind fun m t _ =>
    (readSubtree_steady _ m t).bind fun x u _ => (readSubtree_steady _ x.2 u).bind fun _ v _ => Went.refl v

theorem readShape_steady (s : State) : (readShape s).Steady s := by
  refine (readBit_steady s).bind fun b t _ => ?_
  split
  · exact shapeInternal_steady t
  · exact shapeLeaf_steady t

theorem assignLeaves_steady (s : State) : (assignLeaves s).Steady s := by
  refine (needTree_steady s).bind fun t u _ => ?_
  split
  · exact Went.of_eq rfl
  · exact fun h => nomatch h

theorem readLen_steady (n k : Nat) (s : State) : (readLen n k s).Steady s := by
  induction n generalizing k s with
  | zero => exact Went.refl s
  | succ n ih =>
    rw [readLen, readLenByte]
    exact ((nextByte_steady s).bind fun v t _ => .ok (Went.of_eq rfl)).bind fun _ t _ => ih (k + 1) t

theorem readPayload_steady (n : Nat) (s : State) : (readPayload n s).Steady s := by
  induction n generalizing s with
  | zero => exact Went.refl s
  | succ n ih =>
    exact (nextByte_steady s).bind fun v t _ => (payAppend_steady v t).bind fun _ u _ => ih u

theorem blockRead_steady (id : BlockId) (s : State) : (blockRead id s).Steady s := by
  refine (nextByte_steady s).bind fun v t _ => ?_
  simp only
  split
  · exact ((readLen_steady 8 0 _).bind fun _ u _ => (readPayload_steady _ _).of_went (Went.of_eq rfl)).of_went
      (Went.of_eq rfl)
  · exact fun h => nomatch h

theorem walkTo_steady (b : Bool) (s : State) : (walkTo b s).Steady s := by
  refine (requireTree_steady s).bind fun t u _ => ?_
  split
  · trivial
  · exact fun h => nomatch h
  · split
    · exact (needSymbol_steady _ u).bind fun v w _ => (emit_steady v w).bind fun _ x _ => Went.of_eq rfl
    · exact Went.of_eq rfl

theorem walkBit_steady (s : State) : (walkBit s).Steady s := by
  refine (requireTree_steady s).bind fun t u _ => ?_
  split
  · trivial
  · exact (readBit_steady u).bind fun _ v _ => (walkTo_steady _ v).bind fun _ w _ => Went.of_eq rfl

theorem padHeader_steady (v : Byte) (s : State) : (padHeader v s).Steady s := by
  unfold padHeader; split
  · exact fun h => nomatch h
  · simp only; split
    · exact fun h => nomatch h
    · exact Went.of_eq rfl

theorem bodyHeader_steady (s : State) : (bodyHeader s).Steady s :=
  (requireTree_steady s).bind fun _ u _ => (padHeader_steady _ u).bind fun _ _ _ => .ok (Went.of_eq rfl)

theorem walkSteps_steady (n : Nat) (s : State) : (walkSteps n s).Steady s := by
  induction n generalizing s with
  | zero => exact Went.refl s
  | succ n ih => exact (walkBit_steady s).bind fun _ t _ => ih t

theorem sliceOperand_steady (x : SliceSrc) (s : State) : (sliceOperand x s).Steady s := by
  cases x with
  | cw c =>
    simp only [sliceOperand]; split
    · exact Went.refl s
    · trivial
  | _ => exact Went.refl s

theorem setSlice_went (r : SliceReg) (t : BitSlice) (s : State) : Went s (s.setSlice r t) := by
  cases r <;> exact Went.of_eq rfl

/-- What any operation but a command does to the streams where it does not fail. -/
theorem exec_steady (i : Instr) (hi : i.isCommand = false) (s : State) :
    ∃ (α : Type) (r : Res α), exec i s = settle s r ∧ r.Steady s := by
  cases i with
  | encode => cases hi
  | decode => cases hi
  | blkShape =>
    refine ⟨_, _, rfl, ?_⟩
    exact ((readShape_steady _).bind fun _ t _ => .ok (Went.of_eq rfl)).of_went (Went.of_eq rfl)
  | blkLeaves =>
    refine ⟨_, _, rfl, ?_⟩
    exact (assignLeaves_steady s).bind fun _ t _ => .ok (Went.of_eq rfl)
  | blkData =>
    refine ⟨_, _, rfl, ?_⟩
    exact (bodyHeader_steady s).bind fun _ t _ => walkSteps_steady _ t
  | sLeaf =>
    refine ⟨_, _, rfl, ?_⟩
    exact (shapeLeaf_steady s).bind fun _ t _ => .ok (Went.of_eq rfl)
  | sInternal =>
    refine ⟨_, _, rfl, ?_⟩
    exact (shapeInternal_steady s).bind fun _ t _ => .ok (Went.of_eq rfl)
  | pLeft =>
    refine ⟨_, _, rfl, ?_⟩
    exact walkTo_steady false s
  | pRight =>
    refine ⟨_, _, rfl, ?_⟩
    exact walkTo_steady true s
  | padcnt p =>
    refine ⟨_, _, rfl, ?_⟩
    exact padHeader_steady _ s
  | bsAppendBit r b =>
    refine ⟨_, _, rfl, ?_⟩
    split
    · exact fun h => nomatch h
    · exact setSlice_went _ _ s
  | bsAppendSlice r x =>
    refine ⟨_, _, rfl, (sliceOperand_steady x s).bind fun t u _ => ?_⟩
    split
    · exact fun h => nomatch h
    · exact setSlice_went _ _ u
  | bsPadToByte r => exact ⟨Unit, .ok () _, rfl, .ok ((setSlice_went r _ s).trans (Went.of_eq rfl))⟩
  | bsPopByte r =>
    refine ⟨_, _, rfl, ?_⟩
    split
    · trivial
    · exact .ok ((setSlice_went r _ s).trans (Went.of_eq rfl))
  | brReadBit =>
    refine ⟨_, _, rfl, ?_⟩
    exact (readBit_steady s).bind fun _ t _ => .ok (Went.of_eq rfl)
  | brCountUnflushedBits => exact ⟨Unit, .ok () _, rfl, .ok (Went.of_eq rfl)⟩
  | brFlushBits => exact ⟨Unit, .ok () _, rfl, .ok (Went.of_eq rfl)⟩
  | bwWriteBit b =>
    refine ⟨_, _, rfl, ?_⟩
    exact writeBit_steady b s
  | bwWriteSlice x =>
    refine ⟨_, _, rfl, ?_⟩
    exact (sliceOperand_steady x s).bind fun t u _ => writeSlice_steady t u
  | bwCountPaddingBits => exact ⟨Unit, .ok () _, rfl, .ok (Went.of_eq rfl)⟩
  | bwWritePaddingBits =>
    refine ⟨_, _, rfl, ?_⟩
    exact writePaddingBits_steady s
  | tCount => exact ⟨Unit, .ok () _, rfl, .ok (Went.of_eq rfl)⟩
  | tBuild =>
    refine ⟨_, _, rfl, ?_⟩
    split
    · exact .ok (Went.of_eq rfl)
    · exact fun h => nomatch h
  | tWriteShape =>
    refine ⟨_, _, rfl, ?_⟩
    exact (needTree_steady s).bind fun t u _ => writeShape_steady t u
  | tWriteLeaves =>
    refine ⟨_, _, rfl, ?_⟩
    exact (needTree_steady s).bind fun t u _ => writeLeaves_steady t u
  | tBuildTable =>
    refine ⟨_, _, rfl, ?_⟩
    exact (needTree_steady s).bind fun t u _ => (table_steady t _ _).of_went (Went.of_eq rfl)
  | tReadShape =>
    refine ⟨_, _, rfl, ?_⟩
    exact (readShape_steady s).bind fun _ t _ => .ok (Went.of_eq rfl)
  | tAssignLeaves =>
    refine ⟨_, _, rfl, ?_⟩
    exact assignLeaves_steady s
  | blkWrite id =>
    refine ⟨_, _, rfl, ?_⟩
    exact emitAll_steady _ s
  | blkRead e =>
    refine ⟨_, _, rfl, ?_⟩
    exact blockRead_steady e s
  | dWalkBit =>
    refine ⟨_, _, rfl, ?_⟩
    exact walkBit_steady s

end Sys2Proof.Machine
end

