-- ==== Sys2Proof/Tests/Slice0.lean ====
section
/-! SUPPORT. The author's own tests. Decoding: patterns written out from `spec/30_encoding.md` R62, R63, R70, R75, R76
and `46_decode.md` R197, with the frame bytes of log 5. Units: the vectors of `spec/95_test_vectors.md`, named in each
docstring. At the end, one witness for the hypotheses of each statement. -/

set_option Elab.async false

namespace Sys2Proof.Tests

open Sys2Proof.Machine

/-! ### Helpers -/

/-- Reset with the reference parameters, which the vectors of `95_test_vectors.md` use. -/
def base : State := { State.reset with params := Params.reference }

/-- What `f` reads in the next state, if there is one. -/
def view {α : Type} (o : Outcome) (f : State → α) : Option α :=
  match o with
  | .next t => some (f t)
  | .fault _ | .refused _ => none

def stops (o : Outcome) : Option (Fault ⊕ Refusal) :=
  match o with
  | .next _    => none
  | .fault f   => some (.inl f)
  | .refused r => some (.inr r)

/-- The slice `{n, v}` of the vectors' notation. -/
def sl (n v : Nat) : BitSlice := { length := n, bits := BitVec.ofNat 64 v }

def bytes (l : List Nat) : List Byte := l.map (BitVec.ofNat 8)

def withAcc (t : BitSlice) : State := base.setAcc t

def readerOver (l : List Nat) : State := { base with pay := bytes l, br := BitReader.fresh (.pay 0) }

def leaf (s w : Nat) : Tree := .leaf (BitVec.ofNat 64 w) (some (BitVec.ofNat 8 s))

/-- The tree N(L(61), N(L(62), L(63))) of TS4, without weights. -/
def ts4 : Tree := .node 0 (leaf 0x61 0) (.node 0 (leaf 0x62 0) (leaf 0x63 0))

def withTree (t : Tree) : State := { base with tree := some t, treeValid := true }

/-! ### Decoding: the words written out bit by bit -/

theorem test_decode_cmd :
    decode [0b0, 1] = .ok (.encode, []) ∧ decode [0b1, 1] = .ok (.decode, []) ∧
      decode [0b10, 1] = .error .unknownPattern := by decide

theorem test_decode_blk :
    decode [0b00000000, 2] = .ok (.blkShape, []) ∧ decode [0b00000001, 2] = .ok (.blkLeaves, []) ∧
      decode [0b00000010, 2] = .ok (.blkData, []) ∧ decode [0b00000011, 2] = .error .unknownPattern := by decide

theorem test_decode_bits :
    decode [0b0, 3] = .ok (.sLeaf, []) ∧ decode [0b1, 3] = .ok (.sInternal, []) ∧
      decode [0b0, 4] = .ok (.pLeft, []) ∧ decode [0b1, 4] = .ok (.pRight, []) := by decide

theorem test_decode_padcnt :
    decode [0b00000000, 5] = .ok (.padcnt 0, []) ∧ decode [0b00000101, 5] = .ok (.padcnt 5, []) ∧
      decode [0b00000111, 5] = .ok (.padcnt 7, []) ∧ decode [0b00001000, 5] = .error .unknownPattern := by decide

theorem test_decode_bitslice :
    decode [0b000000, 6, 0, 1] = .ok (.bsAppendBit .acc true, []) ∧
      decode [0b000001, 6, 1, 2, 0x61] = .ok (.bsAppendSlice .cwacc (.cw 0x61), []) ∧
      decode [0b000010, 6, 1] = .ok (.bsPadToByte .cwacc, []) ∧
      decode [0b000011, 6, 0] = .ok (.bsPopByte .acc, []) := by decide

theorem test_decode_bitio :
    decode [0b001000, 6] = .ok (.brReadBit, []) ∧ decode [0b001001, 6] = .ok (.brCountUnflushedBits, []) ∧
      decode [0b001010, 6] = .ok (.brFlushBits, []) ∧ decode [0b010000, 6, 0] = .ok (.bwWriteBit false, []) ∧
      decode [0b010001, 6, 0, 3, 5, 0, 0, 0, 0, 0, 0, 0] = .ok (.bwWriteSlice (.imm (sl 3 0b101)), []) ∧
      decode [0b010010, 6] = .ok (.bwCountPaddingBits, []) ∧
      decode [0b010011, 6] = .ok (.bwWritePaddingBits, []) := by decide

theorem test_decode_tree :
    decode [0b011000, 6] = .ok (.tCount, []) ∧ decode [0b011001, 6] = .ok (.tBuild, []) ∧
      decode [0b100000, 6] = .ok (.tWriteShape, []) ∧ decode [0b100001, 6] = .ok (.tWriteLeaves, []) ∧
      decode [0b100010, 6] = .ok (.tBuildTable, []) ∧ decode [0b100011, 6] = .ok (.tReadShape, []) ∧
      decode [0b100100, 6] = .ok (.tAssignLeaves, []) := by decide

theorem test_decode_framer_and_walk :
    decode [0b101000, 6, 0] = .ok (.blkWrite .shape, []) ∧ decode [0b101001, 6, 1] = .ok (.blkRead .leaves, []) ∧
      decode [0b110000, 6] = .ok (.dWalkBit, []) := by decide

/-- R76: "Every other value of UOP names nothing." -/
theorem test_decode_uop_reserved :
    ([4, 5, 6, 7, 0x0B, 0x14, 0x1A, 0x25, 0x2A, 0x31, 0x3F].all fun n =>
      decide (decode [BitVec.ofNat 8 n, 6] = .error .unknownPattern)) = true := by decide

/-- The table's bare words: the two commands, and the unit operations above them. -/
theorem test_table_words :
    decodeTableWord 8 0x00 = some .encode ∧ decodeTableWord 8 0x01 = some .decode ∧
      decodeTableWord 8 0x13 = some .bwWritePaddingBits ∧ decodeTableWord 8 0x30 = some .dWalkBit ∧
      decodeTableWord 8 0x05 = some (.padcnt 5) ∧ decodeTableWord 8 0x3F = none := by decide

/-- A table word placed for the host is the operation that the next step runs. -/
theorem test_withFetchWord :
    view (step (base.withFetchWord 8 0x01)) (fun t => (t.st, t.phase, t.cmdMode)) = some (.busy, .dBlk0, 1) := by
  decide +kernel

/-! ### WellFormed: ill-formed operands are refused -/

/-- R90: a length beyond 64. -/
theorem test_illformed_length :
    (Instr.bwWriteSlice (.imm (sl 65 0))).wf = false ∧
      decode (encode (.bwWriteSlice (.imm (sl 65 0)))) = .error .badSlice := by decide

/-- R90: a bit above the valid ones. -/
theorem test_illformed_high_bit :
    (Instr.bsAppendSlice .acc (.imm (sl 3 0b1000))).wf = false ∧
      decode (encode (.bsAppendSlice .acc (.imm (sl 3 0b1000)))) = .error .badSlice := by decide

theorem test_wellformed_edges :
    (Instr.bwWriteSlice (.imm (sl 64 (2 ^ 64 - 1)))).wf = true ∧ (Instr.bwWriteSlice (.imm (sl 0 0))).wf = true ∧
      (Instr.bwWriteSlice (.imm (sl 0 1))).wf = false := by decide

/-! ### Commands and status -/

/-- R11, R12: a call starts with STATUS = 1 (BUSY, code 0). -/
theorem test_encode_starts :
    view (exec .encode { base with st := .fault, err := .io }) (fun t => (t.statusWord, t.phase, t.cmdMode)) =
      some (1, .eRead, 0) := by decide +kernel

theorem test_decode_refused_while_busy :
    view (exec .decode { base with st := .busy, phase := .eTable }) (fun t => (t.st, t.phase, t.cmdMode)) =
      some (.busy, .eTable, 0) := by decide +kernel

/-- The codes of R210 in STATUS: FAULT with ERR_BAD_PADDING is 3 + 4 * 7. -/
theorem test_status_word : (base.raise .badPadding).statusWord = 31 := by decide +kernel

/-! ### BitSlice (BS1 to BS22) -/

/-- BS3, BS4. -/
theorem test_appendBit :
    view (exec (.bsAppendBit .acc false) (withAcc (sl 3 0b101))) (fun t => t.bw.acc) = some (sl 4 0b1010) ∧
      view (exec (.bsAppendBit .acc true) (withAcc (sl 63 0x7FFFFFFFFFFFFFFF))) (fun t => t.bw.acc) =
        some (sl 64 0xFFFFFFFFFFFFFFFF) := by decide +kernel

/-- BS5. -/
theorem test_appendBit_full :
    view (exec (.bsAppendBit .acc false) (withAcc (sl 64 9))) (fun t => (t.err, t.bw.acc)) =
      some (.capacity, sl 64 9) := by decide +kernel

/-- BS6, BS11. -/
theorem test_appendSlice :
    view (exec (.bsAppendSlice .acc (.imm (sl 3 0b011))) (withAcc (sl 2 0b10))) (fun t => t.bw.acc) =
        some (sl 5 0b10011) ∧
      view (exec (.bsAppendSlice .acc (.imm (sl 3 0))) (withAcc (sl 2 0))) (fun t => t.bw.acc) = some (sl 5 0) := by
  decide +kernel

/-- BS9, BS10 with y = 1 and x = 3. -/
theorem test_appendSlice_edge :
    view (exec (.bsAppendSlice .acc (.imm (sl 58 1))) (withAcc (sl 7 3))) (fun t => t.err) = some .capacity ∧
      view (exec (.bsAppendSlice .acc (.imm (sl 57 1))) (withAcc (sl 7 3))) (fun t => t.bw.acc) =
        some (sl 64 (3 * 2 ^ 57 + 1)) := by decide +kernel

/-- BS12, BS15. -/
theorem test_padToByte :
    view (exec (.bsPadToByte .acc) (withAcc (sl 4 0b1111))) (fun t => (t.bw.acc, t.res)) = some (sl 8 0xF0, 4) ∧
      view (exec (.bsPadToByte .acc) (withAcc (sl 9 0b101010101))) (fun t => (t.bw.acc, t.res)) =
        some (sl 16 0xAA80, 7) := by decide +kernel

/-- BS18. -/
theorem test_popByte :
    view (exec (.bsPopByte .acc) (withAcc (sl 12 0xA15))) (fun t => (t.bw.acc, t.res)) = some (sl 4 0x5, 0xA1) := by
  decide +kernel

/-- BS21. -/
theorem test_popByte_short :
    stops (exec (.bsPopByte .acc) (withAcc (sl 7 0x55))) = some (.inr .popUnderflow) := by decide +kernel

/-! ### BitReader and BitWriter -/

/-- BR1, the first two reads of `A1`. -/
theorem test_readBit :
    view (exec .brReadBit (readerOver [0xA1])) (fun t => (t.res, t.br.rem)) = some (1, 7) ∧
      view (exec .brReadBit { readerOver [0xA1] with br := ⟨0xA1, 7, .pay 1⟩ }) (fun t => (t.res, t.br.rem)) =
        some (0, 6) := by decide +kernel

/-- BR3, BR9. -/
theorem test_readBit_errors :
    view (exec .brReadBit (readerOver [])) (fun t => t.err) = some .truncated ∧
      view (exec .brReadBit { base with br := BitReader.fresh .src, src := [.ioFail] }) (fun t => t.err) = some .io := by
  decide +kernel

/-- BR4: after four reads of `F0 80` four bits are unread; flushBits drops them and the next bit is from `80`. -/
theorem test_flushBits :
    view (exec .brFlushBits { readerOver [0xF0, 0x80] with br := ⟨0xF0, 4, .pay 1⟩ }) (fun t => t.br.rem) = some 0 ∧
      view (exec .brReadBit { readerOver [0xF0, 0x80] with br := ⟨0xF0, 0, .pay 1⟩ }) (fun t => (t.res, t.br.rem)) =
        some (1, 7) := by decide +kernel

/-- BR8. -/
theorem test_countUnflushedBits :
    view (exec .brCountUnflushedBits (readerOver [0xA1])) (fun t => (t.res, t.br.origin)) = some (0, .pay 0) := by
  decide +kernel

/-- BW1, the eighth bit. -/
theorem test_writeBit :
    view (exec (.bwWriteBit true) (withAcc (sl 7 0b1010000))) (fun t => (t.pay, t.bw.acc)) =
      some (bytes [0xA1], sl 0 0) := by decide +kernel

/-- BW4, BW8. -/
theorem test_writeSlice :
    view (exec (.bwWriteSlice (.imm (sl 7 0b0000111))) (withAcc (sl 3 0b101))) (fun t => (t.pay, t.bw.acc)) =
        some (bytes [0xA1], sl 2 0b11) ∧
      view (exec (.bwWriteSlice (.imm (sl 57 (2 ^ 57 - 1)))) (withAcc (sl 7 0))) (fun t => (t.pay, t.bw.acc)) =
        some (bytes [0x01, 0xFF, 0xFF, 0xFF, 0xFF, 0xFF, 0xFF, 0xFF], sl 0 0) := by decide +kernel

/-- BW7, BW9. -/
theorem test_writeSlice_capacity :
    view (exec (.bwWriteSlice (.imm (sl 64 5))) (withAcc (sl 1 1))) (fun t => (t.err, t.bw.acc, t.pay)) =
        some (.capacity, sl 1 1, []) ∧
      view (exec (.bwWriteSlice (.imm (sl 58 5))) (withAcc (sl 7 0))) (fun t => (t.err, t.bw.acc, t.pay)) =
        some (.capacity, sl 7 0, []) := by decide +kernel

/-- BW2 (S3), BW3. -/
theorem test_padding :
    view (exec .bwCountPaddingBits (withAcc (sl 4 0xF))) (fun t => t.res) = some 4 ∧
      view (exec .bwWritePaddingBits (withAcc (sl 4 0xF))) (fun t => (t.pay, t.bw.acc)) =
        some (bytes [0xF0], sl 0 0) ∧
      view (exec .bwWritePaddingBits (withAcc (sl 0 0))) (fun t => t.pay) = some [] := by decide +kernel

/-! ### The tree builder -/

/-- R120 on "aab". -/
theorem test_count :
    view (exec .tCount { base with inbuf := bytes [0x61, 0x61, 0x62] })
      (fun t => (t.freqAt 0x61, t.freqAt 0x62, t.freqAt 0x63)) = some (2, 1, 0) := by decide +kernel

/-- TB6: "aaaabbc" gives N(L(61:4), N(L(62:2), L(63:1))). -/
theorem test_build :
    view (exec .tBuild { base with freq := countBytes (bytes [0x61, 0x61, 0x61, 0x61, 0x62, 0x62, 0x63]) })
      (fun t => (t.tree, t.treeValid)) =
      some (some (.node 7 (leaf 0x61 4) (.node 3 (leaf 0x62 2) (leaf 0x63 1))), true) := by decide +kernel

/-- TB1 and TB2. -/
theorem test_build_degenerate :
    view (exec .tBuild base) (fun t => t.tree) = some (some (leaf 0 0)) ∧
      view (exec .tBuild { base with freq := countBytes (bytes [0x61]) }) (fun t => t.tree) =
        some (some (.node 1 (leaf 0x61 1) (leaf 0 0))) := by decide +kernel

/-! ### Serialization -/

/-- TS4: the shape word 1 0 1 0 0. -/
theorem test_writeShape :
    view (exec .tWriteShape (withTree ts4)) (fun t => (t.bw.acc, t.pay)) = some (sl 5 0b10100, []) := by decide +kernel

theorem test_writeLeaves :
    view (exec .tWriteLeaves (withTree ts4)) (fun t => t.pay) = some (bytes [0x61, 0x62, 0x63]) := by decide +kernel

/-- TS4's table; TS10: the later leaf of a symbol wins. -/
theorem test_buildTable :
    view (exec .tBuildTable (withTree ts4)) (fun t => (t.cwAt 0x61, t.cwAt 0x62, t.cwAt 0x63, t.cwAt 0x64)) =
        some (some (sl 1 0), some (sl 2 0b10), some (sl 2 0b11), none) ∧
      view (exec .tBuildTable (withTree (.node 0 (leaf 0x61 0) (leaf 0x61 0)))) (fun t => t.cwAt 0x61) =
        some (some (sl 1 1)) := by decide +kernel

/-- TR1, TR6. -/
theorem test_readShape :
    view (exec .tReadShape (readerOver [0x80])) (fun t => (t.tree, t.br.rem)) =
        some (some (.node 0 (.leaf 0 none) (.leaf 0 none)), 5) ∧
      view (exec .tReadShape (readerOver [0xFF])) (fun t => t.err) = some .truncated := by decide +kernel

/-- TR2, TR9. -/
theorem test_assignLeaves :
    view (exec .tAssignLeaves { base with tree := some (.leaf 0 none), pay := bytes [0x7A] }) (fun t => t.tree) =
        some (some (leaf 0x7A 0)) ∧
      view (exec .tAssignLeaves { withTree (.node 0 (.leaf 0 none) (.leaf 0 none)) with pay := bytes [0x61, 0x62, 0x63] })
        (fun t => t.err) = some .leafCount := by decide +kernel

/-- R149, R150: the shape bit 1 read, and then the bits 0 0 of `00`. -/
theorem test_shape_bits :
    view (exec .sLeaf base) (fun t => t.tree) = some (some (.leaf 0 none)) ∧
      view (exec .sInternal (readerOver [0x00])) (fun t => (t.tree, t.br.rem)) =
        some (some (.node 0 (.leaf 0 none) (.leaf 0 none)), 6) := by decide +kernel

/-! ### The framer -/

/-- BK1. -/
theorem test_blkWrite :
    view (exec (.blkWrite .shape) { base with pay := bytes [0xE4, 0x00], snk := List.replicate 11 .ok }) (fun t => t.out) =
      some (bytes [0x00, 0x02, 0, 0, 0, 0, 0, 0, 0, 0xE4, 0x00]) := by decide +kernel

/-- BK5. -/
theorem test_blkRead :
    view (exec (.blkRead .leaves)
      { base with src := (bytes [1, 2, 0, 0, 0, 0, 0, 0, 0, 0x61, 0x62]).map .byte ++ [.eos] })
      (fun t => (t.blkLen, t.pay, t.src)) = some (2, bytes [0x61, 0x62], [.eos]) := by decide +kernel

/-- BK7, BK9. -/
theorem test_blkRead_errors :
    view (exec (.blkRead .shape) { base with src := [.byte 3, .byte 1] }) (fun t => (t.err, t.src)) =
        some (.blockId, [.byte 1]) ∧
      view (exec (.blkRead .shape) { base with src := [.byte 0, .byte 1, .byte 0, .byte 0, .eos] }) (fun t => t.err) =
        some .truncated := by decide +kernel

/-! ### The walk and the blocks -/

/-- R199: the bit 1 goes to an internal node of TS4, the bit 0 reaches L(61). -/
theorem test_walkBit :
    view (exec .dWalkBit { withTree ts4 with pay := bytes [0x80], remaining := 3 }) (fun t => (t.cur, t.remaining, t.out)) =
        some ([true], 2, []) ∧
      view (exec .dWalkBit { withTree ts4 with pay := bytes [0x00], remaining := 3, snk := [.ok] })
        (fun t => (t.cur, t.remaining, t.out)) = some ([], 2, bytes [0x61]) := by decide +kernel

/-- DX17: a meaningful bit with a lone leaf. -/
theorem test_walkBit_mismatch :
    view (exec .dWalkBit { withTree (leaf 0x61 0) with pay := bytes [0x00], remaining := 1 }) (fun t => t.err) =
      some .treeMismatch := by decide +kernel

/-- R201, R202 on TS4. -/
theorem test_path_bits :
    view (exec .pLeft { withTree ts4 with snk := [.ok] }) (fun t => (t.cur, t.out)) = some ([], bytes [0x61]) ∧
      view (exec .pRight (withTree ts4)) (fun t => t.cur) = some [true] := by decide +kernel

/-- R68, DX16. -/
theorem test_padcnt :
    view (exec (.padcnt 6) { base with pay := bytes [6, 0x40] }) (fun t => (t.padcnt, t.remaining)) = some (6, 2) ∧
      view (exec (.padcnt 1) { base with pay := bytes [1] }) (fun t => t.err) = some .badPadding := by decide +kernel

/-- TR4 through the SHAPE block; DE3's LEAVES. -/
theorem test_blkShape_blkLeaves :
    view (exec .blkShape { base with pay := bytes [0x9F] }) (fun t => (t.tree, t.treeValid)) =
        some (some (.node 0 (.leaf 0 none) (.leaf 0 none)), false) ∧
      view (exec .blkLeaves { base with tree := some (.node 0 (.leaf 0 none) (.leaf 0 none)), pay := bytes [0x61, 0x62] })
        (fun t => (t.tree, t.treeValid)) = some (some (.node 0 (leaf 0x61 0) (leaf 0x62 0)), true) := by decide +kernel

/-- DE7: bits 0 10 11 over TS4. DX14: an empty DATA payload. -/
theorem test_blkData :
    view (exec .blkData { withTree ts4 with pay := bytes [0x03, 0x58], snk := List.replicate 3 .ok })
        (fun t => (t.out, t.remaining)) = some (bytes [0x61, 0x62, 0x63], 0) ∧
      view (exec .blkData (withTree ts4)) (fun t => t.err) = some .truncated := by decide +kernel

/-- R188: after a SHAPE block the reader is gone: a bit read over the next payload is that payload's first bit. -/
theorem test_blkShape_drops_reader :
    view (exec .blkShape { base with pay := bytes [0x80] }) (fun t => (t.br.rem, view (exec .brReadBit { t with pay := bytes [0x01] })
      fun u => (u.res, u.br.rem))) = some (0, some (0, 7)) := by decide +kernel

/-! ### Waiting for the host -/

def busyAt (ph : Phase) : State := { base with st := .busy, phase := ph }

/-- An ENCODE call about to write its SHAPE block `00 01 00 .. 00 80`. -/
def writing (snk : List SnkAns) (host : List HostEvent) : State :=
  { busyAt .eShape with pos := 2, pay := bytes [0x80], snk := snk, host := host }

/-- R240, R42: the two bytes that the sink has accepted stay there through a reset. -/
theorem test_reset_keeps_bytes :
    view (Host.Core.run core 2 (writing [.ok, .ok] [.tick, .reset])) (fun t => (t.st, t.held, t.out)) =
      some (.idle, none, bytes [0, 1]) := by decide +kernel

/-- R41, R43, R51: the block is written on where it stood, from the answers that come later. -/
theorem test_write_goes_on :
    view (Host.Core.run core 3 (writing [.ok, .ok] [.tick, .bind [] (List.replicate 8 .ok)])) (fun t => (t.phase, t.out)) =
      some (.eLeaves, bytes [0, 1, 0, 0, 0, 0, 0, 0, 0, 0x80]) := by decide +kernel

/-- R41: a byte answered is consumed although the block is not complete, and is not asked for again. -/
theorem test_read_goes_on :
    view (Host.Core.run core 3 { busyAt .dBlk0 with
        src := (bytes [0, 1]).map .byte, host := [.tick, .bind ((bytes [0, 0, 0, 0, 0, 0, 0, 0x80]).map .byte) []] })
      (fun t => (t.phase, t.blkLen, t.pay, t.src)) = some (.dShape, 1, bytes [0x80], []) := by decide +kernel

/-- R51: a unit operation that waits is gone on with before the next request. -/
theorem test_job_goes_on :
    view (Host.Core.run core 4 { base with
        snk := [.ok], pay := bytes [], host := [.request (encode (.blkWrite .data)), .bind [] (List.replicate 8 .ok), .tick,
          .request (encode .tCount)] })
      (fun t => (t.out, t.held, t.host)) = some (bytes [2, 0, 0, 0, 0, 0, 0, 0, 0], none, []) := by decide +kernel

/-! ### Witnesses: the hypotheses of each statement can be met, each clause at an edge of its range -/

/-- Nothing waits in a state made from `base` by an update of other fields. -/
theorem noJob_of {s : State} (e : s.held = none) : s.noJob := by intro h he; rw [e] at he; cases he

theorem base_inv : base.Inv := by
  refine ⟨by decide, by decide, ?_, by decide, by decide, by decide, fun h e => by cases e⟩
  intro c t h; simp [base, State.reset, State.cwAt] at h

theorem wit_CmdWriteStartsCallUnlessBusy : base.st ≠ .busy ∧ (busyAt .eRead).st = .busy := by decide

theorem wit_CallStartsFresh :
    let s := base
    let s' := { base with phase := .dEnd, pos := 3, tree := some ts4 }
    s' ≠ s ∧ s'.params = s.params ∧ s'.src = s.src ∧ s'.snk = s.snk ∧ s'.out = s.out ∧ s'.host = s.host ∧
      s'.freeCtr = s.freeCtr := by decide +kernel

theorem wit_ResetAbandonsEverything :
    { busyAt .eData with host := [.reset] }.host = .reset :: [] ∧
      { busyAt .eData with host := [.reset, .tick] }.host = .reset :: [.tick] := by decide

theorem wit_NoStreamAccessOutsideCall :
    base.st ≠ .busy ∧ base.noJob ∧ base.host = [] ∧ { base with host := [.tick] }.host = .tick :: [] ∧
      { base with host := [.await] }.host = .await :: [] :=
  ⟨by decide, noJob_of rfl, rfl, rfl, rfl⟩

/-- The sink has taken the id and the first length byte of a block: both are written and the operation waits. -/
theorem wit_WaitingKeepsWhatIsDone :
    base.held = none ∧
      view (exec (.blkWrite .data) { base with snk := [.ok, .ok] })
        (fun t => (t.held.isSome, t.out, t.snk)) = some (true, bytes [2, 0], []) ∧
      view (exec (.blkRead .shape) { base with src := [.byte 0, .byte 5] })
        (fun t => (t.held.isSome, t.blkLen, t.src)) = some (true, 5, []) := by decide +kernel

theorem wit_RaiseEndsTheCall : (busyAt .eData).st = .busy ∧ ((busyAt .eData).raise .io).host = [] := by decide +kernel

theorem wit_FaultIsLeftByCommandOrReset :
    State.Inv { base with st := .fault, err := .io } ∧
      view (step { base with st := .fault, err := .io, host := [.reset] }) (fun t => decide (t.st ≠ .fault)) = some true ∧
      view (step { base with st := .fault, err := .io, host := [.request (encode .decode)] })
        (fun t => decide (t.st ≠ .fault)) = some true := by
  refine ⟨⟨by decide, by decide, ?_, by decide, by decide, by decide, fun h e => by cases e⟩, by decide +kernel, by decide +kernel⟩
  intro c t h; simp [base, State.reset, State.cwAt] at h

theorem wit_StreamPrimitives :
    { base with srcEos := true }.srcEos = true ∧ { base with src := [.byte 7] }.src = .byte 7 :: [] ∧
      { base with src := [.eos] }.src = .eos :: [] ∧ { base with src := [.ioFail] }.src = .ioFail :: [] ∧
      { base with snk := [.ok] }.snk = .ok :: [] ∧ { base with snk := [.ioFail] }.snk = .ioFail :: [] ∧
      base.srcEos = false := by decide

theorem wit_OutputOnlyGrows :
    view (step { base with host := [.request (encode .pLeft)], tree := some ts4, treeValid := true, snk := [.ok] })
      (fun t => t.out) = some (bytes [0x61]) := by decide +kernel

theorem wit_AppendBitResult :
    ((withAcc (sl 63 1)).slice .acc).wf = true ∧ ((withAcc (sl 63 1)).slice .acc).length < 64 ∧
      ((withAcc (sl 64 1)).slice .acc).wf = true ∧ ((withAcc (sl 64 1)).slice .acc).length = 64 := by decide +kernel

theorem wit_AppendSliceResult :
    (withAcc (sl 7 3)).reads (.imm (sl 57 1)) (sl 57 1) ∧ (withAcc (sl 7 3)).reads (.reg .acc) (sl 7 3) ∧
      { base with cw := Vector.replicate 256 (some (sl 58 1)) }.reads (.cw 0x61) (sl 58 1) ∧
      ((withAcc (sl 7 3)).slice .acc).wf = true ∧ (sl 57 1).wf = true ∧ (sl 58 1).wf = true ∧
      7 + (sl 57 1).length ≤ 64 ∧ 64 < 7 + (sl 58 1).length :=
  ⟨.inl rfl, .inr (.inl ⟨_, rfl, rfl⟩), .inr (.inr ⟨_, rfl, by decide +kernel⟩), by decide, by decide, by decide,
    by decide, by decide⟩

theorem wit_PadAndPopResult :
    ((withAcc (sl 0 0)).slice .acc).wf = true ∧ ((withAcc (sl 57 1)).slice .acc).wf = true ∧
      ((withAcc (sl 8 0xF0)).slice .acc).wf = true ∧ 8 ≤ ((withAcc (sl 8 0xF0)).slice .acc).length ∧
      ((withAcc (sl 7 1)).slice .acc).wf = true ∧ ((withAcc (sl 7 1)).slice .acc).length < 8 := by decide

theorem wit_SliceLaws :
    (sl 64 1).wf = true ∧ (sl 0 0).wf = true ∧ (sl 0 0).appendSlice (sl 64 1) = some (sl 64 1) ∧
      (sl 63 1).appendBit true = some (sl 64 3) ∧ (sl 8 0xA1).popByte = some (0xA1, sl 0 0) := by decide

theorem wit_ReaderResults :
    (readerOver [0xA1]).br.rem = 0 ∧ (readerOver [0xA1]).br.origin = .pay 0 ∧ (readerOver [0xA1]).pay[0]? = some 0xA1 ∧
      (readerOver []).br.origin = .pay 0 ∧ (readerOver []).pay.length ≤ 0 ∧
      { base with br := ⟨0xA1, 1, .src⟩ }.br.rem = 0 + 1 ∧
      { base with br := BitReader.fresh .src, src := [.byte 1] }.br.origin = .src ∧
      { base with br := BitReader.fresh .src }.src = [] ∧ base.srcEos = false ∧
      { readerOver [0xF0, 0x80] with br := ⟨0xF0, 4, .pay 1⟩ }.br.origin = .pay 1 ∧
      (readerOver [0xF0, 0x80]).pay[1]? = some 0x80 := by decide

theorem wit_ReaderReturnsOriginBits :
    (readerOver [0xE4, 0x00]).br.rem = 0 ∧ (readerOver [0xE4, 0x00]).br.origin = .pay 0 ∧ 9 ≤ 8 * ((readerOver [0xE4, 0x00]).pay.length - 0) ∧
      16 ≤ 8 * ((readerOver [0xE4, 0x00]).pay.length - 0) := by decide

theorem roomBase (s : State) (h : s.params.payloadCap = none) (n : Nat) : s.payRoom n := by
  intro c hc; rw [h] at hc; cases hc

theorem nodesBase (s : State) (h : s.params.nodeCap = none) (n : Nat) : s.nodeRoom n := by
  intro c hc; rw [h] at hc; cases hc

theorem wit_WriteBitResult :
    (withAcc (sl 6 1)).writerReady ∧ (withAcc (sl 6 1)).bw.acc.length < 7 ∧
      (withAcc (sl 7 1)).writerReady ∧ (withAcc (sl 7 1)).bw.acc.length = 7 ∧
      unpackByte 0x03 = (withAcc (sl 7 1)).bw.acc.seq ++ [true] ∧ (withAcc (sl 7 1)).bw.dest = .pay ∧
      (withAcc (sl 7 1)).payRoom 1 ∧ { base with bw := ⟨sl 7 1, .snk⟩ }.bw.dest = .snk :=
  ⟨⟨by decide, by decide⟩, by decide, ⟨by decide, by decide⟩, by decide, by decide, rfl, roomBase _ rfl _, rfl⟩

theorem wit_WriteSliceResult :
    (withAcc (sl 7 1)).reads (.imm (sl 57 1)) (sl 57 1) ∧ (sl 57 1).wf = true ∧ (withAcc (sl 7 1)).writerReady ∧
      (withAcc (sl 7 1)).bw.acc.length + (sl 57 1).length ≤ 64 ∧ (sl 58 1).wf = true ∧
      64 < (withAcc (sl 7 1)).bw.acc.length + (sl 58 1).length ∧ (withAcc (sl 7 1)).payRoom 8 ∧
      { base with snk := [.ok, .ok] }.snk = List.replicate 2 .ok ++ [] ∧
      { base with snk := [.ok, .ioFail] }.snk = List.replicate 1 .ok ++ .ioFail :: [] :=
  ⟨.inl rfl, by decide, ⟨by decide, by decide⟩, by decide, by decide, by decide, roomBase _ rfl _, by decide +kernel, by decide +kernel⟩

theorem wit_PaddingCountAndPadding :
    (withAcc (sl 0 0)).writerReady ∧ (withAcc (sl 0 0)).bw.acc.length = 0 ∧ (withAcc (sl 4 0xF)).writerReady ∧
      0 < (withAcc (sl 4 0xF)).bw.acc.length ∧
      unpackByte 0xF0 = (withAcc (sl 4 0xF)).bw.acc.seq ++ zeros (padlen (withAcc (sl 4 0xF)).bw.acc.length) ∧
      (withAcc (sl 4 0xF)).payRoom 1 :=
  ⟨⟨by decide, by decide⟩, by decide, ⟨by decide, by decide⟩, by decide, by decide, roomBase _ rfl _⟩

/-- BW5: 13 bits in three slices. -/
theorem wit_WriterLaw :
    let ws : List (Bool ⊕ BitSlice) := [.inl true, .inr (sl 3 0b011), .inr (sl 9 0b101010101)]
    (∀ u, .inr u ∈ ws → u.wf = true) ∧ base.bw = BitWriter.fresh .pay ∧ base.payRoom (padPack (mixBits ws)).length ∧
      writeMix ws base = .ok () { withAcc (sl 5 0b10101) with pay := bytes [0xBA] } := by
  refine ⟨?_, rfl, roomBase _ rfl _, rfl⟩
  intro u hu
  simp only [List.mem_cons, Sum.inr.injEq, List.not_mem_nil, or_false] at hu
  rcases hu with h | h | h
  · cases h
  · subst h; decide
  · subst h; decide

theorem wit_FrequencyCount : { base with inbuf := bytes [0x61] }.inbuf.length ≤ maxInput := by decide

def freqOf (l : List Nat) : State := { base with freq := countBytes (bytes l) }

theorem wit_BuildGivesTree :
    base.nodeRoom (buildTree base.params base.freq).size ∧ observed base.freq = [] ∧
      observed (freqOf [0x61]).freq = [0x61] ∧ 2 ≤ (observed (freqOf [0x61, 0x62]).freq).length :=
  ⟨nodesBase _ rfl _, by decide +kernel, by decide +kernel, by decide +kernel⟩

theorem wit_TreeProperties : 2 ≤ (observed (countBytes (bytes [0x61, 0x62]))).length := by decide +kernel

theorem wit_TreeIsOptimal :
    let f := countBytes (bytes [0x61, 0x61, 0x62, 0x63])
    2 ≤ (observed f).length ∧ ((List.range 256).map fun i => (f[i]?.getD 0).toNat).sum < 2 ^ 64 ∧
      (Tree.symbols (.node 0 (.node 0 (leaf 0x63 0) (leaf 0x61 0)) (leaf 0x62 0))).Perm ((observed f).map some) := by
  decide +kernel

theorem wit_TieRuleIsAllowed :
    2 ≤ [leaf 0x61 1, leaf 0x62 1].length ∧ Params.reference.tie = [] ∧
      mergeAt [leaf 0x61 5, leaf 0x62 2, leaf 0x63 1] (referencePair [leaf 0x61 5, leaf 0x62 2, leaf 0x63 1]) =
        [.node 3 (leaf 0x62 2) (leaf 0x63 1), leaf 0x61 5] := by decide

theorem wit_WriteShapeResult :
    (withTree ts4).tree = some ts4 ∧ (withTree ts4).writerReady ∧ (withTree ts4).bw.dest = .pay ∧
      (withTree ts4).payRoom 1 ∧
      { withTree ts4 with bw := ⟨sl 7 0, .snk⟩, snk := [.ok] }.snk = List.replicate 1 .ok ++ [] ∧
      { withTree ts4 with bw := ⟨sl 7 0, .snk⟩, snk := [.ioFail] }.snk = List.replicate 0 .ok ++ .ioFail :: [] :=
  ⟨rfl, ⟨by decide, by decide⟩, rfl, roomBase _ rfl _, by decide +kernel, by decide +kernel⟩

theorem wit_ShapeWordProperties :
    4 < ts4.shapeBits.length ∧ ts4.shapeBits <+: (Tree.skeleton ts4).shapeBits := by decide

theorem wit_WriteLeavesResult :
    (withTree ts4).tree = some ts4 ∧ ts4.symbols = (bytes [0x61, 0x62, 0x63]).map some ∧ (withTree ts4).payRoom 3 :=
  ⟨rfl, by decide, roomBase _ rfl _⟩

/-- The chains of section 5 of the vectors: depth 64 fits a codeword, depth 65 does not. -/
def chain : Nat → Tree
  | 0     => leaf 0x61 0
  | n + 1 => .node 0 (leaf 0x62 0) (chain n)

theorem wit_BuildTableResult :
    (chain 64).complete = true ∧ (chain 64).depth ≤ 64 ∧ (chain 65).complete = true ∧ 64 < (chain 65).depth ∧
      (chain 64).codeOf 0x63 = none ∧ ((chain 64).codeOf 0x61).isSome = true := by decide +kernel

theorem wit_CodewordsAreAPrefixCode : (some 0x61, [false]) ∈ ts4.codes [] := by decide

theorem wit_ReadShapeResult :
    (readerOver [0x80]).br.origin = .pay 0 ∧ (readerOver [0x80]).nodeRoom 3 ∧
      (readerOver [0x80]).readerBits = Tree.shapeBits (.node 0 (.leaf 0 none) (.leaf 0 none)) ++ zeros 5 ∧
      (readerOver []).nodeRoom 0 ∧ ∀ t : Tree, ¬ t.shapeBits <+: (readerOver []).readerBits := by
  refine ⟨rfl, nodesBase _ rfl _, by decide, nodesBase _ rfl _, fun t h => ?_⟩
  have e : t.shapeBits = [] := List.prefix_nil.1 h
  cases t <;> cases e

theorem wit_ShapeBitRows :
    base.nodeRoom 1 ∧ (readerOver [0x00]).nodeRoom 3 ∧ (readerOver [0x00]).br.origin = .pay 0 ∧
      (readerOver [0x00]).readerBits =
        Tree.shapeBits (.leaf 0 none) ++ (Tree.shapeBits (.leaf 0 none) ++ zeros 6) ∧
      ∀ l r : Tree, ¬ l.shapeBits ++ r.shapeBits <+: (readerOver []).readerBits := by
  refine ⟨nodesBase _ rfl _, nodesBase _ rfl _, rfl, by decide, fun l r h => ?_⟩
  have e : l.shapeBits ++ r.shapeBits = [] := List.prefix_nil.1 h
  cases l <;> cases e

theorem wit_AssignLeavesResult :
    { withTree ts4 with pay := bytes [1, 2, 3] }.pay.length = ts4.nleaves ∧
      { withTree ts4 with pay := bytes [1, 2] }.pay.length ≠ ts4.nleaves ∧
      { withTree ts4 with pay := bytes [1, 2, 3, 4] }.pay.length ≠ ts4.nleaves := by decide

theorem wit_SerializationRoundTrip :
    (readerOver [0xA7]).br.origin = .pay 0 ∧ (readerOver [0xA7]).nodeRoom ts4.size ∧
      (readerOver [0xA7]).readerBits = ts4.shapeBits ++ [true, true, true] ∧
      ts4.symbols = (bytes [0x61, 0x62, 0x63]).map some :=
  ⟨rfl, nodesBase _ rfl _, by decide, by decide⟩

theorem wit_BlockWriteResult :
    base.pay.length < 2 ^ 64 ∧ { base with snk := List.replicate 9 .ok }.snk = List.replicate 9 .ok ++ [] ∧
      { base with snk := List.replicate 8 SnkAns.ok ++ [SnkAns.ioFail] }.snk = List.replicate 8 .ok ++ .ioFail :: [] ∧
      { base with snk := List.replicate 8 SnkAns.ok }.snk = List.replicate 8 .ok ∧ base.snk = List.replicate 0 .ok :=
  ⟨by decide +kernel, by decide +kernel, by decide +kernel, by decide +kernel, by decide +kernel⟩

theorem wit_BlockReadResult :
    base.srcEos = false ∧ { base with src := [.byte 1] }.src = .byte 1 :: [] ∧ (1 : Byte) ≠ BlockId.shape.code ∧
      (bytes [1, 0, 0, 0, 0, 0, 0, 0]).length = 8 ∧ leNat (bytes [1, 0, 0, 0, 0, 0, 0, 0]) = (bytes [0xE4]).length ∧
      base.clearPay.payRoom 1 ∧
      { base with src := [.eos] }.src =
        ((BlockId.shape.code :: (bytes [1, 0, 0, 0, 0, 0, 0, 0] ++ bytes [0xE4])).take 0).map .byte ++ .eos :: [] :=
  ⟨rfl, rfl, by decide, rfl, by decide, roomBase _ rfl _, rfl⟩

theorem wit_LengthIsLittleEndian : (bytes [0x2C, 1, 0, 0, 0, 0, 0, 0]).length = 8 := by decide

theorem wit_PathBitAndPadcntRows :
    (withTree ts4).treeValid = true ∧ (withTree ts4).tree = some ts4 ∧
      ts4.nodeAt (withTree ts4).cur = some (.node 0 (leaf 0x61 0) (.node 0 (leaf 0x62 0) (leaf 0x63 0))) ∧
      { withTree ts4 with snk := [.ok] }.snk = .ok :: [] ∧
      (leaf 0x61 0).nodeAt [] = some (.leaf 0 (some 0x61)) ∧
      { base with pay := bytes [7, 0] }.pay ≠ [] ∧
      (7 : BitVec 3).toNat ≤ 8 * ({ base with pay := bytes [7, 0] }.pay.length - 1) ∧
      8 * ({ base with pay := bytes [1] }.pay.length - 1) < (1 : BitVec 3).toNat ∧ base.pay = [] := by decide

theorem wit_WalkBitResult :
    let s := { withTree ts4 with pay := bytes [0x80], remaining := 1 }
    s.treeValid = true ∧ s.tree = some ts4 ∧ s.br.origin = .pay 0 ∧ s.readerBits = true :: zeros 7 ∧ 0 < s.remaining ∧
      ts4.nodeAt s.cur = some ts4 := by decide

theorem wit_ShapeAndLeavesBlocks :
    base.nodeRoom 3 ∧ unpack (bytes [0x80]) = Tree.shapeBits (.node 0 (.leaf 0 none) (.leaf 0 none)) ++ zeros 5 ∧
      (∀ t : Tree, ¬ t.shapeBits <+: unpack base.pay) ∧
      { withTree ts4 with pay := bytes [1, 2, 3] }.pay.length = ts4.nleaves ∧ base.pay.length ≠ ts4.nleaves := by
  refine ⟨nodesBase _ rfl _, by decide, fun t h => ?_, by decide, by decide⟩
  have e : t.shapeBits = [] := List.prefix_nil.1 h
  cases t <;> cases e

theorem wit_DataBlock :
    (withTree ts4).treeValid = true ∧ ts4.complete = true ∧ ts4.isNode = true ∧ base.treeValid = false ∧
      bytes [7, 0x80] = (7 : Byte) :: bytes [0x80] ∧ (7 : Byte).toNat ≤ 8 * (bytes [0x80]).length ∧
      7 < (8 : Byte).toNat ∧ 8 * (bytes []).length < (1 : Byte).toNat ∧
      (leaf 0x61 0).isNode = false ∧ (leaf 0x61 0).complete = true ∧ 8 * (bytes []).length = (0 : Byte).toNat := by
  decide

theorem wit_EndProbe :
    (busyAt .dTail).host = [] ∧ (busyAt .dTail).st = .busy ∧ (busyAt .dTail).phase = .dTail ∧
      (busyAt .dTail).held = none ∧ (busyAt .dTail).srcEos = false ∧ (busyAt .dTail).src = [] ∧
      { busyAt .dTail with src := [.eos] }.src = .eos :: [] ∧ { busyAt .dTail with src := [.byte 2] }.src = .byte 2 :: [] ∧
      { busyAt .dTail with src := [.ioFail] }.src = .ioFail :: [] := by decide

theorem wit_StopsByName :
    (withTree ts4).treeValid = true ∧ (withTree ts4).tree.isSome = true ∧ (withTree ts4).remaining = 0 ∧
      base.cwAt 0x61 = none ∧ base.tree = none ∧ base.treeValid = false ∧ ((withAcc (sl 7 1)).slice .acc).length < 8 := by
  decide +kernel

/-- TS4 with the symbol of its middle leaf unset. -/
def gap : Tree := .node 0 (leaf 0x61 0) (.node 0 (.leaf 0 none) (leaf 0x63 0))

theorem wit_StopsByName_symbols :
    (withTree gap).tree = some gap ∧ (withTree gap).treeValid = true ∧
      gap.symbols = (bytes [0x61]).map some ++ none :: [some 0x63] ∧ (withTree gap).payRoom 1 ∧
      gap.complete = false ∧ gap.depth ≤ 64 ∧ (Tree.leaf 0 none).symbols = (bytes []).map some ++ none :: [] ∧
      gap.nodeAt [true] = some (.node 0 (.leaf 0 none) (leaf 0x63 0)) ∧
      { withTree gap with pay := bytes [0x40], remaining := 1 }.readerBits = false :: [true, false, false, false, false, false, false] ∧
      gap.nodeAt [false, true] = none :=
  ⟨rfl, rfl, by decide, roomBase _ rfl _, by decide, by decide, by decide, by decide, by decide, by decide⟩

/-- The meaningful bits 0 1 0: the first emits 61, the last reaches the leaf without a symbol. -/
theorem wit_StopsByName_data :
    let s := { withTree gap with pay := bytes [5, 0x40], snk := [.ok] }
    s.pay = (5 : Byte) :: bytes [0x40] ∧ (5 : Byte).toNat ≤ 7 ∧ (5 : Byte).toNat ≤ 8 * (bytes [0x40]).length ∧
      (unpack (bytes [0x40])).take (8 * (bytes [0x40]).length - (5 : Byte).toNat) = [false, true] ++ false :: [] ∧
      gap.nodeAt ((walkOutput gap [] [false, true]).2 ++ [false]) = some (.leaf 0 none) ∧
      s.snk = List.replicate (walkOutput gap [] [false, true]).1.length .ok ++ [] ∧
      stops (exec .blkData s) = some (.inl .unsetSymbol) := by decide +kernel

def tight : State := { busyAt .eRead with params := { Params.reference with inbufCap := some 0, payloadCap := some 0, nodeCap := some 0 } }

theorem wit_CapacityExceededIsIoError :
    tight.params.nodeCap = some 0 ∧ 0 < (buildTree tight.params tight.freq).size ∧ tight.params.payloadCap = some 0 ∧
      0 ≤ tight.pay.length ∧ tight.params.inbufCap = some 0 ∧ tight.inbuf.length < maxInput ∧
      { tight with src := [.byte 1] }.src = .byte 1 :: [] ∧ tight.st = .busy ∧ tight.phase = .eRead ∧ tight.held = none := by
  decide +kernel

/-- A capacity of 2 for nodes and of 1 for payload bytes. -/
def small : State :=
  { readerOver [0x00] with params := { Params.reference with payloadCap := some 1, nodeCap := some 2 } }

theorem wit_CapacityExceededIsIoError_nodes :
    small.params.nodeCap = some 2 ∧ small.br.origin = .pay 0 ∧ 2 < ts4.size ∧
      { small with pay := bytes [0xA0] }.readerBits = ts4.shapeBits ++ zeros 3 ∧
      unpack (bytes [0xA0]) = ts4.shapeBits ++ zeros 3 ∧ 2 < 1 + (leaf 0 0).size + (leaf 0 0).size ∧
      small.readerBits = (leaf 0 0).shapeBits ++ ((leaf 0 0).shapeBits ++ zeros 6) := by decide

theorem wit_CapacityExceededIsIoError_payload :
    small.params.payloadCap = some 1 ∧ { small with tree := some ts4, pay := [] }.tree = some ts4 ∧
      ts4.symbols = (bytes [0x61, 0x62, 0x63]).map some ∧ 1 < 0 + (bytes [0x61, 0x62, 0x63]).length ∧
      (bytes [3, 0, 0, 0, 0, 0, 0, 0]).length = 8 ∧ (bytes [7, 8]).length ≤ leNat (bytes [3, 0, 0, 0, 0, 0, 0, 0]) ∧
      1 < (bytes [7, 8]).length ∧
      { tight with phase := .eData }.phase = .eData ∧ tight.pos = 0 ∧ tight.host = [] := by decide

/-- The clauses of the writer, shape and leaves statements for a full PAY. -/
theorem wit_no_room : ¬ tight.payRoom 1 ∧ tight.bw.dest = .pay ∧ ¬ { tight with tree := some ts4 }.payRoom 3 := by
  refine ⟨fun h => ?_, by decide, fun h => ?_⟩
  · exact absurd (h 0 rfl) (by decide)
  · exact absurd (h 0 rfl) (by decide)

theorem wit_OperationFrame :
    view (exec (.bwWriteBit true) (withAcc (sl 7 1))) (fun t => decide (t.st ≠ .fault)) = some true ∧
      view (exec .tWriteLeaves (withTree ts4)) (fun t => decide (t.st ≠ .fault)) = some true := by decide +kernel

theorem wit_BitOperationFrame :
    base.st ≠ .fault ∧ view (exec (.bsAppendBit .cwacc true) base) (fun t => t.st) = some .idle ∧
      view (exec .brReadBit (readerOver [1])) (fun t => t.st) = some .idle := by decide +kernel

theorem wit_TreeAndBlockFrame :
    view (exec .tCount base) (fun t => t.st) = some .idle ∧ view (exec .tBuild base) (fun t => t.st) = some .idle ∧
      view (exec .blkShape (readerOver [0])) (fun t => t.st) = some .idle := by decide +kernel

theorem wit_StepRunsDecodedOperation :
    decode (encode .tCount) = .ok (.tCount, []) ∧
      Instr.isCommand .tCount = false ∧ Instr.isCommand .decode = true ∧
      view (exec .tCount base) (fun t => t.held.isSome) = some false ∧
      nextOp (busyAt .eBuild) = some .tBuild ∧ nextOp (busyAt .dBlk0) = some (.blkRead .shape) ∧
      view (exec (.blkRead .shape) (prepare (busyAt .dBlk0).takeUp)) (fun t => t.held.isSome) = some true ∧
      view (step { base with host := [.request (encode (.blkRead .data))] }) (fun t => t.held.bind Held.job) =
        some (some (.blkRead .data)) ∧
      (busyAt .eBuild).host = [] ∧ (busyAt .eBuild).st = .busy ∧ (busyAt .eBuild).held = none := by decide +kernel

theorem wit_DecodeOfEncode : (Instr.bsAppendSlice .acc (.imm (sl 64 (2 ^ 64 - 1)))).wf = true := by decide

theorem wit_EncodeOfDecode : decode (0x05 :: 5 :: [9]) = .ok (.padcnt 5, [9]) ∧ (5 : Byte) ≠ 0 := by decide

theorem wit_StepKeepsInvariant :
    base.Inv ∧ view (step (base.withFetchWord 8 0)) (fun t => t.st) = some .busy := ⟨base_inv, by decide +kernel⟩

theorem busy_inv (ph : Phase) (src : List SrcAns) : State.Inv { busyAt ph with src := src } := by
  refine ⟨rfl, rfl, ?_, Nat.zero_le 7, fun _ => rfl, fun h => CallState.noConfusion h, fun h e => by cases e⟩
  intro c t h; simp [busyAt, base, State.reset, State.cwAt] at h

/-- A call at its first phase meets the invariant, and takes a step there. -/
theorem wit_StepKeepsCallInvariant :
    State.CallInv { busyAt .eRead with src := [.byte 0x61] } ∧
      State.hostLegal { busyAt .eRead with src := [.byte 0x61] } = true ∧
      view (step { busyAt .eRead with src := [.byte 0x61] }) (fun t => t.inbuf) = some (bytes [0x61]) := by
  exact ⟨⟨busy_inv _ _, noJob_of rfl, fun _ => ⟨by decide, trivial⟩⟩, by decide, by decide +kernel⟩

theorem wit_CallsNeverStop :
    State.CallInv { base with host := [.request (encode .encode)] } ∧
      State.hostLegal { base with host := [.request (encode .encode)] } = true :=
  ⟨⟨base_inv, noJob_of rfl, fun h => by simp [State.busy, base, State.reset] at h⟩, by decide⟩

theorem wit_PhasesRunInOrder :
    (busyAt .eCount).st = .busy ∧ view (step (busyAt .eCount)) (fun t => (t.st, t.phase)) = some (.busy, .eBuild) := by
  decide +kernel

/-- EN16 in small: the source fails in E_READ; and DX7: a wrong id in D_BLK0. -/
theorem wit_ErrorsOfEachCommand :
    State.CallInv { busyAt .eRead with src := [.ioFail] } ∧ State.CallInv { busyAt .dBlk0 with src := [.byte 1] } ∧
      (busyAt .eRead).hostLegal = true ∧ view (step { busyAt .eRead with src := [.ioFail] }) (fun t => (t.st, t.err)) = some (.fault, .io) ∧
      view (step { busyAt .dBlk0 with src := [.byte 1] }) (fun t => (t.st, t.err)) = some (.fault, .blockId) ∧
      Phase.isDecode .eRead = false ∧ Phase.isDecode .dBlk0 = true :=
  ⟨⟨busy_inv _ _, noJob_of rfl, fun _ => ⟨by decide, trivial⟩⟩, ⟨busy_inv _ _, noJob_of rfl, fun _ => ⟨by decide, trivial⟩⟩,
    by decide, by decide +kernel, by decide +kernel, rfl, rfl⟩

theorem wit_DecodeIgnoresTieRule :
    (busyAt .dTail).st = .busy ∧ (busyAt .dTail).phase.isDecode = true ∧ (busyAt .dTail).host = [] ∧
      (busyAt .dTail).noJob := ⟨rfl, rfl, rfl, noJob_of rfl⟩

def callState (i : Instr) (src : List Byte) (n : Nat) : State :=
  { base with host := [.request (encode i)], src := src.map .byte ++ [.eos], snk := List.replicate n .ok }

theorem wit_EncodeWritesContainer :
    let s := callState .encode (bytes [0x61, 0x62]) 34
    s.st ≠ .busy ∧ s.host = [.request (encode .encode)] ∧ s.unbounded ∧ (bytes [0x61, 0x62]).length ≤ maxInput ∧
      s.src = (bytes [0x61, 0x62]).map .byte ++ [.eos] ∧ s.snk = List.replicate 34 .ok ∧
      (container s.params (bytes [0x61, 0x62])).length ≤ 34 :=
  ⟨by decide, rfl, ⟨rfl, rfl, rfl⟩, by decide, rfl, rfl, by decide +kernel⟩

/-- DE6: duplicate symbols. -/
theorem wit_DecodeAcceptsContainer :
    let t : Tree := .node 0 (leaf 0x61 0) (leaf 0x61 0)
    let src := blockBytes .shape [0x80] ++ blockBytes .leaves [0x61, 0x61] ++ blockBytes .data [5, 0xA0]
    let s := callState .decode src 8
    s.st ≠ .busy ∧ s.host = [.request (encode .decode)] ∧ s.unbounded ∧ unpack [0x80] = t.shapeBits ++ zeros 5 ∧
      t.symbols = ([0x61, 0x61] : List Byte).map some ∧ (5 : Byte).toNat ≤ 7 ∧ (5 : Byte).toNat ≤ 8 * 1 ∧
      t.isNode = true ∧ s.src = src.map .byte ++ .eos :: [] ∧ s.snk = List.replicate 8 .ok ∧
      State.src { s with src := src.map .byte ++ [.byte 0] } = src.map .byte ++ .byte 0 :: [] ∧
      State.src { s with src := src.map .byte ++ [.ioFail] } = src.map .byte ++ .ioFail :: [] :=
  ⟨by decide, rfl, ⟨rfl, rfl, rfl⟩, by decide, by decide, by decide, by decide, rfl, rfl, rfl, rfl, rfl⟩

/-- EN1: the empty input, to the end of its ENCODE call. -/
theorem wit_RoundTrip :
    let s := callState .encode [] 30
    let d := callState .decode (container base.params []) 0
    view (Host.Core.run core 15 s) (fun t => (t.host, t.st, t.out)) = some ([], .done, container base.params []) ∧
      (dataPayload (codeBits s.params [])).length < 2 ^ 64 ∧ s.unbounded ∧ d.unbounded ∧
      d.src = (container base.params []).map .byte ++ [.eos] :=
  ⟨by decide +kernel, by decide +kernel, ⟨rfl, rfl, rfl⟩, ⟨rfl, rfl, rfl⟩, rfl⟩

end Sys2Proof.Tests
end

section
/-! PROOFS. The frame of the unit operations, what a step can do to the output log and to PHASE, and the statements about
the life of a call (`10_state.md`). -/

namespace Sys2Proof.Machine

/-! ### The frame of a unit operation, at whatever end

`UnitStep` speaks of the point an operation has reached, before `settle` takes an error or suspends it. -/

/-- What no unit operation but `BLK.read` does on its way: it changes no parameter, no host event, neither STATUS nor
CMD.MODE, PHASE, the place in it or INBUF; of the streams, answers are only taken and bytes only given; PAY only grows. -/
structure UnitStep (s t : State) : Prop where
  params  : t.params = s.params
  host    : t.host = s.host
  cmdMode : t.cmdMode = s.cmdMode
  phase   : t.phase = s.phase
  pos     : t.pos = s.pos
  idx     : t.idx = s.idx
  st      : t.st = s.st
  err     : t.err = s.err
  inbuf   : t.inbuf = s.inbuf
  src     : t.src <:+ s.src
  snk     : t.snk <:+ s.snk
  out     : s.out <+: t.out
  pay     : s.pay <+: t.pay

/-- A change of none of the elements that `UnitStep` names. -/
theorem UnitStep.of_eq {s t : State}
    (h : t = { t with
      params := s.params, host := s.host, cmdMode := s.cmdMode, phase := s.phase, pos := s.pos, idx := s.idx, st := s.st,
      err := s.err, inbuf := s.inbuf, src := s.src, snk := s.snk, out := s.out, pay := s.pay }) : UnitStep s t := by
  rw [h]
  exact ⟨rfl, rfl, rfl, rfl, rfl, rfl, rfl, rfl, rfl, List.suffix_rfl, List.suffix_rfl, List.prefix_rfl, List.prefix_rfl⟩

theorem UnitStep.refl (s : State) : UnitStep s s := .of_eq rfl

theorem UnitStep.trans {s t u : State} (h : UnitStep s t) (h' : UnitStep t u) : UnitStep s u where
  params  := h'.params.trans h.params
  host    := h'.host.trans h.host
  cmdMode := h'.cmdMode.trans h.cmdMode
  phase   := h'.phase.trans h.phase
  pos     := h'.pos.trans h.pos
  idx     := h'.idx.trans h.idx
  st      := h'.st.trans h.st
  err     := h'.err.trans h.err
  inbuf   := h'.inbuf.trans h.inbuf
  src     := h'.src.trans h.src
  snk     := h'.snk.trans h.snk
  out     := h.out.trans h'.out
  pay     := h.pay.trans h'.pay

/-- Of PAY nothing is said any more: an empty one is the beginning of any. -/
theorem UnitStep.forget_pay {s t : State} (h : UnitStep s t) : UnitStep s.clearPay t :=
  { h with pay := List.nil_prefix }

theorem UnitStep.clearPay {s t : State} (h : UnitStep s t) : UnitStep s.clearPay t.clearPay :=
  { h with pay := List.prefix_rfl }

theorem UnitStep.takeSource {s : State} {a : SrcAns} {r : List SrcAns} (h : s.src = a :: r) :
    UnitStep s { s with src := r } :=
  { UnitStep.refl s with src := h ▸ List.suffix_cons a r }

theorem UnitStep.appendPay (s : State) (v : Byte) : UnitStep s { s with pay := s.pay ++ [v] } :=
  { UnitStep.refl s with pay := List.prefix_append _ _ }

/-- Every end of an operation is reached by a unit step. -/
def Res.Keeps {α : Type} (r : Res α) (s : State) : Prop := r.Sat (fun _ => UnitStep s) fun _ => UnitStep s

theorem Res.Keeps.of_step {α : Type} {r : Res α} {s t : State} (h : r.Keeps t) (ht : UnitStep s t) : r.Keeps s :=
  h.mono (fun _ _ => ht.trans) fun _ _ => ht.trans

theorem Res.Keeps.bind {α β : Type} {r : Res α} {k : α → State → Res β} {s : State} (h : r.Keeps s)
    (hk : ∀ a t, (k a t).Keeps t) : (r.bind k).Keeps s :=
  Res.Sat.bind h (fun a t => (hk a t).of_step) fun _ _ => id

theorem Res.Keeps.ok {α : Type} {a : α} {s t : State} (h : UnitStep s t) : (Res.ok a t).Keeps s := h

theorem Res.Keeps.raise_self {α : Type} {e : Err} {s : State} : (Res.raise e s : Res α).Keeps s := UnitStep.refl s

/-! ### The shared operations -/

theorem srcRead_keeps (s : State) : (srcRead s).Keeps s := by
  unfold srcRead; split
  · exact .refl s
  · split
    · exact .refl s
    · exact .takeSource ‹_›
    · exact .of_eq rfl
    · exact .takeSource ‹_›

theorem nextByte_keeps (s : State) : (nextByte s).Keeps s := by
  refine (srcRead_keeps s).bind fun a t => ?_
  cases a <;> exact .refl t

theorem emit_keeps (v : Byte) (s : State) : (emit v s).Keeps s := by
  unfold emit; split
  · exact .refl s
  · rename_i r hs
    exact { UnitStep.refl s with snk := hs ▸ List.suffix_cons _ r, out := List.prefix_append _ _ }
  · rename_i r hs
    refine { UnitStep.refl s with snk := hs ▸ List.suffix_cons _ r, out := ?_ }
    show s.out <+: if _ then _ else _
    split
    · exact List.prefix_append _ _
    · exact List.prefix_rfl

theorem emitAll_keeps (vs : List Byte) (s : State) : (emitAll vs s).Keeps s := by
  induction vs generalizing s with
  | nil => exact .refl s
  | cons v vs ih => exact (emit_keeps v s).bind fun _ t => ih t

theorem payAppend_keeps (v : Byte) (s : State) : (payAppend v s).Keeps s := by
  unfold payAppend; split
  · exact .appendPay s v
  · exact .raise_self

theorem destWrite_keeps (v : Byte) (s : State) : (destWrite v s).Keeps s := by
  unfold destWrite; split
  · exact emit_keeps v s
  · exact payAppend_keeps v s

theorem flushBytes_keeps (n : Nat) (s : State) : (flushBytes n s).Keeps s := by
  induction n generalizing s with
  | zero => exact .refl s
  | succ n ih =>
    rw [flushBytes]; split
    · exact .refl s
    · exact ((destWrite_keeps _ _).bind fun _ t => ih t).of_step (.of_eq rfl)

theorem flushWriter_keeps (s : State) : (flushWriter s).Keeps s := flushBytes_keeps _ s

theorem writeBit_keeps (b : Bool) (s : State) : (writeBit b s).Keeps s := by
  unfold writeBit; split
  · exact .raise_self
  · exact (flushWriter_keeps _).of_step (.of_eq rfl)

theorem writeSlice_keeps (t : BitSlice) (s : State) : (writeSlice t s).Keeps s := by
  unfold writeSlice; split
  · exact .raise_self
  · exact (flushWriter_keeps _).of_step (.of_eq rfl)

theorem writePaddingBits_keeps (s : State) : (writePaddingBits s).Keeps s :=
  (flushWriter_keeps _).of_step (.of_eq rfl)

theorem originRead_keeps (s : State) : (originRead s).Keeps s := by
  unfold originRead; split
  · exact srcRead_keeps s
  · split
    · exact .of_eq rfl
    · exact .refl s

theorem readBit_keeps (s : State) : (readBit s).Keeps s := by
  unfold readBit; split
  · refine (originRead_keeps s).bind fun a t => ?_
    cases a with
    | byte v => exact .of_eq rfl
    | eos => exact .raise_self
    | ioFail => exact .raise_self
  · exact .of_eq rfl

theorem sliceOperand_keeps (x : SliceSrc) (s : State) : (sliceOperand x s).Keeps s := by
  cases x with
  | reg r => exact .refl s
  | imm t => exact .refl s
  | cw c =>
    simp only [sliceOperand]; split
    · exact .refl s
    · trivial

theorem UnitStep.setSlice (r : SliceReg) (t : BitSlice) (s : State) : UnitStep s (s.setSlice r t) := by
  cases r <;> exact .of_eq rfl

/-! ### The tree, the blocks and the walk -/

theorem needTree_keeps (s : State) : (needTree s).Keeps s := by
  unfold needTree; split
  · exact .refl s
  · exact .raise_self

theorem requireTree_keeps (s : State) : (requireTree s).Keeps s := by
  unfold requireTree; split
  · exact needTree_keeps s
  · exact .raise_self

theorem needSymbol_keeps (x : Option Byte) (s : State) : (needSymbol x s).Keeps s := by
  cases x with
  | none => trivial
  | some v => exact .refl s

theorem writeShape_keeps (t : Tree) (s : State) : (writeShape t s).Keeps s := by
  induction t generalizing s with
  | leaf w x => exact writeBit_keeps false s
  | node w l r ihl ihr => exact (writeBit_keeps true s).bind fun _ u => (ihl u).bind fun _ v => ihr v

theorem writeLeaves_keeps (t : Tree) (s : State) : (writeLeaves t s).Keeps s := by
  induction t generalizing s with
  | leaf w x => exact (needSymbol_keeps x s).bind fun v u => payAppend_keeps v u
  | node w l r ihl ihr => exact (ihl s).bind fun _ u => ihr u

theorem table_keeps (t : Tree) (c : BitSlice) (s : State) : (table t c s).Keeps s := by
  induction t generalizing c s with
  | leaf w x => exact (needSymbol_keeps x s).bind fun _ u => .of_eq rfl
  | node w l r ihl ihr =>
    rw [table]; split
    · exact (ihl _ s).bind fun _ u => ihr _ u
    · exact .raise_self

theorem countNode_keeps (n : Nat) (s : State) : (countNode n s).Keeps s := by
  unfold countNode; split
  · exact .refl s
  · exact .raise_self

theorem readSubtree_keeps (fuel n : Nat) (s : State) : (readSubtree fuel n s).Keeps s := by
  induction fuel generalizing n s with
  | zero => exact .raise_self
  | succ fuel ih =>
    rw [readSubtree]
    refine (readBit_keeps s).bind fun b t => (countNode_keeps n t).bind fun m u => ?_
    split
    · exact (ih m u).bind fun x v => (ih x.2 v).bind fun _ w => .refl w
    · exact .refl u

theorem shapeLeaf_keeps (s : State) : (shapeLeaf s).Keeps s :=
  (countNode_keeps 0 s).bind fun _ t => .refl t

theorem shapeInternal_keeps (s : State) : (shapeInternal s).Keeps s :=
  (countNode_keeps 0 s).bind fun m t =>
    (readSubtree_keeps _ m t).bind fun x u => (readSubtree_keeps _ x.2 u).bind fun _ v => .refl v

theorem readShape_keeps (s : State) : (readShape s).Keeps s := by
  refine (readBit_keeps s).bind fun b t => ?_
  split
  · exact shapeInternal_keeps t
  · exact shapeLeaf_keeps t

theorem assignLeaves_keeps (s : State) : (assignLeaves s).Keeps s := by
  refine (needTree_keeps s).bind fun t u => ?_
  split
  · exact .of_eq rfl
  · exact .raise_self

theorem readLenByte_keeps (k : Nat) (s : State) : (readLenByte k s).Keeps s :=
  (nextByte_keeps s).bind fun _ _ => .of_eq rfl

theorem readLen_keeps (n k : Nat) (s : State) : (readLen n k s).Keeps s := by
  induction n generalizing k s with
  | zero => exact .refl s
  | succ n ih => exact (readLenByte_keeps k s).bind fun _ t => ih (k + 1) t

theorem readPayload_keeps (n : Nat) (s : State) : (readPayload n s).Keeps s := by
  induction n generalizing s with
  | zero => exact .refl s
  | succ n ih => exact (nextByte_keeps s).bind fun v t => (payAppend_keeps v t).bind fun _ u => ih u

/-- R31: `BLK.read` overwrites PAY: it is a unit step from an empty one. -/
theorem blockRead_keeps (id : BlockId) (s : State) : (blockRead id s).Keeps s.clearPay := by
  refine Res.Sat.bind (nextByte_keeps s) (fun v t ht => ?_) fun _ _ => UnitStep.forget_pay
  have hid : UnitStep s { t with blkId := v } := ht.trans (.of_eq rfl)
  simp only
  split
  · refine Res.Sat.bind ((readLen_keeps 8 0 _).of_step (hid.trans (.of_eq rfl))) (fun _ u hu => ?_)
      fun _ _ => UnitStep.forget_pay
    exact (readPayload_keeps _ _).of_step hu.clearPay
  · exact hid.forget_pay

theorem walkTo_keeps (b : Bool) (s : State) : (walkTo b s).Keeps s := by
  refine (requireTree_keeps s).bind fun t u => ?_
  split
  · trivial
  · exact .raise_self
  · split
    · exact (needSymbol_keeps _ u).bind fun v x => (emit_keeps v x).bind fun _ y => .of_eq rfl
    · exact .of_eq rfl

theorem walkBit_keeps (s : State) : (walkBit s).Keeps s := by
  refine (requireTree_keeps s).bind fun t u => ?_
  split
  · trivial
  · exact (readBit_keeps u).bind fun b v => (walkTo_keeps b v).bind fun _ w => .of_eq rfl

theorem padHeader_keeps (v : Byte) (s : State) : (padHeader v s).Keeps s := by
  unfold padHeader; split
  · exact .raise_self
  · simp only; split
    · exact .of_eq rfl
    · exact .of_eq rfl

theorem bodyHeader_keeps (s : State) : (bodyHeader s).Keeps s :=
  (requireTree_keeps s).bind fun _ u => (padHeader_keeps _ u).bind fun _ _ => .of_eq rfl

theorem walkSteps_keeps (n : Nat) (s : State) : (walkSteps n s).Keeps s := by
  induction n generalizing s with
  | zero => exact .refl s
  | succ n ih => exact (walkBit_keeps s).bind fun _ t => ih t

/-! ### Every operation -/

/-- The end of any unit operation but `BLK.read` is reached by a unit step. -/
theorem exec_keeps (i : Instr) (hi : i.isCommand = false) (hr : ∀ e, i ≠ .blkRead e) (s : State) :
    ∃ (α : Type) (r : Res α), exec i s = settle s r ∧ r.Keeps s := by
  cases i with
  | encode => cases hi
  | decode => cases hi
  | blkShape =>
    exact ⟨_, _, rfl, ((readShape_keeps _).bind fun _ _ => .ok (.of_eq rfl)).of_step (.of_eq rfl)⟩
  | blkLeaves => exact ⟨_, _, rfl, (assignLeaves_keeps s).bind fun _ _ => .of_eq rfl⟩
  | blkData => exact ⟨_, _, rfl, (bodyHeader_keeps s).bind fun _ t => walkSteps_keeps _ t⟩
  | sLeaf => exact ⟨_, _, rfl, (shapeLeaf_keeps s).bind fun _ _ => .of_eq rfl⟩
  | sInternal => exact ⟨_, _, rfl, (shapeInternal_keeps s).bind fun _ _ => .of_eq rfl⟩
  | pLeft => exact ⟨_, _, rfl, walkTo_keeps false s⟩
  | pRight => exact ⟨_, _, rfl, walkTo_keeps true s⟩
  | padcnt p => exact ⟨_, _, rfl, padHeader_keeps _ s⟩
  | bsAppendBit r b =>
    refine ⟨_, _, rfl, ?_⟩
    split
    · exact .raise_self
    · exact .setSlice r _ s
  | bsAppendSlice r x =>
    refine ⟨_, _, rfl, (sliceOperand_keeps x s).bind fun t u => ?_⟩
    split
    · exact .raise_self
    · exact .setSlice r _ u
  | bsPadToByte r => exact ⟨Unit, .ok () _, rfl, (UnitStep.setSlice r _ s).trans (.of_eq rfl)⟩
  | bsPopByte r =>
    refine ⟨_, _, rfl, ?_⟩
    split
    · trivial
    · exact (UnitStep.setSlice r _ s).trans (.of_eq rfl)
  | brReadBit => exact ⟨_, _, rfl, (readBit_keeps s).bind fun _ _ => .of_eq rfl⟩
  | brCountUnflushedBits => exact ⟨Unit, .ok () _, rfl, .of_eq rfl⟩
  | brFlushBits => exact ⟨Unit, .ok () _, rfl, .of_eq rfl⟩
  | bwWriteBit b => exact ⟨_, _, rfl, writeBit_keeps b s⟩
  | bwWriteSlice x => exact ⟨_, _, rfl, (sliceOperand_keeps x s).bind fun t u => writeSlice_keeps t u⟩
  | bwCountPaddingBits => exact ⟨Unit, .ok () _, rfl, .of_eq rfl⟩
  | bwWritePaddingBits => exact ⟨_, _, rfl, writePaddingBits_keeps s⟩
  | tCount => exact ⟨Unit, .ok () _, rfl, .of_eq rfl⟩
  | tBuild =>
    refine ⟨_, _, rfl, ?_⟩
    split
    · exact .of_eq rfl
    · exact .raise_self
  | tWriteShape => exact ⟨_, _, rfl, (needTree_keeps s).bind fun t u => writeShape_keeps t u⟩
  | tWriteLeaves => exact ⟨_, _, rfl, (needTree_keeps s).bind fun t u => writeLeaves_keeps t u⟩
  | tBuildTable =>
    exact ⟨_, _, rfl, (needTree_keeps s).bind fun t u => (table_keeps t _ _).of_step (.of_eq rfl)⟩
  | tReadShape => exact ⟨_, _, rfl, (readShape_keeps s).bind fun _ _ => .of_eq rfl⟩
  | tAssignLeaves => exact ⟨_, _, rfl, assignLeaves_keeps s⟩
  | blkWrite id => exact ⟨_, _, rfl, emitAll_keeps _ s⟩
  | blkRead e => exact absurd rfl (hr e)
  | dWalkBit => exact ⟨_, _, rfl, walkBit_keeps s⟩

/-- A next state of an operation that keeps the frame: the point it reached, with its error taken, as it is, or suspended
there. -/
theorem Res.Keeps.next {α : Type} {r : Res α} {s₀ s t : State} (h : r.Keeps s₀) (ht : settle s r = .next t) :
    ∃ u, UnitStep s₀ u ∧ ((∃ e, t = u.raise e) ∨ t = u ∨ t = s.suspend u) := by
  rcases Res.Sat.next h ht with ⟨_, hu⟩ | ⟨e, u, hu, rfl⟩ | ⟨u, hu, rfl⟩
  · exact ⟨t, hu, .inr (.inl rfl)⟩
  · exact ⟨u, hu, .inl ⟨e, rfl⟩⟩
  · exact ⟨u, hu, .inr (.inr rfl)⟩

/-- The next state of any unit operation. Where PAY is overwritten (R31), the unit step is one from an empty PAY. -/
theorem exec_eq_next {i : Instr} {s t : State} (hi : i.isCommand = false) (h : exec i s = .next t) :
    ∃ u, UnitStep s.clearPay u ∧ ((∀ e, i ≠ .blkRead e) → UnitStep s u) ∧
      ((∃ e, t = u.raise e) ∨ t = u ∨ t = s.suspend u) := by
  by_cases hr : ∃ e, i = .blkRead e
  · obtain ⟨e, rfl⟩ := hr
    obtain ⟨u, hu, ht⟩ := (blockRead_keeps e s).next h
    exact ⟨u, hu, fun hne => absurd rfl (hne e), ht⟩
  · obtain ⟨α, r, hx, hk⟩ := exec_keeps i hi (not_exists.1 hr) s
    obtain ⟨u, hu, ht⟩ := hk.next (hx ▸ h)
    exact ⟨u, hu.forget_pay, fun _ => hu, ht⟩

/-- A unit operation that does not end in FAULT draws no free value. -/
theorem exec_freeCtr {i : Instr} {s t : State} (hi : i.isCommand = false) (h : exec i s = .next t) (hf : t.st ≠ .fault) :
    t.freeCtr = s.freeCtr := by
  obtain ⟨α, r, hx, hs⟩ := exec_steady i hi s
  rcases Res.Sat.next hs (hx ▸ h) with ⟨_, hw⟩ | ⟨e, u, _, rfl⟩ | ⟨u, hw, rfl⟩
  · obtain ⟨-, hc, -⟩ := hw; exact hc
  · exact absurd (State.raise_st e u) hf
  · obtain ⟨-, hc, -⟩ := hw rfl; exact hc

/-! ### The two commands -/

/-- R11: the next state of a write to CMD. -/
theorem settle_writeCmd (mode : BitVec 1) (first : Phase) (s : State) :
    settle s (writeCmd mode first s) = .next (if s.busy then s else s.startCall mode first) := by
  unfold writeCmd
  cases s.busy <;> rfl

theorem exec_encode (s : State) : exec .encode s = .next (if s.busy then s else s.startCall 0 .eRead) :=
  settle_writeCmd 0 .eRead s

theorem exec_decode (s : State) : exec .decode s = .next (if s.busy then s else s.startCall 1 .dBlk0) :=
  settle_writeCmd 1 .dBlk0 s

theorem isCommand_iff {i : Instr} : i.isCommand = true ↔ i = .encode ∨ i = .decode := by
  simp [Instr.isCommand]

theorem exec_command {i : Instr} (hi : i.isCommand = true) (s : State) :
    ∃ mode first, exec i s = .next (if s.busy then s else s.startCall mode first) := by
  rcases isCommand_iff.1 hi with rfl | rfl
  · exact ⟨_, _, exec_encode s⟩
  · exact ⟨_, _, exec_decode s⟩

/-! ### What a step does to the output log and to PHASE -/

/-- What an operation, unit operation or command, does to the output log, and in a call to PHASE. -/
theorem exec_out_phase {i : Instr} {s t : State} (h : exec i s = .next t) :
    s.out <+: t.out ∧ (s.st = .busy → t.phase = s.phase) := by
  cases hi : i.isCommand with
  | false =>
    obtain ⟨u, hu, -, ⟨e, rfl⟩ | rfl | rfl⟩ := exec_eq_next hi h
    · rw [State.raise_out, State.raise_phase]; exact ⟨hu.out, fun _ => hu.phase⟩
    all_goals exact ⟨hu.out, fun _ => hu.phase⟩
  | true =>
    obtain ⟨mode, first, hx⟩ := exec_command hi s
    cases hx.symm.trans h
    split
    · exact ⟨List.prefix_rfl, fun _ => rfl⟩
    · rename_i hb; exact ⟨List.prefix_rfl, fun h => absurd ((State.busy_iff s).2 h) hb⟩

/-- R13: PHASE stays or moves to the next phase. -/
def Phase.Follows (p q : Phase) : Prop := q = p ∨ p.succ = some q

theorem Phase.Follows.refl (p : Phase) : p.Follows p := .inl rfl

/-- Before its operation a phase touches PAY and the writer only (R174, R175). -/
theorem prepare_eq (s : State) : ∃ p b, prepare s = { s with pay := p, bw := b } := by
  unfold prepare; split
  · split
    · exact ⟨[], BitWriter.fresh .pay, rfl⟩
    · exact ⟨_, _, rfl⟩
  · split
    · exact ⟨[], _, rfl⟩
    · exact ⟨_, _, rfl⟩
  all_goals exact ⟨_, _, rfl⟩

@[simp] theorem prepare_out (s : State) : (prepare s).out = s.out := by
  obtain ⟨p, b, h⟩ := prepare_eq s; rw [h]

@[simp] theorem prepare_phase (s : State) : (prepare s).phase = s.phase := by
  obtain ⟨p, b, h⟩ := prepare_eq s; rw [h]

@[simp] theorem prepare_st (s : State) : (prepare s).st = s.st := by
  obtain ⟨p, b, h⟩ := prepare_eq s; rw [h]

/-- After its operation the sequence stays (where none is issued), enters the next phase, or moves on inside the phase
(R179: with PADCNT and the first payload byte). -/
theorem advance_cases (s : State) :
    advance s = s ∨ (∃ q, s.phase.succ = some q ∧ advance s = s.enter q) ∨
      ∃ n k c p, advance s = { s with pos := n, idx := k, padcnt := c, pay := p } := by
  cases hp : s.phase
  case eRead | eEnd | dBody | dTail | dEnd => exact .inl (by simp only [advance, hp])
  all_goals simp only [advance, hp]; refine .inr ?_
  case eCount | eBuild | eTable | dBlk0 | dShape | dBlk1 | dLeaves | dBlk2 => exact .inl ⟨_, rfl, rfl⟩
  case eShape | eLeaves =>
    split
    · exact .inr ⟨_, _, _, _, rfl⟩
    · exact .inl ⟨_, rfl, rfl⟩
  case eData =>
    split
    · split <;> exact .inr ⟨_, _, _, _, rfl⟩
    · split
      · exact .inr ⟨_, _, _, _, rfl⟩
      · exact .inl ⟨_, rfl, rfl⟩

/-- The output log grows and PHASE stays or moves to the next phase. -/
structure Proceeds (s t : State) : Prop where
  out   : s.out <+: t.out
  phase : s.phase.Follows t.phase

theorem Proceeds.of_eq {s t : State} (ho : t.out = s.out) (hp : t.phase = s.phase) : Proceeds s t :=
  ⟨ho ▸ List.prefix_rfl, .inl hp⟩

theorem UnitStep.proceeds {s t : State} (h : UnitStep s t) : Proceeds s t := ⟨h.out, .inl h.phase⟩

/-- From a point that a unit step has reached, the next phase is entered. -/
theorem UnitStep.proceeds_enter {s t : State} {q : Phase} (h : UnitStep s t) (hq : s.phase.succ = some q) :
    Proceeds s (t.enter q) := ⟨h.out, .inr hq⟩

theorem advance_proceeds (s : State) : Proceeds s (advance s) := by
  rcases advance_cases s with h | ⟨q, hq, h⟩ | ⟨n, k, c, p, h⟩
  · rw [h]; exact .of_eq rfl rfl
  · rw [h]; exact (UnitStep.refl s).proceeds_enter hq
  · rw [h]; exact .of_eq rfl rfl

theorem retired_proceeds (s : State) : Proceeds s s.retired := by
  unfold State.retired; split
  · exact .of_eq rfl rfl
  · split
    · exact advance_proceeds s
    · exact .of_eq rfl rfl

theorem readInput_proceeds {s : State} (hp : s.phase = .eRead) :
    (readInput s).Sat (fun _ => Proceeds s) fun _ => Proceeds s := by
  refine Res.Sat.bind (srcRead_keeps s) (fun a t ht => ?_) fun _ _ => UnitStep.proceeds
  cases a with
  | eos => exact ht.proceeds_enter (by rw [hp]; rfl)
  | ioFail => exact ht.proceeds
  | byte v =>
    simp only; split
    · trivial
    · split
      · exact ⟨ht.out, .inl ht.phase⟩
      · exact ht.proceeds

theorem endProbe_proceeds {s : State} (hp : s.phase = .dTail) :
    (endProbe s).Sat (fun _ => Proceeds s) fun _ => Proceeds s := by
  refine Res.Sat.bind (srcRead_keeps s) (fun a t ht => ?_) fun _ _ => UnitStep.proceeds
  cases a with
  | eos => exact ht.proceeds_enter (by rw [hp]; rfl)
  | ioFail => exact ht.proceeds
  | byte v => exact ht.proceeds

theorem beginData_proceeds (s : State) : (beginData s).Sat (fun _ => Proceeds s) fun _ => Proceeds s :=
  Res.Sat.bind (payAppend_keeps 0 s.clearPay) (fun _ _ ht => ⟨ht.out, .inl ht.phase⟩) fun _ _ ht => ⟨ht.out, .inl ht.phase⟩

/-- The places of the sequence that issue no operation of the table. -/
theorem ownAction_proceeds (s : State) : (ownAction s).Sat (fun _ => Proceeds s) fun _ => Proceeds s := by
  cases hp : s.phase <;> simp only [ownAction, hp]
  case eRead => exact readInput_proceeds hp
  case eData => exact beginData_proceeds s
  case eEnd | dEnd => exact .of_eq rfl rfl
  case dBody =>
    split
    · exact Res.Sat.bind (bodyHeader_keeps s) (fun _ _ ht => ⟨ht.out, .inl ht.phase⟩) fun _ _ => UnitStep.proceeds
    · exact (UnitStep.refl s).proceeds_enter (by rw [hp]; rfl)
  case dTail => exact endProbe_proceeds hp
  case eCount | eBuild | eShape | eLeaves | eTable | dBlk0 | dShape | dBlk1 | dLeaves | dBlk2 => exact .of_eq rfl rfl

/-- The next line of the sequence, run from its start. -/
theorem settle_ownAction {s t : State} (h : settle s (ownAction s) = .next t) : Proceeds s t := by
  rcases Res.Sat.next (ownAction_proceeds s) h with ⟨_, ht⟩ | ⟨e, u, hu, rfl⟩ | ⟨u, hu, rfl⟩
  · exact ht
  · exact ⟨by rw [State.raise_out]; exact hu.out, by rw [State.raise_phase]; exact hu.phase⟩
  · exact ⟨hu.out, hu.phase⟩

/-- What is reached from the start of the operation that waits, rejoined. -/
theorem Proceeds.rejoin {s t : State} (h : Proceeds s.takeUp t) : Proceeds s (s.rejoin t) where
  out   := State.out_prefix_rejoin (State.takeUp_out s ▸ h.out)
  phase := by rw [State.rejoin_phase, ← State.takeUp_phase s]; exact h.phase

/-- R13: a step of the block by itself. -/
theorem sequencerStep_proceeds {s t : State} (h : sequencerStep s = .next t) : Proceeds s t := by
  unfold sequencerStep at h
  split at h
  · rename_i hb
    obtain ⟨u, hu, rfl⟩ := mapNext_eq_next.1 h
    refine Proceeds.rejoin ?_
    split at hu
    · obtain ⟨v, hv, rfl⟩ := mapNext_eq_next.1 hu
      obtain ⟨ho, hp⟩ := exec_out_phase hv
      rw [prepare_out] at ho
      rw [prepare_st, prepare_phase, State.takeUp_st, ← State.busy_iff] at hp
      have hr := retired_proceeds v
      exact ⟨ho.trans hr.out, hp hb ▸ hr.phase⟩
    · exact settle_ownAction hu
  · cases h; exact .of_eq rfl rfl

/-- A requested operation, run from its start or taken up again. -/
theorem runJob_out_phase {i : Instr} {s t : State} (h : runJob i s = .next t) :
    s.out <+: t.out ∧ (s.st = .busy → t.phase = s.phase) := by
  obtain ⟨u, hu, rfl⟩ := mapNext_eq_next.1 h
  obtain ⟨ho, hp⟩ := exec_out_phase hu
  rw [State.takeUp_out] at ho
  rw [State.takeUp_st, State.takeUp_phase] at hp
  exact ⟨State.out_prefix_rejoin ho, by rwa [State.rejoin_phase, State.keepJob_phase]⟩

theorem goOn_out_phase {s t : State} (h : goOn s = .next t) :
    s.out <+: t.out ∧ (s.st = .busy → s.phase.Follows t.phase) := by
  unfold goOn at h
  split at h
  · obtain ⟨ho, hp⟩ := runJob_out_phase h
    exact ⟨ho, fun hb => .inl (hp hb)⟩
  · have hs := sequencerStep_proceeds h
    exact ⟨hs.out, fun _ => hs.phase⟩

/-- The ways to a next state: the block goes on, by itself or before a request that has to wait (R51); a requested command
or unit operation is run; or the host binds streams, resets, or finds STATUS not BUSY. -/
inductive StepTo (s t : State) : Prop where
  | goesOn (hs : List HostEvent) (hh : hs <:+ s.host) (h : goOn { s with host := hs } = .next t)
  | command (f r : List Byte) (i : Instr) (hs : List HostEvent) (hh : s.host = .request f :: hs)
      (hd : decode f = .ok (i, r)) (hi : i.isCommand = true) (h : exec i { s with host := hs } = .next t)
  | unit (f r : List Byte) (i : Instr) (hs : List HostEvent) (hh : s.host = .request f :: hs)
      (hd : decode f = .ok (i, r)) (hi : i.isCommand = false) (hn : s.held = none)
      (h : runJob i { s with host := hs } = .next t)
  | bind (a : List SrcAns) (b : List SnkAns) (hs : List HostEvent) (hh : s.host = .bind a b :: hs)
      (h : t = { s with host := hs, src := a, snk := b })
  | reset (hs : List HostEvent) (hh : s.host = .reset :: hs) (h : t = State.resetBlock { s with host := hs })
  | await (hs : List HostEvent) (hh : s.host = .await :: hs) (hb : s.st ≠ .busy) (h : t = { s with host := hs })

theorem request_stepTo {s t : State} {f : List Byte} {hs : List HostEvent} (hh : s.host = .request f :: hs)
    (h : request s f hs = .next t) : StepTo s t := by
  unfold request at h
  split at h
  · cases h
  · rename_i i r hd
    split at h
    · rename_i hi; exact .command f r i hs hh hd hi h
    · rename_i hi
      split at h
      · exact .goesOn s.host List.suffix_rfl h
      · rename_i hn
        exact .unit f r i hs hh hd (by simpa using hi) (by simpa using hn) h

theorem step_stepTo {s t : State} (h : step s = .next t) : StepTo s t := by
  unfold step stepOnce at h
  split at h
  · exact .goesOn s.host List.suffix_rfl h
  · rename_i f hs hh; exact request_stepTo hh h
  · rename_i a b hs hh; cases h; exact .bind a b hs hh rfl
  · rename_i hs hh; cases h; exact .reset hs hh rfl
  · rename_i hs hh; exact .goesOn hs (hh ▸ List.suffix_cons _ hs) h
  · rename_i hs hh
    split at h
    · exact .goesOn s.host List.suffix_rfl h
    · rename_i hb; cases h; exact .await hs hh (fun hst => hb ((State.busy_iff s).2 hst)) rfl

/-- What any step does to the output log, and inside a call to PHASE. -/
theorem step_out_phase {s t : State} (h : step s = .next t) :
    s.out <+: t.out ∧ (s.st = .busy → t.st = .busy → s.phase.Follows t.phase) := by
  cases step_stepTo h with
  | goesOn hs _ h =>
    obtain ⟨ho, hp⟩ := goOn_out_phase h
    exact ⟨ho, fun hb _ => hp hb⟩
  | command f r i hs _ _ _ h =>
    obtain ⟨ho, hp⟩ := exec_out_phase h
    exact ⟨ho, fun hb _ => .inl (hp hb)⟩
  | unit f r i hs _ _ _ _ h =>
    obtain ⟨ho, hp⟩ := runJob_out_phase h
    exact ⟨ho, fun hb _ => .inl (hp hb)⟩
  | bind a b hs _ h => subst h; exact ⟨List.prefix_rfl, fun _ _ => .refl _⟩
  | reset hs _ h => subst h; exact ⟨List.prefix_rfl, fun _ hb => nomatch hb⟩
  | await hs _ _ h => subst h; exact ⟨List.prefix_rfl, fun _ _ => .refl _⟩

end Sys2Proof.Machine

/-! ### The settled statements -/

open Sys2Proof Sys2Proof.Machine

/-- Settles O8: in every way a step can go, what it does to the output log is to add to it. -/
theorem outputOnlyGrows : Obligations.OutputOnlyGrows := by
  intro s t h
  obtain ⟨ho, -⟩ := step_out_phase h
  exact ho

/-- Settles O44: every operation reaches its end by a unit step (`BLK.read` by one from an empty PAY); an error taken there
changes STATE to FAULT, a wait only marks what waits. -/
theorem operationFrame : Obligations.OperationFrame := by
  intro i s t hne hnd h
  have hi : i.isCommand = false := by
    rw [← Bool.not_eq_true, isCommand_iff]; exact not_or.2 ⟨hne, hnd⟩
  have hc := exec_freeCtr hi h
  obtain ⟨u, hu, hp, ⟨e, rfl⟩ | rfl | rfl⟩ := exec_eq_next hi h
  · have hst := State.raise_st e u
    simp only [State.raise_params, State.raise_host, State.raise_cmdMode, State.raise_phase, State.raise_pos,
      State.raise_idx, State.raise_src, State.raise_snk, State.raise_out]
    exact ⟨hu.params, hu.host, hu.cmdMode, hu.phase, hu.pos, hu.idx, hu.src, hu.snk, hu.out, .inr hst,
      fun hf => absurd hst hf⟩
  all_goals
    exact ⟨hu.params, hu.host, hu.cmdMode, hu.phase, hu.pos, hu.idx, hu.src, hu.snk, hu.out, .inl hu.st,
      fun hf => ⟨hu.inbuf, hu.err, hc hf, fun hr => (hp hr).pay⟩⟩

/-- Settles O55: from BUSY to BUSY no step resets the block or starts a call, and every other one stays in its phase or
enters the next. -/
theorem phasesRunInOrder : Obligations.PhasesRunInOrder := by
  intro s t hs h ht
  obtain ⟨-, hp⟩ := step_out_phase h
  exact hp hs ht

/-- Settles O1, by the two values of a write to CMD. -/
theorem cmdWriteStartsCallUnlessBusy : Obligations.CmdWriteStartsCallUnlessBusy := by
  intro s
  refine ⟨fun hb => ?_, fun hb => ?_⟩
  · have hf := (State.busy_eq_false s).2 hb
    exact ⟨by simp [exec_encode, hf], by simp [exec_decode, hf]⟩
  · have ht := (State.busy_iff s).2 hb
    exact ⟨by simp [exec_encode, ht], by simp [exec_decode, ht]⟩

/-- Settles O2: the start of a call is made of the values after reset and of the host's side alone. -/
theorem callStartsFresh : Obligations.CallStartsFresh := by
  intro mode ph s t
  refine ⟨?_, ⟨rfl, rfl, rfl, rfl, rfl⟩, ?_⟩
  · simp [t, State.freqAt, State.cwAt, BitWriter.fresh, BitReader.fresh]
  · intro s' hparams hsrc hsnk hout hhost hctr
    simp only [t, State.startCall, State.resetBlock, hparams, hsrc, hsnk, hout, hhost, hctr]

/-- Settles O51: after reset every slice is empty or absent, nothing waits, no call is in progress and the host has
requested nothing. -/
theorem invariantsHoldAtReset : Obligations.InvariantsHoldAtReset := by
  have hcw : ∀ c, State.reset.cwAt c = none := fun c => by simp [State.cwAt, State.reset]
  have hinv : State.reset.Inv :=
    ⟨by decide, by decide, fun c t h => by simp [hcw c] at h, by decide, fun _ => rfl, fun h => (nomatch h),
      fun _ h => (nomatch h)⟩
  exact ⟨hinv, ⟨hinv, fun _ h => (nomatch h), fun h => (nomatch h)⟩, rfl⟩
end

section
/-! PROOFS. Waiting for the host (`20_memory.md` R41 to R43): what a run that waits leaves to take up again, how a run
depends on the output log and on answers that come later, and the statements about the streams. -/

namespace Sys2Proof.Machine

/-! ### What two runs of an operation have in common

An operation that waits is taken up again in a state that differs from its first one in two ways: bytes stand in the output
log already, and more answers stand in the queues. The first is passed through (`afterLog`); the second makes a run go on
where it would have waited (`moreAnswers`). -/

/-- The state with the bytes `p` in front of its output log. -/
def State.afterLog (p : List Byte) (s : State) : State := { s with out := p ++ s.out }

/-- The state with further answers behind those that there are. -/
def State.moreAnswers (a : List SrcAns) (b : List SnkAns) (s : State) : State :=
  { s with src := s.src ++ a, snk := s.snk ++ b }

@[simp] theorem State.afterLog_out (p : List Byte) (s : State) : (s.afterLog p).out = p ++ s.out := rfl

theorem State.afterLog_raise (p : List Byte) (e : Err) (s : State) : (s.afterLog p).raise e = (s.raise e).afterLog p := by
  cases hb : s.busy with
  | true => rw [State.raise_of_busy e s hb]; exact State.raise_of_busy e (s.afterLog p) hb
  | false => rw [State.raise_of_not_busy e s hb]; exact State.raise_of_not_busy e (s.afterLog p) hb

theorem State.takeUp_moreAnswers (a : List SrcAns) (b : List SnkAns) (s : State) :
    (s.moreAnswers a b).takeUp = s.takeUp.moreAnswers a b := by
  cases hs : s.held with
  | none => rw [State.takeUp_of_none hs]; exact State.takeUp_of_none hs
  | some h =>
    rw [State.takeUp_of_some hs, State.takeUp_of_some (s := s.moreAnswers a b) hs]
    simp only [State.moreAnswers, List.append_assoc]

section
variable {α β : Type}

/-- A function of the state an operation reaches. -/
def Res.map (g : State → State) : Res α → Res α
  | .ok x t    => .ok x (g t)
  | .raise e t => .raise e (g t)
  | .wait t    => .wait (g t)
  | .fault f   => .fault f
  | .refuse r  => .refuse r

theorem settle_afterLog (p : List Byte) (s : State) (r : Res α) :
    settle (s.afterLog p) (r.map (State.afterLog p)) = mapNext (State.afterLog p) (settle s r) := by
  cases r with
  | raise e t => exact congrArg Host.Outcome.next (State.afterLog_raise p e t)
  | _ => rfl

/-- The output log at an operation's end begins with `o`. -/
def Res.Outgrows (r : Res α) (o : List Byte) : Prop := r.Sat (fun _ t => o <+: t.out) fun _ t => o <+: t.out

theorem Res.Outgrows.bind {r : Res α} {k : α → Act β} {o : List Byte} (h : r.Outgrows o)
    (hk : ∀ x t, (k x t).Outgrows t.out) : (r.bind k).Outgrows o :=
  Res.Sat.bind h (fun x t ht => (hk x t).mono (fun _ _ => ht.trans) fun _ _ => ht.trans) fun _ _ => id

/-- What is passed through the output log is added to. -/
theorem outgrows_of_afterLog {f : Act α} (h : ∀ p s, f (s.afterLog p) = (f s).map (State.afterLog p)) (s : State) :
    (f s).Outgrows s.out := by
  have hs : s = State.afterLog s.out { s with out := [] } := by simp [State.afterLog]
  rw [hs, h]
  cases f { s with out := [] } <;> simp [Res.Outgrows, Res.map]

/-- The end `r'` of the run with further answers, against the end `r` without them: a value is found in the same way, and
where `r` waits all that it had written is written. -/
def Res.GoesOn (a : List SrcAns) (b : List SnkAns) (r r' : Res α) : Prop :=
  match r with
  | .ok x t => r' = .ok x (t.moreAnswers a b)
  | .wait t => r'.Outgrows t.out
  | .raise _ _ | .fault _ | .refuse _ => True

/-- A change of the streams and of the elements that `held` records. -/
def HeldStep (s t : State) : Prop :=
  t = { s with
    cur := t.cur, remaining := t.remaining, bw := t.bw, br := t.br, pay := t.pay, blkId := t.blkId, blkLen := t.blkLen,
    padcnt := t.padcnt, src := t.src, snk := t.snk, out := t.out }

theorem HeldStep.refl (s : State) : HeldStep s s := rfl

theorem HeldStep.trans {s t u : State} (h : HeldStep s t) (h' : HeldStep t u) : HeldStep s u := by
  unfold HeldStep at *; rw [h', h]

theorem HeldStep.held {s t : State} (h : HeldStep s t) : t.held = s.held := by rw [h]

/-- `t` is a point at which an operation that began in `s` waits. -/
def WaitsAt (s t : State) : Prop := HeldStep s t ∧ (t.src = [] ∨ t.snk = [])

/-- A part of an operation, up to a point at which it may wait: `held` records all that it changes. -/
structure Resumable (f : Act α) : Prop where
  ends     : ∀ s, (f s).Sat (fun _ t => HeldStep s t) fun e t => e = none → WaitsAt s t
  afterLog : ∀ p s, f (s.afterLog p) = (f s).map (State.afterLog p)
  goesOn   : ∀ a b s, (f s).GoesOn a b (f (s.moreAnswers a b))

/-- A whole operation that can wait. After its last wait it may also change elements that `held` does not record. -/
structure Suspends (f : Act α) : Prop where
  ends     : ∀ s, (f s).Sat (fun _ t => t.held = s.held) fun e t => e = none → WaitsAt s t
  afterLog : ∀ p s, f (s.afterLog p) = (f s).map (State.afterLog p)
  goesOn   : ∀ a b s t, f s = .wait t → (f (s.moreAnswers a b)).Outgrows t.out

/-! ### Sequences, changes and cases -/

theorem Resumable.bind {f : Act α} {k : α → Act β} (h : Resumable f) (hk : ∀ x, Resumable (k x)) :
    Resumable fun s => (f s).bind k where
  ends s := Res.Sat.bind (h.ends s)
    (fun x t ht => ((hk x).ends t).mono (fun _ _ => ht.trans) fun _ _ hu he => ⟨ht.trans (hu he).1, (hu he).2⟩) fun _ _ => id
  afterLog p s := by
    simp only [h.afterLog p s]
    cases f s with
    | ok x t => exact (hk x).afterLog p t
    | _ => rfl
  goesOn a b s := by
    have hs := h.goesOn a b s
    cases hf : f s with
    | ok x t =>
      rw [hf] at hs
      simp only [show f (s.moreAnswers a b) = _ from hs]
      exact (hk x).goesOn a b t
    | wait t =>
      rw [hf] at hs
      exact Res.Outgrows.bind hs fun x => outgrows_of_afterLog (hk x).afterLog
    | _ => trivial

/-- A change of recorded elements that has nothing to do with the streams. -/
theorem Resumable.update (x : α) (g : State → State) (hg : ∀ s, HeldStep s (g s) := by intros; rfl)
    (hp : ∀ p s, g (s.afterLog p) = (g s).afterLog p := by intros; rfl)
    (hm : ∀ a b s, g (s.moreAnswers a b) = (g s).moreAnswers a b := by intros; rfl) :
    Resumable fun s => .ok x (g s) where
  ends := hg
  afterLog p s := congrArg (Res.ok x) (hp p s)
  goesOn a b s := congrArg (Res.ok x) (hm a b s)

theorem Resumable.raise (e : Err) (g : State → State)
    (hp : ∀ p s, g (s.afterLog p) = (g s).afterLog p := by intros; rfl) :
    Resumable fun s => (.raise e (g s) : Res α) where
  ends _ := fun h => nomatch h
  afterLog p s := congrArg (Res.raise e) (hp p s)
  goesOn _ _ _ := trivial

theorem Resumable.fault (x : Fault) : Resumable fun _ => (.fault x : Res α) :=
  ⟨fun _ => trivial, fun _ _ => rfl, fun _ _ _ => trivial⟩

theorem Resumable.refuse (x : Refusal) : Resumable fun _ => (.refuse x : Res α) :=
  ⟨fun _ => trivial, fun _ _ => rfl, fun _ _ _ => trivial⟩

/-- An operation that begins with a change. -/
theorem Resumable.comp {f : Act α} (h : Resumable f) (g : State → State) (hg : ∀ s, HeldStep s (g s) := by intros; rfl)
    (hp : ∀ p s, g (s.afterLog p) = (g s).afterLog p := by intros; rfl)
    (hm : ∀ a b s, g (s.moreAnswers a b) = (g s).moreAnswers a b := by intros; rfl) :
    Resumable fun s => f (g s) :=
  (Resumable.update () g hg hp hm).bind fun _ => h

/-- An operation that does one thing or another by what the state holds apart from the streams. -/
theorem Resumable.cases {γ : Type} {f : Act α} (h : State → γ)
    (hf : ∀ c, ∃ g : Act α, Resumable g ∧ ∀ s, h s = c → f s = g s)
    (hp : ∀ p s, h (s.afterLog p) = h s := by intros; rfl)
    (hm : ∀ a b s, h (s.moreAnswers a b) = h s := by intros; rfl) : Resumable f where
  ends s := by
    obtain ⟨g, hg, e⟩ := hf (h s)
    rw [e s rfl]; exact hg.ends s
  afterLog p s := by
    obtain ⟨g, hg, e⟩ := hf (h s)
    rw [e s rfl, e _ (hp p s)]; exact hg.afterLog p s
  goesOn a b s := by
    obtain ⟨g, hg, e⟩ := hf (h s)
    rw [e s rfl, e _ (hm a b s)]; exact hg.goesOn a b s

theorem Resumable.suspends {f : Act α} (h : Resumable f) : Suspends f where
  ends s := (h.ends s).mono (fun _ _ ht => ht.held) fun _ _ => id
  afterLog := h.afterLog
  goesOn a b s t hf := by have hs := h.goesOn a b s; rwa [hf] at hs

/-- The last change of an operation, to any element but `held` and the output log. -/
theorem Resumable.finish {f : Act α} (h : Resumable f) (g : α → State → State)
    (hg : ∀ x t, (g x t).held = t.held := by intros; rfl)
    (hp : ∀ x p t, g x (t.afterLog p) = (g x t).afterLog p := by intros; rfl) :
    Suspends fun s => (f s).bind fun x t => .ok () (g x t) where
  ends s := Res.Sat.bind (h.ends s) (fun x t ht => (hg x t).trans ht.held) fun _ _ => id
  afterLog p s := by
    simp only [h.afterLog p s]
    cases f s with
    | ok x t => exact congrArg (Res.ok ()) (hp x p t)
    | _ => rfl
  goesOn a b s t hf := by
    have hs := h.goesOn a b s
    cases he : f s with
    | wait u =>
      rw [he] at hs hf
      cases hf
      exact Res.Outgrows.bind hs fun x => outgrows_of_afterLog fun p t => congrArg (Res.ok ()) (hp x p t)
    | _ => rw [he] at hf; cases hf

end

/-! ### The streams -/

theorem srcRead_srcEos {s : State} (he : s.srcEos = true) : srcRead s = .ok .eos s := by simp [srcRead, he]

theorem srcRead_byte {s : State} {v : Byte} {r : List SrcAns} (he : s.srcEos = false) (hs : s.src = .byte v :: r) :
    srcRead s = .ok (.byte v) { s with src := r } := by simp [srcRead, he, hs]

theorem srcRead_eos {s : State} {r : List SrcAns} (he : s.srcEos = false) (hs : s.src = .eos :: r) :
    srcRead s = .ok .eos { s with srcEos := true } := by simp [srcRead, he, hs]

theorem srcRead_ioFail {s : State} {r : List SrcAns} (he : s.srcEos = false) (hs : s.src = .ioFail :: r) :
    srcRead s = .ok .ioFail { s with src := r } := by simp [srcRead, he, hs]

theorem emit_nil {s : State} (v : Byte) (hs : s.snk = []) : emit v s = .wait s := by simp [emit, hs]

theorem emit_ok {s : State} {r : List SnkAns} (v : Byte) (hs : s.snk = .ok :: r) :
    emit v s = .ok () { s with snk := r, out := s.out ++ [v] } := by simp [emit, hs]

/-- R42: a failed write, whether its byte was appended or not (log 11). -/
theorem emit_ioFail {s : State} {r : List SnkAns} (v : Byte) (hs : s.snk = .ioFail :: r) :
    emit v s =
      .raise .io
        { s with
          snk := r
          out := if Config.failedWriteLands s.freeCtr then s.out ++ [v] else s.out
          freeCtr := s.freeCtr + 1 } := by
  simp [emit, hs]

theorem nextByte_afterLog (p : List Byte) (s : State) : nextByte (s.afterLog p) = (nextByte s).map (State.afterLog p) := by
  cases he : s.srcEos with
  | true => simp [nextByte, srcRead_srcEos, he, State.afterLog, Res.map]
  | false => rcases hs : s.src with _ | ⟨_ | _ | _, r⟩ <;> simp [nextByte, srcRead, he, hs, State.afterLog, Res.map]

theorem nextByte_resumable : Resumable nextByte where
  ends s := by
    unfold nextByte srcRead
    split
    · exact fun h => nomatch h
    · split
      · rename_i hs; exact fun _ => ⟨.refl s, .inl hs⟩
      · exact rfl
      · exact fun h => nomatch h
      · exact fun h => nomatch h
  afterLog := nextByte_afterLog
  goesOn a b s := by
    have hg := outgrows_of_afterLog nextByte_afterLog (s.moreAnswers a b)
    unfold nextByte srcRead at hg ⊢
    cases he : s.srcEos with
    | true => simp [Res.GoesOn]
    | false =>
      rcases hs : s.src with _ | ⟨_ | _ | _, r⟩
      · exact hg
      · simp [he, hs, State.moreAnswers, Res.GoesOn]
      · trivial
      · trivial

theorem emit_afterLog (v : Byte) (p : List Byte) (s : State) :
    emit v (s.afterLog p) = (emit v s).map (State.afterLog p) := by
  rcases hs : s.snk with _ | ⟨_ | _, r⟩
  · rw [emit_nil v hs]; exact emit_nil v hs
  · rw [emit_ok v hs, emit_ok (s := s.afterLog p) v hs]; simp [Res.map, State.afterLog]
  · rw [emit_ioFail v hs, emit_ioFail (s := s.afterLog p) v hs]; simp [Res.map, State.afterLog, apply_ite (p ++ ·)]

theorem emit_resumable (v : Byte) : Resumable (emit v) where
  ends s := by
    unfold emit; split
    · rename_i hs; exact fun _ => ⟨.refl s, .inr hs⟩
    · exact rfl
    · exact fun h => nomatch h
  afterLog := emit_afterLog v
  goesOn a b s := by
    have hg := outgrows_of_afterLog (emit_afterLog v) (s.moreAnswers a b)
    rcases hs : s.snk with _ | ⟨_ | _, r⟩
    · rw [emit_nil v hs]; exact hg
    · rw [emit_ok v hs, emit_ok v (r := r ++ b) (by simp [State.moreAnswers, hs])]; rfl
    · rw [emit_ioFail v hs]; trivial

theorem emitAll_resumable (vs : List Byte) : Resumable (emitAll vs) := by
  induction vs with
  | nil => exact .update () id
  | cons v vs ih => exact (emit_resumable v).bind fun _ => ih

/-! ### The payload buffer and the bit writer -/

theorem payAppend_resumable (v : Byte) : Resumable (payAppend v) := by
  refine .cases (fun s => roomFor s.params.payloadCap s.pay.length) fun c => ?_
  cases c with
  | true => exact ⟨_, .update () fun s => { s with pay := s.pay ++ [v] }, fun s h => if_pos h⟩
  | false => exact ⟨_, .raise .io id, fun s h => if_neg (Bool.eq_false_iff.1 h)⟩

theorem destWrite_resumable (v : Byte) : Resumable (destWrite v) := by
  refine .cases (fun s => s.bw.dest) fun d => ?_
  cases d with
  | snk => exact ⟨_, emit_resumable v, fun s h => by simp only [destWrite, h]⟩
  | pay => exact ⟨_, payAppend_resumable v, fun s h => by simp only [destWrite, h]⟩

theorem flushBytes_resumable (n : Nat) : Resumable (flushBytes n) := by
  induction n with
  | zero => exact .update () id
  | succ n ih =>
    refine .cases (fun s => s.bw.acc.popByte) fun x => ?_
    cases x with
    | none => exact ⟨_, .update () id, fun s h => by simp only [flushBytes, h, id]⟩
    | some x =>
      exact ⟨_, ((destWrite_resumable x.1).bind fun _ => ih).comp (State.setAcc x.2),
        fun s h => by simp only [flushBytes, h]⟩

theorem flushWriter_resumable : Resumable flushWriter :=
  .cases (fun s => s.bw.acc.length / 8) fun n => ⟨_, flushBytes_resumable n, fun s h => by rw [flushWriter, h]⟩

/-- The writer's accumulator gets new bits, or has no room for them; then the complete bytes leave it. -/
theorem Resumable.write {f : Act Unit} (g : BitSlice → Option BitSlice)
    (hn : ∀ s, g s.bw.acc = none → f s = .raise .capacity s)
    (hs : ∀ s t, g s.bw.acc = some t → f s = flushWriter (s.setAcc t)) : Resumable f := by
  refine .cases (fun s => g s.bw.acc) fun x => ?_
  cases x with
  | none => exact ⟨_, .raise .capacity id, hn⟩
  | some t => exact ⟨_, flushWriter_resumable.comp (State.setAcc t), fun s h => hs s t h⟩

theorem writeBit_resumable (b : Bool) : Resumable (writeBit b) :=
  .write (·.appendBit b) (fun s h => by simp only [writeBit, h]) fun s t h => by simp only [writeBit, h]

theorem writeSlice_resumable (u : BitSlice) : Resumable (writeSlice u) :=
  .write (·.appendSlice u) (fun s h => by simp only [writeSlice, h]) fun s t h => by simp only [writeSlice, h]

theorem writePaddingBits_resumable : Resumable writePaddingBits :=
  flushWriter_resumable.comp fun s => s.setAcc s.bw.acc.padToByte

theorem sliceOperand_resumable (x : SliceSrc) : Resumable (sliceOperand x) := by
  cases x with
  | reg r =>
    exact .cases (fun s => s.slice r) (fun t => ⟨_, .update t id, fun s h => by simp only [sliceOperand, h, id]⟩)
      (by cases r <;> intros <;> rfl) (by cases r <;> intros <;> rfl)
  | imm t => exact .update t id
  | cw c =>
    refine .cases (fun s => s.cwAt c) fun x => ?_
    cases x with
    | none => exact ⟨_, .refuse .noCodeword, fun s h => by simp only [sliceOperand, h]⟩
    | some t => exact ⟨_, .update t id, fun s h => by simp only [sliceOperand, h, id]⟩

/-! ### The bit reader and the shape of a tree -/

theorem readBit_of_src {s : State} (h0 : s.br.rem = 0) (ho : s.br.origin = .src) :
    readBit s = (nextByte s).bind fun v t => .ok (v.getLsbD 7) { t with br := { t.br with buf := v, rem := 7 } } := by
  unfold readBit originRead nextByte
  rw [if_pos h0, ho, Res.bind_assoc]
  congr; funext a t
  cases a <;> rfl

theorem readBit_of_pay {s : State} {p : Nat} (h0 : s.br.rem = 0) (ho : s.br.origin = .pay p) :
    readBit s =
      match s.pay[p]? with
      | some v => .ok (v.getLsbD 7) { s with br := ⟨v, 7, .pay (p + 1)⟩ }
      | none   => .raise .truncated s := by
  unfold readBit originRead
  rw [if_pos h0, ho]
  cases h : s.pay[p]? <;> simp [h]

theorem readBit_resumable : Resumable readBit := by
  refine .cases (fun s => (s.br, s.pay)) fun ⟨br, pay⟩ => ?_
  by_cases h0 : br.rem = 0
  · cases ho : br.origin with
    | src =>
      refine ⟨_, nextByte_resumable.bind fun v =>
        .update (v.getLsbD 7) fun t => { t with br := { t.br with buf := v, rem := 7 } }, fun s h => ?_⟩
      cases h; exact readBit_of_src h0 ho
    | pay p =>
      cases hp : pay[p]? with
      | none =>
        refine ⟨_, .raise .truncated id, fun s h => ?_⟩
        cases h; simp only [readBit_of_pay h0 ho, hp, id]
      | some v =>
        refine ⟨_, .update (v.getLsbD 7) fun s => { s with br := ⟨v, 7, .pay (p + 1)⟩ }, fun s h => ?_⟩
        cases h; simp only [readBit_of_pay h0 ho, hp]
  · refine ⟨_, .update (br.buf.getLsbD (br.rem - 1)) fun s => { s with br := { br with rem := br.rem - 1 } }, fun s h => ?_⟩
    cases h; exact if_neg h0

theorem countNode_resumable (n : Nat) : Resumable (countNode n) := by
  refine .cases (fun s => roomFor s.params.nodeCap n) fun c => ?_
  cases c with
  | true => exact ⟨_, .update (n + 1) id, fun s h => if_pos h⟩
  | false => exact ⟨_, .raise .io id, fun s h => if_neg (Bool.eq_false_iff.1 h)⟩

theorem readSubtree_resumable (fuel n : Nat) : Resumable (readSubtree fuel n) := by
  induction fuel generalizing n with
  | zero => exact .raise .truncated id
  | succ fuel ih =>
    refine readBit_resumable.bind fun b => (countNode_resumable n).bind fun m => ?_
    cases b with
    | false => exact .update (Tree.leaf 0 none, m) id
    | true => exact (ih m).bind fun x => (ih x.2).bind fun y => .update (Tree.node 0 x.1 y.1, y.2) id

/-- A subtree that is read on some fuel is read on more. -/
theorem readSubtree_mono {fuel fuel' n : Nat} {s t : State} {x : Tree × Nat} (hf : fuel ≤ fuel')
    (h : readSubtree fuel n s = .ok x t) : readSubtree fuel' n s = .ok x t := by
  induction fuel generalizing fuel' n s t x with
  | zero => cases h
  | succ fuel ih =>
    obtain ⟨fuel', rfl⟩ : ∃ k, fuel' = k + 1 := ⟨fuel' - 1, by omega⟩
    simp only [readSubtree, Res.bind_eq_ok] at h ⊢
    obtain ⟨b, u, hb, m, v, hm, h⟩ := h
    refine ⟨b, u, hb, m, v, hm, ?_⟩
    cases b with
    | false => exact h
    | true =>
      simp only [if_true, Res.bind_eq_ok] at h ⊢
      obtain ⟨l, w, hl, r, z, hr, h⟩ := h
      exact ⟨l, w, ih (by omega) hl, r, z, ih (by omega) hr, h⟩

theorem State.bitsAhead_le_moreAnswers (a : List SrcAns) (b : List SnkAns) (s : State) :
    s.bitsAhead ≤ (s.moreAnswers a b).bitsAhead := by
  unfold State.bitsAhead
  cases ho : s.br.origin <;> simp [State.moreAnswers, ho]

/-- R150: a subtree of an internal node, on as much fuel as there are bits ahead. -/
theorem readSubtree_bitsAhead_resumable (n : Nat) : Resumable fun s => readSubtree (s.bitsAhead + 1) n s where
  ends s := (readSubtree_resumable _ n).ends s
  afterLog p s := (readSubtree_resumable _ n).afterLog p s
  goesOn a b s := by
    have hs := (readSubtree_resumable (s.bitsAhead + 1) n).goesOn a b s
    have hle := State.bitsAhead_le_moreAnswers a b s
    cases hr : readSubtree (s.bitsAhead + 1) n s with
    | ok x t =>
      rw [hr] at hs
      exact readSubtree_mono (by omega) hs
    | wait t =>
      have hout := readSubtree_sat (s.bitsAhead + 1) n s
      rw [hr] at hout
      have e : t.out = (s.moreAnswers a b).out := by rw [hout.1.1.1]; rfl
      simp only [Res.GoesOn, e]
      exact outgrows_of_afterLog (readSubtree_resumable _ n).afterLog _
    | _ => trivial

theorem shapeInternal_resumable : Resumable shapeInternal :=
  (countNode_resumable 0).bind fun n => (readSubtree_bitsAhead_resumable n).bind fun x =>
    (readSubtree_bitsAhead_resumable x.2).bind fun y => .update (Tree.node 0 x.1 y.1) id

theorem shapeLeaf_resumable : Resumable shapeLeaf := (countNode_resumable 0).bind fun _ => .update (Tree.leaf 0 none) id

theorem readShape_resumable : Resumable readShape := by
  refine readBit_resumable.bind fun b => ?_
  cases b with
  | false => exact shapeLeaf_resumable
  | true => exact shapeInternal_resumable

/-! ### The tree, the blocks and the walk -/

theorem needTree_resumable : Resumable needTree := by
  refine .cases (fun s => s.tree) fun x => ?_
  cases x with
  | none => exact ⟨_, .raise .noTree id, fun s h => by simp only [needTree, h, id]⟩
  | some t => exact ⟨_, .update t id, fun s h => by simp only [needTree, h, id]⟩

theorem requireTree_resumable : Resumable requireTree := by
  refine .cases (fun s => s.treeValid) fun c => ?_
  cases c with
  | true => exact ⟨_, needTree_resumable, fun s h => if_pos h⟩
  | false => exact ⟨_, .raise .noTree id, fun s h => if_neg (Bool.eq_false_iff.1 h)⟩

theorem needSymbol_resumable (x : Option Byte) : Resumable (needSymbol x) := by
  cases x with
  | none => exact .fault .unsetSymbol
  | some v => exact .update v id

theorem writeShape_resumable (t : Tree) : Resumable (writeShape t) := by
  induction t with
  | leaf w x => exact writeBit_resumable false
  | node w l r ihl ihr => exact (writeBit_resumable true).bind fun _ => ihl.bind fun _ => ihr

theorem readLenByte_resumable (k : Nat) : Resumable (readLenByte k) :=
  nextByte_resumable.bind fun v =>
    .update () fun s => { s with blkLen := s.blkLen ||| BitVec.ofNat 64 (v.toNat * 2 ^ (8 * k)) }

theorem readLen_resumable (n k : Nat) : Resumable (readLen n k) := by
  induction n generalizing k with
  | zero => exact .update () id
  | succ n ih => exact (readLenByte_resumable k).bind fun _ => ih (k + 1)

theorem readPayload_resumable (n : Nat) : Resumable (readPayload n) := by
  induction n with
  | zero => exact .update () id
  | succ n ih => exact nextByte_resumable.bind fun v => (payAppend_resumable v).bind fun _ => ih

/-- R163: the payload, of the length read. -/
theorem readPayload_blkLen_resumable : Resumable fun s => readPayload s.blkLen.toNat s.clearPay :=
  .cases (fun s => s.blkLen) fun n =>
    ⟨_, (readPayload_resumable n.toNat).comp State.clearPay, fun s h => by rw [h]⟩

theorem blockRead_resumable (id : BlockId) : Resumable (blockRead id) := by
  refine nextByte_resumable.bind fun v => ?_
  by_cases hv : v = id.code
  · simp only [if_pos hv]
    exact ((readLen_resumable 8 0).bind fun _ => readPayload_blkLen_resumable).comp
      fun s => { s with blkId := v, blkLen := 0 }
  · simp only [if_neg hv]
    exact .raise .blockId fun s => { s with blkId := v }

theorem blockWrite_resumable (id : BlockId) : Resumable (blockWrite id) :=
  .cases (fun s => s.pay) fun p =>
    ⟨_, emitAll_resumable (id.code :: le64 (lengthWord p.length) ++ p), fun s h => by rw [blockWrite, h]⟩

theorem walkTo_resumable (b : Bool) : Resumable (walkTo b) := by
  refine requireTree_resumable.bind fun t => .cases (fun s => t.nodeAt s.cur) fun x => ?_
  rcases x with _ | _ | ⟨w, l, r⟩
  · exact ⟨_, .fault .danglingCursor, fun s h => by simp only [h]⟩
  · exact ⟨_, .raise .treeMismatch id, fun s h => by simp only [h, id]⟩
  · cases hc : if b then r else l with
    | leaf w x =>
      exact ⟨_, (needSymbol_resumable x).bind fun v => (emit_resumable v).bind fun _ =>
        .update () fun s => { s with cur := [] }, fun s h => by simp only [h, hc]⟩
    | node w l' r' => exact ⟨_, .update () fun s => { s with cur := s.cur ++ [b] }, fun s h => by simp only [h, hc]⟩

theorem walkBit_resumable : Resumable walkBit := by
  refine requireTree_resumable.bind fun _ => .cases (fun s => s.remaining) fun n => ?_
  by_cases hn : n = 0
  · exact ⟨_, .refuse .noBitsRemaining, fun s h => if_pos (h.trans hn)⟩
  · exact ⟨_, readBit_resumable.bind fun b => (walkTo_resumable b).bind fun _ =>
      .update () fun s => { s with remaining := s.remaining - 1 }, fun s h => if_neg (h ▸ hn)⟩

theorem padHeader_resumable (v : Byte) : Resumable (padHeader v) := by
  refine .cases (fun s => s.pay.length) fun n => ?_
  by_cases hn : n = 0
  · exact ⟨_, .raise .truncated id, fun s h => if_pos (h.trans hn)⟩
  · by_cases hv : 7 < v.toNat ∨ 8 * (n - 1) < v.toNat
    · exact ⟨_, .raise .badPadding fun s => { s with padcnt := v },
        fun s h => by simp only [padHeader, h, if_neg hn, if_pos hv]⟩
    · exact ⟨_, .update () fun s => { s with padcnt := v, remaining := 8 * (n - 1) - v.toNat },
        fun s h => by simp only [padHeader, h, if_neg hn, if_neg hv]⟩

theorem bodyHeader_resumable : Resumable bodyHeader :=
  requireTree_resumable.bind fun _ =>
    (Resumable.cases (fun s => s.pay.headD 0) fun v => ⟨_, padHeader_resumable v, fun s h => by rw [h]⟩).bind fun _ =>
      .update () fun s => { s.newReader (.pay 1) with cur := [] }

theorem walkSteps_resumable (n : Nat) : Resumable (walkSteps n) := by
  induction n with
  | zero => exact .update () id
  | succ n ih => exact walkBit_resumable.bind fun _ => ih

/-- R203: as many steps as there are bits left. -/
theorem walkSteps_remaining_resumable : Resumable fun s => walkSteps s.remaining s :=
  .cases (fun s => s.remaining) fun n => ⟨_, walkSteps_resumable n, fun s h => by rw [h]⟩

/-! ### Every operation -/

/-- An operation that neither waits nor touches `held` leaves nothing waiting. -/
theorem Res.Sat.not_held {α : Type} {r : Res α} {s u : State} {h : Held}
    (hr : r.Sat (fun _ t => t.held = s.held) fun e _ => e ≠ none) (hs : s.held = none) (hu : settle s r = .next u)
    (hh : u.held = some h) : False := by
  rcases hr.next hu with ⟨_, ht⟩ | ⟨e, t, _, rfl⟩ | ⟨t, ht, _⟩
  · rw [ht, hs] at hh; cases hh
  · rw [State.raise_held] at hh; cases hh
  · exact ht rfl

theorem setSlice_held (r : SliceReg) (t : BitSlice) (s : State) : (s.setSlice r t).held = s.held := by cases r <;> rfl

theorem sliceOperand_sat (x : SliceSrc) (s : State) : (sliceOperand x s).Sat (fun _ t => t = s) fun _ _ => False := by
  cases x with
  | cw c => simp only [sliceOperand]; split <;> trivial
  | _ => rfl

theorem assignLeaves_held (s : State) :
    (assignLeaves s).Sat (fun _ t => t.held = s.held) fun e _ => e ≠ none := by
  refine (assignLeaves_sat s).mono (fun _ t ht => ?_) fun e t ht => ?_
  · obtain ⟨_, _, -, -, rfl⟩ := ht; rfl
  · rcases ht.2 with rfl | ⟨rfl, -⟩ <;> exact nofun

/-- An operation that has come to wait is one that suspends. -/
theorem exec_suspends {i : Instr} {s u : State} {h : Held} (hi : i.isCommand = false) (hs : s.held = none)
    (hu : exec i s = .next u) (hh : u.held = some h) : ∃ f : Act Unit, Suspends f ∧ ∀ t, exec i t = settle t (f t) := by
  cases i with
  | encode => cases hi
  | decode => cases hi
  | blkShape =>
    exact ⟨_, (readShape_resumable.comp (State.newReader (.pay 0))).finish fun t s => (s.setTree t).dropReader, fun _ => rfl⟩
  | blkData => exact ⟨_, (bodyHeader_resumable.bind fun _ => walkSteps_remaining_resumable).suspends, fun _ => rfl⟩
  | sLeaf => exact ⟨_, shapeLeaf_resumable.finish State.setTree, fun _ => rfl⟩
  | sInternal => exact ⟨_, shapeInternal_resumable.finish State.setTree, fun _ => rfl⟩
  | pLeft => exact ⟨_, (walkTo_resumable false).suspends, fun _ => rfl⟩
  | pRight => exact ⟨_, (walkTo_resumable true).suspends, fun _ => rfl⟩
  | padcnt p => exact ⟨_, (padHeader_resumable _).suspends, fun _ => rfl⟩
  | brReadBit =>
    exact ⟨_, readBit_resumable.finish fun b t => t.setRes (BitVec.ofNat 8 b.toNat), fun _ => rfl⟩
  | bwWriteBit b => exact ⟨_, (writeBit_resumable b).suspends, fun _ => rfl⟩
  | bwWriteSlice x => exact ⟨_, ((sliceOperand_resumable x).bind writeSlice_resumable).suspends, fun _ => rfl⟩
  | bwWritePaddingBits => exact ⟨_, writePaddingBits_resumable.suspends, fun _ => rfl⟩
  | tWriteShape => exact ⟨_, (needTree_resumable.bind writeShape_resumable).suspends, fun _ => rfl⟩
  | tReadShape => exact ⟨_, readShape_resumable.finish State.setTree, fun _ => rfl⟩
  | blkWrite id => exact ⟨_, (blockWrite_resumable id).suspends, fun _ => rfl⟩
  | blkRead e => exact ⟨_, (blockRead_resumable e).suspends, fun _ => rfl⟩
  | dWalkBit => exact ⟨_, walkBit_resumable.suspends, fun _ => rfl⟩
  | bsPadToByte r => cases hu; cases hs.symm.trans ((setSlice_held r _ s).symm.trans hh)
  | brCountUnflushedBits | brFlushBits | bwCountPaddingBits | tCount => cases hu; cases hs.symm.trans hh
  | bsAppendBit r b =>
    refine (Res.Sat.not_held ?_ hs hu hh).elim
    split
    · exact nofun
    · exact setSlice_held r _ s
  | bsAppendSlice r x =>
    refine (Res.Sat.not_held (Res.Sat.bind (sliceOperand_sat x s) (fun t v hv => ?_) fun _ _ => False.elim) hs hu hh).elim
    subst hv
    split
    · exact nofun
    · exact setSlice_held r _ v
  | bsPopByte r =>
    refine (Res.Sat.not_held ?_ hs hu hh).elim
    split
    · trivial
    · exact setSlice_held r _ s
  | tBuild =>
    refine (Res.Sat.not_held ?_ hs hu hh).elim
    split
    · rfl
    · exact nofun
  | tWriteLeaves =>
    refine (Res.Sat.not_held (Res.Sat.bind (needTree_sat s) (fun t v hv => ?_) fun e v hv => ?_) hs hu hh).elim
    · obtain ⟨rfl, -⟩ := hv
      exact (writeLeaves_sat t v).mono (fun _ _ hw => by rw [hw.1]) fun _ _ hw => by simp [hw.2]
    · simp [hv.2.1]
  | tBuildTable =>
    refine (Res.Sat.not_held (Res.Sat.bind (needTree_sat s) (fun t v hv => ?_) fun e v hv => ?_) hs hu hh).elim
    · obtain ⟨rfl, -⟩ := hv
      exact (table_sat t [] (by simp) _).mono (fun _ _ hw => by rw [hw.1]) fun _ _ hw => by simp [hw.2]
    · simp [hv.2.1]
  | tAssignLeaves => exact (Res.Sat.not_held (assignLeaves_held s) hs hu hh).elim
  | blkLeaves =>
    refine (Res.Sat.not_held (Res.Sat.bind (assignLeaves_held s) (fun _ v hv => ?_) fun _ _ => id) hs hu hh).elim
    exact hv

/-! ### Taken up again -/

theorem mapNext_mapNext (f g : State → State) (o : Outcome) : mapNext f (mapNext g o) = mapNext (f ∘ g) o := by
  cases o <;> rfl

theorem mapNext_congr {f g : State → State} {o : Outcome} (h : ∀ t, o = .next t → f t = g t) :
    mapNext f o = mapNext g o := by
  cases o with
  | next t => exact congrArg _ (h t rfl)
  | _ => rfl

/-- Where the log at an operation's end begins with the bytes written before it waited, rejoining gives what a run from its
start gives. -/
theorem State.rejoin_afterLog {v t : State} {h : Held} {o given : List Byte} (hv : v.held = some h)
    (hout : v.out = o ++ given) (hsnk : h.snk = given.length) (hp : given <+: t.out) :
    v.rejoin (t.afterLog v.out) = t.afterLog o := by
  obtain ⟨d, hd⟩ := hp
  have hdrop : (o ++ given ++ t.out).drop ((o ++ given).length + given.length) = d := by
    rw [← hd, ← List.append_assoc, ← List.length_append, List.drop_left]
  rw [State.rejoin_of_some hv, hsnk, hout]
  simp only [State.afterLog, hdrop]
  rw [← hd, List.append_assoc]

theorem Res.Outgrows.next {α : Type} {r : Res α} {s t : State} {o : List Byte} (h : r.Outgrows o)
    (ht : settle s r = .next t) : o <+: t.out := by
  rcases Res.Sat.next h ht with ⟨_, ho⟩ | ⟨e, u, ho, rfl⟩ | ⟨u, ho, rfl⟩
  · exact ho
  · rw [State.raise_out]; exact ho
  · exact ho

theorem State.afterLog_of_empty (p : List Byte) (s : State) :
    State.afterLog p { s with out := [] } = { s with out := p } := by simp [State.afterLog]

section
variable {f : Act Unit} (hf : Suspends f)
include hf

theorem Suspends.settle_afterLog (p : List Byte) (s : State) :
    settle (s.afterLog p) (f (s.afterLog p)) = mapNext (State.afterLog p) (settle s (f s)) := by
  rw [hf.afterLog, Machine.settle_afterLog]

/-- How an operation has come to wait. -/
theorem Suspends.wait_of_held {s u : State} {h : Held} (hs : s.held = none) (hu : settle s (f s) = .next u)
    (hh : u.held = some h) : ∃ t, f s = .wait t ∧ WaitsAt s t ∧ u = s.suspend t := by
  have he := hf.ends s
  rcases settle_eq_next.1 hu with ⟨x, hr⟩ | ⟨e, t, -, rfl⟩ | ⟨t, hr, rfl⟩
  · rw [hr] at he; rw [show u.held = _ from he, hs] at hh; cases hh
  · rw [State.raise_held] at hh; cases hh
  · rw [hr] at he; exact ⟨t, hr, he rfl, rfl⟩

/-- With an empty log before it, the run that waits has in its log what it has given. -/
theorem Suspends.wait_of_empty {s t : State} (ht : f s = .wait t) {given : List Byte} (hout : t.out = s.out ++ given) :
    ∃ t₀, f { s with out := [] } = .wait t₀ ∧ t₀.out = given := by
  have hs := hf.afterLog s.out { s with out := [] }
  rw [State.afterLog_of_empty, ht] at hs
  cases h₀ : f { s with out := [] } with
  | wait t₀ =>
    rw [h₀] at hs; cases hs
    exact ⟨t₀, rfl, List.append_cancel_left hout⟩
  | _ => rw [h₀] at hs; cases hs

/-- Run again from its start with further answers, and rejoined to the log in which the bytes given before the wait stand
already, an operation ends as it does in one run. -/
theorem Suspends.rejoin_settle {s t v : State} {h : Held} {given : List Byte} (ht : f s = .wait t)
    (hout : t.out = s.out ++ given) (hv : v.held = some h) (hvo : v.out = t.out) (hsnk : h.snk = given.length)
    (a : List SrcAns) (b : List SnkAns) :
    mapNext v.rejoin
        (settle { s.moreAnswers a b with out := t.out } (f { s.moreAnswers a b with out := t.out })) =
      settle (s.moreAnswers a b) (f (s.moreAnswers a b)) := by
  obtain ⟨t₀, h₀, rfl⟩ := hf.wait_of_empty ht hout
  have hg := hf.goesOn a b _ _ h₀
  have hlate := State.afterLog_of_empty t.out (s.moreAnswers a b)
  have honce := State.afterLog_of_empty s.out (s.moreAnswers a b)
  calc _ = mapNext (v.rejoin ∘ State.afterLog t.out) _ := by
            rw [← hlate, hf.settle_afterLog, mapNext_mapNext]
       _ = mapNext (State.afterLog s.out) _ := mapNext_congr fun x hx => by
            rw [Function.comp_apply, ← hvo]
            exact State.rejoin_afterLog hv (hvo.trans hout) hsnk (hg.next hx)
       _ = _ := by rw [← hf.settle_afterLog, honce]; rfl

end

/-- What an operation that waits has done to the streams. -/
theorem exec_went {i : Instr} {s u : State} {h : Held} (hi : i.isCommand = false) (hu : exec i s = .next u)
    (hh : u.held = some h) : Went s u := by
  obtain ⟨α, r, hx, hr⟩ := exec_steady i hi s
  rcases Res.Sat.next hr (hx ▸ hu) with ⟨_, hw⟩ | ⟨e, t, -, rfl⟩ | ⟨t, hw, rfl⟩
  · exact hw
  · rw [State.raise_held] at hh; cases hh
  · exact hw rfl

/-- R11: a write to CMD never waits. -/
theorem isCommand_of_held {i : Instr} {s u : State} {h : Held} (hs : s.held = none) (hu : exec i s = .next u)
    (hh : u.held = some h) : i.isCommand = false := by
  rw [← Bool.not_eq_true]
  intro hi
  obtain ⟨mode, first, hx⟩ := exec_command hi s
  cases hx.symm.trans hu
  split at hh
  · cases hs.symm.trans hh
  · cases hh

theorem goOn_idle {s : State} (hj : s.noJob) (hb : s.st ≠ .busy) : goOn s = .next s := by
  have hn : s.held.bind Held.job = none := by
    cases hh : s.held with
    | none => rfl
    | some h => exact hj h hh
  have hf := (State.busy_eq_false s).2 hb
  simp [goOn, hn, sequencerStep, hf]

end Sys2Proof.Machine

/-! ### The settled statements -/

open Sys2Proof Sys2Proof.Machine

/-- Settles O9: an operation that waits has gone on over answered accesses (`Went`) and changed only what `held` records;
run again it passes its log through, and with further answers it begins with the bytes already given. -/
theorem waitingKeepsWhatIsDone : Obligations.WaitingKeepsWhatIsDone := by
  intro i s u h hs hu hh
  have hi := isCommand_of_held hs hu hh
  obtain ⟨f, hf, hx⟩ := exec_suspends hi hs hu hh
  obtain ⟨t, ht, ⟨hstep, hempty⟩, rfl⟩ := hf.wait_of_held hs (hx s ▸ hu) hh
  have hw : Went s t := exec_went (u := s.suspend t) hi hu hh
  obtain ⟨heos, hctr, ⟨taken, hsrc⟩, given, hsnk, hout⟩ := id hw
  obtain rfl : _ = h := Option.some.inj hh
  have hgiven : s.snk.length - t.snk.length = given.length := by rw [hsnk]; simp
  refine ⟨⟨taken, given, hsrc, ?_, hsnk, hgiven, hout⟩, hempty, heos, ?_, ?_, hctr, fun a b => ?_⟩
  · simp [hsrc]
  · rw [State.suspend_st, hstep]
  · rw [State.suspend_err, hstep]
  · have htake : ((s.suspend t).moreAnswers a b).takeUp = { s.moreAnswers a b with out := t.out } := by
      rw [State.takeUp_moreAnswers, hw.takeUp_suspend hs hstep]; rfl
    refine ⟨htake, ?_⟩
    show mapNext _ (exec i ((s.suspend t).moreAnswers a b).takeUp) = exec i (s.moreAnswers a b)
    rw [htake, hx, hx]
    exact hf.rejoin_settle ht hout hh rfl hgiven a b

/-- Settles O4: with no call in progress and no requested operation waiting, going on changes nothing: the host's event
is all that is taken. -/
theorem noStreamAccessOutsideCall : Obligations.NoStreamAccessOutsideCall := by
  intro s hb hj hhost
  have hf := (State.busy_eq_false s).2 hb
  obtain ⟨r, hr⟩ : ∃ r, step s = .next { s with host := r } := by
    rcases hhost with hh | ⟨r, hh | hh⟩
    · refine ⟨s.host, ?_⟩
      simp only [step, stepOnce, hh]; rw [goOn_idle hj hb, ← hh]
    · exact ⟨r, by simp only [step, stepOnce, hh]; exact goOn_idle hj hb⟩
    · exact ⟨r, by simp [step, stepOnce, hh, hf]⟩
  exact ⟨_, hr, rfl, rfl, rfl, rfl, rfl⟩

/-- Settles O7, by the rule of each answer. -/
theorem streamPrimitives : Obligations.StreamPrimitives := by
  intro s
  refine ⟨srcRead_srcEos, fun he => ⟨fun _ _ => srcRead_byte he, fun _ => srcRead_eos he, fun _ => srcRead_ioFail he⟩,
    fun v _ => emit_ok v, fun v r hs => ⟨_, _, emit_ioFail v hs, ?_⟩⟩
  split
  · exact .inr rfl
  · exact .inl rfl
end

section
/-! PROOFS. The little-endian byte form of a number (`30_encoding.md` R67), and the frame of an operation: what the decoder
reads is exactly what the encoder writes of the well-formed operations (`30_encoding.md` R75, R76, R78). -/

namespace Sys2Proof

/-! ### Little-endian bytes -/

/-- The `k` lowest bytes of a number, low byte first: the inverse of `leNat`. -/
def leBytes : Nat → Nat → List Byte
  | 0, _     => []
  | k + 1, n => BitVec.ofNat 8 n :: leBytes k (n / 256)

theorem leNat_leBytes (k n : Nat) : leNat (leBytes k n) = n % 256 ^ k := by
  induction k generalizing n with
  | zero => simp [leBytes, leNat, Nat.mod_one]
  | succ k ih => rw [leBytes, leNat, ih, BitVec.toNat_ofNat, pow_succ' 256 k, Nat.mod_mul]

theorem leBytes_leNat (bs : List Byte) : leBytes bs.length (leNat bs) = bs := by
  induction bs with
  | nil => rfl
  | cons b bs ih =>
    have hlow : BitVec.ofNat 8 (b.toNat + 256 * leNat bs) = b := by bv_omega
    have hhigh : (b.toNat + 256 * leNat bs) / 256 = leNat bs := by omega
    rw [List.length_cons, leBytes, leNat, hlow, hhigh, ih]

theorem leNat_lt (bs : List Byte) : leNat bs < 256 ^ bs.length := by
  rw [← leBytes_leNat bs, leNat_leBytes, leBytes_leNat]
  exact Nat.mod_lt _ (by positivity)

/-- R44: `le64` writes the eight bytes of the word. -/
theorem le64_eq_leBytes (n : Word) : le64 n = leBytes 8 n.toNat := by
  simp [le64, leBytes, byteAt, Nat.div_div_eq_div_mul]

@[simp] theorem le64_length (n : Word) : (le64 n).length = 8 := rfl

theorem unle64_toNat {bs : List Byte} (h : bs.length = 8) : (unle64 bs).toNat = leNat bs := by
  have hlt := leNat_lt bs
  rw [h] at hlt
  exact Nat.mod_eq_of_lt hlt

theorem le64_unle64 {bs : List Byte} (h : bs.length = 8) : le64 (unle64 bs) = bs := by
  rw [le64_eq_leBytes, unle64_toNat h, ← h, leBytes_leNat]

@[simp] theorem unle64_le64 (n : Word) : unle64 (le64 n) = n := by
  apply BitVec.eq_of_toNat_eq
  rw [unle64_toNat (le64_length n), le64_eq_leBytes, leNat_leBytes]
  exact Nat.mod_eq_of_lt n.isLt

/-! ### Operand bytes

Each reader of an operand answers a value exactly on the bytes that the encoder writes of it. -/

/-- The value that a reader's answer is made into. -/
theorem takeMap_eq_ok {α β : Type} {x : Except DecodeError (α × List Byte)} {g : α → β} {b : β} {rest : List Byte} :
    (x.map fun (a, r) => (g a, r)) = .ok (b, rest) ↔ ∃ a, x = .ok (a, rest) ∧ g a = b := by
  rcases x with e | ⟨a, r⟩
  · simp [Except.map]
  · simp [Except.map, and_comm]

theorem takeBit_eq_ok {ops rest : List Byte} {b : Bool} :
    takeBit ops = .ok (b, rest) ↔ ops = encodeBit b ++ rest := by
  constructor
  · intro h
    unfold takeBit at h
    split at h
    case h_1 => cases h
    case h_2 c cs =>
      split at h
      case h_1 hc => cases h; rw [BitVec.eq_of_toNat_eq (y := 0#8) hc]; rfl
      case h_2 hc => cases h; rw [BitVec.eq_of_toNat_eq (y := 1#8) hc]; rfl
      case h_3 => cases h
  · rintro rfl; cases b <;> rfl

theorem takeReg_eq_ok {ops rest : List Byte} {r : SliceReg} :
    takeReg ops = .ok (r, rest) ↔ ops = r.code :: rest := by
  constructor
  · intro h
    unfold takeReg at h
    split at h
    case h_1 => cases h
    case h_2 c cs =>
      split at h
      case h_1 hc => cases h; rw [BitVec.eq_of_toNat_eq (y := 0#8) hc]; rfl
      case h_2 hc => cases h; rw [BitVec.eq_of_toNat_eq (y := 1#8) hc]; rfl
      case h_3 => cases h
  · rintro rfl; cases r <;> rfl

theorem BlockId.ofCode_eq_some {c : Byte} {id : BlockId} : BlockId.ofCode c = some id ↔ c = id.code := by
  constructor
  · intro h
    unfold BlockId.ofCode at h
    split at h
    case h_4 => cases h
    all_goals cases h; exact BitVec.eq_of_toNat_eq ‹_›
  · rintro rfl; cases id <;> rfl

theorem takeBlockId_eq_ok {ops rest : List Byte} {id : BlockId} :
    takeBlockId ops = .ok (id, rest) ↔ ops = id.code :: rest := by
  rcases ops with _ | ⟨c, cs⟩
  · simp [takeBlockId]
  · rw [List.cons.injEq, ← BlockId.ofCode_eq_some]
    cases hc : BlockId.ofCode c <;> simp [takeBlockId, hc]

/-- A slice value that satisfies R90 is told by its length byte and its word. -/
theorem takeSlice_eq_ok {ops rest : List Byte} {t : BitSlice} :
    takeSlice ops = .ok (t, rest) ↔ t.wf = true ∧ ops = BitVec.ofNat 8 t.length :: (le64 t.bits ++ rest) := by
  constructor
  · intro h
    unfold takeSlice at h
    split at h
    case h_1 len b0 b1 b2 b3 b4 b5 b6 b7 cs =>
      dsimp only at h
      split at h
      case isTrue hw =>
        cases h
        refine ⟨hw, ?_⟩
        rw [le64_unle64 rfl, BitVec.ofNat_toNat, BitVec.setWidth_eq]; rfl
      case isFalse => cases h
    case h_2 => cases h
  · rintro ⟨hw, rfl⟩
    have hlen : (BitVec.ofNat 8 t.length).toNat = t.length :=
      Nat.mod_eq_of_lt (Nat.lt_of_le_of_lt (BitSlice.wf_length hw) (by decide))
    have hbits : unle64 [byteAt t.bits 0, byteAt t.bits 1, byteAt t.bits 2, byteAt t.bits 3, byteAt t.bits 4,
      byteAt t.bits 5, byteAt t.bits 6, byteAt t.bits 7] = t.bits := unle64_le64 t.bits
    simp only [le64, takeSlice, List.cons_append, List.nil_append, hlen, hbits, hw, if_true]

theorem takeSliceSrc_eq_ok {ops rest : List Byte} {t : SliceSrc} :
    takeSliceSrc ops = .ok (t, rest) ↔ t.wf = true ∧ ops = encodeSliceSrc t ++ rest := by
  constructor
  · intro h
    unfold takeSliceSrc at h
    split at h
    case h_1 => cases h
    case h_2 k cs =>
      split at h
      case h_1 hk =>
        obtain ⟨a, ha, rfl⟩ := takeMap_eq_ok.1 h
        obtain ⟨hw, rfl⟩ := takeSlice_eq_ok.1 ha
        exact ⟨hw, by rw [BitVec.eq_of_toNat_eq (y := 0#8) hk]; rfl⟩
      case h_2 hk =>
        obtain ⟨a, ha, rfl⟩ := takeMap_eq_ok.1 h
        rw [BitVec.eq_of_toNat_eq (y := 1#8) hk, takeReg_eq_ok.1 ha]
        exact ⟨rfl, rfl⟩
      case h_3 hk =>
        split at h
        case h_1 => cases h
        case h_2 c cs => cases h; rw [BitVec.eq_of_toNat_eq (y := 2#8) hk]; exact ⟨rfl, rfl⟩
      case h_4 => cases h
  · rintro ⟨hw, rfl⟩
    cases t with
    | imm t => exact takeMap_eq_ok.2 ⟨t, takeSlice_eq_ok.2 ⟨hw, rfl⟩, rfl⟩
    | reg r => exact takeMap_eq_ok.2 ⟨r, takeReg_eq_ok.2 rfl, rfl⟩
    | cw c => rfl

/-! ### The formats

Each format answers an operation exactly on its pattern. -/

theorem Format.ofCode_eq_some {c : Byte} {f : Format} : Format.ofCode c = some f ↔ c = f.code := by
  constructor
  · intro h
    unfold Format.ofCode at h
    split at h
    case h_8 => cases h
    all_goals cases h; exact BitVec.eq_of_toNat_eq ‹_›
  · rintro rfl; cases f <;> rfl

theorem decodeCmd_eq_ok {p : Byte} {i : Instr} : decodeCmd p = .ok i ↔ i.format = .cmd ∧ p = i.pattern := by
  constructor
  · intro h
    unfold decodeCmd at h
    split at h
    case h_3 => cases h
    all_goals cases h; exact ⟨rfl, BitVec.eq_of_toNat_eq ‹_›⟩
  · rintro ⟨hf, rfl⟩; cases i <;> cases hf <;> rfl

theorem decodeBlk_eq_ok {p : Byte} {i : Instr} : decodeBlk p = .ok i ↔ i.format = .blk ∧ p = i.pattern := by
  constructor
  · intro h
    unfold decodeBlk at h
    split at h
    case h_4 => cases h
    all_goals cases h; exact ⟨rfl, BlockId.ofCode_eq_some.1 ‹_›⟩
  · rintro ⟨hf, rfl⟩; cases i <;> cases hf <;> rfl

theorem decodeShapeBit_eq_ok {p : Byte} {i : Instr} :
    decodeShapeBit p = .ok i ↔ i.format = .shapebit ∧ p = i.pattern := by
  constructor
  · intro h
    unfold decodeShapeBit at h
    split at h
    case h_3 => cases h
    all_goals cases h; exact ⟨rfl, BitVec.eq_of_toNat_eq ‹_›⟩
  · rintro ⟨hf, rfl⟩; cases i <;> cases hf <;> rfl

theorem decodePathBit_eq_ok {p : Byte} {i : Instr} :
    decodePathBit p = .ok i ↔ i.format = .pathbit ∧ p = i.pattern := by
  constructor
  · intro h
    unfold decodePathBit at h
    split at h
    case h_3 => cases h
    all_goals cases h; exact ⟨rfl, BitVec.eq_of_toNat_eq ‹_›⟩
  · rintro ⟨hf, rfl⟩; cases i <;> cases hf <;> rfl

/-- R197: a byte whose bits 7 to 3 are zero is its count. -/
theorem setWidth_count_eq {p : Byte} (h : p &&& 0xF8 = 0) : (p.setWidth 3).setWidth 8 = p := by
  revert p; decide

theorem count_high_eq_zero (c : BitVec 3) : c.setWidth 8 &&& (0xF8 : Byte) = 0 ∧ (c.setWidth 8).setWidth 3 = c := by
  revert c; decide

theorem decodePadcnt_eq_ok {p : Byte} {i : Instr} :
    decodePadcnt p = .ok i ↔ i.format = .padcnt ∧ p = i.pattern := by
  constructor
  · intro h
    unfold decodePadcnt at h
    split at h
    case isTrue hp => cases h; exact ⟨rfl, (setWidth_count_eq hp).symm⟩
    case isFalse => cases h
  · rintro ⟨hf, rfl⟩
    cases i
    case padcnt c =>
      obtain ⟨hhigh, hlow⟩ := count_high_eq_zero c
      simp only [Instr.pattern, decodePadcnt, hhigh, hlow, if_true]
    all_goals cases hf

theorem decodeUop_encode {i : Instr} (rest : List Byte) (hf : i.format = .uop) (hw : i.wf = true) :
    decodeUop i.pattern (i.operandBytes ++ rest) = .ok (i, rest) := by
  cases i
  case bsAppendBit r b =>
    have hr : takeReg (r.code :: (encodeBit b ++ rest)) = _ := takeReg_eq_ok.2 rfl
    simp only [Instr.operandBytes, Instr.pattern, List.cons_append, decodeUop, hr]
    exact takeMap_eq_ok.2 ⟨b, takeBit_eq_ok.2 rfl, rfl⟩
  case bsAppendSlice r t =>
    have hr : takeReg (r.code :: (encodeSliceSrc t ++ rest)) = _ := takeReg_eq_ok.2 rfl
    simp only [Instr.operandBytes, Instr.pattern, List.cons_append, decodeUop, hr]
    exact takeMap_eq_ok.2 ⟨t, takeSliceSrc_eq_ok.2 ⟨hw, rfl⟩, rfl⟩
  case bsPadToByte r => exact takeMap_eq_ok.2 ⟨r, takeReg_eq_ok.2 rfl, rfl⟩
  case bsPopByte r => exact takeMap_eq_ok.2 ⟨r, takeReg_eq_ok.2 rfl, rfl⟩
  case bwWriteBit b => exact takeMap_eq_ok.2 ⟨b, takeBit_eq_ok.2 rfl, rfl⟩
  case bwWriteSlice t => exact takeMap_eq_ok.2 ⟨t, takeSliceSrc_eq_ok.2 ⟨hw, rfl⟩, rfl⟩
  case blkWrite id => exact takeMap_eq_ok.2 ⟨id, takeBlockId_eq_ok.2 rfl, rfl⟩
  case blkRead id => exact takeMap_eq_ok.2 ⟨id, takeBlockId_eq_ok.2 rfl, rfl⟩
  all_goals cases hf <;> rfl

/-- The unit operations: the index of R76, then the bytes of the operands. -/
theorem decodeUop_eq_ok {p : Byte} {ops rest : List Byte} {i : Instr} :
    decodeUop p ops = .ok (i, rest) ↔
      i.wf = true ∧ i.format = .uop ∧ p = i.pattern ∧ ops = i.operandBytes ++ rest := by
  constructor
  · intro h
    unfold decodeUop at h
    split at h
    case h_1 hp =>
      split at h
      case h_1 => cases h
      case h_2 r cs hr =>
        obtain ⟨b, hb, rfl⟩ := takeMap_eq_ok.1 h
        rw [takeReg_eq_ok.1 hr, takeBit_eq_ok.1 hb]
        exact ⟨rfl, rfl, BitVec.eq_of_toNat_eq hp, rfl⟩
    case h_2 hp =>
      split at h
      case h_1 => cases h
      case h_2 r cs hr =>
        obtain ⟨t, ht, rfl⟩ := takeMap_eq_ok.1 h
        obtain ⟨hw, rfl⟩ := takeSliceSrc_eq_ok.1 ht
        rw [takeReg_eq_ok.1 hr]
        exact ⟨hw, rfl, BitVec.eq_of_toNat_eq hp, rfl⟩
    case h_3 hp | h_4 hp =>
      obtain ⟨r, hr, rfl⟩ := takeMap_eq_ok.1 h
      exact ⟨rfl, rfl, BitVec.eq_of_toNat_eq hp, takeReg_eq_ok.1 hr⟩
    case h_8 hp =>
      obtain ⟨b, hb, rfl⟩ := takeMap_eq_ok.1 h
      exact ⟨rfl, rfl, BitVec.eq_of_toNat_eq hp, takeBit_eq_ok.1 hb⟩
    case h_9 hp =>
      obtain ⟨t, ht, rfl⟩ := takeMap_eq_ok.1 h
      obtain ⟨hw, hops⟩ := takeSliceSrc_eq_ok.1 ht
      exact ⟨hw, rfl, BitVec.eq_of_toNat_eq hp, hops⟩
    case h_19 hp | h_20 hp =>
      obtain ⟨id, hid, rfl⟩ := takeMap_eq_ok.1 h
      exact ⟨rfl, rfl, BitVec.eq_of_toNat_eq hp, takeBlockId_eq_ok.1 hid⟩
    case h_22 => cases h
    all_goals cases h; exact ⟨rfl, rfl, BitVec.eq_of_toNat_eq ‹_›, rfl⟩
  · rintro ⟨hw, hf, rfl, rfl⟩
    exact decodeUop_encode rest hf hw

/-! ### The frame -/

/-- Outside UOP an operation has no operand bytes, and is well formed. -/
theorem Instr.operandBytes_of_format {i : Instr} (h : i.format ≠ .uop) : i.operandBytes = [] ∧ i.wf = true := by
  cases i <;> simp [Instr.format, Instr.operandBytes, Instr.wf] at h ⊢

/-- A format without operands: only the pattern is read. -/
theorem patternOnly_eq_ok {x : Except DecodeError Instr} {p : Byte} {f : Format} (hf : f ≠ .uop) {i : Instr}
    (hx : x = .ok i ↔ i.format = f ∧ p = i.pattern) {ops rest : List Byte} :
    (x.map fun j => (j, ops)) = .ok (i, rest) ↔
      i.wf = true ∧ i.format = f ∧ p = i.pattern ∧ ops = i.operandBytes ++ rest := by
  have hmap : (x.map fun j => (j, ops)) = .ok (i, rest) ↔ x = .ok i ∧ ops = rest := by
    cases x <;> simp [Except.map]
  rw [hmap, hx, and_assoc]
  refine ⟨fun ⟨hi, hp, ho⟩ => ?_, fun ⟨_, hi, hp, ho⟩ => ?_⟩
  · obtain ⟨hops, hw⟩ := Instr.operandBytes_of_format (hi ▸ hf)
    exact ⟨hw, hi, hp, by rw [hops, ho]; rfl⟩
  · obtain ⟨hops, -⟩ := Instr.operandBytes_of_format (hi ▸ hf)
    exact ⟨hi, hp, by rw [ho, hops]; rfl⟩

theorem Instr.format_ne_bare (i : Instr) : i.format ≠ .bare := by cases i <;> exact Format.noConfusion

/-- A frame that names its format is read as an operation of this format, and only as the frame that the encoder writes. -/
theorem decode_frame_eq_ok {p : Byte} {f : Format} (hf : f ≠ .bare) {ops rest : List Byte} {i : Instr} :
    decode (p :: f.code :: ops) = .ok (i, rest) ↔
      i.wf = true ∧ i.format = f ∧ p = i.pattern ∧ ops = i.operandBytes ++ rest := by
  cases f with
  | bare     => exact absurd rfl hf
  | cmd      => exact patternOnly_eq_ok Format.noConfusion decodeCmd_eq_ok
  | blk      => exact patternOnly_eq_ok Format.noConfusion decodeBlk_eq_ok
  | shapebit => exact patternOnly_eq_ok Format.noConfusion decodeShapeBit_eq_ok
  | pathbit  => exact patternOnly_eq_ok Format.noConfusion decodePathBit_eq_ok
  | padcnt   => exact patternOnly_eq_ok Format.noConfusion decodePadcnt_eq_ok
  | uop      => exact decodeUop_eq_ok

/-- A pattern without its place is read as a command, a unit operation or a padding count (log 5). -/
theorem decodeBare_wf {p : Byte} {ops rest : List Byte} {i : Instr} (h : decodeBare p ops = .ok (i, rest)) :
    i.wf = true := by
  unfold decodeBare at h
  split at h
  case h_1 j hj =>
    cases h
    obtain ⟨hf, -⟩ := decodeCmd_eq_ok.1 hj
    exact (Instr.operandBytes_of_format (by simp [hf])).2
  case h_2 =>
    split at h
    case h_1 r hr => cases h; exact (decodeUop_eq_ok.1 hr).1
    case h_2 => exact ((patternOnly_eq_ok Format.noConfusion decodePadcnt_eq_ok).1 h).1
    case h_3 => cases h

theorem decode_unknownFormat {p f : Byte} (h : Format.ofCode f = none) (ops : List Byte) :
    decode (p :: f :: ops) = .error .unknownFormat := by
  simp only [decode, h]

end Sys2Proof

/-! ### The settled statements -/

open Sys2Proof

/-- Settles O49: every format reads exactly what the encoder writes of its operations. -/
theorem decodeOfEncode : Obligations.DecodeOfEncode := fun i _ hw =>
  (decode_frame_eq_ok i.format_ne_bare).2 ⟨hw, rfl, rfl, rfl⟩

/-- Settles O36: `leNat` and `leBytes` are inverse on eight bytes. -/
theorem lengthIsLittleEndian : Obligations.LengthIsLittleEndian :=
  ⟨fun _ h => ⟨unle64_toNat h, le64_unle64 h⟩, fun n => ⟨unle64_le64 n, le64_length n⟩⟩

/-- Settles O50: by the format that the format byte names. -/
theorem encodeOfDecode : Obligations.EncodeOfDecode := by
  intro p f ops rest i h
  cases hc : Format.ofCode f with
  | none => cases (decode_unknownFormat hc ops).symm.trans h
  | some fmt =>
    obtain rfl := Format.ofCode_eq_some.1 hc
    by_cases hb : fmt = .bare
    · subst hb
      exact ⟨decodeBare_wf h, fun h0 => absurd rfl h0⟩
    · obtain ⟨hw, rfl, rfl, rfl⟩ := (decode_frame_eq_ok hb).1 h
      exact ⟨hw, fun _ => rfl⟩

/-- Settles O48: the operations' frames are the encoder's; the three refusals compute. -/
theorem patternsDecode : Obligations.PatternsDecode := by
  have hread : ∀ i : Instr, i.wf = true → decode (encode i) = .ok (i, []) := fun i hw => by
    simpa using decodeOfEncode i [] hw
  exact ⟨hread .decode rfl, hread .blkData rfl, hread .sInternal rfl, hread .pLeft rfl, hread (.padcnt 7) rfl,
    hread (.bsPopByte .acc) rfl, hread .brFlushBits rfl, hread .bwWritePaddingBits rfl, hread .tBuild rfl,
    hread .tAssignLeaves rfl, hread (.blkRead .data) rfl, hread .dWalkBit rfl, rfl, rfl, rfl⟩
end

section
/-! PROOFS. What every step keeps (`40_bitslice.md` R90, `41_bitio.md` R102, `10_state.md` R12): every operation reaches
its end in a state that meets the invariant, with an error that has a code where it raises one. -/

namespace Sys2Proof

/-! ### R90 through the four operations on slices -/

theorem padlen_fits {n : Nat} (h : n ≤ 64) : n + padlen n ≤ 64 := by unfold padlen; omega

theorem BitSlice.appendBit_wf {s u : BitSlice} {b : Bool} (hs : s.wf = true) (h : s.appendBit b = some u) :
    u.wf = true := by
  obtain ⟨q, hq, rfl⟩ := BitSlice.wf_iff.1 hs
  rw [BitSlice.appendBit_ofBits] at h
  split at h <;> cases h
  exact BitSlice.ofBits_wf (by simp; omega)

theorem BitSlice.appendSlice_wf {s t u : BitSlice} (hs : s.wf = true) (ht : t.wf = true)
    (h : s.appendSlice t = some u) : u.wf = true := by
  obtain ⟨q, hq, rfl⟩ := BitSlice.wf_iff.1 hs
  obtain ⟨r, hr, rfl⟩ := BitSlice.wf_iff.1 ht
  rw [BitSlice.appendSlice_ofBits hq hr] at h
  split at h <;> cases h
  exact BitSlice.ofBits_wf (by simpa)

theorem BitSlice.padToByte_wf {s : BitSlice} (hs : s.wf = true) : s.padToByte.wf = true := by
  obtain ⟨q, hq, rfl⟩ := BitSlice.wf_iff.1 hs
  rw [BitSlice.padToByte_ofBits hq]
  exact BitSlice.ofBits_wf (by simpa [zeros] using padlen_fits hq)

/-- R95 on any well-formed slice: the byte's bits stand in front of those left. -/
theorem BitSlice.popByte_eq_some {s u : BitSlice} {v : Byte} (hs : s.wf = true) (h : s.popByte = some (v, u)) :
    u.wf = true ∧ s.seq = unpackByte v ++ u.seq := by
  obtain ⟨q, hq, rfl⟩ := BitSlice.wf_iff.1 hs
  by_cases h8 : 8 ≤ q.length
  · obtain ⟨b7, b6, b5, b4, b3, b2, b1, b0, r, rfl⟩ := eight_of_le h8
    have hr : r.length ≤ 56 := by simp at hq; omega
    rw [BitSlice.popByte_ofBits _ _ _ _ _ _ _ _ hr] at h
    cases h
    rw [BitSlice.seq_ofBits hq, BitSlice.seq_ofBits (by omega), unpackByte_packByte]
    exact ⟨BitSlice.ofBits_wf (by omega), rfl⟩
  · rw [BitSlice.popByte_short (by simpa using h8)] at h; cases h

/-- Every frame that decodes gives a well-formed operation. -/
theorem decode_wf {f r : List Byte} {i : Instr} (h : decode f = .ok (i, r)) : i.wf = true := by
  match f, h with
  | p :: f :: ops, h => exact (encodeOfDecode p f ops r i h).1

namespace Machine

/-! ### The invariant and changes of the state -/

/-- A change of none of the elements that the invariant speaks of. -/
theorem State.Inv.of_eq {s t : State} (hs : s.Inv)
    (h : t = { t with
      bw := s.bw, br := s.br, cwacc := s.cwacc, cw := s.cw, st := s.st, err := s.err, held := s.held }) : t.Inv := by
  rw [h]; exact hs

/-- A change of the reader that keeps it below eight unread bits. -/
theorem State.Inv.of_reader {s t : State} (hs : s.Inv) (h7 : s.br.rem ≤ 7 → t.br.rem ≤ 7)
    (h : t = { t with bw := s.bw, cwacc := s.cwacc, cw := s.cw, st := s.st, err := s.err, held := s.held }) : t.Inv := by
  obtain ⟨hacc, hcwacc, hcw, hrem, hok, hfault, hheld⟩ := hs
  rw [h]; exact ⟨hacc, hcwacc, hcw, h7 hrem, hok, hfault, hheld⟩

/-- A change of the writer that keeps its accumulator canonical. -/
theorem State.Inv.of_writer {s t : State} (hs : s.Inv) (ha : t.bw.acc.wf = true)
    (h : t = { t with br := s.br, cwacc := s.cwacc, cw := s.cw, st := s.st, err := s.err, held := s.held }) : t.Inv := by
  obtain ⟨-, hcwacc, hcw, hrem, hok, hfault, hheld⟩ := hs
  rw [h]; exact ⟨ha, hcwacc, hcw, hrem, hok, hfault, hheld⟩

/-- A change of CWACC and the codeword table that keeps their slices canonical. -/
theorem State.Inv.of_table {s t : State} (hs : s.Inv) (ha : t.cwacc.wf = true)
    (hw : ∀ c x, t.cwAt c = some x → x.wf = true)
    (h : t = { t with bw := s.bw, br := s.br, st := s.st, err := s.err, held := s.held }) : t.Inv := by
  obtain ⟨hacc, -, -, hrem, hok, hfault, hheld⟩ := hs
  rw [h]; exact ⟨hacc, ha, hw, hrem, hok, hfault, hheld⟩

theorem State.Inv.slice_wf {s : State} (hs : s.Inv) (r : SliceReg) : (s.slice r).wf = true := by
  obtain ⟨hacc, hcwacc, -⟩ := hs
  cases r
  · exact hacc
  · exact hcwacc

theorem State.Inv.setAcc {s : State} (hs : s.Inv) {u : BitSlice} (hu : u.wf = true) : (s.setAcc u).Inv :=
  hs.of_writer hu rfl

theorem State.Inv.setSlice {s : State} (hs : s.Inv) (r : SliceReg) {u : BitSlice} (hu : u.wf = true) :
    (s.setSlice r u).Inv := by
  cases r
  · exact hs.setAcc hu
  · obtain ⟨-, -, hcw, -⟩ := id hs
    exact hs.of_table hu hcw rfl

theorem cwAt_ne_some_of_replicate {s : State} (h : s.cw = Vector.replicate 256 none) {c : Byte} {t : BitSlice} :
    s.cwAt c ≠ some t := by
  simp [State.cwAt, h]

/-- A state whose slices and reader are empty, whatever waits in it. -/
theorem State.Inv.of_empty {s : State} (ha : s.bw.acc = .empty) (hc : s.cwacc = .empty)
    (hw : s.cw = Vector.replicate 256 none) (hr : s.br.rem = 0) (hok : s.st ≠ .fault → s.err = .ok)
    (hfault : s.st = .fault → s.err ≠ .ok) (hh : ∀ h, s.held = some h → h.wf = true) : s.Inv :=
  ⟨by rw [ha]; rfl, by rw [hc]; rfl, fun _ _ ht => absurd ht (cwAt_ne_some_of_replicate hw), by omega, hok,
    hfault, hh⟩

/-- R240: after a reset. -/
theorem resetBlock_inv (s : State) : s.resetBlock.Inv :=
  .of_empty rfl rfl rfl rfl (fun _ => rfl) nofun nofun

/-- R11: at the start of a call. -/
theorem startCall_inv (mode : BitVec 1) (first : Phase) (s : State) : (s.startCall mode first).Inv :=
  .of_empty rfl rfl rfl rfl (fun _ => rfl) nofun nofun

/-- R181, R206: after the normal end of a call. -/
theorem State.Inv.endCall {s : State} (hs : s.Inv) : s.endCall.Inv := by
  obtain ⟨-, -, -, -, -, -, hheld⟩ := hs
  exact .of_empty rfl rfl rfl rfl (fun _ => rfl) nofun hheld

/-- R220: an error with a code, inside a call and outside one. -/
theorem State.Inv.raise {s : State} (hs : s.Inv) {e : Err} (he : e ≠ .ok) : (s.raise e).Inv := by
  obtain ⟨hacc, hcwacc, hcw, hrem, -⟩ := hs
  cases hb : s.busy with
  | true =>
    rw [State.raise_of_busy e s hb]
    exact .of_empty rfl rfl rfl rfl (fun h => absurd rfl h) (fun _ => he) nofun
  | false =>
    rw [State.raise_of_not_busy e s hb]
    exact ⟨hacc, hcwacc, hcw, hrem, fun h => absurd rfl h, fun _ => he, nofun⟩

/-- R43: an operation that waits records the accumulator and the reader it started from. -/
theorem State.Inv.suspend {s t : State} (hs : s.Inv) (ht : t.Inv) : (s.suspend t).Inv := by
  obtain ⟨hacc, -, -, hrem, -⟩ := hs
  obtain ⟨hacc', hcwacc', hcw', hrem', hok', hfault', -⟩ := ht
  refine ⟨hacc', hcwacc', hcw', hrem', hok', hfault', fun h hh => ?_⟩
  cases hh
  simp [Held.wf, hacc, hrem]

/-! ### The invariant at every end of an operation -/

/-- Every end of an operation meets the invariant, and an error it raises has a code. -/
def Res.KeepsInv {α : Type} (r : Res α) : Prop := r.Sat (fun _ t => t.Inv) fun e t => t.Inv ∧ e ≠ some .ok

theorem Res.KeepsInv.bind {α β : Type} {r : Res α} {k : α → State → Res β} (h : r.KeepsInv)
    (hk : ∀ a t, t.Inv → (k a t).KeepsInv) : (r.bind k).KeepsInv :=
  Res.Sat.bind h hk fun _ _ => id

theorem Res.KeepsInv.ok {α : Type} {a : α} {t : State} (h : t.Inv) : (Res.ok a t).KeepsInv := h

theorem Res.KeepsInv.raise {α : Type} {e : Err} {t : State} (h : t.Inv) (he : e ≠ .ok) :
    (Res.raise e t : Res α).KeepsInv := ⟨h, fun h' => he (Option.some.inj h')⟩

/-- The next state of an operation that keeps the invariant. -/
theorem Res.KeepsInv.next {α : Type} {r : Res α} {s t : State} (hr : r.KeepsInv) (hs : s.Inv)
    (h : settle s r = .next t) : t.Inv := by
  rcases Res.Sat.next hr h with ⟨_, ht⟩ | ⟨e, u, ⟨hu, he⟩, rfl⟩ | ⟨u, ⟨hu, -⟩, rfl⟩
  · exact ht
  · exact hu.raise fun h' => he (congrArg some h')
  · exact hs.suspend hu

section
variable {s : State} (hs : s.Inv)
include hs

/-! ### The streams, the payload buffer and the bit writer -/

theorem srcRead_inv : (srcRead s).KeepsInv :=
  (srcRead_sat s).mono (fun _ t h => hs.of_eq (by rw [show t = _ from h]))
    fun _ _ ⟨ht, he⟩ => ⟨ht ▸ hs, he ▸ nofun⟩

theorem nextByte_inv : (nextByte s).KeepsInv := by
  refine (srcRead_inv hs).bind fun a t ht => ?_
  cases a with
  | byte v => exact .ok ht
  | eos    => exact .raise ht Err.noConfusion
  | ioFail => exact .raise ht Err.noConfusion

theorem emit_inv (v : Byte) : (emit v s).KeepsInv := by
  refine (emit_sat v s).mono (fun _ t ⟨⟨ht, _⟩, _⟩ => hs.of_eq (by rw [ht])) fun e t ⟨⟨ht, _⟩, he⟩ =>
    ⟨hs.of_eq (by rw [ht]), ?_⟩
  rcases he with rfl | rfl <;> nofun

omit hs in
theorem emitAll_inv (vs : List Byte) {s : State} (hs : s.Inv) : (emitAll vs s).KeepsInv := by
  induction vs generalizing s with
  | nil => exact hs
  | cons v vs ih => exact (emit_inv hs v).bind fun _ _ => ih

theorem payAppend_inv (v : Byte) : (payAppend v s).KeepsInv := by
  unfold payAppend; split
  · exact .ok (hs.of_eq rfl)
  · exact .raise hs Err.noConfusion

theorem destWrite_inv (v : Byte) : (destWrite v s).KeepsInv := by
  unfold destWrite; split
  · exact emit_inv hs v
  · exact payAppend_inv hs v

omit hs in
theorem flushBytes_inv (n : Nat) {s : State} (hs : s.Inv) : (flushBytes n s).KeepsInv := by
  induction n generalizing s with
  | zero => exact hs
  | succ n ih =>
    rw [flushBytes]; split
    · exact hs
    · rename_i v u hp
      have hu := (BitSlice.popByte_eq_some (hs.slice_wf .acc) hp).1
      exact (destWrite_inv (hs.setAcc hu) v).bind fun _ _ => ih

omit hs in
theorem flushWriter_inv {s : State} (hs : s.Inv) : (flushWriter s).KeepsInv := flushBytes_inv _ hs

theorem writeBit_inv (b : Bool) : (writeBit b s).KeepsInv := by
  unfold writeBit; split
  · exact .raise hs Err.noConfusion
  · exact flushWriter_inv (hs.setAcc (BitSlice.appendBit_wf (hs.slice_wf .acc) ‹_›))

theorem writeSlice_inv {t : BitSlice} (ht : t.wf = true) : (writeSlice t s).KeepsInv := by
  unfold writeSlice; split
  · exact .raise hs Err.noConfusion
  · exact flushWriter_inv (hs.setAcc (BitSlice.appendSlice_wf (hs.slice_wf .acc) ht ‹_›))

theorem writePaddingBits_inv : (writePaddingBits s).KeepsInv :=
  flushWriter_inv (hs.setAcc (BitSlice.padToByte_wf (hs.slice_wf .acc)))

/-- A slice operand has a canonical value, and reading it changes nothing. -/
theorem sliceOperand_bind_inv {x : SliceSrc} (hx : x.wf = true) {k : BitSlice → Act Unit}
    (hk : ∀ t, t.wf = true → (k t s).KeepsInv) : ((sliceOperand x s).bind k).KeepsInv := by
  cases x with
  | reg r => exact hk _ (hs.slice_wf r)
  | imm t => exact hk t hx
  | cw c =>
    obtain ⟨-, -, hcw, -⟩ := hs
    simp only [sliceOperand]; split
    · exact hk _ (hcw _ _ ‹_›)
    · trivial

/-! ### The bit reader and the shape of a tree -/

theorem newReader_inv (o : Origin) : (s.newReader o).Inv := hs.of_reader (fun _ => Nat.zero_le 7) rfl

omit hs in
theorem Read.inv {s t : State} (h : Read s t) (hs : s.Inv) : t.Inv :=
  hs.of_reader h.2 (by rw [h.1.1])

omit hs in
/-- What only reads keeps the invariant. -/
theorem Res.KeepsInv.of_read {α : Type} {r : Res α} {s : State} (h : r.Sat (fun _ t => Read s t) (ReadErr s))
    (hs : s.Inv) : r.KeepsInv := by
  refine h.mono (fun _ _ ht => ht.inv hs) fun e t ⟨ht, he⟩ => ⟨ht.inv hs, ?_⟩
  rcases he with rfl | rfl | ⟨rfl, -⟩ <;> nofun

theorem readBit_inv : (readBit s).KeepsInv := .of_read (readBit_read s) hs

theorem shapeInternal_inv : (shapeInternal s).KeepsInv := .of_read (shapeInternal_sat s) hs

theorem readShape_inv : (readShape s).KeepsInv := .of_read (readShape_sat s) hs

theorem countNode_inv (n : Nat) : (countNode n s).KeepsInv := by
  unfold countNode; split
  · exact .ok hs
  · exact .raise hs Err.noConfusion

theorem shapeLeaf_inv : (shapeLeaf s).KeepsInv := (countNode_inv hs 0).bind fun _ _ => .ok

/-! ### The tree, the blocks and the walk -/

theorem needTree_inv : (needTree s).KeepsInv := by
  unfold needTree; split
  · exact .ok hs
  · exact .raise hs Err.noConfusion

theorem requireTree_inv : (requireTree s).KeepsInv := by
  unfold requireTree; split
  · exact needTree_inv hs
  · exact .raise hs Err.noConfusion

theorem needSymbol_inv (x : Option Byte) : (needSymbol x s).KeepsInv := by
  cases x with
  | none   => trivial
  | some v => exact .ok hs

omit hs in
theorem writeShape_inv (t : Tree) {s : State} (hs : s.Inv) : (writeShape t s).KeepsInv := by
  induction t generalizing s with
  | leaf w x => exact writeBit_inv hs false
  | node w l r ihl ihr => exact (writeBit_inv hs true).bind fun _ _ hu => (ihl hu).bind fun _ _ => ihr

omit hs in
theorem writeLeaves_inv (t : Tree) {s : State} (hs : s.Inv) : (writeLeaves t s).KeepsInv := by
  induction t generalizing s with
  | leaf w x => exact (needSymbol_inv hs x).bind fun v _ hu => payAppend_inv hu v
  | node w l r ihl ihr => exact (ihl hs).bind fun _ _ => ihr

/-- R22: an entry of the codeword table is set to a canonical slice. -/
theorem setCode_inv {c : BitSlice} (hc : c.wf = true) (v : Byte) :
    State.Inv { s with cwacc := c, cw := s.cw.set v.toNat (some c) } := by
  obtain ⟨-, -, hcw, -⟩ := id hs
  refine hs.of_table hc (fun d x hx => ?_) rfl
  simp only [State.cwAt] at hx
  by_cases hd : v.toNat = d.toNat
  · simp only [hd, Vector.getElem_set_self, Option.some.injEq] at hx
    rw [← hx]; exact hc
  · rw [Vector.getElem_set_ne _ _ hd] at hx; exact hcw d x hx

omit hs in
theorem table_inv (t : Tree) {c : BitSlice} (hc : c.wf = true) {s : State} (hs : s.Inv) : (table t c s).KeepsInv := by
  induction t generalizing c s with
  | leaf w x => exact (needSymbol_inv hs x).bind fun v u hu => .ok (setCode_inv hu hc v)
  | node w l r ihl ihr =>
    rw [table]; split
    · exact (ihl (BitSlice.appendBit_wf hc ‹_›) hs).bind fun _ _ => ihr (BitSlice.appendBit_wf hc ‹_›)
    · exact .raise hs Err.noConfusion

theorem clearTable_inv : State.Inv { s with cw := Vector.replicate 256 none } := by
  obtain ⟨-, hcwacc, -⟩ := id hs
  exact hs.of_table hcwacc (fun _ _ hx => absurd hx (cwAt_ne_some_of_replicate rfl)) rfl

theorem assignLeaves_inv : (assignLeaves s).KeepsInv := by
  refine (needTree_inv hs).bind fun t u hu => ?_
  split
  · exact .ok (hu.of_eq rfl)
  · exact .raise hu Err.noConfusion

theorem blockRead_inv (id : BlockId) : (blockRead id s).KeepsInv := by
  refine (blockRead_sat id s).mono (fun _ t ⟨ht, _⟩ => hs.of_eq (by rw [ht])) fun e t ⟨ht, he⟩ =>
    ⟨hs.of_eq (by rw [ht]), ?_⟩
  rcases he with rfl | rfl | rfl | rfl <;> nofun

theorem walkTo_inv (b : Bool) : (walkTo b s).KeepsInv := by
  refine (requireTree_inv hs).bind fun t u hu => ?_
  split
  · trivial
  · exact .raise hu Err.noConfusion
  · split
    · exact (needSymbol_inv hu _).bind fun v _ hx => (emit_inv hx v).bind fun _ _ hy => .ok (hy.of_eq rfl)
    · exact .ok (hu.of_eq rfl)

theorem walkBit_inv : (walkBit s).KeepsInv := by
  refine (requireTree_inv hs).bind fun t u hu => ?_
  split
  · trivial
  · exact (readBit_inv hu).bind fun b _ hv => (walkTo_inv hv b).bind fun _ _ hw => .ok (hw.of_eq rfl)

theorem padHeader_inv (v : Byte) : (padHeader v s).KeepsInv := by
  unfold padHeader; split
  · exact .raise hs Err.noConfusion
  · simp only; split
    · exact .raise (hs.of_eq rfl) Err.noConfusion
    · exact .ok (hs.of_eq rfl)

theorem bodyHeader_inv : (bodyHeader s).KeepsInv :=
  (requireTree_inv hs).bind fun _ _ hu => (padHeader_inv hu _).bind fun _ _ hv =>
    .ok ((newReader_inv hv (.pay 1)).of_eq rfl)

omit hs in
theorem walkSteps_inv (n : Nat) {s : State} (hs : s.Inv) : (walkSteps n s).KeepsInv := by
  induction n generalizing s with
  | zero => exact hs
  | succ n ih => exact (walkBit_inv hs).bind fun _ _ => ih

theorem writeCmd_inv (mode : BitVec 1) (first : Phase) : (writeCmd mode first s).KeepsInv := by
  unfold writeCmd; split
  · exact .ok hs
  · exact .ok (startCall_inv mode first s)

/-! ### Every operation -/

/-- Every well-formed operation keeps the invariant at its end. -/
theorem exec_keepsInv {i : Instr} (hi : i.wf = true) :
    ∃ (α : Type) (r : Res α), exec i s = settle s r ∧ r.KeepsInv := by
  cases i with
  | encode => exact ⟨_, _, rfl, writeCmd_inv hs 0 .eRead⟩
  | decode => exact ⟨_, _, rfl, writeCmd_inv hs 1 .dBlk0⟩
  | blkShape =>
    exact ⟨_, _, rfl, (readShape_inv (newReader_inv hs _)).bind fun t _ hu => .ok (newReader_inv (hu.of_eq rfl) _)⟩
  | blkLeaves => exact ⟨_, _, rfl, (assignLeaves_inv hs).bind fun _ _ hu => .ok (hu.of_eq rfl)⟩
  | blkData => exact ⟨_, _, rfl, (bodyHeader_inv hs).bind fun _ _ => walkSteps_inv _⟩
  | sLeaf => exact ⟨_, _, rfl, (shapeLeaf_inv hs).bind fun _ _ hu => .ok (hu.of_eq rfl)⟩
  | sInternal => exact ⟨_, _, rfl, (shapeInternal_inv hs).bind fun _ _ hu => .ok (hu.of_eq rfl)⟩
  | pLeft => exact ⟨_, _, rfl, walkTo_inv hs false⟩
  | pRight => exact ⟨_, _, rfl, walkTo_inv hs true⟩
  | padcnt p => exact ⟨_, _, rfl, padHeader_inv hs _⟩
  | bsAppendBit r b =>
    refine ⟨_, _, rfl, ?_⟩
    split
    · exact .raise hs Err.noConfusion
    · exact .ok (hs.setSlice r (BitSlice.appendBit_wf (hs.slice_wf r) ‹_›))
  | bsAppendSlice r x =>
    refine ⟨_, _, rfl, sliceOperand_bind_inv hs hi fun t ht => ?_⟩
    split
    · exact .raise hs Err.noConfusion
    · exact .ok (hs.setSlice r (BitSlice.appendSlice_wf (hs.slice_wf r) ht ‹_›))
  | bsPadToByte r =>
    exact ⟨Unit, .ok () _, rfl, .ok ((hs.setSlice r (BitSlice.padToByte_wf (hs.slice_wf r))).of_eq rfl)⟩
  | bsPopByte r =>
    refine ⟨_, _, rfl, ?_⟩
    split
    · trivial
    · exact .ok ((hs.setSlice r (BitSlice.popByte_eq_some (hs.slice_wf r) ‹_›).1).of_eq rfl)
  | brReadBit => exact ⟨_, _, rfl, (readBit_inv hs).bind fun _ _ hu => .ok (hu.of_eq rfl)⟩
  | brCountUnflushedBits => exact ⟨Unit, .ok () _, rfl, .ok (hs.of_eq rfl)⟩
  | brFlushBits => exact ⟨Unit, .ok () _, rfl, .ok (hs.of_reader (fun _ => Nat.zero_le 7) rfl)⟩
  | bwWriteBit b => exact ⟨_, _, rfl, writeBit_inv hs b⟩
  | bwWriteSlice x => exact ⟨_, _, rfl, sliceOperand_bind_inv hs hi fun _ => writeSlice_inv hs⟩
  | bwCountPaddingBits => exact ⟨Unit, .ok () _, rfl, .ok (hs.of_eq rfl)⟩
  | bwWritePaddingBits => exact ⟨_, _, rfl, writePaddingBits_inv hs⟩
  | tCount => exact ⟨Unit, .ok () _, rfl, .ok (hs.of_eq rfl)⟩
  | tBuild =>
    refine ⟨_, _, rfl, ?_⟩
    split
    · exact .ok (hs.of_eq rfl)
    · exact .raise hs Err.noConfusion
  | tWriteShape => exact ⟨_, _, rfl, (needTree_inv hs).bind fun t _ => writeShape_inv t⟩
  | tWriteLeaves => exact ⟨_, _, rfl, (needTree_inv hs).bind fun t _ => writeLeaves_inv t⟩
  | tBuildTable => exact ⟨_, _, rfl, (needTree_inv hs).bind fun t _ hu => table_inv t rfl (clearTable_inv hu)⟩
  | tReadShape => exact ⟨_, _, rfl, (readShape_inv hs).bind fun _ _ hu => .ok (hu.of_eq rfl)⟩
  | tAssignLeaves => exact ⟨_, _, rfl, assignLeaves_inv hs⟩
  | blkWrite id => exact ⟨_, _, rfl, emitAll_inv _ hs⟩
  | blkRead e => exact ⟨_, _, rfl, blockRead_inv hs e⟩
  | dWalkBit => exact ⟨_, _, rfl, walkBit_inv hs⟩

theorem exec_inv {i : Instr} (hi : i.wf = true) {t : State} (h : exec i s = .next t) : t.Inv := by
  obtain ⟨α, r, hx, hr⟩ := exec_keepsInv hs hi
  exact hr.next hs (hx ▸ h)

/-! ### Taken up again, and the sequence -/

/-- R43: what waits started from a canonical accumulator and reader. -/
theorem takeUp_inv : s.takeUp.Inv := by
  unfold State.takeUp; split
  · exact hs
  · rename_i h hh
    obtain ⟨-, hcwacc, hcw, -, hok, hfault, hheld⟩ := hs
    have hwf := hheld h hh
    simp only [Held.wf, Bool.and_eq_true, decide_eq_true_eq] at hwf
    obtain ⟨⟨hacc, hrem⟩, -⟩ := hwf
    exact ⟨hacc, hcwacc, hcw, hrem, hok, hfault, nofun⟩

theorem rejoin_inv (v : State) : (v.rejoin s).Inv := by
  unfold State.rejoin; split
  · exact hs
  · exact hs.of_eq rfl

/-- What waits is marked as a well-formed operation that is no command. -/
theorem keepJob_inv {i : Instr} (hw : i.wf = true) (hi : i.isCommand = false) : (s.keepJob i).Inv := by
  obtain ⟨hacc, hcwacc, hcw, hrem, hok, hfault, hheld⟩ := hs
  refine ⟨hacc, hcwacc, hcw, hrem, hok, hfault, fun h hh => ?_⟩
  obtain ⟨d, hd, rfl⟩ := Option.map_eq_some_iff.1 hh
  have hwf := hheld d hd
  simp only [Held.wf, Bool.and_eq_true] at hwf
  obtain ⟨hstart, -⟩ := hwf
  simp [Held.wf, hstart, hw, hi]

/-- R174: a new writer is empty. -/
theorem prepare_inv : (prepare s).Inv := by
  unfold prepare; split
  · split
    · exact hs.of_writer rfl rfl
    · exact hs
  · split
    · exact hs.of_eq rfl
    · exact hs
  all_goals exact hs

theorem retired_inv : s.retired.Inv := by
  unfold State.retired; split
  · exact hs
  · split
    · rcases advance_cases s with h | ⟨q, -, h⟩ | ⟨n, k, c, p, h⟩ <;> rw [h] <;> exact hs.of_eq rfl
    · exact hs

omit hs in
/-- The one slice operand that the sequencer issues is a table entry (R178). -/
theorem nextOp_wf {i : Instr} (h : nextOp s = some i) : i.wf = true := by
  cases hp : s.phase <;> simp only [nextOp, hp, reduceCtorEq, Option.some.injEq] at h
  case eData =>
    split at h
    · cases h
    · split at h
      · split at h <;> cases h <;> rfl
      · cases h; split <;> rfl
  case dBody =>
    split at h
    · cases h
    · split at h <;> cases h; rfl
  all_goals subst h
  case eShape =>
    split
    · rfl
    · split <;> rfl
  case eLeaves => split <;> rfl
  all_goals rfl

theorem ownAction_inv : (ownAction s).KeepsInv := by
  cases hp : s.phase <;> simp only [ownAction, hp]
  case eRead =>
    refine (srcRead_inv hs).bind fun a t ht => ?_
    cases a with
    | eos => exact .ok (ht.of_eq rfl)
    | ioFail => exact .raise ht Err.noConfusion
    | byte v =>
      simp only; split
      · trivial
      · split
        · exact .ok (ht.of_eq rfl)
        · exact .raise ht Err.noConfusion
  case eData =>
    exact (payAppend_inv (hs.of_eq rfl) 0).bind fun _ _ ht => .ok (ht.of_writer rfl rfl)
  case eEnd | dEnd => exact .ok hs.endCall
  case dBody =>
    split
    · exact (bodyHeader_inv hs).bind fun _ _ ht => .ok (ht.of_eq rfl)
    · exact .ok (hs.of_eq rfl)
  case dTail =>
    refine (srcRead_inv hs).bind fun a t ht => ?_
    cases a with
    | eos => exact .ok (ht.of_eq rfl)
    | ioFail => exact .raise ht Err.noConfusion
    | byte v => exact .raise ht Err.noConfusion
  all_goals exact .ok hs

/-- R13: a step of the block by itself. -/
theorem sequencerStep_inv {t : State} (h : sequencerStep s = .next t) : t.Inv := by
  unfold sequencerStep at h
  split at h
  · obtain ⟨u, hu, rfl⟩ := mapNext_eq_next.1 h
    refine rejoin_inv ?_ s
    split at hu
    · rename_i i hi
      obtain ⟨v, hv, rfl⟩ := mapNext_eq_next.1 hu
      exact retired_inv (exec_inv (prepare_inv (takeUp_inv hs)) (nextOp_wf hi) hv)
    · exact (ownAction_inv (takeUp_inv hs)).next (takeUp_inv hs) hu
  · cases h; exact hs

/-- A requested operation, run from its start or taken up again. -/
theorem runJob_inv {i : Instr} (hw : i.wf = true) (hi : i.isCommand = false) {t : State} (h : runJob i s = .next t) :
    t.Inv := by
  obtain ⟨u, hu, rfl⟩ := mapNext_eq_next.1 h
  exact rejoin_inv (keepJob_inv (exec_inv (takeUp_inv hs) hw hu) hw hi) s

theorem goOn_inv {t : State} (h : goOn s = .next t) : t.Inv := by
  unfold goOn at h
  split at h
  · rename_i i hj
    obtain ⟨d, hd, hdj⟩ := Option.bind_eq_some_iff.1 hj
    obtain ⟨-, -, -, -, -, -, hheld⟩ := id hs
    have hwf := hheld d hd
    simp only [Held.wf, hdj, Option.all_some, Bool.and_eq_true, Bool.not_eq_true'] at hwf
    obtain ⟨-, hw, hi⟩ := hwf
    exact runJob_inv hs hw hi h
  · exact sequencerStep_inv hs h

theorem step_inv {t : State} (h : step s = .next t) : t.Inv := by
  cases step_stepTo h with
  | goesOn hs' _ h => exact goOn_inv (s := { s with host := hs' }) (hs.of_eq rfl) h
  | command f r i hs' _ hd _ h => exact exec_inv (s := { s with host := hs' }) (hs.of_eq rfl) (decode_wf hd) h
  | unit f r i hs' _ hd hi _ h => exact runJob_inv (s := { s with host := hs' }) (hs.of_eq rfl) (decode_wf hd) hi h
  | bind a b hs' _ h => subst h; exact hs.of_eq rfl
  | reset hs' _ h => subst h; exact resetBlock_inv _
  | await hs' _ _ h => subst h; exact hs.of_eq rfl

end

end Machine
end Sys2Proof

/-! ### The settled statement -/

open Sys2Proof Sys2Proof.Machine

/-- Settles O52: whatever a step runs, every operation in it ends in a state that meets the invariant, and waiting, going
on and the sequence's own moves keep it. -/
theorem stepKeepsInvariant : Obligations.StepKeepsInvariant := fun _ _ hs => step_inv hs
end

section
/-! PROOFS. The operations on bit slices (`40_bitslice.md` R92 to R98): what each answers, and the four laws. -/

namespace Sys2Proof

/-! ### The operations by cases -/

theorem BitSlice.appendBit_of_lt {s : BitSlice} (h : s.length < 64) (b : Bool) :
    s.appendBit b = some ⟨s.length + 1, (s.bits <<< 1) ||| BitVec.ofNat 64 b.toNat⟩ := if_pos h

theorem BitSlice.appendBit_full {s : BitSlice} (h : 64 ≤ s.length) (b : Bool) : s.appendBit b = none :=
  if_neg (Nat.not_lt.2 h)

theorem BitSlice.appendSlice_of_le {s t : BitSlice} (h : s.length + t.length ≤ 64) :
    s.appendSlice t =
      some ⟨s.length + t.length, BitVec.ofNat 64 (s.bits.toNat * 2 ^ t.length) ||| t.bits⟩ := if_pos h

theorem BitSlice.appendSlice_of_gt {s t : BitSlice} (h : 64 < s.length + t.length) : s.appendSlice t = none :=
  if_neg (Nat.not_le.2 h)

theorem BitSlice.popByte_of_le {s : BitSlice} (h : 8 ≤ s.length) :
    s.popByte = some (BitVec.ofNat 8 (s.bits.toNat / 2 ^ (s.length - 8)),
      ⟨s.length - 8, BitVec.ofNat 64 (s.bits.toNat % 2 ^ (s.length - 8))⟩) := if_pos h

/-! ### The operations on sequences -/

/-- R92: the sequence is extended by the bit. -/
theorem BitSlice.seq_appendBit {s u : BitSlice} {b : Bool} (hs : s.wf = true) (h : s.appendBit b = some u) :
    u.seq = s.seq ++ [b] := by
  obtain ⟨q, hq, rfl⟩ := BitSlice.wf_iff.1 hs
  rw [BitSlice.appendBit_ofBits] at h
  split at h <;> cases h
  rw [BitSlice.seq_ofBits hq, BitSlice.seq_ofBits (by simp; omega)]

/-- R93: the sequences are concatenated, and the operand's word stands below the shifted one. -/
theorem BitSlice.appendSlice_eq_some {s t u : BitSlice} (hs : s.wf = true) (ht : t.wf = true)
    (h : s.appendSlice t = some u) :
    u.seq = s.seq ++ t.seq ∧ u.bits.toNat = s.bits.toNat * 2 ^ t.length % 2 ^ 64 + t.bits.toNat := by
  obtain ⟨q, hq, rfl⟩ := BitSlice.wf_iff.1 hs
  obtain ⟨r, hr, rfl⟩ := BitSlice.wf_iff.1 ht
  rw [BitSlice.appendSlice_ofBits hq hr] at h
  split at h
  case isFalse => cases h
  case isTrue hle =>
    cases h
    have hqr : (q ++ r).length ≤ 64 := by simpa using hle
    have hfits : bitsNat (q ++ r) < 2 ^ 64 :=
      Nat.lt_of_lt_of_le (bitsNat_lt _) (Nat.pow_le_pow_right (by omega) hqr)
    refine ⟨by rw [BitSlice.seq_ofBits hq, BitSlice.seq_ofBits hr, BitSlice.seq_ofBits hqr], ?_⟩
    rw [bitsNat_append] at hfits
    rw [BitSlice.ofBits_toNat hq, BitSlice.ofBits_toNat hr, BitSlice.ofBits_toNat hqr, BitSlice.ofBits_length,
      bitsNat_append, Nat.mod_eq_of_lt (by omega)]

/-- R94: zeros are appended. -/
theorem BitSlice.seq_padToByte {s : BitSlice} (hs : s.wf = true) :
    s.padToByte.seq = s.seq ++ zeros (padlen s.length) := by
  obtain ⟨q, hq, rfl⟩ := BitSlice.wf_iff.1 hs
  rw [BitSlice.padToByte_ofBits hq, BitSlice.seq_ofBits hq, BitSlice.seq_ofBits (by simpa [zeros] using padlen_fits hq),
    BitSlice.ofBits_length]

/-- R92 for each bit, on sequences. -/
theorem BitSlice.appendBits_ofBits {q : List Bool} (hq : q.length ≤ 64) (r : List Bool) :
    (BitSlice.ofBits q).appendBits r = if q.length + r.length ≤ 64 then some (BitSlice.ofBits (q ++ r)) else none := by
  induction r generalizing q with
  | nil => simp [BitSlice.appendBits, hq]
  | cons b r ih =>
    simp only [BitSlice.appendBits, BitSlice.appendBit_ofBits, List.length_cons]
    by_cases hlt : q.length < 64
    · have hlen : (q ++ [b]).length = q.length + 1 := by simp
      simp only [if_pos hlt]
      rw [ih (by omega), hlen, List.append_assoc, List.singleton_append, Nat.add_right_comm, Nat.add_assoc]
    · simp only [if_neg hlt]
      rw [if_neg (by omega)]

/-- R96: whole bytes are popped until the slice is empty. -/
theorem BitSlice.popAll_ofBits (n : Nat) {q : List Bool} (hn : q.length = 8 * n) (hq : q.length ≤ 64) :
    (BitSlice.ofBits q).popAll n = (pack q, BitSlice.empty) := by
  induction n generalizing q with
  | zero =>
    obtain rfl := List.length_eq_zero_iff.1 hn
    rfl
  | succ n ih =>
    obtain ⟨b7, b6, b5, b4, b3, b2, b1, b0, r, rfl⟩ := eight_of_le (q := q) (by omega)
    simp only [List.length_cons] at hn hq
    simp only [BitSlice.popAll]
    rw [BitSlice.popByte_ofBits _ _ _ _ _ _ _ _ (by omega)]
    simp only
    rw [ih (by omega) (by omega), pack_eight]

namespace Machine

/-! ### What the operations answer -/

theorem exec_bsAppendBit_some {r : SliceReg} {b : Bool} {s : State} {u : BitSlice}
    (h : (s.slice r).appendBit b = some u) : exec (.bsAppendBit r b) s = .next (s.setSlice r u) := by
  simp only [exec, execBsAppendBit, h, settle_ok]

theorem exec_bsAppendBit_none {r : SliceReg} {b : Bool} {s : State} (h : (s.slice r).appendBit b = none) :
    exec (.bsAppendBit r b) s = .next (s.raise .capacity) := by
  simp only [exec, execBsAppendBit, h, settle_raise]

/-- The operand's value is what the operation gets. -/
theorem sliceOperand_of_reads {s : State} {x : SliceSrc} {t : BitSlice} (h : s.reads x t) :
    sliceOperand x s = .ok t s := by
  rcases h with rfl | ⟨r, rfl, rfl⟩ | ⟨c, rfl, hc⟩
  · rfl
  · rfl
  · simp only [sliceOperand, hc]

theorem exec_bsAppendSlice_some {r : SliceReg} {x : SliceSrc} {s : State} {t u : BitSlice} (hx : s.reads x t)
    (h : (s.slice r).appendSlice t = some u) : exec (.bsAppendSlice r x) s = .next (s.setSlice r u) := by
  simp only [exec, execBsAppendSlice, sliceOperand_of_reads hx, Res.bind_ok, h, settle_ok]

theorem exec_bsAppendSlice_none {r : SliceReg} {x : SliceSrc} {s : State} {t : BitSlice} (hx : s.reads x t)
    (h : (s.slice r).appendSlice t = none) : exec (.bsAppendSlice r x) s = .next (s.raise .capacity) := by
  simp only [exec, execBsAppendSlice, sliceOperand_of_reads hx, Res.bind_ok, h, settle_raise]

theorem exec_bsPopByte_some {r : SliceReg} {s : State} {v : Byte} {u : BitSlice}
    (h : (s.slice r).popByte = some (v, u)) : exec (.bsPopByte r) s = .next ((s.setSlice r u).setRes v) := by
  simp only [exec, execBsPopByte, h, settle_ok]

theorem exec_bsPopByte_short {r : SliceReg} {s : State} (h : (s.slice r).length < 8) :
    exec (.bsPopByte r) s = .refused .popUnderflow := by
  simp only [exec, execBsPopByte, BitSlice.popByte_short h, settle_refuse]

end Machine
end Sys2Proof

/-! ### The settled statements -/

open Sys2Proof Sys2Proof.Machine

/-- Settles O10, by the capacity test of R92. -/
theorem appendBitResult : Obligations.AppendBitResult := by
  intro r b s hs
  refine ⟨fun hlt => ?_, fun hfull => exec_bsAppendBit_none (BitSlice.appendBit_full hfull.ge b)⟩
  have h := BitSlice.appendBit_of_lt hlt b
  exact ⟨_, rfl, rfl, BitSlice.appendBit_wf hs h, BitSlice.seq_appendBit hs h, exec_bsAppendBit_some h⟩

/-- Settles O11, by the capacity test of R93; the operand's form matters only to its value. -/
theorem appendSliceResult : Obligations.AppendSliceResult := by
  intro r x t s hx hs ht
  refine ⟨fun hle => ?_, fun hgt => exec_bsAppendSlice_none hx (BitSlice.appendSlice_of_gt hgt)⟩
  have h := BitSlice.appendSlice_of_le hle
  obtain ⟨hseq, hbits⟩ := BitSlice.appendSlice_eq_some hs ht h
  exact ⟨_, rfl, BitSlice.appendSlice_wf hs ht h, hbits, hseq, exec_bsAppendSlice_some hx h⟩

/-- Settles O12: `padToByte` has no failing case, `popByte` fails below eight bits. -/
theorem padAndPopResult : Obligations.PadAndPopResult := by
  intro r s hs
  refine ⟨⟨_, rfl, padlen_add _, BitSlice.padToByte_wf hs, BitSlice.seq_padToByte hs, rfl⟩, fun h8 => ?_,
    exec_bsPopByte_short⟩
  have h := BitSlice.popByte_of_le h8
  obtain ⟨hwf, hseq⟩ := BitSlice.popByte_eq_some hs h
  exact ⟨_, _, rfl, hwf, hseq, exec_bsPopByte_some h⟩

/-- Settles O13: on the slices of sequences, where the operations append and cut lists. -/
theorem sliceLaws : Obligations.SliceLaws := by
  refine ⟨fun s t hs ht => ?_, fun s hs => ?_, fun b7 b6 b5 b4 b3 b2 b1 b0 => ?_, fun s hs => ⟨?_, ?_, ?_, ?_⟩⟩
  · obtain ⟨q, hq, rfl⟩ := BitSlice.wf_iff.1 hs
    obtain ⟨r, hr, rfl⟩ := BitSlice.wf_iff.1 ht
    rw [BitSlice.seq_ofBits hr, BitSlice.appendBits_ofBits hq, BitSlice.appendSlice_ofBits hq hr]
  · have hlen : s.padToByte.length % 8 = 0 := padlen_add s.length
    obtain ⟨q, hq, he⟩ := BitSlice.wf_iff.1 (BitSlice.padToByte_wf hs)
    rw [he, BitSlice.ofBits_length] at hlen
    rw [he, BitSlice.seq_ofBits hq, BitSlice.ofBits_length]
    exact ⟨hlen, BitSlice.popAll_ofBits _ (by omega) hq⟩
  · exact ⟨_, BitSlice.appendBits_ofBits (q := []) (Nat.zero_le _) _,
      BitSlice.popByte_ofBits b7 b6 b5 b4 b3 b2 b1 b0 (r := []) (Nat.zero_le _)⟩
  · exact fun b u h => BitSlice.seq_appendBit hs h ▸ List.prefix_append _ _
  · exact fun t u ht h => (BitSlice.appendSlice_eq_some hs ht h).1 ▸ List.prefix_append _ _
  · exact BitSlice.seq_padToByte hs ▸ List.prefix_append _ _
  · exact fun v u h => (BitSlice.popByte_eq_some hs h).2
end

section
/-! PROOFS. The frames of the operations on bit slices, of the bit reader, of the bit writer and of `T.writeShape`, where
no error is raised (R92 to R95, R101 to R103, R106 to R109, R140). -/

namespace Sys2Proof.Machine

/-- Where no error is raised, an operation has its value or waits. -/
theorem Res.Sat.next_of_not_fault {α : Type} {r : Res α} {s t : State} {P : α → State → Prop}
    {Q : Option Err → State → Prop} (h : r.Sat P Q) (hf : t.st ≠ .fault) (ht : settle s r = .next t) :
    (∃ a, P a t) ∨ ∃ u, Q none u ∧ t = s.suspend u := by
  rcases h.next ht with hp | ⟨e, u, -, rfl⟩ | hq
  · exact .inl hp
  · exact absurd (State.raise_st e u) hf
  · exact .inr hq

/-! ### Bit slices -/

/-- The result is in the slice itself. -/
theorem State.eq_setSlice_slice {r : SliceReg} {s t : State} (h : ∃ u, t = s.setSlice r u) :
    t = s.setSlice r (t.slice r) := by
  obtain ⟨u, rfl⟩ := h
  rw [State.slice_setSlice]

/-- The result is in the slice itself and in RES. -/
theorem State.eq_setSlice_setRes {r : SliceReg} {s t : State} (h : ∃ u v, t = (s.setSlice r u).setRes v) :
    t = (s.setSlice r (t.slice r)).setRes t.res := by
  obtain ⟨u, v, rfl⟩ := h
  cases r <;> rfl

theorem exec_bsAppendBit_frame {r : SliceReg} {b : Bool} {s t : State} (hf : t.st ≠ .fault)
    (h : exec (.bsAppendBit r b) s = .next t) : t = s.setSlice r (t.slice r) := by
  cases hu : (s.slice r).appendBit b with
  | none   => cases (exec_bsAppendBit_none hu).symm.trans h; exact absurd (State.raise_st _ s) hf
  | some u => cases (exec_bsAppendBit_some hu).symm.trans h; exact State.eq_setSlice_slice ⟨u, rfl⟩

/-- An operand that is read has a value. -/
theorem reads_of_exec_bsAppendSlice {r : SliceReg} {x : SliceSrc} {s t : State}
    (h : exec (.bsAppendSlice r x) s = .next t) : ∃ v, s.reads x v := by
  cases x with
  | reg r => exact ⟨_, .inr (.inl ⟨r, rfl, rfl⟩)⟩
  | imm v => exact ⟨v, .inl rfl⟩
  | cw c =>
    cases hc : s.cwAt c with
    | some v => exact ⟨v, .inr (.inr ⟨c, rfl, hc⟩)⟩
    | none   => simp only [exec, execBsAppendSlice, sliceOperand, hc, Res.bind_refuse, settle_refuse] at h; cases h

theorem exec_bsAppendSlice_frame {r : SliceReg} {x : SliceSrc} {s t : State} (hf : t.st ≠ .fault)
    (h : exec (.bsAppendSlice r x) s = .next t) : t = s.setSlice r (t.slice r) := by
  obtain ⟨v, hx⟩ := reads_of_exec_bsAppendSlice h
  cases hu : (s.slice r).appendSlice v with
  | none   => cases (exec_bsAppendSlice_none hx hu).symm.trans h; exact absurd (State.raise_st _ s) hf
  | some u => cases (exec_bsAppendSlice_some hx hu).symm.trans h; exact State.eq_setSlice_slice ⟨u, rfl⟩

theorem exec_bsPadToByte_frame {r : SliceReg} {s t : State} (h : exec (.bsPadToByte r) s = .next t) :
    t = (s.setSlice r (t.slice r)).setRes t.res := by
  cases h; exact State.eq_setSlice_setRes ⟨_, _, rfl⟩

theorem exec_bsPopByte_frame {r : SliceReg} {s t : State} (h : exec (.bsPopByte r) s = .next t) :
    t = (s.setSlice r (t.slice r)).setRes t.res := by
  by_cases h8 : 8 ≤ (s.slice r).length
  · cases (exec_bsPopByte_some (BitSlice.popByte_of_le h8)).symm.trans h
    exact State.eq_setSlice_setRes ⟨_, _, rfl⟩
  · cases (exec_bsPopByte_short (Nat.lt_of_not_le h8)).symm.trans h

/-! ### The bit reader -/

/-- A read changes the reader and its origin's source, and besides at most RES and what waits. -/
theorem ReaderStep.frame {s t : State} (h : ReaderStep s t) (v : Byte) (d : Option Held) :
    { t with res := v, held := d } =
      { s with br := t.br, res := v, src := t.src, srcEos := t.srcEos, held := d } := by
  obtain ⟨he, -⟩ := h
  exact congrArg (fun w : State => { w with res := v, held := d }) he

theorem exec_brReadBit_frame {s t : State} (hf : t.st ≠ .fault) (h : exec .brReadBit s = .next t) :
    t = { s with br := t.br, res := t.res, src := t.src, srcEos := t.srcEos, held := t.held } ∧
      ∀ p, s.br.origin = .pay p → t.src = s.src ∧ t.srcEos = s.srcEos ∧ t.held = s.held := by
  have hsat := Res.Sat.bind (readBit_sat s) (k := fun b u => Res.ok () (u.setRes (BitVec.ofNat 8 b.toNat)))
    (P' := fun _ t => ∃ u v, ReaderStep s u ∧ t = u.setRes v)
    (fun b u hu => ⟨u, _, hu.1, rfl⟩) fun _ _ => id
  rcases hsat.next_of_not_fault hf h with ⟨-, u, v, hu, rfl⟩ | ⟨u, ⟨hu, -, he⟩, rfl⟩
  · have hh : u.held = s.held := by rw [hu.1]
    refine ⟨hu.frame v u.held, fun p hp => ?_⟩
    obtain ⟨hsrc, heos, -⟩ := hu.2 p hp
    exact ⟨hsrc, heos, hh⟩
  · refine ⟨hu.frame u.res _, fun p hp => ?_⟩
    rcases he with he | ⟨-, hne⟩
    · cases he
    · exact absurd hp (hne p)

/-! ### The bit writer -/

/-- A write changes the accumulator and its destination, and besides at most what waits. -/
theorem WriterStep.frame {s t : State} (h : WriterStep s t) (hc : t.freeCtr = s.freeCtr) (d : Option Held) :
    { t with held := d } = { s.setAcc t.bw.acc with pay := t.pay, snk := t.snk, out := t.out, held := d } := by
  obtain ⟨he, -⟩ := h
  rw [hc] at he
  exact congrArg (fun w : State => { w with held := d }) he

/-- R105: PAY is stored to at PAYLEN and above only. -/
theorem WriterStep.pay_below {s t : State} (h : WriterStep s t) {k : Nat} (hk : k < s.pay.length) :
    t.pay[k]? = s.pay[k]? := by
  obtain ⟨-, ⟨x, hx⟩, -⟩ := h
  rw [← hx, List.getElem?_append_left hk]

/-- The operations that write bits, all of them through the writer alone; they wait for the sink only. -/
theorem exec_writer {i : Instr} {s : State}
    (hi : i = .bwWritePaddingBits ∨ i = .tWriteShape ∨ (∃ b, i = .bwWriteBit b) ∨ ∃ x, i = .bwWriteSlice x) :
    ∃ r : Res Unit, exec i s = settle s r ∧
      r.Sat (fun _ t => WriterStep s t) fun e t => WriterStep s t ∧ (e = none → s.bw.dest = .snk) := by
  rcases hi with rfl | rfl | ⟨b, rfl⟩ | ⟨x, rfl⟩
  · refine ⟨_, rfl, (writePaddingBits_sat s).mono (fun _ _ h => h.1) fun e t h => ⟨h.1, ?_⟩⟩
    rintro rfl; simpa using h.2
  · refine ⟨_, rfl, Res.Sat.bind (needTree_sat s) (fun tr u hu => ?_) fun e u hu => ?_⟩
    · obtain ⟨rfl, -⟩ := hu
      refine (writeShape_sat tr u).mono (fun _ _ h => h.1) fun e t h => ⟨h.1, ?_⟩
      rintro rfl; simpa using h.2
    · obtain ⟨rfl, rfl, -⟩ := hu
      exact ⟨WriterStep.refl u, nofun⟩
  · refine ⟨_, rfl, (writeBit_sat b s).mono (fun _ _ h => h.1) fun e t h => ⟨h.1, ?_⟩⟩
    rintro rfl; simpa using h.2
  · refine ⟨_, rfl, Res.Sat.bind (sliceOperand_sat x s) (fun v u hu => ?_) fun _ _ => False.elim⟩
    subst hu
    refine (writeSlice_sat v u).mono (fun _ _ h => h.1) fun e t h => ⟨h.1, ?_⟩
    rintro rfl; simpa using h.2

theorem exec_writer_frame {i : Instr} {s t : State}
    (hi : i = .bwWritePaddingBits ∨ i = .tWriteShape ∨ (∃ b, i = .bwWriteBit b) ∨ ∃ x, i = .bwWriteSlice x)
    (hf : t.st ≠ .fault) (h : exec i s = .next t) :
    t = { s.setAcc t.bw.acc with pay := t.pay, snk := t.snk, out := t.out, held := t.held } ∧
      (∀ k, k < s.pay.length → t.pay[k]? = s.pay[k]?) ∧
      (s.bw.dest = .pay → t.snk = s.snk ∧ t.out = s.out ∧ t.held = s.held) ∧
      (s.bw.dest = .snk → t.pay = s.pay) := by
  have hcmd : i.isCommand = false := by rcases hi with rfl | rfl | ⟨b, rfl⟩ | ⟨x, rfl⟩ <;> rfl
  have hc : t.freeCtr = s.freeCtr := exec_freeCtr hcmd h hf
  obtain ⟨r, hx, hr⟩ := exec_writer hi
  rcases hr.next_of_not_fault hf (hx ▸ h) with ⟨-, hw⟩ | ⟨u, ⟨hw, hd⟩, rfl⟩
  · have hh : t.held = s.held := by rw [hw.1]
    refine ⟨hw.frame hc _, fun _ => hw.pay_below, ?_⟩
    obtain ⟨-, -, -, hpay, hsnk⟩ := hw
    refine ⟨fun e => ?_, hsnk⟩
    obtain ⟨hs, ho, -⟩ := hpay e
    exact ⟨hs, ho, hh⟩
  · refine ⟨hw.frame hc _, fun _ => hw.pay_below, fun e => ?_, ?_⟩
    · cases e.symm.trans (hd rfl)
    · obtain ⟨-, -, -, -, hsnk⟩ := hw
      exact hsnk

end Sys2Proof.Machine

/-! ### The settled statement -/

open Sys2Proof Sys2Proof.Machine

/-- Settles O45: each operation's ends, with the error left out, are changes of its own elements. -/
theorem bitOperationFrame : Obligations.BitOperationFrame := by
  intro s t _ hf
  refine ⟨fun r b => exec_bsAppendBit_frame hf, fun r x => exec_bsAppendSlice_frame hf,
    fun r => exec_bsPadToByte_frame, fun r => exec_bsPopByte_frame, exec_brReadBit_frame hf, ?_, ?_, ?_,
    fun i hi => exec_writer_frame hi hf⟩
  all_goals intro h; cases h; rfl
end

section
/-! PROOFS. Where operations stop by name or raise ERR_NO_TREE (R95, R199, R196, R178, R14, R35, R218; log 10, log 20):
how each of them comes to the place where it needs what is missing. -/

namespace Sys2Proof

/-! ### Places in a tree -/

@[simp] theorem Tree.nodeAt_nil (t : Tree) : t.nodeAt [] = some t := by cases t <;> rfl

@[simp] theorem Tree.nodeAt_left (w : Weight) (l r : Tree) (p : List Bool) :
    (Tree.node w l r).nodeAt (false :: p) = l.nodeAt p := rfl

@[simp] theorem Tree.nodeAt_right (w : Weight) (l r : Tree) (p : List Bool) :
    (Tree.node w l r).nodeAt (true :: p) = r.nodeAt p := rfl

@[simp] theorem Tree.nodeAt_below_leaf (w : Weight) (x : Option Byte) (b : Bool) (p : List Bool) :
    (Tree.leaf w x).nodeAt (b :: p) = none := by cases b <;> rfl

/-- A path leads on from where its front leads to. -/
theorem Tree.nodeAt_append (t : Tree) (p q : List Bool) : t.nodeAt (p ++ q) = (t.nodeAt p).bind (·.nodeAt q) := by
  induction p generalizing t with
  | nil => simp
  | cons b p ih =>
    cases t with
    | leaf w x => simp
    | node w l r => cases b <;> simp [ih]

/-- R201, R202: one bit further from an internal node. -/
theorem Tree.nodeAt_append_bit {t l r : Tree} {p : List Bool} {w : Weight} (h : t.nodeAt p = some (.node w l r))
    (b : Bool) : t.nodeAt (p ++ [b]) = some (if b then r else l) := by
  rw [Tree.nodeAt_append, h]
  cases b <;> simp

/-- The only node of a leaf is the leaf itself. -/
theorem Tree.nodeAt_leaf {w : Weight} {x : Option Byte} {p : List Bool} {n : Tree}
    (h : (Tree.leaf w x).nodeAt p = some n) : p = [] ∧ n = .leaf w x := by
  cases p with
  | nil => simpa [eq_comm] using h
  | cons b p => simp at h

/-- Above an internal node stands an internal node: the root. -/
theorem Tree.root_of_nodeAt {t l r : Tree} {p : List Bool} {w : Weight} (h : t.nodeAt p = some (.node w l r)) :
    ∃ w' l' r', t = .node w' l' r' := by
  cases t with
  | node w' l' r' => exact ⟨w', l', r', rfl⟩
  | leaf w' x => exact nomatch (Tree.nodeAt_leaf h).2

/-! ### What the walk emits, bit by bit -/

theorem walkOutput_leaf {t : Tree} {cur : List Bool} {b : Bool} {w : Weight} {v : Byte}
    (h : t.nodeAt (cur ++ [b]) = some (.leaf w (some v))) (bs : List Bool) :
    walkOutput t cur (b :: bs) = (v :: (walkOutput t [] bs).1, (walkOutput t [] bs).2) := by
  rw [walkOutput, h]

theorem walkOutput_node {t l r : Tree} {cur : List Bool} {b : Bool} {w : Weight}
    (h : t.nodeAt (cur ++ [b]) = some (.node w l r)) (bs : List Bool) :
    walkOutput t cur (b :: bs) = walkOutput t (cur ++ [b]) bs := by
  rw [walkOutput, h]

namespace Machine

/-! ### The tree that an operation needs -/

theorem needTree_some {s : State} {t : Tree} (h : s.tree = some t) : needTree s = .ok t s := by
  simp only [needTree, h]

theorem needTree_none {s : State} (h : s.tree = none) : needTree s = .raise .noTree s := by
  simp only [needTree, h]

theorem requireTree_some {s : State} {t : Tree} (hv : s.treeValid = true) (h : s.tree = some t) :
    requireTree s = .ok t s := by
  rw [requireTree, if_pos hv, needTree_some h]

theorem requireTree_none {s : State} (h : s.treeValid = false ∨ s.tree = none) :
    requireTree s = .raise .noTree s := by
  cases hv : s.treeValid with
  | false => rw [requireTree, if_neg (by simp [hv])]
  | true  => rw [requireTree, if_pos hv, needTree_none (h.resolve_left (by simp [hv]))]

/-! ### Leaves without a symbol: T.writeLeaves and T.buildTable -/

/-- R143 on the symbols alone: each in turn to PAY. -/
def putSymbols : List (Option Byte) → Act Unit
  | [],      s => .ok () s
  | x :: xs, s => (needSymbol x s).bind fun v t => (payAppend v t).bind fun _ u => putSymbols xs u

theorem putSymbols_append (xs ys : List (Option Byte)) (s : State) :
    putSymbols (xs ++ ys) s = (putSymbols xs s).bind fun _ t => putSymbols ys t := by
  induction xs generalizing s with
  | nil => rfl
  | cons x xs ih => simp only [List.cons_append, putSymbols, ih, Res.bind_assoc]

/-- `T.writeLeaves` is the symbols in preorder (R65). -/
theorem writeLeaves_eq_putSymbols (t : Tree) (s : State) : writeLeaves t s = putSymbols t.symbols s := by
  induction t generalizing s with
  | leaf w x =>
    cases x with
    | none   => rfl
    | some v =>
      simp only [writeLeaves, Tree.symbols, putSymbols, needSymbol, Res.bind_ok]
      cases payAppend v s <;> rfl
  | node w l r ihl ihr => simp only [writeLeaves, Tree.symbols, putSymbols_append, ihl, ihr]

/-- The first unset symbol is a fault, once those before it are written. -/
theorem putSymbols_unset (vs : List Byte) (rest : List (Option Byte)) {s : State}
    (h : vs = [] ∨ s.payRoom vs.length) : putSymbols (vs.map some ++ none :: rest) s = .fault .unsetSymbol := by
  induction vs generalizing s with
  | nil => rfl
  | cons v vs ih =>
    have hroom : s.payRoom (vs.length + 1) := h.resolve_left (List.cons_ne_nil v vs)
    have h1 : s.payRoom 1 := fun c hc => by have := hroom c hc; omega
    simp only [List.map_cons, List.cons_append, putSymbols, needSymbol, Res.bind_ok, payAppend_run h1]
    exact ih (.inr fun c hc => by
      have := hroom c hc
      simp only [List.length_append, List.length_singleton]; omega)

/-- R146: a codeword of fewer than 64 bits is passed on to both children. -/
theorem table_node {w : Weight} {l r : Tree} {q : List Bool} (hq : q.length < 64) (s : State) :
    table (.node w l r) (BitSlice.ofBits q) s =
      (table l (BitSlice.ofBits (q ++ [false])) s).bind fun _ u => table r (BitSlice.ofBits (q ++ [true])) u := by
  simp only [table, BitSlice.appendBit_ofBits, if_pos hq]

/-- R146: on a tree with its symbols, whose codewords fit, the table is built. -/
theorem table_complete {t : Tree} (hc : t.complete = true) {q : List Bool} (hq : q.length + t.depth ≤ 64) (s : State) :
    ∃ u, table t (BitSlice.ofBits q) s = .ok () u := by
  induction t generalizing q s with
  | leaf w x =>
    obtain ⟨v, rfl⟩ := Option.isSome_iff_exists.1 hc
    exact ⟨_, rfl⟩
  | node w l r ihl ihr =>
    simp only [Tree.complete, Bool.and_eq_true] at hc
    simp only [Tree.depth] at hq
    obtain ⟨u, hu⟩ := ihl hc.1 (q := q ++ [false]) (by simp; omega) s
    rw [table_node (by omega), hu]
    exact ihr hc.2 (by simp; omega) u

/-- On a tree with an unset symbol, whose codewords fit, the leaf without one is reached. -/
theorem table_incomplete {t : Tree} (hc : t.complete = false) {q : List Bool} (hq : q.length + t.depth ≤ 64)
    (s : State) : table t (BitSlice.ofBits q) s = .fault .unsetSymbol := by
  induction t generalizing q s with
  | leaf w x =>
    obtain rfl : x = none := by simpa [Tree.complete] using hc
    rfl
  | node w l r ihl ihr =>
    simp only [Tree.complete, Bool.and_eq_false_iff] at hc
    simp only [Tree.depth] at hq
    have hl : (q ++ [false]).length + l.depth ≤ 64 := by simp; omega
    have hr : (q ++ [true]).length + r.depth ≤ 64 := by simp; omega
    rw [table_node (by omega)]
    cases hlc : l.complete with
    | false => rw [ihl hlc hl]; rfl
    | true =>
      obtain ⟨u, hu⟩ := table_complete hlc hl s
      rw [hu]
      exact ihr (hc.resolve_left (by simp [hlc])) hr u

/-! ### The moves of the walk -/

section
variable {t l r : Tree} {s : State} (hv : s.treeValid = true) (ht : s.tree = some t)
include hv ht

theorem walkTo_dangling (hn : t.nodeAt s.cur = none) (b : Bool) : walkTo b s = .fault .danglingCursor := by
  simp only [walkTo, requireTree_some hv ht, Res.bind_ok, hn]

variable {w u : Weight} (hn : t.nodeAt s.cur = some (.node w l r)) {b : Bool}
include hn

theorem walkTo_unset (hc : (if b then r else l) = .leaf u none) : walkTo b s = .fault .unsetSymbol := by
  simp only [walkTo, requireTree_some hv ht, Res.bind_ok, hn, hc, needSymbol, Res.bind_fault]

/-- R200: a leaf reached gives its symbol to the sink. -/
theorem walkTo_leaf {v : Byte} (hc : (if b then r else l) = .leaf u (some v)) {k : List SnkAns} (hk : s.snk = .ok :: k) :
    walkTo b s = .ok () { s with snk := k, out := s.out ++ [v], cur := [] } := by
  simp only [walkTo, requireTree_some hv ht, Res.bind_ok, hn, hc, needSymbol, emit_ok v hk]

theorem walkTo_node {l' r' : Tree} (hc : (if b then r else l) = .node u l' r') :
    walkTo b s = .ok () { s with cur := s.cur ++ [b] } := by
  simp only [walkTo, requireTree_some hv ht, Res.bind_ok, hn, hc]

end

/-! ### The walk over the bits ahead -/

/-- The walk has its tree, and a reader bound to PAY with these bits ahead. -/
structure Walking (t : Tree) (bits : List Bool) (s : State) : Prop where
  valid  : s.treeValid = true
  tree   : s.tree = some t
  origin : ∃ p, s.br.origin = .pay p
  bits   : s.readerBits = bits

/-- R199: one step of the walk is the move for the first of the bits ahead. -/
theorem Walking.walkBit {t : Tree} {b : Bool} {bits : List Bool} {s : State} (h : Walking t (b :: bits) s)
    (hr : 0 < s.remaining) :
    ∃ br, Walking t bits { s with br := br } ∧
      walkBit s = (walkTo b { s with br := br }).bind fun _ u => .ok () { u with remaining := u.remaining - 1 } := by
  obtain ⟨p, hp⟩ := h.origin
  obtain ⟨br, p', hread, hp', hbits⟩ := readBit_run hp h.bits
  refine ⟨br, ⟨h.valid, h.tree, ⟨p', hp'⟩, hbits⟩, ?_⟩
  simp only [Machine.walkBit, requireTree_some h.valid h.tree, Res.bind_ok, if_neg (Nat.pos_iff_ne_zero.1 hr), hread]

/-- A step that moves to no node or to a leaf without a symbol stops where the move stops. -/
theorem Walking.walkBit_fault {t : Tree} {b : Bool} {bits : List Bool} {s : State} (h : Walking t (b :: bits) s)
    (hr : 0 < s.remaining) {f : Fault} (hf : ∀ br, walkTo b { s with br := br } = .fault f) :
    Machine.walkBit s = .fault f := by
  obtain ⟨br, -, hw⟩ := h.walkBit hr
  rw [hw, hf, Res.bind_fault]

/-- R203: the walk stops at the first leaf without a symbol, once the symbols before it are in the sink. -/
theorem walkSteps_unset {t : Tree} (pre post : List Bool) {b : Bool} {w : Weight} {k : List SnkAns} {n : Nat} {s : State}
    (h : Walking t (pre ++ b :: post) s) (hc : ∃ w l r, t.nodeAt s.cur = some (.node w l r))
    (hrem : pre.length < s.remaining) (hn : pre.length < n)
    (hleaf : t.nodeAt ((walkOutput t s.cur pre).2 ++ [b]) = some (.leaf w none))
    (hsnk : s.snk = List.replicate (walkOutput t s.cur pre).1.length .ok ++ k) :
    walkSteps n s = .fault .unsetSymbol := by
  obtain ⟨w₀, l, r, hcur⟩ := hc
  obtain ⟨n, rfl⟩ := Nat.exists_eq_add_one_of_ne_zero (Nat.ne_zero_of_lt hn)
  rw [walkSteps]
  induction pre generalizing s n w₀ l r with
  | nil =>
    have hnext := Option.some.inj ((Tree.nodeAt_append_bit hcur b).symm.trans hleaf)
    rw [h.walkBit_fault hrem fun br => walkTo_unset (s := { s with br := br }) h.valid h.tree hcur hnext, Res.bind_fault]
  | cons c pre ih =>
    simp only [List.length_cons] at hrem hn
    have hnext := Tree.nodeAt_append_bit hcur c
    cases hx : if c then r else l with
    | leaf u x =>
      rw [hx] at hnext
      cases x with
      | none =>
        rw [h.walkBit_fault (by omega) fun br => walkTo_unset (s := { s with br := br }) h.valid h.tree hcur hx,
          Res.bind_fault]
      | some v =>
        rw [walkOutput_leaf hnext] at hleaf hsnk
        simp only [List.length_cons, List.replicate_succ, List.cons_append] at hsnk
        obtain ⟨br, hw, hstep⟩ := h.walkBit (by omega)
        obtain ⟨w', l', r', rfl⟩ := Tree.root_of_nodeAt hcur
        obtain ⟨n, rfl⟩ := Nat.exists_eq_add_one_of_ne_zero (n := n) (by omega)
        rw [hstep, walkTo_leaf (s := { s with br := br }) h.valid h.tree hcur hx hsnk, Res.bind_ok, Res.bind_ok,
          walkSteps]
        refine ih ?_ ?_ hleaf rfl w' l' r' (Tree.nodeAt_nil _) n (by omega)
        · exact ⟨hw.valid, hw.tree, hw.origin, hw.bits⟩
        · simp only; omega
    | node u l' r' =>
      rw [hx] at hnext
      rw [walkOutput_node hnext] at hleaf hsnk
      obtain ⟨br, hw, hstep⟩ := h.walkBit (by omega)
      obtain ⟨n, rfl⟩ := Nat.exists_eq_add_one_of_ne_zero (n := n) (by omega)
      rw [hstep, walkTo_node (s := { s with br := br }) h.valid h.tree hcur hx, Res.bind_ok, Res.bind_ok, walkSteps]
      refine ih ?_ ?_ hleaf hsnk u l' r' hnext n (by omega)
      · exact ⟨hw.valid, hw.tree, hw.origin, hw.bits⟩
      · simp only; omega

/-- R197, R198: the walk begins at the root, over the payload after its padding count. -/
theorem bodyHeader_run {t : Tree} {s : State} {pad : Byte} {packed : List Byte} (hv : s.treeValid = true)
    (ht : s.tree = some t) (hpay : s.pay = pad :: packed) (h7 : pad.toNat ≤ 7)
    (hfit : pad.toNat ≤ 8 * packed.length) :
    bodyHeader s =
      .ok () { s with
        padcnt := pad, remaining := 8 * packed.length - pad.toNat, br := BitReader.fresh (.pay 1), cur := [] } := by
  have hlen : s.pay.length - 1 = packed.length := by rw [hpay]; rfl
  have hcheck : ¬ (7 < pad.toNat ∨ 8 * packed.length < pad.toNat) := by omega
  have hpad : padHeader pad s =
      .ok () { s with padcnt := pad, remaining := 8 * packed.length - pad.toNat } := by
    rw [padHeader, if_neg (by simp [hpay])]
    simp only [hlen, if_neg hcheck]
  have hhead : s.pay.headD 0 = pad := by rw [hpay]; rfl
  simp only [bodyHeader, requireTree_some hv ht, Res.bind_ok, hhead, hpad]
  rfl

/-- R195: DATA whose walk comes to a leaf without a symbol. -/
theorem execBlkData_unset {t : Tree} {s : State} {pad : Byte} {packed : List Byte} {pre post : List Bool} {b : Bool}
    {w : Weight} {k : List SnkAns} (hv : s.treeValid = true) (ht : s.tree = some t) (hpay : s.pay = pad :: packed)
    (h7 : pad.toNat ≤ 7) (hfit : pad.toNat ≤ 8 * packed.length)
    (hbits : (unpack packed).take (8 * packed.length - pad.toNat) = pre ++ b :: post)
    (hleaf : t.nodeAt ((walkOutput t [] pre).2 ++ [b]) = some (.leaf w none))
    (hsnk : s.snk = List.replicate (walkOutput t [] pre).1.length .ok ++ k) :
    execBlkData s = .fault .unsetSymbol := by
  have hlen : pre.length < 8 * packed.length - pad.toNat := by
    have := congrArg List.length hbits
    simp only [List.length_take, unpack_length, List.length_append, List.length_cons] at this
    omega
  obtain ⟨ahead, hahead⟩ : ∃ ahead, unpack packed = pre ++ b :: ahead := by
    rw [← List.take_append_drop (8 * packed.length - pad.toNat) (unpack packed), hbits, List.append_assoc]
    exact ⟨_, rfl⟩
  have hroot : ∃ w l r, t.nodeAt [] = some (.node w l r) := by
    cases t with
    | node w l r => exact ⟨w, l, r, Tree.nodeAt_nil _⟩
    | leaf w x => exact absurd (Tree.nodeAt_leaf hleaf).1 (by simp)
  rw [execBlkData, bodyHeader_run hv ht hpay h7 hfit, Res.bind_ok]
  show settle s _ = settle s (.fault .unsetSymbol : Res Unit)
  refine congrArg (settle s) (walkSteps_unset pre ahead ?_ hroot hlen hlen hleaf hsnk)
  exact ⟨hv, ht, ⟨1, rfl⟩, by simp [State.readerBits, BitReader.fresh, hpay, hahead]⟩

/-! ### Errors for want of a tree -/

/-- R218: without a tree the operations on it raise ERR_NO_TREE. -/
theorem exec_of_no_tree {s : State} (h : s.tree = none) {i : Instr}
    (hi : i ∈ [Instr.tWriteShape, .tWriteLeaves, .tBuildTable, .tAssignLeaves, .blkLeaves]) :
    exec i s = .next (s.raise .noTree) := by
  have hn := needTree_none h
  simp only [List.mem_cons, List.not_mem_nil, or_false] at hi
  rcases hi with rfl | rfl | rfl | rfl | rfl
  · simp only [exec, execTWriteShape, hn, Res.bind_raise, settle_raise]
  · simp only [exec, execTWriteLeaves, hn, Res.bind_raise, settle_raise]
  · simp only [exec, execTBuildTable, hn, Res.bind_raise, settle_raise]
  · simp only [exec, execTAssignLeaves, assignLeaves, hn, Res.bind_raise, settle_raise]
  · simp only [exec, execBlkLeaves, assignLeaves, hn, Res.bind_raise, settle_raise]

/-- R196: without a valid tree so do the operations of the decode body. -/
theorem exec_of_no_valid_tree {s : State} (h : s.treeValid = false ∨ s.tree = none) {i : Instr}
    (hi : i ∈ [Instr.pLeft, .pRight, .dWalkBit, .blkData]) : exec i s = .next (s.raise .noTree) := by
  have hn := requireTree_none h
  simp only [List.mem_cons, List.not_mem_nil, or_false] at hi
  rcases hi with rfl | rfl | rfl | rfl
  · simp only [exec, execPLeft, walkTo, hn, Res.bind_raise, settle_raise]
  · simp only [exec, execPRight, walkTo, hn, Res.bind_raise, settle_raise]
  · simp only [exec, execDWalkBit, walkBit, hn, Res.bind_raise, settle_raise]
  · simp only [exec, execBlkData, bodyHeader, hn, Res.bind_raise, settle_raise]

end Machine
end Sys2Proof

/-! ### The settled statement -/

open Sys2Proof Sys2Proof.Machine

/-- Settles O42: each operation is run to the place where what it needs is missing. -/
theorem stopsByName : Obligations.StopsByName := by
  refine ⟨fun r s => exec_bsPopByte_short, ?noBits, ?noCode, ?leaves, ?walk, fun s h => ?noTree, fun s h => ?noValid⟩
  case noBits =>
    intro s hv ht hr
    obtain ⟨t, ht⟩ := Option.isSome_iff_exists.1 ht
    simp only [exec, execDWalkBit, walkBit, requireTree_some hv ht, Res.bind_ok, if_pos hr, settle_refuse]
  case noCode =>
    intro s c r hc
    have hx : sliceOperand (.cw c) s = .refuse .noCodeword := by simp only [sliceOperand, hc]
    exact ⟨by simp only [exec, execBsAppendSlice, hx, Res.bind_refuse, settle_refuse],
      by simp only [exec, execBwWriteSlice, hx, Res.bind_refuse, settle_refuse]⟩
  case leaves =>
    intro s t ht
    refine ⟨fun vs rest hsym hroom => ?_, fun hc hd => ?_⟩
    · simp only [exec, execTWriteLeaves, needTree_some ht, Res.bind_ok, writeLeaves_eq_putSymbols, hsym,
        putSymbols_unset vs rest hroom, settle_fault]
    · simp only [exec, execTBuildTable, needTree_some ht, Res.bind_ok, ← BitSlice.ofBits_nil,
        table_incomplete hc (q := []) (by simpa using hd), settle_fault]
  case walk =>
    intro s t hv ht
    refine ⟨fun w l r hn => ⟨fun u hl => ?_, fun u hr => ?_, fun u p b bits ho hb hrem hx => ?_⟩,
      fun hn => ⟨?_, ?_, fun p b bits ho hb hrem => ?_⟩, fun pad packed pre post b w k => execBlkData_unset hv ht⟩
    · simp only [exec, execPLeft, walkTo_unset hv ht hn (b := false) hl, settle_fault]
    · simp only [exec, execPRight, walkTo_unset hv ht hn (b := true) hr, settle_fault]
    · have hw : Walking t (b :: bits) s := ⟨hv, ht, ⟨p, ho⟩, hb⟩
      have hf := hw.walkBit_fault hrem fun br => walkTo_unset (s := { s with br := br }) hv ht hn hx
      simp only [exec, execDWalkBit, hf, settle_fault]
    · simp only [exec, execPLeft, walkTo_dangling hv ht hn, settle_fault]
    · simp only [exec, execPRight, walkTo_dangling hv ht hn, settle_fault]
    · have hw : Walking t (b :: bits) s := ⟨hv, ht, ⟨p, ho⟩, hb⟩
      have hf := hw.walkBit_fault hrem fun br => walkTo_dangling (s := { s with br := br }) hv ht hn b
      simp only [exec, execDWalkBit, hf, settle_fault]
  case noTree =>
    have hx : ∀ i ∈ _, exec i s = _ := fun i => exec_of_no_tree h
    simpa using hx
  case noValid =>
    have hx : ∀ i ∈ _, exec i s = _ := fun i => exec_of_no_valid_tree h
    simpa using hx
end

section
/-! PROOFS. The bit reader and the bit writer (`41_bitio.md` R100 to R111): every case of a read, the bits of an origin,
the flush of the complete bytes that every write ends with, and the writer law. -/

namespace Sys2Proof

@[simp] theorem zeros_length (n : Nat) : (zeros n).length = n := List.length_replicate

theorem pack_unpack_append (bytes : List Byte) (q : List Bool) : pack (unpack bytes ++ q) = bytes ++ pack q := by
  induction bytes with
  | nil => rfl
  | cons v vs ih =>
    obtain ⟨b7, b6, b5, b4, b3, b2, b1, b0, hv, rfl⟩ := packByte_unpackByte v
    rw [unpack_cons, hv]
    simp only [List.cons_append, List.nil_append, pack_eight, ih]

namespace Machine

/-! ### The bit reader -/

theorem readBit_buffered {s : State} {n : Nat} (h : s.br.rem = n + 1) :
    readBit s = .ok (s.br.buf.getLsbD n) { s with br := { s.br with rem := n } } := by
  rw [readBit, if_neg (by omega)]; simp only [h, Nat.add_sub_cancel]

theorem exec_brReadBit_ok {s t : State} {b : Bool} (h : readBit s = .ok b t) :
    exec .brReadBit s = .next (t.setRes (BitVec.ofNat 8 b.toNat)) := by
  simp only [exec, execBrReadBit, h, Res.bind_ok, settle_ok]

theorem exec_brReadBit_raise {s t : State} {e : Err} (h : readBit s = .raise e t) :
    exec .brReadBit s = .next (t.raise e) := by
  simp only [exec, execBrReadBit, h, Res.bind_raise, settle_raise]

theorem exec_brReadBit_wait {s t : State} (h : readBit s = .wait t) : exec .brReadBit s = .next (s.suspend t) := by
  simp only [exec, execBrReadBit, h, Res.bind_wait, settle_wait]

/-- R101: a refill from PAY, and the end of PAY. -/
theorem readBit_pay_byte {s : State} {p : Nat} {v : Byte} (h0 : s.br.rem = 0) (ho : s.br.origin = .pay p)
    (hv : s.pay[p]? = some v) : readBit s = .ok (v.getLsbD 7) { s with br := ⟨v, 7, .pay (p + 1)⟩ } := by
  rw [readBit_of_pay h0 ho, hv]

theorem readBit_pay_end {s : State} {p : Nat} (h0 : s.br.rem = 0) (ho : s.br.origin = .pay p)
    (hp : s.pay.length ≤ p) : readBit s = .raise .truncated s := by
  rw [readBit_of_pay h0 ho, List.getElem?_eq_none hp]

/-- R41: how a required byte of the source fails to come. -/
theorem nextByte_srcEos {s : State} (he : s.srcEos = true) : nextByte s = .raise .truncated s := by
  rw [nextByte, srcRead_srcEos he]; rfl

theorem nextByte_eos {s : State} {r : List SrcAns} (he : s.srcEos = false) (hs : s.src = .eos :: r) :
    nextByte s = .raise .truncated { s with srcEos := true } := by
  rw [nextByte, srcRead_eos he hs]; rfl

theorem nextByte_ioFail {s : State} {r : List SrcAns} (he : s.srcEos = false) (hs : s.src = .ioFail :: r) :
    nextByte s = .raise .io { s with src := r } := by
  rw [nextByte, srcRead_ioFail he hs]; rfl

theorem nextByte_wait {s : State} (he : s.srcEos = false) (hs : s.src = []) : nextByte s = .wait s := by
  simp [nextByte, srcRead, he, hs]

/-- R101: a refill from the source. -/
theorem readBit_src_byte {s : State} {v : Byte} {r : List SrcAns} (h0 : s.br.rem = 0) (ho : s.br.origin = .src)
    (he : s.srcEos = false) (hs : s.src = .byte v :: r) :
    readBit s = .ok (v.getLsbD 7) { s with src := r, br := ⟨v, 7, .src⟩ } := by
  rw [readBit_of_src h0 ho, nextByte_run he hs, Res.bind_ok]
  simp only [ho]

theorem readBit_src_raise {s t : State} {e : Err} (h0 : s.br.rem = 0) (ho : s.br.origin = .src)
    (h : nextByte s = .raise e t) : readBit s = .raise e t := by
  rw [readBit_of_src h0 ho, h, Res.bind_raise]

theorem readBit_src_wait {s t : State} (h0 : s.br.rem = 0) (ho : s.br.origin = .src) (h : nextByte s = .wait t) :
    readBit s = .wait t := by
  rw [readBit_of_src h0 ho, h, Res.bind_wait]

/-- Log 9: an error outside a call leaves the reader as it is. -/
theorem State.raise_br_of_not_busy {s : State} (hb : s.st ≠ .busy) (e : Err) : (s.raise e).br = s.br := by
  rw [State.raise_of_not_busy e s ((State.busy_eq_false s).2 hb)]

/-- A reader bound to PAY moves on by one bit with each bit it gives: `8 * pos - BR.REM` is where it stands. -/
theorem readBit_position {s t : State} {p : Nat} {b : Bool} (ho : s.br.origin = .pay p) (h : readBit s = .ok b t) :
    ∃ p', t.br.origin = .pay p' ∧ 8 * p' + s.br.rem = 8 * p + t.br.rem + 1 := by
  cases hr : s.br.rem with
  | zero =>
    cases hv : s.pay[p]? with
    | some v => cases (readBit_pay_byte hr ho hv).symm.trans h; exact ⟨p + 1, rfl, rfl⟩
    | none   => cases (readBit_pay_end hr ho (List.getElem?_eq_none_iff.1 hv)).symm.trans h
  | succ n => cases (readBit_buffered hr).symm.trans h; exact ⟨p, ho, rfl⟩

/-- R104: the bits ahead of a reader bound to PAY, read one after another. -/
theorem readBits_run (n : Nat) {s : State} {p : Nat} (ho : s.br.origin = .pay p) (h7 : s.br.rem ≤ 7)
    (hn : n ≤ s.readerBits.length) :
    ∃ br p', readBits n s = .ok (s.readerBits.take n) { s with br := br } ∧ br.origin = .pay p' ∧ br.rem ≤ 7 ∧
      8 * p' + s.br.rem = 8 * p + br.rem + n := by
  induction n generalizing s p with
  | zero => exact ⟨s.br, p, rfl, ho, h7, rfl⟩
  | succ n ih =>
    cases hb : s.readerBits with
    | nil => simp [hb] at hn
    | cons b bits =>
      obtain ⟨br, -, hread, -, hbits⟩ := readBit_run ho hb
      obtain ⟨p₁, ho₁, hpos₁⟩ := readBit_position ho hread
      have h7₁ : br.rem ≤ 7 := by
        have hsat := readBit_sat s
        rw [hread] at hsat
        exact hsat.2 h7
      obtain ⟨br', p', hrun, ho', h7', hpos'⟩ :=
        ih (s := { s with br := br }) ho₁ h7₁ (by simpa [hbits, hb] using hn)
      refine ⟨br', p', ?_, ho', h7', ?_⟩
      · rw [readBits, hread, Res.bind_ok, hrun, hbits]; rfl
      · simp only at hpos₁ hpos'; omega

/-- R100: what is ahead of a reader without a buffered bit. -/
theorem readerBits_of_empty {s : State} {p : Nat} (h0 : s.br.rem = 0) (ho : s.br.origin = .pay p) :
    s.readerBits = unpack (s.pay.drop p) := by
  simp [State.readerBits, h0, ho]

/-! ### The flush that every write ends with -/

/-- The writer between two of its operations holds the slice of at most seven bits. -/
theorem State.writerReady_iff {s : State} :
    s.writerReady ↔ ∃ q : List Bool, q.length ≤ 7 ∧ s.bw.acc = BitSlice.ofBits q := by
  constructor
  · rintro ⟨hwf, h7⟩
    exact ⟨s.bw.acc.seq, by simpa using h7, (BitSlice.ofBits_seq hwf).symm⟩
  · rintro ⟨q, h7, hq⟩
    exact ⟨by rw [hq]; exact BitSlice.ofBits_wf (by omega), by rw [hq]; exact h7⟩

/-- Without a complete byte nothing is flushed. -/
theorem flushWriter_short {s : State} (h : s.bw.acc.length ≤ 7) : flushWriter s = .ok () s := by
  rw [flushWriter, Nat.div_eq_of_lt (by omega)]; rfl

theorem payAppend_full {s : State} (h : ¬ s.payRoom 1) (v : Byte) : payAppend v s = .raise .io s := by
  rw [payAppend, if_neg]
  exact fun hroom => h fun c hc => roomFor_iff.1 hroom c hc

theorem State.payRoom_setAcc {s : State} {u : BitSlice} {n : Nat} : (s.setAcc u).payRoom n ↔ s.payRoom n := Iff.rfl

theorem State.payRoom_append {s : State} {v : Byte} {u : BitSlice} {n : Nat} :
    State.payRoom { s.setAcc u with pay := s.pay ++ [v] } n ↔ s.payRoom (n + 1) := by
  simp [State.payRoom, Nat.add_assoc, Nat.add_comm 1 n]

/-- R105, R168: a PAY without room for all the bytes makes the flush fail. -/
theorem flushBytes_pay_fail (bytes : List Byte) (q : List Bool) (s : State) (hd : s.bw.dest = .pay)
    (hq : (unpack bytes ++ q).length ≤ 64) (hs : s.bw.acc = BitSlice.ofBits (unpack bytes ++ q))
    (hpos : 0 < bytes.length) (h : ¬ s.payRoom bytes.length) :
    ∃ t, flushBytes bytes.length s = .raise .io t := by
  induction bytes generalizing s with
  | nil => cases hpos
  | cons v vs ih =>
    obtain ⟨b7, b6, b5, b4, b3, b2, b1, b0, hv, rfl⟩ := packByte_unpackByte v
    simp only [unpack_cons, hv, List.cons_append, List.nil_append, List.length_cons] at hs hq h
    have hd' : (s.setAcc (BitSlice.ofBits (unpack vs ++ q))).bw.dest = .pay := hd
    rw [List.length_cons, flushBytes, hs, BitSlice.popByte_ofBits _ _ _ _ _ _ _ _ (by omega)]
    simp only [destWrite, hd']
    by_cases h1 : s.payRoom 1
    · have hvs : 0 < vs.length := Nat.pos_of_ne_zero fun h0 => h (h0 ▸ h1)
      rw [payAppend_run (State.payRoom_setAcc.2 h1), Res.bind_ok]
      exact ih _ hd (by omega) rfl hvs fun hroom => h (State.payRoom_append.1 hroom)
    · rw [payAppend_full (mt State.payRoom_setAcc.1 h1), Res.bind_raise]
      exact ⟨_, rfl⟩

/-- The outcome `o` of an operation that gives `bytes` to the destination of the writer and leaves the bits `u` pending:
all of it, or ERR_IO where PAY is full or the sink fails (R105 to R109). -/
structure Flushes (s : State) (bytes : List Byte) (u : BitSlice) (o : Outcome) : Prop where
  pay     : s.bw.dest = .pay → s.payRoom bytes.length → o = .next { s.setAcc u with pay := s.pay ++ bytes }
  payFull : s.bw.dest = .pay → 0 < bytes.length → ¬ s.payRoom bytes.length →
    ∃ t, o = .next t ∧ t.st = .fault ∧ t.err = .io
  snk     : s.bw.dest = .snk → ∀ r, s.snk = List.replicate bytes.length .ok ++ r →
    o = .next { s.setAcc u with snk := r, out := s.out ++ bytes }
  snkFail : s.bw.dest = .snk → ∀ k r, k < bytes.length → s.snk = List.replicate k .ok ++ .ioFail :: r →
    ∃ t, o = .next t ∧ t.st = .fault ∧ t.err = .io

theorem settle_raise_io {s : State} {r : Res Unit} (h : ∃ t, r = .raise .io t) :
    ∃ t, settle s r = .next t ∧ t.st = .fault ∧ t.err = .io := by
  obtain ⟨t, rfl⟩ := h
  exact ⟨_, rfl, State.raise_st _ t, State.raise_err _ t⟩

/-- R106, R107, R109: with the bytes and fewer than eight bits more in the accumulator, the bytes are flushed. -/
theorem flushWriter_flushes {s : State} {bytes : List Byte} {q : List Bool} {acc : BitSlice} (h7 : q.length ≤ 7)
    (hfit : (unpack bytes ++ q).length ≤ 64) (hacc : acc = BitSlice.ofBits (unpack bytes ++ q)) :
    Flushes s bytes (BitSlice.ofBits q) (settle s (flushWriter (s.setAcc acc))) := by
  have hcount : acc.length / 8 = bytes.length := by rw [hacc]; simp; omega
  have hflush : flushWriter (s.setAcc acc) = flushBytes bytes.length (s.setAcc acc) := by
    rw [flushWriter, State.setAcc_bw, hcount]
  rw [hflush]
  exact {
    pay := fun hd hroom => by rw [flushBytes_pay_run bytes q (s.setAcc acc) hd hfit hacc hroom]; rfl
    payFull := fun hd hpos hroom =>
      settle_raise_io (flushBytes_pay_fail bytes q (s.setAcc acc) hd hfit hacc hpos hroom)
    snk := fun hd r hs => by rw [flushBytes_snk_run bytes q (s.setAcc acc) hd hfit hacc r hs]; rfl
    snkFail := fun hd k r hk hs => settle_raise_io (flushBytes_snk_fail bytes q (s.setAcc acc) hd hfit hacc k r hk hs) }

/-- Exactly one byte given, nothing left pending. -/
theorem Flushes.one_byte {s : State} {v : Byte} {o : Outcome} (h : Flushes s [v] BitSlice.empty o) :
    (s.bw.dest = .pay → s.payRoom 1 → o = .next { s.setAcc BitSlice.empty with pay := s.pay ++ [v] }) ∧
    (s.bw.dest = .pay → ¬ s.payRoom 1 → ∃ t, o = .next t ∧ t.st = .fault ∧ t.err = .io) ∧
    (s.bw.dest = .snk →
      (∀ r, s.snk = .ok :: r → o = .next { s.setAcc BitSlice.empty with snk := r, out := s.out ++ [v] }) ∧
      (∀ r, s.snk = .ioFail :: r → ∃ t, o = .next t ∧ t.st = .fault ∧ t.err = .io)) :=
  ⟨h.pay, fun hd => h.payFull hd Nat.one_pos, fun hd => ⟨h.snk hd, fun r => h.snkFail hd 0 r Nat.one_pos⟩⟩

theorem flushWriter_flushes_one_byte {s : State} {v : Byte} {q : List Bool} (hq : unpackByte v = q) :
    Flushes s [v] BitSlice.empty (settle s (flushWriter (s.setAcc (BitSlice.ofBits q)))) :=
  flushWriter_flushes (q := []) (Nat.zero_le 7) (by simp) (by simp [← hq, unpack])

/-! ### The writes -/

/-- R106: there is always room for one bit beside those pending. -/
theorem writeBit_ofBits {s : State} {q : List Bool} (h7 : q.length ≤ 7) (hs : s.bw.acc = BitSlice.ofBits q) (b : Bool) :
    writeBit b s = flushWriter (s.setAcc (BitSlice.ofBits (q ++ [b]))) := by
  rw [writeBit, hs, BitSlice.appendBit_ofBits, if_pos (by omega)]

/-- R107: a slice that fits beside the bits pending. -/
theorem writeSlice_ofBits {s : State} {q x : List Bool} (hs : s.bw.acc = BitSlice.ofBits q)
    (hfit : (q ++ x).length ≤ 64) :
    writeSlice (BitSlice.ofBits x) s = flushWriter (s.setAcc (BitSlice.ofBits (q ++ x))) := by
  rw [List.length_append] at hfit
  rw [writeSlice, hs, BitSlice.appendSlice_ofBits (by omega) (by omega), if_pos hfit]

theorem writeSlice_of_gt {s : State} {t : BitSlice} (h : 64 < s.bw.acc.length + t.length) :
    writeSlice t s = .raise .capacity s := by
  rw [writeSlice, BitSlice.appendSlice_of_gt h]

/-- R109: the bits pending are filled up with zeros. -/
theorem writePaddingBits_ofBits {s : State} {q : List Bool} (h7 : q.length ≤ 7) (hs : s.bw.acc = BitSlice.ofBits q) :
    writePaddingBits s = flushWriter (s.setAcc (BitSlice.ofBits (q ++ zeros (padlen q.length)))) := by
  rw [writePaddingBits, hs, BitSlice.padToByte_ofBits (by omega)]

theorem exec_bwWriteSlice_reads {s : State} {x : SliceSrc} {t : BitSlice} (h : s.reads x t) :
    exec (.bwWriteSlice x) s = settle s (writeSlice t s) := by
  simp only [exec, execBwWriteSlice, sliceOperand_of_reads h, Res.bind_ok]

/-! ### The writer law -/

/-- From `s` to `t` the bits `q` were given to a new writer on PAY: their complete bytes are at the end of PAY, the rest
is pending. -/
structure Wrote (s : State) (q : List Bool) (t : State) : Prop where
  dest   : t.bw.dest = .pay
  params : t.params = s.params
  bits   : ∃ bytes r, r.length ≤ 7 ∧ t.bw.acc = BitSlice.ofBits r ∧ t.pay = s.pay ++ bytes ∧ q = unpack bytes ++ r

theorem Wrote.start {s : State} (h : s.bw = BitWriter.fresh .pay) : Wrote s [] s :=
  ⟨by rw [h]; rfl, rfl, [], [], Nat.zero_le 7, by rw [h]; rfl, (List.append_nil _).symm, rfl⟩

theorem Wrote.pending {s t : State} {q : List Bool} (h : Wrote s q t) :
    ∃ r : List Bool, r.length ≤ 7 ∧ t.bw.acc = BitSlice.ofBits r := by
  obtain ⟨-, -, -, r, h7, hr, -⟩ := h
  exact ⟨r, h7, hr⟩

/-- The flush after `x` was appended to the bits pending: the writer has been given `x` too. -/
theorem Wrote.flush {s t : State} {q r x : List Bool} (h : Wrote s q t) (hr : t.bw.acc = BitSlice.ofBits r)
    (h7 : r.length ≤ 7) (hfit : (r ++ x).length ≤ 64) (hroom : s.payRoom ((q ++ x).length / 8)) :
    ∃ u, flushWriter (t.setAcc (BitSlice.ofBits (r ++ x))) = .ok () u ∧ Wrote s (q ++ x) u := by
  obtain ⟨hd, hparams, bytes, r', h7', hr', hpay, rfl⟩ := h
  obtain rfl : r' = r := by
    rw [← BitSlice.seq_ofBits (q := r') (by omega), ← BitSlice.seq_ofBits (q := r) (by omega), ← hr', hr]
  obtain ⟨more, rest, hx, hlen, hrest⟩ := bytes_and_rest (r' ++ x)
  have hq : (unpack bytes ++ r') ++ x = unpack (bytes ++ more) ++ rest := by
    rw [List.append_assoc, hx, unpack_append, List.append_assoc]
  have hroom' : t.payRoom more.length := fun c hc => by
    have := hroom c (hparams ▸ hc)
    rw [hq] at this
    simp only [hpay, List.length_append, unpack_length] at this ⊢
    omega
  rw [hx] at hfit hlen ⊢
  have hrun := flushBytes_pay_run more rest (t.setAcc (BitSlice.ofBits (unpack more ++ rest))) hd hfit rfl hroom'
  rw [hlen] at hrun
  refine ⟨_, hrun, hd, hparams, bytes ++ more, rest, hrest, rfl, ?_, hq⟩
  show t.pay ++ more = _
  rw [hpay, List.append_assoc]

theorem Wrote.writeBit {s t u : State} {q : List Bool} {b : Bool} (h : Wrote s q t)
    (hroom : s.payRoom ((q ++ [b]).length / 8)) (hu : writeBit b t = .ok () u) : Wrote s (q ++ [b]) u := by
  obtain ⟨r, h7, hr⟩ := h.pending
  obtain ⟨u', hrun, hw⟩ := h.flush (x := [b]) hr h7 (by simp; omega) hroom
  cases ((writeBit_ofBits h7 hr b).trans hrun).symm.trans hu
  exact hw

theorem Wrote.writeSlice {s t u : State} {q : List Bool} {x : BitSlice} (hx : x.wf = true) (h : Wrote s q t)
    (hroom : s.payRoom ((q ++ x.seq).length / 8)) (hu : writeSlice x t = .ok () u) : Wrote s (q ++ x.seq) u := by
  obtain ⟨r, h7, hr⟩ := h.pending
  by_cases hle : (r ++ x.seq).length ≤ 64
  · obtain ⟨u', hrun, hw⟩ := h.flush hr h7 hle hroom
    rw [← BitSlice.ofBits_seq hx] at hu
    cases ((writeSlice_ofBits hr hle).trans hrun).symm.trans hu
    exact hw
  · have hgt : 64 < t.bw.acc.length + x.length := by
      rw [hr]; simpa using hle
    cases (writeSlice_of_gt hgt).symm.trans hu

theorem State.payRoom_mono {s : State} {m n : Nat} (h : s.payRoom n) (hm : m ≤ n) : s.payRoom m := fun c hc => by
  have := h c hc
  omega

theorem mixBits_bit (b : Bool) (ws : List (Bool ⊕ BitSlice)) : mixBits (.inl b :: ws) = [b] ++ mixBits ws := rfl

theorem mixBits_slice (x : BitSlice) (ws : List (Bool ⊕ BitSlice)) :
    mixBits (.inr x :: ws) = x.seq ++ mixBits ws := rfl

/-- R111: any mixture of writes gives the writer its bits in order. -/
theorem Wrote.writeMix (ws : List (Bool ⊕ BitSlice)) {s t u : State} {q : List Bool} (h : Wrote s q t)
    (hwf : ∀ x, .inr x ∈ ws → x.wf = true) (hroom : s.payRoom ((q ++ mixBits ws).length / 8))
    (hu : writeMix ws t = .ok () u) : Wrote s (q ++ mixBits ws) u := by
  induction ws generalizing q t with
  | nil => cases hu; rwa [show mixBits [] = [] from rfl, List.append_nil]
  | cons w ws ih =>
    have hwf' : ∀ x, .inr x ∈ ws → x.wf = true := fun x hx => hwf x (List.mem_cons_of_mem _ hx)
    cases w with
    | inl b =>
      obtain ⟨_, v, hv, hrest⟩ := Res.bind_eq_ok.1 hu
      rw [mixBits_bit, ← List.append_assoc] at hroom ⊢
      have hfirst : s.payRoom ((q ++ [b]).length / 8) := State.payRoom_mono hroom (by simp; omega)
      exact ih (h.writeBit hfirst hv) hwf' hroom hrest
    | inr x =>
      obtain ⟨_, v, hv, hrest⟩ := Res.bind_eq_ok.1 hu
      rw [mixBits_slice, ← List.append_assoc] at hroom ⊢
      have hfirst : s.payRoom ((q ++ x.seq).length / 8) := State.payRoom_mono hroom (by simp; omega)
      exact ih (h.writeSlice (hwf x List.mem_cons_self) hfirst hv) hwf' hroom hrest

theorem Wrote.acc_padlen {s t : State} {q : List Bool} (h : Wrote s q t) : padlen t.bw.acc.length = padlen q.length := by
  obtain ⟨-, -, bytes, r, -, hr, -, rfl⟩ := h
  simp [hr, padlen]

/-- R109: after the padding the bits given and the zeros stand in PAY, and nothing is pending. -/
theorem Wrote.pad {s t : State} {q : List Bool} (h : Wrote s q t) (hroom : s.payRoom (padPack q).length) :
    ∃ u, writePaddingBits t = .ok () u ∧ u.pay = s.pay ++ padPack q ∧ u.bw.acc.length = 0 := by
  obtain ⟨r, h7, hr⟩ := h.pending
  have hpad : padlen r.length = padlen q.length := by rw [← h.acc_padlen, hr]; rfl
  have hseven := padlen_lt q.length
  rw [padPack, pack_length] at hroom
  obtain ⟨u, hrun, -, -, all, rest, hrest, hacc, hpay, hall⟩ :=
    h.flush (x := zeros (padlen q.length)) hr h7 (by simp; omega) hroom
  obtain rfl : rest = [] := by
    have hlen := congrArg List.length hall
    have hdvd := padlen_add q.length
    simp only [List.length_append, zeros_length, unpack_length] at hlen
    exact List.length_eq_zero_iff.1 (by omega)
  refine ⟨u, ?_, ?_, by rw [hacc]; rfl⟩
  · rw [writePaddingBits_ofBits h7 hr, hpad, hrun]
  · rw [hpay, padPack, hall, pack_unpack_append]
    exact congrArg _ (List.append_nil _).symm

theorem unpack_padPack (q : List Bool) : unpack (padPack q) = q ++ zeros (padlen q.length) :=
  unpack_pack_of_dvd (by simpa using padlen_add q.length)

end Machine
end Sys2Proof

/-! ### The settled statements -/

open Sys2Proof Sys2Proof.Machine

/-- Settles O15: each of the n reads takes the first of the bits ahead and moves the reader on by one bit. -/
theorem readerReturnsOriginBits : Obligations.ReaderReturnsOriginBits := by
  intro s a n h0 ho hn
  have hbits := readerBits_of_empty h0 ho
  obtain ⟨br, p', hrun, ho', h7, hpos⟩ :=
    readBits_run n ho (by omega) (by rw [hbits, unpack_length, List.length_drop]; exact hn)
  refine ⟨_, hbits ▸ hrun, rfl, ho'.trans (congrArg Origin.pay ?_)⟩
  omega

/-- Settles O16: the eighth bit makes the pending bits one complete byte. -/
theorem writeBitResult : Obligations.WriteBitResult := by
  intro b s hs
  obtain ⟨q, h7, hq⟩ := State.writerReady_iff.1 hs
  have hx : exec (.bwWriteBit b) s = settle s (flushWriter (s.setAcc (BitSlice.ofBits (q ++ [b])))) :=
    congrArg (settle s) (writeBit_ofBits h7 hq b)
  have hseq : s.bw.acc.seq = q := by rw [hq]; exact BitSlice.seq_ofBits (by omega)
  have hlen : (q ++ [b]).length = s.bw.acc.length + 1 := by simp [hq]
  rw [hseq, hx]
  refine ⟨fun hlt => ?_, fun _ v hv => (flushWriter_flushes_one_byte hv).one_byte⟩
  refine ⟨BitSlice.ofBits (q ++ [b]), BitSlice.ofBits_wf (by omega), BitSlice.seq_ofBits (by omega), ?_⟩
  rw [flushWriter_short (by rw [State.setAcc_bw, BitSlice.ofBits_length]; omega), settle_ok]

/-- Settles O17: the pending bits and the slice are cut into complete bytes and a rest. -/
theorem writeSliceResult : Obligations.WriteSliceResult := by
  intro x t s hx ht hs
  rw [exec_bwWriteSlice_reads hx]
  refine ⟨fun hle => ?_, fun hgt => by rw [writeSlice_of_gt hgt, settle_raise]⟩
  obtain ⟨q, hq7, hq⟩ := State.writerReady_iff.1 hs
  have hseq : s.bw.acc.seq ++ t.seq = q ++ t.seq := by
    rw [hq, BitSlice.seq_ofBits (by omega)]
  have hlen : (q ++ t.seq).length = s.bw.acc.length + t.length := by simp [hq]
  have hwrite := writeSlice_ofBits (x := t.seq) hq (by omega)
  obtain ⟨bytes, r, hcut, hbytes, h7⟩ := bytes_and_rest (q ++ t.seq)
  rw [BitSlice.ofBits_seq ht, hcut] at hwrite
  have hf := flushWriter_flushes (s := s) h7 (by rw [← hcut]; omega) rfl
  rw [hwrite, hseq, hcut]
  exact ⟨bytes, BitSlice.ofBits r, hlen ▸ hbytes, BitSlice.ofBits_wf (by omega), h7,
    congrArg _ (BitSlice.seq_ofBits (by omega)), hf.pay, hf.payFull, fun hd => ⟨hf.snk hd, hf.snkFail hd⟩⟩

/-- Settles O18: the padding of no bits is none, that of one to seven bits completes one byte. -/
theorem paddingCountAndPadding : Obligations.PaddingCountAndPadding := by
  intro s hs
  obtain ⟨q, h7, hq⟩ := State.writerReady_iff.1 hs
  have hx : exec .bwWritePaddingBits s =
      settle s (flushWriter (s.setAcc (BitSlice.ofBits (q ++ zeros (padlen q.length))))) :=
    congrArg (settle s) (writePaddingBits_ofBits h7 hq)
  refine ⟨rfl, fun h0 => ?_, fun _ v hv => ?_⟩
  · obtain rfl : q = [] := List.length_eq_zero_iff.1 (by rw [← h0, hq]; rfl)
    have hself : s.setAcc (BitSlice.ofBits []) = s := by rw [← hq]; exact State.setAcc_self s
    rw [hx]
    show settle s (flushWriter (s.setAcc (BitSlice.ofBits []))) = _
    rw [hself, flushWriter_short (by omega), settle_ok]
  · rw [hq, BitSlice.seq_ofBits (by omega), BitSlice.ofBits_length] at hv
    rw [hx]
    exact (flushWriter_flushes_one_byte hv).one_byte

/-- Settles O19: `Wrote` holds after every mixture of writes, and the padding completes the last byte. -/
theorem writerLaw : Obligations.WriterLaw := by
  intro ws s t hwf hnew hroom hmix
  have hbits : ([] ++ mixBits ws).length / 8 ≤ (padPack (mixBits ws)).length := by
    rw [padPack, pack_length]; simp; omega
  have hw : Wrote s (mixBits ws) t := (Wrote.start hnew).writeMix ws hwf (State.payRoom_mono hroom hbits) hmix
  refine ⟨by rw [← hw.acc_padlen]; rfl, ?_⟩
  obtain ⟨u, hrun, hpay, hacc⟩ := hw.pad hroom
  refine ⟨u, by simp only [exec, execBwWritePaddingBits, hrun, settle_ok], hpay, hacc, ?_⟩
  have hahead : unpack (u.pay.drop s.pay.length) = mixBits ws ++ zeros (padlen (mixBits ws).length) := by
    rw [hpay, List.drop_left, unpack_padPack]
  have hn : (mixBits ws).length ≤ 8 * (u.pay.length - s.pay.length) := by
    have hlen := congrArg List.length hahead
    rw [unpack_length, List.length_drop, List.length_append] at hlen
    omega
  obtain ⟨w, hread, -⟩ := readerReturnsOriginBits (u.newReader (.pay s.pay.length)) s.pay.length _ rfl rfl hn
  refine ⟨w, hread.trans ?_⟩
  show Res.ok ((unpack (u.pay.drop s.pay.length)).take _) w = _
  rw [hahead, List.take_left]

/-- Settles O14: a bit is buffered, or the reader's origin is asked for a byte. -/
theorem readerResults : Obligations.ReaderResults := by
  intro s
  refine ⟨fun n hn => exec_brReadBit_ok (readBit_buffered hn), fun h0 => ⟨fun p v ho hv => ?_, fun p ho hp => ?_,
    fun ho => ⟨fun he => ?_, fun he => ⟨fun v r hs => ?_, fun r hs => ?_, fun r hs => ?_, fun hs => ?_⟩⟩⟩, rfl, rfl,
    fun h0 => ?_, fun p v ho hv => ?_⟩
  · exact exec_brReadBit_ok (readBit_pay_byte h0 ho hv)
  · exact exec_brReadBit_raise (readBit_pay_end h0 ho hp)
  · exact exec_brReadBit_raise (readBit_src_raise h0 ho (nextByte_srcEos he))
  · exact exec_brReadBit_ok (readBit_src_byte h0 ho he hs)
  · exact ⟨_, exec_brReadBit_raise (readBit_src_raise h0 ho (nextByte_eos he hs)), State.raise_st _ _,
      State.raise_err _ _, fun hb => State.raise_br_of_not_busy (s := { s with srcEos := true }) hb _⟩
  · exact ⟨_, exec_brReadBit_raise (readBit_src_raise h0 ho (nextByte_ioFail he hs)), State.raise_st _ _,
      State.raise_err _ _, fun hb => State.raise_br_of_not_busy (s := { s with src := r }) hb _⟩
  · exact exec_brReadBit_wait (readBit_src_wait h0 ho (nextByte_wait he hs))
  · have hbr : { s.br with rem := 0 } = s.br := by rw [← h0]
    show Host.Outcome.next { s with br := { s.br with rem := 0 } } = _
    rw [hbr]
  · have hread := readBit_pay_byte (s := { s with br := { s.br with rem := 0 } }) rfl ho hv
    exact ⟨_, exec_brReadBit_ok hread, rfl, rfl, rfl⟩
end

section
/-! PROOFS. The observed symbols of a histogram and the tie rule (`42_tree_build.md` R121, R123, R124, R126, R127): what
the working list begins with, which pair is merged, and what a merge leaves of the list. -/

namespace Sys2Proof

/-! ### The observed symbols -/

theorem toList_zipIdx_eq (f : Vector Weight 256) :
    f.toList.zipIdx = (List.range 256).map fun i => (f[i]?.getD 0, i) := by
  refine List.ext_getElem (by simp) fun i h _ => ?_
  have hi : i < 256 := by simpa using h
  simp [hi]

/-- The symbols that occur are those of the indices with a count. -/
theorem observed_eq (f : Vector Weight 256) :
    observed f = ((List.range 256).filter fun i => f[i]?.getD 0 ≠ 0).map (BitVec.ofNat 8) := by
  rw [observed, toList_zipIdx_eq, List.filterMap_map, ← List.filterMap_eq_filter, List.map_filterMap]
  refine List.filterMap_congr fun i _ => ?_
  by_cases h : f[i]?.getD 0#64 = 0#64 <;> simp [h, Option.guard]

/-- R121: the list begins with one leaf per observed symbol, in order. -/
theorem initialWL_eq (f : Vector Weight 256) :
    initialWL f = (observed f).map fun c => .leaf (f[c.toNat]?.getD 0) (some c) := by
  rw [observed, initialWL, toList_zipIdx_eq, List.filterMap_map, List.filterMap_map, List.map_filterMap]
  refine List.filterMap_congr fun i hi => ?_
  have hi : i % 256 = i := Nat.mod_eq_of_lt (List.mem_range.1 hi)
  by_cases h : f[i]?.getD 0#64 = 0#64 <;> simp [h, hi]

theorem observed_pairwise (f : Vector Weight 256) : (observed f).Pairwise fun a b => a.toNat < b.toNat := by
  rw [observed_eq, List.pairwise_map]
  refine (List.pairwise_lt_range.filter _).imp_of_mem fun {a b} ha hb hab => ?_
  have hb : b < 256 := List.mem_range.1 (List.mem_filter.1 hb).1
  simp; omega

/-- A sum over the counts of the observed symbols is one over all counts, if a count of zero adds nothing. -/
theorem observed_sum {M : Type} [AddCommMonoid M] (f : Vector Weight 256) {g : Weight → M} (h0 : g 0 = 0) :
    ((observed f).map fun c => g (f[c.toNat]?.getD 0)).sum =
      ((List.range 256).map fun i => g (f[i]?.getD 0)).sum := by
  have hsum : ∀ l : List Nat, ((l.filter fun i => f[i]?.getD 0 ≠ 0).map fun i => g (f[i]?.getD 0)).sum =
      (l.map fun i => g (f[i]?.getD 0)).sum := by
    intro l
    induction l with
    | nil => rfl
    | cons i l ih =>
      rw [List.map_cons, List.sum_cons, List.filter_cons, ← ih]
      by_cases h : f[i]?.getD 0 = 0
      · rw [if_neg (by simpa using h), h, h0, zero_add]
      · rw [if_pos (by simpa using h), List.map_cons, List.sum_cons]
  rw [observed_eq, List.map_map, ← hsum]
  refine congrArg List.sum (List.map_congr_left fun i hi => ?_)
  have hi : i % 256 = i := Nat.mod_eq_of_lt (List.mem_range.1 (List.mem_filter.1 hi).1)
  simp [hi]

/-! ### The lightest entries -/

/-- One entry more in the search for the lightest. -/
def lighter (best : Option (Weight × Nat)) (e : Tree × Nat) : Option (Weight × Nat) :=
  match best with
  | none        => some (e.1.weight, e.2)
  | some (w, j) => if e.1.weight ≤ w then some (e.1.weight, e.2) else some (w, j)

theorem lastLightest_eq (wl : List Tree) (skip : List Nat) :
    lastLightest wl skip = ((wl.zipIdx.filter fun e => !skip.contains e.2).foldl lighter none).elim 0 Prod.snd := rfl

/-- `x` at position `i` is the last of the lightest of `es`, entries with their positions. -/
def LastLightest (es : List (Tree × Nat)) (x : Tree) (i : Nat) : Prop :=
  (x, i) ∈ es ∧ ∀ z k, (z, k) ∈ es → x.weight < z.weight ∨ (x.weight = z.weight ∧ k ≤ i)

/-- The search keeps the last of the lightest of the entries it has passed. -/
theorem foldl_lighter (es : List (Tree × Nat)) (hne : es ≠ []) (hpos : es.Pairwise fun a b => a.2 < b.2) :
    ∃ x i, LastLightest es x i ∧ es.foldl lighter none = some (x.weight, i) := by
  induction es using List.reverseRecOn with
  | nil => exact absurd rfl hne
  | append_singleton es e ih =>
    obtain ⟨y, j⟩ := e
    obtain ⟨hes, -, hlast⟩ := List.pairwise_append.1 hpos
    rw [List.foldl_append, List.foldl_cons, List.foldl_nil]
    by_cases hnil : es = []
    · subst hnil; exact ⟨y, j, ⟨by simp, by simp⟩, rfl⟩
    · obtain ⟨x, i, ⟨hmem, hmin⟩, hfold⟩ := ih hnil hes
      rw [hfold, lighter]
      by_cases hle : y.weight ≤ x.weight
      · refine ⟨y, j, ⟨by simp, fun z k hz => ?_⟩, by simp [hle]⟩
        rcases List.mem_append.1 hz with hz | hz
        · have hkj : k < j := hlast _ hz _ List.mem_cons_self
          rcases hmin z k hz with h | ⟨h, -⟩ <;> bv_omega
        · obtain ⟨rfl, rfl⟩ : z = y ∧ k = j := by simpa using hz
          exact .inr ⟨rfl, le_rfl⟩
      · refine ⟨x, i, ⟨by simp [hmem], fun z k hz => ?_⟩, by simp [hle]⟩
        rcases List.mem_append.1 hz with hz | hz
        · exact hmin z k hz
        · obtain ⟨rfl, rfl⟩ : z = y ∧ k = j := by simpa using hz
          exact .inl (by bv_omega)

theorem mem_zipIdx_filter {wl : List Tree} {skip : List Nat} {z : Tree} {k : Nat} :
    (z, k) ∈ wl.zipIdx.filter (fun e => !skip.contains e.2) ↔ wl[k]? = some z ∧ k ∉ skip := by
  simp [List.mem_filter, List.mem_zipIdx_iff_getElem?]

/-- R126: where a position is left, the last of the lightest of those left is found. -/
theorem lastLightest_spec {wl : List Tree} {skip : List Nat} {k : Nat} (hk : k < wl.length) (hs : k ∉ skip) :
    lastLightest wl skip ∉ skip ∧ ∃ x, wl[lastLightest wl skip]? = some x ∧
      ∀ k z, wl[k]? = some z → k ∉ skip → k ≠ lastLightest wl skip →
        x.weight < z.weight ∨ (x.weight = z.weight ∧ k < lastLightest wl skip) := by
  have hpos : (wl.zipIdx.filter fun e => !skip.contains e.2).Pairwise fun a b => a.2 < b.2 := by
    have h : (wl.zipIdx.map Prod.snd).Pairwise (· < ·) := by rw [List.zipIdx_map_snd]; exact List.pairwise_lt_range'
    exact (List.pairwise_map.1 h).filter _
  have hmem : (wl[k], k) ∈ wl.zipIdx.filter fun e => !skip.contains e.2 :=
    mem_zipIdx_filter.2 ⟨List.getElem?_eq_getElem hk, hs⟩
  obtain ⟨x, i, ⟨hx, hmin⟩, hfold⟩ := foldl_lighter _ (List.ne_nil_of_mem hmem) hpos
  obtain ⟨hx, hi⟩ := mem_zipIdx_filter.1 hx
  have he : lastLightest wl skip = i := by rw [lastLightest_eq, hfold]; rfl
  rw [he]
  refine ⟨hi, x, hx, fun k z hz hks hki => ?_⟩
  exact (hmin z k (mem_zipIdx_filter.2 ⟨hz, hks⟩)).imp_right fun ⟨hw, hle⟩ => ⟨hw, lt_of_le_of_ne hle hki⟩

theorem referencePair_eq (wl : List Tree) :
    referencePair wl = (lastLightest wl [lastLightest wl []], lastLightest wl []) := rfl

/-- R126: the right child is the last of the lightest, the left child the last of the lightest of the others. -/
theorem referencePair_spec {wl : List Tree} (h : 2 ≤ wl.length) :
    ∃ x y, wl[(referencePair wl).1]? = some x ∧ wl[(referencePair wl).2]? = some y ∧
      (referencePair wl).1 ≠ (referencePair wl).2 ∧
      (∀ k z, wl[k]? = some z → k ≠ (referencePair wl).2 →
        y.weight < z.weight ∨ (y.weight = z.weight ∧ k < (referencePair wl).2)) ∧
      ∀ k z, wl[k]? = some z → k ≠ (referencePair wl).2 → k ≠ (referencePair wl).1 →
        x.weight < z.weight ∨ (x.weight = z.weight ∧ k < (referencePair wl).1) := by
  rw [referencePair_eq]
  obtain ⟨-, y, hy, hmin⟩ := lastLightest_spec (wl := wl) (skip := []) (k := 0) (by omega) (by simp)
  obtain ⟨k, hk, hne⟩ : ∃ k < wl.length, k ∉ [lastLightest wl []] := by
    by_cases h0 : lastLightest wl [] = 0
    · exact ⟨1, by omega, by simp [h0]⟩
    · exact ⟨0, by omega, by simpa [eq_comm] using h0⟩
  obtain ⟨hskip, x, hx, hmin'⟩ := lastLightest_spec hk hne
  exact ⟨x, y, hx, hy, by simpa using hskip, fun k z hz => hmin k z hz (by simp),
    fun k z hz hk => hmin' k z hz (by simpa using hk)⟩

/-! ### The merge step -/

/-- R123 in words: the two entries are there, are not the same, and no third weighs less than either. -/
theorem mergeAllowed_iff {wl : List Tree} {p : Nat × Nat} :
    mergeAllowed wl p = true ↔ ∃ l r, wl[p.1]? = some l ∧ wl[p.2]? = some r ∧ p.1 ≠ p.2 ∧
      ∀ k z, wl[k]? = some z → k ≠ p.1 → k ≠ p.2 → l.weight ≤ z.weight ∧ r.weight ≤ z.weight := by
  unfold mergeAllowed
  cases hl : wl[p.1]? with
  | none => simp
  | some l =>
    cases hr : wl[p.2]? with
    | none => simp
    | some r =>
      simpa [List.mem_zipIdx_iff_getElem?, or_iff_not_imp_left] using fun _ => forall_comm

theorem mergeAllowed_referencePair {wl : List Tree} (h : 2 ≤ wl.length) :
    mergeAllowed wl (referencePair wl) = true := by
  obtain ⟨x, y, hx, hy, hne, hmin, hmin'⟩ := referencePair_spec h
  refine mergeAllowed_iff.2 ⟨x, y, hx, hy, hne, fun k z hz hk1 hk2 => ?_⟩
  have hyz := hmin k z hz hk2
  have hxz := hmin' k z hz hk2 hk1
  bv_omega

/-- R124: every TIE_RULE of the model merges a pair that R123 allows. -/
theorem mergeAllowed_tiePair (p : Params) {wl : List Tree} (h : 2 ≤ wl.length) :
    mergeAllowed wl (tiePair p wl) = true := by
  unfold tiePair
  split
  · split
    · assumption
    · exact mergeAllowed_referencePair h
  · exact mergeAllowed_referencePair h

/-- The entries of a working list at neither of two positions, in order. -/
def unmerged (wl : List Tree) (p : Nat × Nat) : List Tree :=
  (wl.zipIdx.filter fun e => !(e.2 == p.1 || e.2 == p.2)).map Prod.fst

theorem mergeAt_eq {wl : List Tree} {p : Nat × Nat} {l r : Tree} (hl : wl[p.1]? = some l) (hr : wl[p.2]? = some r) :
    mergeAt wl p = .node (l.weight + r.weight) l r :: unmerged wl p := by
  rw [mergeAt, hl, hr, unmerged, ← List.filterMap_eq_filter, List.map_filterMap]
  refine congrArg _ (List.filterMap_congr fun e _ => ?_)
  cases h : (e.2 == p.1 || e.2 == p.2) <;> simp [Option.guard, h]

theorem unmerged_sublist (wl : List Tree) (p : Nat × Nat) : (unmerged wl p).Sublist wl := by
  have h : (unmerged wl p).Sublist (wl.zipIdx.map Prod.fst) := List.filter_sublist.map Prod.fst
  rwa [List.zipIdx_map_fst] at h

/-- A merge takes its two entries out of the list and leaves the others. -/
theorem perm_unmerged {wl : List Tree} {p : Nat × Nat} {l r : Tree} (hl : wl[p.1]? = some l) (hr : wl[p.2]? = some r)
    (hne : p.1 ≠ p.2) : wl.Perm (l :: r :: unmerged wl p) := by
  have hnd : wl.zipIdx.Nodup := by
    refine List.Nodup.of_map Prod.snd ?_
    rw [List.zipIdx_map_snd]
    exact List.nodup_range'
  have hpair : (wl.zipIdx.filter fun e => e.2 == p.1 || e.2 == p.2).Perm [(l, p.1), (r, p.2)] := by
    refine (List.perm_ext_iff_of_nodup (hnd.filter _) (by simp [hne])).2 fun e => ?_
    rw [List.mem_filter, List.mem_zipIdx_iff_getElem?]
    grind
  have hsplit := (List.filter_append_perm (fun e : Tree × Nat => e.2 == p.1 || e.2 == p.2) wl.zipIdx).symm
  have hmap := (hsplit.trans (hpair.append_right _)).map Prod.fst
  rwa [List.zipIdx_map_fst] at hmap

end Sys2Proof

/-! ### The settled statement -/

open Sys2Proof

/-- Settles O24: the search finds the last of the lightest, twice, and a merge takes the two entries out of the list. -/
theorem tieRuleIsAllowed : Obligations.TieRuleIsAllowed := by
  refine ⟨fun f => ⟨initialWL_eq f, observed_pairwise f⟩, fun p wl h => ⟨mergeAllowed_tiePair p h, fun ht => ?_, ?_⟩⟩
  · rw [tiePair, ht]; rfl
  · obtain ⟨x, y, hx, hy, hne, hmin, hmin'⟩ := referencePair_spec h
    exact ⟨x, y, hx, hy, hne, hmin, hmin', _, mergeAt_eq hx hy, unmerged_sublist wl _, perm_unmerged hx hy hne⟩
end

section
/-! PROOFS. The tree builder (`42_tree_build.md` R122 to R125): the merges make a greedy tree, and what every greedy tree
has in common with the working list it is made from. -/

namespace Sys2Proof

/-! ### The merges -/

theorem mem_unmerged {wl : List Tree} {p : Nat × Nat} {z : Tree} :
    z ∈ unmerged wl p ↔ ∃ k, wl[k]? = some z ∧ k ≠ p.1 ∧ k ≠ p.2 := by
  simp [unmerged, List.mem_zipIdx_iff_getElem?]

/-- R123: the merge of an allowed pair is a merge step. -/
theorem mergeStep_mergeAt {wl : List Tree} {p : Nat × Nat} (h : mergeAllowed wl p = true) :
    MergeStep wl (mergeAt wl p) := by
  obtain ⟨l, r, hl, hr, hne, hmin⟩ := mergeAllowed_iff.1 h
  refine ⟨l, r, unmerged wl p, perm_unmerged hl hr hne, fun z hz => ?_, by rw [mergeAt_eq hl hr]⟩
  obtain ⟨k, hz, h1, h2⟩ := mem_unmerged.1 hz
  exact hmin k z hz h1 h2

theorem MergeStep.length {wl wl' : List Tree} (h : MergeStep wl wl') : wl.length = wl'.length + 1 := by
  obtain ⟨l, r, rest, hwl, -, hwl'⟩ := h
  rw [hwl.length_eq, hwl'.length_eq]; rfl

/-- A list of one tree is merged no further. -/
theorem greedy_of_length_le_one {wl : List Tree} (h0 : wl ≠ []) (h1 : wl.length ≤ 1) : ∃ t, wl = [t] ∧ Greedy wl t := by
  obtain ⟨t, rfl⟩ := List.length_eq_one_iff.1 (Nat.le_antisymm h1 (List.length_pos_iff.2 h0))
  exact ⟨t, rfl, .done t⟩

/-- R122: the merges end in one tree, and it is a greedy one. -/
theorem mergeAll_greedy (p : Params) (n : Nat) {wl : List Tree} (h0 : wl ≠ []) (hn : wl.length ≤ n + 1) :
    ∃ t, mergeAll p n wl = [t] ∧ Greedy wl t := by
  induction n generalizing wl with
  | zero => exact greedy_of_length_le_one h0 hn
  | succ n ih =>
    rw [mergeAll]
    by_cases h1 : wl.length ≤ 1
    · rw [if_pos h1]; exact greedy_of_length_le_one h0 h1
    · rw [if_neg h1]
      have hstep : MergeStep wl (mergeAt wl (tiePair p wl)) := mergeStep_mergeAt (mergeAllowed_tiePair p (by omega))
      have hlen := hstep.length
      obtain ⟨t, ht, hg⟩ := ih (wl := mergeAt wl (tiePair p wl)) (List.length_pos_iff.1 (by omega)) (by omega)
      exact ⟨t, ht, .merge hstep hg⟩

theorem buildTree_none {p : Params} {f : Vector Weight 256} (h : observed f = []) :
    buildTree p f = .leaf 0 (some p.synSym) := by
  simp only [buildTree, initialWL_eq, h, List.map_nil]

theorem buildTree_one {p : Params} {f : Vector Weight 256} {c : Byte} (h : observed f = [c]) :
    buildTree p f = .node (f[c.toNat]?.getD 0) (.leaf (f[c.toNat]?.getD 0) (some c)) (.leaf 0 (some p.synSym)) := by
  simp only [buildTree, initialWL_eq, h, List.map_cons, List.map_nil, Tree.weight]

theorem buildTree_greedy (p : Params) {f : Vector Weight 256} (h : 2 ≤ (observed f).length) :
    Greedy ((observed f).map fun c => .leaf (f[c.toNat]?.getD 0) (some c)) (buildTree p f) := by
  rw [← initialWL_eq]
  have hlen : 2 ≤ (initialWL f).length := by rwa [initialWL_eq, List.length_map]
  obtain ⟨t, ht, hg⟩ := mergeAll_greedy p (initialWL f).length (List.length_pos_iff.1 (by omega)) (Nat.le_succ _)
  have hbuild : buildTree p f = t := by
    unfold buildTree
    split
    case h_1 h => simp [h] at hlen
    case h_2 h => simp [h] at hlen
    case h_3 => rw [finalWL, ht]; rfl
  rwa [hbuild]

/-! ### What every greedy tree has -/

/-- R125: the merges keep the leaves. -/
theorem Greedy.leafList_perm {wl : List Tree} {t : Tree} (h : Greedy wl t) :
    t.leafList.Perm (wl.flatMap Tree.leafList) := by
  induction h with
  | done t => simp
  | merge hstep _ ih =>
    obtain ⟨l, r, rest, hwl, -, hwl'⟩ := hstep
    refine (ih.trans (hwl'.flatMap_right _)).trans (.trans ?_ (hwl.flatMap_right _).symm)
    simp [Tree.leafList]

/-- R125 item 3: each merge puts a sum over its two entries. -/
theorem Greedy.sumsWeights {wl : List Tree} {t : Tree} (h : Greedy wl t) (hwl : ∀ z ∈ wl, z.sumsWeights = true) :
    t.sumsWeights = true := by
  induction h with
  | done t => exact hwl t List.mem_cons_self
  | merge hstep _ ih =>
    obtain ⟨l, r, rest, hperm, -, hperm'⟩ := hstep
    have hin : ∀ z ∈ l :: r :: rest, z.sumsWeights = true := fun z hz => hwl z (hperm.mem_iff.2 hz)
    refine ih fun z hz => ?_
    rcases List.mem_cons.1 (hperm'.mem_iff.1 hz) with rfl | hz
    · simp [Tree.sumsWeights, hin l, hin r]
    · exact hin z (List.mem_cons_of_mem _ (List.mem_cons_of_mem _ hz))

/-- R125 item 4: where internal weights are sums, the root weighs what its leaves weigh. -/
theorem Tree.weight_eq_sum_leafList {t : Tree} (h : t.sumsWeights = true) :
    t.weight = (t.leafList.map Prod.fst).sum := by
  induction t with
  | leaf w x => simp [Tree.weight, Tree.leafList]
  | node w l r ihl ihr =>
    simp only [Tree.sumsWeights, Bool.and_eq_true, beq_iff_eq] at h
    obtain ⟨⟨hw, hl⟩, hr⟩ := h
    rw [Tree.weight, hw, ihl hl, ihr hr, Tree.leafList, List.map_append, List.sum_append]

theorem Tree.size_pos (t : Tree) : 0 < t.size := by cases t <;> simp [Tree.size]

/-- A binary tree has one internal node fewer than leaves. -/
theorem Tree.size_succ (t : Tree) : t.size + 1 = 2 * t.leafList.length := by
  induction t with
  | leaf w x => rfl
  | node w l r ihl ihr => rw [Tree.size, Tree.leafList, List.length_append]; omega

theorem Tree.depth_lt_leaves (t : Tree) : t.depth < t.leafList.length := by
  induction t with
  | leaf w x => exact Nat.one_pos
  | node w l r ihl ihr => rw [Tree.depth, Tree.leafList, List.length_append]; omega

theorem Tree.isNode_of_leaves {t : Tree} (h : 2 ≤ t.leafList.length) : t.isNode = true := by
  cases t with
  | leaf w x => simp [Tree.leafList] at h
  | node w l r => rfl

/-- R125 item 1: the leaves of the tree built are the observed symbols with their counts. -/
theorem leafList_buildTree (p : Params) {f : Vector Weight 256} (h : 2 ≤ (observed f).length) :
    (buildTree p f).leafList.Perm ((observed f).map fun c => (f[c.toNat]?.getD 0, some c)) := by
  simpa only [List.flatMap_map, Tree.leafList, ← List.map_eq_flatMap] using (buildTree_greedy p h).leafList_perm

namespace Machine

theorem State.freqAt_eq (s : State) (c : Byte) : s.freqAt c = s.freq[c.toNat]?.getD 0 := by
  rw [State.freqAt, Vector.getElem?_eq_getElem, Option.getD_some]

/-- R168: where the tree store has room for the tree, it is built. -/
theorem exec_tBuild_of_room {s : State} (h : s.nodeRoom (buildTree s.params s.freq).size) :
    exec .tBuild s =
      .next { s with wl := finalWL s.params s.freq, tree := some (buildTree s.params s.freq), treeValid := true } := by
  have hroom : roomFor s.params.nodeCap ((buildTree s.params s.freq).size - 1) = true :=
    roomFor_iff.2 fun c hc => Nat.sub_one_lt_of_le (Tree.size_pos _) (h c hc)
  simp only [exec, execTBuild, hroom, if_true, settle_ok]

end Machine
end Sys2Proof

/-! ### The settled statements -/

open Sys2Proof Sys2Proof.Machine

/-- Settles O21: two special trees, and otherwise the merges. -/
theorem buildGivesTree : Obligations.BuildGivesTree := by
  intro s hroom
  refine ⟨_, _, exec_tBuild_of_room hroom, buildTree_none, fun c hc => ?_, fun h => ?_⟩
  · simp only [State.freqAt_eq, buildTree_one hc]
  · simp only [State.freqAt_eq]; exact buildTree_greedy _ h

/-- Settles O22: the merges give the leaves and the sums, and these give the rest. -/
theorem treeProperties : Obligations.TreeProperties := by
  intro p f h t
  have hleaves := leafList_buildTree p h
  have hlen : t.leafList.length = (observed f).length := by rw [hleaves.length_eq, List.length_map]
  have hsums : t.sumsWeights = true := (buildTree_greedy p h).sumsWeights (by simp [Tree.sumsWeights])
  refine ⟨hleaves, hsums, ?_, ?_, Tree.isNode_of_leaves (hlen ▸ h), ?_⟩
  · rw [t.weight_eq_sum_leafList hsums, (hleaves.map _).sum_eq, List.map_map]
    exact observed_sum f (g := id) rfl
  · have := t.size_succ; omega
  · have := t.depth_lt_leaves; omega
end

section
/-! PROOFS. Greedy trees are optimal (`42_tree_build.md` R125 item 5). Of the rival tree only the depths of its leaves
are used, and of these only Kraft's equality. Each merge step is matched by one on depths: the two lightest entries can
be put at the greatest depth, which occurs twice, at no cost, and then become one entry a level higher. -/

namespace Sys2Proof

/-! ### Kraft's equality -/

/-- The depths of the leaves of a binary tree, none deeper than D: at level D they leave no gap. -/
def FillsLevel (D : Nat) (ds : Multiset Nat) : Prop :=
  (∀ d ∈ ds, d ≤ D) ∧ (ds.map fun d => 2 ^ (D - d)).sum = 2 ^ D

/-- One level further down every depth counts twice. -/
theorem sum_level_succ {D : Nat} {ds : Multiset Nat} (h : ∀ d ∈ ds, d ≤ D) :
    (ds.map fun d => 2 ^ (D + 1 - d)).sum = 2 * (ds.map fun d => 2 ^ (D - d)).sum := by
  rw [← Multiset.sum_map_mul_left]
  refine congrArg _ (Multiset.map_congr rfl fun d hd => ?_)
  rw [Nat.succ_sub (h d hd), pow_succ']

/-- Of two or more depths the greatest occurs twice, since at its level the others count an even number. -/
theorem FillsLevel.two_deepest {D : Nat} {ds : Multiset Nat} (h : FillsLevel D ds) (h2 : 2 ≤ ds.card) :
    ∃ E es, ds = (E + 1) ::ₘ (E + 1) ::ₘ es ∧ FillsLevel (E + 1) ds := by
  induction D with
  | zero =>
    obtain ⟨hle, hsum⟩ := h
    have h1 : (ds.map fun d => 2 ^ (0 - d)).sum = ds.card := by simp
    omega
  | succ D ih =>
    obtain ⟨hle, hsum⟩ := h
    by_cases hmem : D + 1 ∈ ds
    · obtain ⟨es, rfl⟩ := Multiset.exists_cons_of_mem hmem
      by_cases hmem' : D + 1 ∈ es
      · obtain ⟨es, rfl⟩ := Multiset.exists_cons_of_mem hmem'
        exact ⟨D, es, rfl, hle, hsum⟩
      · have hes : ∀ d ∈ es, d ≤ D := fun d hd =>
          Nat.lt_succ_iff.1 (lt_of_le_of_ne (hle d (Multiset.mem_cons_of_mem hd)) (ne_of_mem_of_not_mem hd hmem'))
        rw [Multiset.map_cons, Multiset.sum_cons, sum_level_succ hes, Nat.sub_self, pow_succ'] at hsum
        omega
    · have hds : ∀ d ∈ ds, d ≤ D := fun d hd =>
        Nat.lt_succ_iff.1 (lt_of_le_of_ne (hle d hd) (ne_of_mem_of_not_mem hd hmem))
      refine ih ⟨hds, ?_⟩
      rw [sum_level_succ hds, pow_succ'] at hsum
      exact Nat.eq_of_mul_eq_mul_left Nat.two_pos hsum

/-- Two neighbours at the greatest depth make one place a level higher. -/
theorem FillsLevel.merge {D : Nat} {ds : Multiset Nat} (h : FillsLevel (D + 1) ((D + 1) ::ₘ (D + 1) ::ₘ ds)) :
    FillsLevel (D + 1) (D ::ₘ ds) := by
  obtain ⟨hle, hsum⟩ := h
  refine ⟨?_, ?_⟩
  · simp only [Multiset.forall_mem_cons] at hle ⊢
    exact ⟨Nat.le_succ D, hle.2.2⟩
  · simpa [← add_assoc] using hsum

/-! ### Entries at depths -/

section
variable {α : Type} (w : α → Nat)

/-- The weighted length of entries at depths. -/
def weightedDepth (P : Multiset (α × Nat)) : Nat := (P.map fun e => w e.1 * e.2).sum

@[simp] theorem weightedDepth_cons (e : α × Nat) (P : Multiset (α × Nat)) :
    weightedDepth w (e ::ₘ P) = w e.1 * e.2 + weightedDepth w P := by simp [weightedDepth]

/-- The lightest entry can be put at the greatest depth at no cost: it changes places with an entry there. -/
theorem sink_lightest {a : α} {d D : Nat} {P : Multiset (α × Nat)} (hmin : ∀ e ∈ P, w a ≤ w e.1) (hd : d ≤ D)
    (hmem : D ∈ d ::ₘ P.map Prod.snd) :
    ∃ Q : Multiset (α × Nat), Q.map Prod.fst = P.map Prod.fst ∧ D ::ₘ Q.map Prod.snd = d ::ₘ P.map Prod.snd ∧
      w a * D + weightedDepth w Q ≤ w a * d + weightedDepth w P := by
  rcases Multiset.mem_cons.1 hmem with rfl | hmem
  · exact ⟨P, rfl, rfl, le_rfl⟩
  · obtain ⟨⟨x, D'⟩, hx, rfl⟩ := Multiset.mem_map.1 hmem
    obtain ⟨R, rfl⟩ := Multiset.exists_cons_of_mem hx
    refine ⟨(x, d) ::ₘ R, by simp, by simpa using Multiset.cons_swap _ _ _, ?_⟩
    have hax : w a ≤ w x := hmin _ hx
    have hswap : w a * D' + w x * d ≤ w a * d + w x * D' := mul_add_mul_le_mul_add_mul hax hd
    simp only [weightedDepth_cons]
    omega

theorem exists_cons_of_map_fst [DecidableEq α] {a : α} {M : Multiset α} {P : Multiset (α × Nat)}
    (h : P.map Prod.fst = a ::ₘ M) : ∃ d Q, P = (a, d) ::ₘ Q ∧ Q.map Prod.fst = M := by
  obtain ⟨⟨b, d⟩, hmem, rfl, hM⟩ := (Multiset.map_eq_cons _ _ _ _).2 h
  exact ⟨d, _, (Multiset.cons_erase hmem).symm, hM⟩

/-- Both of two lightest entries can be put at the greatest depth at no cost. -/
theorem sink_two_lightest [DecidableEq α] {a b : α} {da db D : Nat} {P : Multiset (α × Nat)}
    (hmin : ∀ e ∈ P, w a ≤ w e.1 ∧ w b ≤ w e.1) (hD : FillsLevel D (da ::ₘ db ::ₘ P.map Prod.snd)) :
    ∃ (E : Nat) (Q : Multiset (α × Nat)), Q.map Prod.fst = P.map Prod.fst ∧
      FillsLevel (E + 1) ((E + 1) ::ₘ (E + 1) ::ₘ Q.map Prod.snd) ∧
      w a * (E + 1) + w b * (E + 1) + weightedDepth w Q ≤ w a * da + w b * db + weightedDepth w P := by
  wlog hab : w a ≤ w b generalizing a b da db
  · have hD' : FillsLevel D (db ::ₘ da ::ₘ P.map Prod.snd) := by rwa [Multiset.cons_swap]
    obtain ⟨E, Q, hQ, hE, hle⟩ := this (fun e he => (hmin e he).symm) hD' (le_of_not_ge hab)
    exact ⟨E, Q, hQ, hE, by omega⟩
  obtain ⟨E, es, hes, hE⟩ := hD.two_deepest (by simp)
  have hda : da ≤ E + 1 := hE.1 _ (Multiset.mem_cons_self _ _)
  -- the lightest first, among the second and the rest
  obtain ⟨Q₁, hfst₁, hsnd₁, hle₁⟩ := sink_lightest w (a := a) (P := (b, db) ::ₘ P)
    (by simpa only [Multiset.forall_mem_cons] using ⟨hab, fun e he => (hmin e he).1⟩) hda (by simp [hes])
  obtain ⟨db', R, rfl, hR⟩ := exists_cons_of_map_fst (hfst₁.trans (Multiset.map_cons _ _ _))
  have hall : (E + 1) ::ₘ db' ::ₘ R.map Prod.snd = da ::ₘ db ::ₘ P.map Prod.snd := by simpa using hsnd₁
  have hdb : db' ≤ E + 1 := hE.1 _ (by simp [← hall])
  have hdeep : E + 1 ∈ db' ::ₘ R.map Prod.snd := by
    rw [← hall, Multiset.cons_inj_right] at hes
    exact hes ▸ Multiset.mem_cons_self _ _
  have hminR : ∀ e ∈ R, w b ≤ w e.1 := fun e he => by
    obtain ⟨e', he', heq⟩ := Multiset.mem_map.1 (hR ▸ Multiset.mem_map_of_mem Prod.fst he)
    exact heq ▸ (hmin e' he').2
  obtain ⟨Q, hfst, hsnd, hle⟩ := sink_lightest w hminR hdb hdeep
  refine ⟨E, Q, hfst.trans hR, by rwa [hsnd, hall], ?_⟩
  simp only [weightedDepth_cons] at hle₁
  omega

end

/-! ### The weighted length of a tree -/

/-- The codewords below a node begin with the codeword of the node. -/
theorem Tree.codes_append (t : Tree) (p q : List Bool) :
    t.codes (p ++ q) = (t.codes q).map fun e => (e.1, p ++ e.2) := by
  induction t generalizing q with
  | leaf w x => rfl
  | node w l r ihl ihr => simp only [Tree.codes, List.append_assoc, ihl, ihr, List.map_append]

theorem Tree.codes_fst (t : Tree) (q : List Bool) : (t.codes q).map Prod.fst = t.symbols := by
  induction t generalizing q with
  | leaf w x => rfl
  | node w l r ihl ihr => simp only [Tree.codes, Tree.symbols, List.map_append, ihl, ihr]

/-- What the symbols of the leaves count in all. -/
def Tree.total (f : Byte → Nat) (t : Tree) : Nat := (t.symbols.map fun x => x.elim 0 f).sum

theorem Tree.total_node (f : Byte → Nat) (w : Weight) (l r : Tree) :
    (Tree.node w l r).total f = l.total f + r.total f := by simp [Tree.total, Tree.symbols]

theorem Tree.cost_leaf (f : Byte → Nat) (w : Weight) (x : Option Byte) : (Tree.leaf w x).cost f = 0 := by
  simp [Tree.cost, Tree.codes]

theorem Tree.cost_below (f : Byte → Nat) (t : Tree) (b : Bool) :
    ((t.codes [b]).map fun e => e.1.elim 0 f * e.2.length).sum = t.total f + t.cost f := by
  rw [← List.append_nil [b], t.codes_append, Tree.total, ← t.codes_fst [], Tree.cost, List.map_map, List.map_map,
    ← List.sum_map_add]
  exact congrArg List.sum (List.map_congr_left fun e _ => by simp; ring)

/-- Under a new root every leaf of two trees is one level deeper. -/
theorem Tree.cost_node (f : Byte → Nat) (w : Weight) (l r : Tree) :
    (Tree.node w l r).cost f = l.total f + l.cost f + (r.total f + r.cost f) := by
  rw [← l.cost_below f false, ← r.cost_below f true, ← List.sum_append, ← List.map_append]; rfl

/-! ### Optimality -/

/-- Kraft's equality holds of the depths of the leaves of a tree. -/
theorem Tree.codes_fill (t : Tree) (q : List Bool) {D : Nat} (hD : q.length + t.depth ≤ D) :
    (∀ e ∈ t.codes q, e.2.length ≤ D) ∧ ((t.codes q).map fun e => 2 ^ (D - e.2.length)).sum = 2 ^ (D - q.length) := by
  induction t generalizing q with
  | leaf w x => simpa [Tree.codes, Tree.depth] using hD
  | node w l r ihl ihr =>
    rw [Tree.depth] at hD
    obtain ⟨hl, hlsum⟩ := ihl (q ++ [false]) (by simp; omega)
    obtain ⟨hr, hrsum⟩ := ihr (q ++ [true]) (by simp; omega)
    have hpow : 2 ^ (D - q.length) = 2 * 2 ^ (D - (q.length + 1)) := by rw [← pow_succ']; congr 1; omega
    simp only [List.length_append, List.length_singleton] at hlsum hrsum
    refine ⟨fun e he => (List.mem_append.1 he).elim (hl e) (hr e), ?_⟩
    rw [Tree.codes, List.map_append, List.sum_append, hlsum, hrsum, hpow, two_mul]

/-- The weight of an entry of the working list as a number. -/
def Tree.weightNat (t : Tree) : Nat := t.weight.toNat

theorem Tree.weightNat_merge {l r : Tree} (h : l.weightNat + r.weightNat < 2 ^ 64) :
    (Tree.node (l.weight + r.weight) l r).weightNat = l.weightNat + r.weightNat := BitVec.toNat_add_of_lt h

/-- The greedy tree costs no more than its entries, each under its weight times its depth in any tree over them. -/
theorem Greedy.cost_le {wl : List Tree} {t : Tree} (h : Greedy wl t) {f : Byte → Nat} :
    (wl.map Tree.weightNat).sum < 2 ^ 64 → (∀ z ∈ wl, z.weightNat = z.total f) →
    ∀ (P : Multiset (Tree × Nat)) (D : Nat), P.map Prod.fst = wl → FillsLevel D (P.map Prod.snd) →
      t.cost f ≤ (wl.map (Tree.cost f)).sum + weightedDepth Tree.weightNat P := by
  induction h with
  | done t => intros; simp
  | @merge wl wl' t hstep _ ih =>
    intro hsum htotal P D hP hD
    obtain ⟨l, r, rest, hwl, hmin, hwl'⟩ := hstep
    have hPwl : P.map Prod.fst = l ::ₘ r ::ₘ (rest : Multiset Tree) := hP.trans (Multiset.coe_eq_coe.2 hwl)
    obtain ⟨dl, P₁, rfl, hP₁⟩ := exists_cons_of_map_fst hPwl
    obtain ⟨dr, P₂, rfl, hP₂⟩ := exists_cons_of_map_fst hP₁
    have hminP : ∀ e ∈ P₂, l.weightNat ≤ e.1.weightNat ∧ r.weightNat ≤ e.1.weightNat := fun e he =>
      hmin e.1 (Multiset.mem_coe.1 (hP₂ ▸ Multiset.mem_map_of_mem Prod.fst he))
    obtain ⟨E, Q, hQ, hE, hle⟩ := sink_two_lightest Tree.weightNat hminP (by simpa using hD)
    rw [(hwl.map _).sum_eq, List.map_cons, List.map_cons, List.sum_cons, List.sum_cons] at hsum ⊢
    have hnode := Tree.weightNat_merge (l := l) (r := r) (by omega)
    have hl : l.weightNat = l.total f := htotal l (hwl.mem_iff.2 (by simp))
    have hr : r.weightNat = r.total f := htotal r (hwl.mem_iff.2 (by simp))
    have hsum' : (wl'.map Tree.weightNat).sum < 2 ^ 64 := by
      rw [(hwl'.map _).sum_eq, List.map_cons, List.sum_cons, hnode]; omega
    have htotal' : ∀ z ∈ wl', z.weightNat = z.total f := fun z hz => by
      rcases List.mem_cons.1 (hwl'.mem_iff.1 hz) with rfl | hz
      · rw [hnode, Tree.total_node, hl, hr]
      · exact htotal z (hwl.mem_iff.2 (by simp [hz]))
    have hP' : ((.node (l.weight + r.weight) l r, E) ::ₘ Q).map Prod.fst = (wl' : Multiset Tree) := by
      rw [Multiset.map_cons, hQ, hP₂]; exact (Multiset.coe_eq_coe.2 hwl').symm
    have hgo := ih hsum' htotal' _ (E + 1) hP' (by simpa using hE.merge)
    rw [(hwl'.map _).sum_eq, List.map_cons, List.sum_cons, Tree.cost_node] at hgo
    simp only [weightedDepth_cons, hnode, mul_add, mul_one, add_mul] at hgo hle ⊢
    omega

/-- The leaf of a symbol with its count. -/
def symbolLeaf (f : Vector Weight 256) (x : Option Byte) : Tree := .leaf (x.elim 0 fun c => f[c.toNat]?.getD 0) x

/-- The leaves of a tree, with the counts of a histogram, at their depths. -/
def leavesAtDepths (f : Vector Weight 256) (t : Tree) : Multiset (Tree × Nat) :=
  (t.codes []).map fun e => (symbolLeaf f e.1, e.2.length)

theorem leavesAtDepths_fst (f : Vector Weight 256) (t : Tree) :
    (leavesAtDepths f t).map Prod.fst = (t.symbols.map (symbolLeaf f) : List Tree) := by
  rw [leavesAtDepths, Multiset.map_coe, List.map_map, ← t.codes_fst [], List.map_map]; rfl

theorem leavesAtDepths_fill (f : Vector Weight 256) (t : Tree) :
    FillsLevel t.depth ((leavesAtDepths f t).map Prod.snd) := by
  obtain ⟨hle, hsum⟩ := t.codes_fill [] (D := t.depth) (by simp)
  rw [leavesAtDepths, Multiset.map_coe, List.map_map]
  refine ⟨fun d hd => ?_, ?_⟩
  · obtain ⟨e, he, rfl⟩ := List.mem_map.1 (Multiset.mem_coe.1 hd)
    exact hle e he
  · rw [Multiset.map_coe, Multiset.sum_coe, List.map_map]
    exact hsum

theorem leavesAtDepths_weightedDepth (f : Vector Weight 256) (t : Tree) :
    weightedDepth Tree.weightNat (leavesAtDepths f t) = t.cost fun c => (f[c.toNat]?.getD 0).toNat := by
  rw [leavesAtDepths, weightedDepth, Multiset.map_coe, Multiset.sum_coe, List.map_map, Tree.cost]
  refine congrArg List.sum (List.map_congr_left fun e _ => ?_)
  obtain ⟨x, q⟩ := e
  cases x <;> rfl

end Sys2Proof

/-! ### The settled statement -/

open Sys2Proof

/-- Settles O23: the greedy tree is compared with the leaves of the rival tree at their depths. -/
theorem treeIsOptimal : Obligations.TreeIsOptimal := by
  intro p f t h hlt hsym
  have hwl : ((observed f).map fun c => Tree.leaf (f[c.toNat]?.getD 0) (some c)) =
      ((observed f).map some).map (symbolLeaf f) := by rw [List.map_map]; rfl
  have hcost := (buildTree_greedy p h).cost_le (f := fun c => (f[c.toNat]?.getD 0).toNat) ?_ ?_
    (leavesAtDepths f t) _ ?_ (leavesAtDepths_fill f t)
  · rw [leavesAtDepths_weightedDepth, List.map_map] at hcost
    simpa [Function.comp_def, Tree.cost_leaf] using hcost
  · rw [List.map_map]
    exact (observed_sum f (g := BitVec.toNat) rfl).trans_lt hlt
  · simp [Tree.weightNat, Tree.weight, Tree.total, Tree.symbols]
  · rw [leavesAtDepths_fst, hwl]
    exact Multiset.coe_eq_coe.2 (hsym.map _)
end

section
/-! PROOFS. The frequency count (`42_tree_build.md` R120, R128). -/

namespace Sys2Proof

/-- R120: each byte adds one to its own counter. -/
theorem bumpFreq_get (f : Vector Weight 256) (v c : Byte) :
    (bumpFreq f v)[c.toNat] = f[c.toNat] + if v = c then 1 else 0 := by
  rw [bumpFreq, Vector.getElem_set]
  by_cases h : v = c
  · subst h; simp
  · rw [if_neg fun he => h (BitVec.eq_of_toNat_eq he), if_neg h, add_zero]

theorem foldl_bumpFreq_get (bytes : List Byte) (f : Vector Weight 256) (c : Byte) :
    (bytes.foldl bumpFreq f)[c.toNat] = f[c.toNat] + BitVec.ofNat 64 (bytes.count c) := by
  induction bytes generalizing f with
  | nil => simp
  | cons v vs ih =>
    rw [List.foldl_cons, ih, bumpFreq_get, List.count_cons, BitVec.ofNat_add, add_assoc, add_comm (BitVec.ofNat 64 _)]
    by_cases h : v = c <;> simp [h]

theorem countBytes_get (bytes : List Byte) (c : Byte) :
    (countBytes bytes)[c.toNat] = BitVec.ofNat 64 (bytes.count c) := by
  rw [countBytes, foldl_bumpFreq_get, Vector.getElem_replicate, zero_add]

/-- Every entry of a list is counted once under names that miss none of them and are all different. -/
theorem sum_count_of_nodup {α : Type} [DecidableEq α] {l names : List α} (hnodup : names.Nodup)
    (hmem : ∀ v ∈ l, v ∈ names) : (names.map fun v => l.count v).sum = l.length := by
  rw [← List.sum_toFinset _ hnodup]
  simpa using Multiset.sum_count_eq_card (s := names.toFinset) (m := (l : Multiset α)) (by simpa using hmem)

/-- Every byte of a sequence is counted under one symbol. -/
theorem sum_count_symbols (bytes : List Byte) :
    ((List.range 256).map fun i => bytes.count (BitVec.ofNat 8 i)).sum = bytes.length := by
  have hnodup : ((List.range 256).map (BitVec.ofNat 8)).Nodup := by
    refine List.Nodup.map_on (fun i hi j hj h => ?_) List.nodup_range
    rw [List.mem_range] at hi hj
    have h := congrArg BitVec.toNat h
    rwa [BitVec.toNat_ofNat, BitVec.toNat_ofNat, Nat.mod_eq_of_lt hi, Nat.mod_eq_of_lt hj] at h
  have hsum := sum_count_of_nodup (l := bytes) hnodup fun v _ =>
    List.mem_map.2 ⟨v.toNat, List.mem_range.2 v.isLt, by simp⟩
  rwa [List.map_map] at hsum

end Sys2Proof

/-! ### The settled statement -/

open Sys2Proof Sys2Proof.Machine

/-- Settles O20: each counter is the count of its symbol, at most INLEN. -/
theorem frequencyCount : Obligations.FrequencyCount := by
  intro s
  have hexact : s.inbuf.length ≤ maxInput → ∀ c : Byte,
      (State.freqAt { s with freq := countBytes s.inbuf } c).toNat = s.inbuf.count c := fun hlen c => by
    have hc : s.inbuf.count c < 2 ^ 64 := by
      have := List.count_le_length (a := c) (l := s.inbuf); unfold maxInput at hlen; omega
    rw [State.freqAt, countBytes_get, BitVec.toNat_ofNat, Nat.mod_eq_of_lt hc]
  refine ⟨countBytes s.inbuf, rfl, countBytes_get s.inbuf, fun hlen => ⟨hexact hlen, ?_⟩⟩
  simp only [hexact hlen]
  exact sum_count_symbols s.inbuf
end

section
/-! PROOFS. The frames of the tree, block and walk operations where no error is raised (R120, R122, R143, R146, R148,
R151, R160, R163, R187, R190, R197, R199). -/

namespace Sys2Proof.Machine

/-- Where no error is raised, an operation that never waits has its value. -/
theorem holds_of_next {α : Type} {r : Res α} {s t : State} (P : State → Prop) (hf : t.st ≠ .fault)
    (h : settle s r = .next t) (hr : r.Sat (fun _ => P) fun e _ => e ≠ none) : P t := by
  rcases hr.next_of_not_fault hf h with ⟨-, ht⟩ | ⟨u, hu, -⟩
  · exact ht
  · exact absurd rfl hu

/-- The frame of an operation that may wait, `frame u` being its start with the elements named taken from `u`: what
waits is one element more. -/
theorem eq_of_next_or_wait {α : Type} {r : Res α} {s t : State} {frame : State → State} (hf : t.st ≠ .fault)
    (h : settle s r = .next t) (hr : r.Sat (fun _ u => u = frame u) fun e u => e = none → u = frame u)
    (hframe : ∀ u d, frame { u with held := d } = frame u := by intros; rfl) :
    t = { frame t with held := t.held } := by
  rcases hr.next_of_not_fault hf h with ⟨-, ht⟩ | ⟨u, hu, rfl⟩
  · rw [← ht]
  · have hsus : frame (s.suspend u) = u := (hframe u _).trans (hu rfl).symm
    rw [hsus]; rfl

theorem exec_tBuild_frame {s t : State} (hf : t.st ≠ .fault) (h : exec .tBuild s = .next t) :
    t = { s with wl := t.wl, tree := t.tree, treeValid := t.treeValid } := by
  refine holds_of_next (fun u => u = { s with wl := u.wl, tree := u.tree, treeValid := u.treeValid }) hf h ?_
  split <;> simp

theorem exec_tWriteLeaves_step {s t : State} (hf : t.st ≠ .fault) (h : exec .tWriteLeaves s = .next t) :
    PayStep s t := by
  refine holds_of_next (PayStep s) hf h ((needTree_sat s).bind (fun tr u hu => ?_) fun e u hu => by simp [hu.2.1])
  obtain ⟨rfl, -⟩ := hu
  exact (writeLeaves_sat tr u).mono (fun _ _ => id) fun e v hv => by simp [hv.2]

theorem exec_tBuildTable_frame {s t : State} (hf : t.st ≠ .fault) (h : exec .tBuildTable s = .next t) :
    t = { s with cw := t.cw, cwacc := t.cwacc } := by
  refine holds_of_next (fun u => u = { s with cw := u.cw, cwacc := u.cwacc }) hf h
    ((needTree_sat s).bind (fun tr u hu => ?_) fun e u hu => by simp [hu.2.1])
  obtain ⟨rfl, -⟩ := hu
  refine (table_sat tr [] (Nat.zero_le _) { u with cw := Vector.replicate 256 none }).mono (fun _ v hv => ?_)
    fun e v hv => by simp [hv.2]
  rw [hv.1]

/-- The operations that read a shape into TREE, through the reader alone. -/
theorem exec_readsShape {i : Instr} (hi : i = .tReadShape ∨ i = .sInternal) (s : State) :
    ∃ r : Res Tree, exec i s = settle s (r.bind fun t s => Res.ok () (s.setTree t)) ∧
      r.Sat (fun _ t => Read s t) (ReadErr s) := by
  rcases hi with rfl | rfl
  · exact ⟨_, rfl, readShape_sat s⟩
  · exact ⟨_, rfl, shapeInternal_sat s⟩

theorem exec_readsShape_frame {i : Instr} {s t : State} (hi : i = .tReadShape ∨ i = .sInternal) (hf : t.st ≠ .fault)
    (h : exec i s = .next t) :
    t = { s with br := t.br, tree := t.tree, src := t.src, srcEos := t.srcEos, held := t.held } := by
  obtain ⟨r, hx, hr⟩ := exec_readsShape hi s
  refine eq_of_next_or_wait
    (frame := fun u => { s with br := u.br, tree := u.tree, src := u.src, srcEos := u.srcEos }) hf (hx ▸ h)
    (hr.bind (fun tr u hu => ?_) fun e u hu _ => ?_)
  · rw [hu.1.1]; rfl
  · rw [hu.1.1.1]

theorem exec_sLeaf_frame {s t : State} (hf : t.st ≠ .fault) (h : exec .sLeaf s = .next t) :
    t = { s with tree := t.tree } :=
  holds_of_next (fun u => u = { s with tree := u.tree }) hf h
    ((shapeLeaf_sat s).bind (fun tr u hu => by rw [hu]; rfl) fun e u hu => by simp [hu.2])

theorem assignLeaves_frame (s : State) :
    (assignLeaves s).Sat (fun _ u => u = { s with tree := u.tree }) fun e _ => e ≠ none := by
  refine (assignLeaves_sat s).mono (fun _ u hu => ?_) fun e u hu => ?_
  · obtain ⟨_, _, -, -, rfl⟩ := hu; rfl
  · rcases hu.2 with rfl | ⟨rfl, -⟩ <;> simp

theorem exec_tAssignLeaves_frame {s t : State} (hf : t.st ≠ .fault) (h : exec .tAssignLeaves s = .next t) :
    t = { s with tree := t.tree } := holds_of_next (fun u => u = { s with tree := u.tree }) hf h (assignLeaves_frame s)

theorem exec_blkLeaves_frame {s t : State} (hf : t.st ≠ .fault) (h : exec .blkLeaves s = .next t) :
    t = { s with tree := t.tree, treeValid := t.treeValid } :=
  holds_of_next (fun u => u = { s with tree := u.tree, treeValid := u.treeValid }) hf h
    ((assignLeaves_frame s).bind (fun _ u hu => by rw [hu]; rfl) fun _ _ => id)

/-- R143: PAY is stored to at PAYLEN and above only. -/
theorem PayStep.pay_below {s t : State} (h : PayStep s t) {k : Nat} (hk : k < s.pay.length) :
    t.pay[k]? = s.pay[k]? := by
  obtain ⟨-, x, hx⟩ := h
  rw [← hx, List.getElem?_append_left hk]

/-- R187, R188: a reader bound to PAY reads no source and never waits. -/
theorem exec_blkShape_frame {s t : State} (hf : t.st ≠ .fault) (h : exec .blkShape s = .next t) :
    t = { s with br := t.br, tree := t.tree } := by
  refine holds_of_next (fun u => u = { s with br := u.br, tree := u.tree }) hf h
    ((readShape_sat (s.newReader (.pay 0))).bind (fun tr u hu => ?_) fun e u hu => ?_)
  · obtain ⟨hu, hpay⟩ := hu.1
    obtain ⟨hsrc, heos, -⟩ := hpay 0 rfl
    rw [hu, hsrc, heos]; rfl
  · rcases hu.2 with rfl | rfl | ⟨-, hne⟩
    · simp
    · simp
    · exact absurd rfl (hne 0)

theorem exec_blkWrite_frame {id : BlockId} {s t : State} (hf : t.st ≠ .fault) (h : exec (.blkWrite id) s = .next t) :
    t = { s with snk := t.snk, out := t.out, held := t.held } := by
  have hframe := eq_of_next_or_wait (frame := fun u => { s with snk := u.snk, out := u.out, freeCtr := u.freeCtr }) hf h
    ((emitAll_sat _ s).mono (fun _ u hu => hu.1.1) fun e u hu _ => hu.1.1)
  rwa [exec_freeCtr rfl h hf] at hframe

theorem exec_blkRead_frame {id : BlockId} {s t : State} (hf : t.st ≠ .fault) (h : exec (.blkRead id) s = .next t) :
    t = { s with
      src := t.src, srcEos := t.srcEos, blkId := t.blkId, blkLen := t.blkLen, pay := t.pay, held := t.held } :=
  eq_of_next_or_wait
    (frame := fun u => { s with src := u.src, srcEos := u.srcEos, blkId := u.blkId, blkLen := u.blkLen, pay := u.pay })
    hf h ((blockRead_sat id s).mono (fun _ u hu => hu.1) fun e u hu _ => hu.1)

theorem exec_walkTo_frame {b : Bool} {s t : State} {i : Instr} (hi : exec i s = settle s (walkTo b s))
    (hc : i.isCommand = false) (hf : t.st ≠ .fault) (h : exec i s = .next t) :
    t = { s with cur := t.cur, snk := t.snk, out := t.out, held := t.held } := by
  have hframe := eq_of_next_or_wait
    (frame := fun u => { s with cur := u.cur, snk := u.snk, out := u.out, freeCtr := u.freeCtr }) hf (hi ▸ h)
    ((walkTo_sat b s).mono (fun _ u hu => by rw [hu.1]) fun e u hu _ => by rw [hu.1.1])
  rwa [exec_freeCtr hc h hf] at hframe

theorem exec_padcnt_frame {p : BitVec 3} {s t : State} (hf : t.st ≠ .fault) (h : exec (.padcnt p) s = .next t) :
    t = { s with padcnt := t.padcnt, remaining := t.remaining } :=
  holds_of_next (fun u => u = { s with padcnt := u.padcnt, remaining := u.remaining }) hf h
    ((padHeader_sat _ s).mono (fun _ u hu => by rw [hu.1]) fun e u hu => by rcases hu.2 with rfl | rfl <;> simp)

theorem exec_dWalkBit_frame {s t : State} (hf : t.st ≠ .fault) (h : exec .dWalkBit s = .next t) :
    t = { s with
      cur := t.cur, remaining := t.remaining, br := t.br, snk := t.snk, out := t.out, src := t.src, srcEos := t.srcEos,
      held := t.held } := by
  have hframe := eq_of_next_or_wait
    (frame := fun u => { s with
      cur := u.cur, remaining := u.remaining, br := u.br, snk := u.snk, out := u.out, src := u.src, srcEos := u.srcEos,
      freeCtr := u.freeCtr }) hf h
    ((walkBit_sat s).mono (fun _ u hu => by rw [hu.1]) fun e u hu _ => by rw [hu.1])
  rwa [exec_freeCtr rfl h hf] at hframe

/-- R199 over a reader bound to PAY: the source is not read, and only the sink is waited for. -/
theorem walkBit_frame {s : State} {p : Nat} (hp : s.br.origin = .pay p) :
    (walkBit s).Sat
      (fun _ u => u = { s with cur := u.cur, remaining := u.remaining, br := u.br, snk := u.snk, out := u.out } ∧
        ∃ p', u.br.origin = .pay p')
      fun e u => e = none → u = { s with br := u.br, snk := u.snk, out := u.out, freeCtr := u.freeCtr } := by
  refine (requireTree_sat s).bind (fun tr u hu => ?_) fun e u hu he => by simp [he] at hu
  obtain ⟨rfl, -⟩ := hu
  split
  · trivial
  · refine (readBit_read u).bind (fun b v hv => ?_) fun e v hv he => ?_
    · obtain ⟨hv, hpay⟩ := hv.1
      obtain ⟨hsrc, heos, hp'⟩ := hpay p hp
      rw [hsrc, heos] at hv
      refine (walkTo_sat b v).bind (fun _ w hw => ⟨?_, ?_⟩) fun e w hw _ => ?_
      · rw [hw.1, hv]
      · rw [hw.1]; exact hp'
      · rw [hw.1.1, hv]
    · obtain ⟨-, hv | hv | ⟨-, hne⟩⟩ := hv
      · cases he ▸ hv
      · cases he ▸ hv
      · exact absurd hp (hne p)

/-- R203 over a reader bound to PAY. -/
theorem walkSteps_frame (n : Nat) {s : State} {p : Nat} (hp : s.br.origin = .pay p) :
    (walkSteps n s).Sat
      (fun _ u => u = { s with cur := u.cur, remaining := u.remaining, br := u.br, snk := u.snk, out := u.out })
      fun e u => e = none →
        u = { s with
          cur := u.cur, remaining := u.remaining, br := u.br, snk := u.snk, out := u.out, freeCtr := u.freeCtr } := by
  induction n generalizing s p with
  | zero => exact rfl
  | succ n ih =>
    refine (walkBit_frame hp).bind (fun _ u hu => ?_) fun e u hu he => by rw [hu he]
    obtain ⟨hu, p', hp'⟩ := hu
    refine (ih hp').mono (fun _ v hv => ?_) fun e v hv he => ?_
    · rw [hv, hu]
    · rw [hv he, hu]

theorem exec_blkData_frame {s t : State} (hf : t.st ≠ .fault) (h : exec .blkData s = .next t) :
    t = { s with
      cur := t.cur, remaining := t.remaining, br := t.br, padcnt := t.padcnt, snk := t.snk, out := t.out,
      held := t.held } := by
  have hframe := eq_of_next_or_wait
    (frame := fun u => { s with
      cur := u.cur, remaining := u.remaining, br := u.br, padcnt := u.padcnt, snk := u.snk, out := u.out,
      freeCtr := u.freeCtr }) hf h
    ((bodyHeader_sat s).bind (fun _ u hu => ?_) fun e u hu he => by simp [he] at hu)
  · rwa [exec_freeCtr rfl h hf] at hframe
  · have ho : u.br.origin = .pay 1 := by rw [hu.1]; rfl
    refine (walkSteps_frame u.remaining ho).mono (fun _ v hv => ?_) fun e v hv he => ?_
    · rw [hv, hu.1]
    · rw [hv he, hu.1]

end Sys2Proof.Machine

/-! ### The settled statement -/

open Sys2Proof Sys2Proof.Machine

/-- Settles O46: each operation's ends, with the error left out, are changes of its own elements. -/
theorem treeAndBlockFrame : Obligations.TreeAndBlockFrame := by
  intro s t _ hf
  refine ⟨fun h => by cases h; rfl, exec_tBuild_frame hf, fun h => ?_, exec_tBuildTable_frame hf,
    fun i hi => exec_readsShape_frame hi hf, exec_sLeaf_frame hf, exec_tAssignLeaves_frame hf, exec_blkShape_frame hf,
    exec_blkLeaves_frame hf, fun id => exec_blkWrite_frame hf, fun id => exec_blkRead_frame hf, ?_,
    fun p => exec_padcnt_frame hf, exec_dWalkBit_frame hf, exec_blkData_frame hf⟩
  · have hw := exec_tWriteLeaves_step hf h
    exact ⟨hw.1, fun k hk => hw.pay_below hk⟩
  · rintro i (rfl | rfl) h
    · exact exec_walkTo_frame rfl rfl hf h
    · exact exec_walkTo_frame rfl rfl hf h
end

section
/-! PROOFS. Shape words (`43_tree_serial.md` R140, R141, `30_encoding.md` R64): their properties as bit sequences, and the
bit writer that is given one bit by bit. -/

namespace Sys2Proof

/-! ### Shape words as bit sequences -/

theorem Tree.nleaves_eq (t : Tree) : t.nleaves = t.leafList.length := by
  induction t with
  | leaf w x => rfl
  | node w l r ihl ihr => rw [Tree.nleaves, Tree.leafList, List.length_append, ihl, ihr]

@[simp] theorem Tree.shapeBits_length (t : Tree) : t.shapeBits.length = t.size := by
  induction t with
  | leaf w x => rfl
  | node w l r ihl ihr => simp only [Tree.shapeBits, Tree.size, List.length_cons, List.length_append, ihl, ihr]; omega

/-- A tree has one leaf more than internal nodes. -/
theorem Tree.count_shapeBits (t : Tree) : t.shapeBits.count false = t.shapeBits.count true + 1 := by
  induction t with
  | leaf w x => rfl
  | node w l r ihl ihr => simp [Tree.shapeBits, ihl, ihr]; omega

/-- R141: before its end a shape word has opened at least as many nodes as it has closed. -/
theorem Tree.count_take_shapeBits (t : Tree) {n : Nat} (hn : n < t.shapeBits.length) :
    (t.shapeBits.take n).count false ≤ (t.shapeBits.take n).count true := by
  induction t generalizing n with
  | leaf w x => obtain rfl : n = 0 := Nat.lt_one_iff.1 hn; exact Nat.le_refl 0
  | node w l r ihl ihr =>
    cases n with
    | zero => exact Nat.le_refl 0
    | succ n =>
      simp only [Tree.shapeBits, List.length_cons, List.length_append] at hn
      simp only [Tree.shapeBits, List.take_succ_cons, List.take_append, List.count_append, List.count_cons_self,
        List.count_cons_of_ne (show true ≠ false by decide)]
      by_cases hlt : n < l.shapeBits.length
      · have hl := ihl hlt
        have hrest : n - l.shapeBits.length = 0 := by omega
        simp only [hrest, List.take_zero, List.count_nil]
        omega
      · have hr := ihr (n := n - l.shapeBits.length) (by omega)
        have hl := l.count_shapeBits
        rw [List.take_of_length_le (by omega)]
        omega

/-- R141: a shape word with which another begins is that other. -/
theorem Tree.shapeBits_eq_of_prefix {t u : Tree} (h : t.shapeBits <+: u.shapeBits) : t.shapeBits = u.shapeBits := by
  refine h.eq_of_length (Nat.le_antisymm h.length_le (Nat.le_of_not_lt fun hlt => ?_))
  have hbefore := u.count_take_shapeBits hlt
  rw [← List.prefix_iff_eq_take.1 h] at hbefore
  have hend := t.count_shapeBits
  omega

namespace Machine

/-! ### The bit writer given bit after bit -/

theorem writeMix_append (ws vs : List (Bool ⊕ BitSlice)) (s : State) :
    writeMix (ws ++ vs) s = (writeMix ws s).bind fun _ u => writeMix vs u := by
  induction ws generalizing s with
  | nil => rfl
  | cons w ws ih => cases w <;> simp only [List.cons_append, writeMix, ih, Res.bind_assoc]

/-- R140: `T.writeShape` writes the bits of the shape word in order. -/
theorem writeShape_eq_writeMix (t : Tree) (s : State) : writeShape t s = writeMix (t.shapeBits.map .inl) s := by
  induction t generalizing s with
  | leaf w x =>
    simp only [writeShape, Tree.shapeBits, List.map_cons, List.map_nil, writeMix]
    cases writeBit false s <;> rfl
  | node w l r ihl ihr =>
    simp only [writeShape, Tree.shapeBits, List.map_cons, List.map_append, writeMix, writeMix_append, ihl, ihr]

/-- R106: a bit that completes no byte stays pending. -/
theorem writeBit_pending {s : State} {q : List Bool} (h7 : q.length < 7) (hs : s.bw.acc = BitSlice.ofBits q) (b : Bool) :
    writeBit b s = .ok () (s.setAcc (BitSlice.ofBits (q ++ [b]))) := by
  rw [writeBit_ofBits (by omega) hs, flushWriter_short (by simp [State.setAcc_bw]; omega)]

/-- R106: the bit that completes a byte gives it to the destination. -/
theorem writeBit_completes {s : State} {q : List Bool} {b : Bool} {v : Byte} (hs : s.bw.acc = BitSlice.ofBits q)
    (hv : unpackByte v = q ++ [b]) : writeBit b s = destWrite v (s.setAcc BitSlice.empty) := by
  have hlen := congrArg List.length hv
  simp only [unpackByte_length, List.length_append, List.length_singleton] at hlen
  obtain ⟨b7, b6, b5, b4, b3, b2, b1, b0, hbits, rfl⟩ := packByte_unpackByte v
  rw [writeBit_ofBits (by omega) hs, ← hv, hbits]
  have hpop := BitSlice.popByte_ofBits b7 b6 b5 b4 b3 b2 b1 b0 (r := []) (Nat.zero_le _)
  show flushBytes (8 / 8) (s.setAcc (BitSlice.ofBits [b7, b6, b5, b4, b3, b2, b1, b0])) = _
  simp only [flushBytes, State.setAcc_bw, hpop]
  show (destWrite _ (s.setAcc BitSlice.empty)).bind _ = _
  cases destWrite _ (s.setAcc BitSlice.empty) <;> rfl

/-- Nothing given, the bits pending as they are. -/
theorem Flushes.nothing {s s₀ : State} {u : BitSlice} (hu : s.bw.acc = u) :
    Flushes s [] u (settle s₀ (.ok () s : Res Unit)) := by
  subst hu
  exact {
    pay := fun _ _ => by rw [List.append_nil, State.setAcc_self]; rfl
    payFull := fun _ h => absurd h (Nat.lt_irrefl 0)
    snk := fun _ r hs => by rw [List.append_nil, State.setAcc_self, ← (show s.snk = r from hs)]; rfl
    snkFail := fun _ k _ h => absurd h (Nat.not_lt_zero k) }

/-- One byte given, and then what an operation gives that finds the writer with the bits `a` pending. -/
theorem Flushes.byte_first {s s₀ : State} {v : Byte} {vs : List Byte} {a u : BitSlice} {k : Act Unit}
    (h : ∀ t, t.bw = (s.setAcc a).bw → Flushes t vs u (settle s₀ (k t))) :
    Flushes s (v :: vs) u (settle s₀ ((destWrite v (s.setAcc a)).bind fun _ t => k t)) := by
  have hpay : s.bw.dest = .pay → destWrite v (s.setAcc a) = payAppend v (s.setAcc a) := fun hd => by
    simp only [destWrite, show (s.setAcc a).bw.dest = .pay from hd]
  have hsnk : s.bw.dest = .snk → destWrite v (s.setAcc a) = emit v (s.setAcc a) := fun hd => by
    simp only [destWrite, show (s.setAcc a).bw.dest = .snk from hd]
  have hput : ∀ p, Flushes { s.setAcc a with pay := p } vs u (settle s₀ (k _)) := fun p => h _ rfl
  have hemit : ∀ r o, Flushes { s.setAcc a with snk := r, out := o } vs u (settle s₀ (k _)) := fun r o => h _ rfl
  constructor
  case pay =>
    intro hd hroom
    have h1 : s.payRoom 1 := State.payRoom_mono hroom (by simp)
    rw [hpay hd, payAppend_run (State.payRoom_setAcc.2 h1), Res.bind_ok, List.append_cons s.pay]
    exact (hput _).pay hd (State.payRoom_append.2 hroom)
  case payFull =>
    intro hd _ hroom
    rw [hpay hd]
    by_cases h1 : s.payRoom 1
    · have hvs : 0 < vs.length := Nat.pos_of_ne_zero fun h0 => hroom (by simpa [h0] using h1)
      rw [payAppend_run (State.payRoom_setAcc.2 h1), Res.bind_ok]
      exact (hput _).payFull hd hvs (mt State.payRoom_append.1 hroom)
    · rw [payAppend_full (mt State.payRoom_setAcc.1 h1), Res.bind_raise]
      exact settle_raise_io ⟨_, rfl⟩
  case snk =>
    intro hd r hs
    rw [hsnk hd, emit_ok (s := s.setAcc a) v hs, Res.bind_ok, List.append_cons s.out]
    exact (hemit _ _).snk hd r rfl
  case snkFail =>
    intro hd k r hk hs
    rw [hsnk hd]
    cases k with
    | zero =>
      rw [emit_ioFail (s := s.setAcc a) v hs, Res.bind_raise]
      exact settle_raise_io ⟨_, rfl⟩
    | succ k =>
      rw [emit_ok (s := s.setAcc a) v hs, Res.bind_ok]
      exact (hemit _ _).snkFail hd k r (Nat.lt_of_succ_lt_succ hk) rfl

/-- R106 for each bit of a sequence: the complete bytes of what was pending and of the sequence go to the destination,
the rest stays pending. -/
theorem writeMix_bits_flushes (x : List Bool) {s : State} (s₀ : State) {q r : List Bool} {bytes : List Byte}
    (h7 : q.length ≤ 7) (hs : s.bw.acc = BitSlice.ofBits q) (hr : r.length ≤ 7) (hcut : q ++ x = unpack bytes ++ r) :
    Flushes s bytes (BitSlice.ofBits r) (settle s₀ (writeMix (x.map .inl) s)) := by
  have hlen := congrArg List.length hcut
  simp only [List.length_append, unpack_length] at hlen
  induction x generalizing s q bytes with
  | nil =>
    obtain rfl : bytes = [] := List.length_eq_zero_iff.1 (by simp at hlen; omega)
    obtain rfl : q = r := by simpa [unpack] using hcut
    exact .nothing hs
  | cons b x ih =>
    simp only [List.length_cons] at hlen
    simp only [List.map_cons, writeMix]
    by_cases hlt : q.length < 7
    · rw [writeBit_pending hlt hs, Res.bind_ok]
      have hf := ih (s := s.setAcc (BitSlice.ofBits (q ++ [b]))) (by simp; omega) rfl (by simpa using hcut)
        (by simp; omega)
      exact ⟨hf.pay, hf.payFull, hf.snk, hf.snkFail⟩
    · cases bytes with
      | nil => simp at hlen; omega
      | cons v vs =>
        rw [unpack_cons, List.append_cons q, List.append_assoc (unpackByte v)] at hcut
        obtain ⟨hv, hx⟩ := List.append_inj hcut (by simp; omega)
        rw [writeBit_completes hs hv.symm]
        refine .byte_first fun t ht => ih (q := []) (Nat.zero_le 7) (by rw [ht]; rfl) hx ?_
        simp only [List.length_cons, List.length_nil] at hlen ⊢
        omega

end Machine
end Sys2Proof

/-! ### The settled statements -/

open Sys2Proof Sys2Proof.Machine

/-- Settles O25: the bits pending and the shape word are cut into complete bytes and a rest. -/
theorem writeShapeResult : Obligations.WriteShapeResult := by
  intro s t ht hs
  obtain ⟨q, h7, hq⟩ := State.writerReady_iff.1 hs
  obtain ⟨bytes, r, hcut, -, hr⟩ := bytes_and_rest (q ++ t.shapeBits)
  have hf := writeMix_bits_flushes t.shapeBits s h7 hq hr hcut
  rw [← writeShape_eq_writeMix] at hf
  have hx : exec .tWriteShape s = settle s (writeShape t s) := by
    simp only [exec, execTWriteShape, needTree_some ht, Res.bind_ok]
  rw [hx, hq, BitSlice.seq_ofBits (by omega)]
  exact ⟨bytes, BitSlice.ofBits r, BitSlice.ofBits_wf (by omega), hr,
    by rw [BitSlice.seq_ofBits (by omega), hcut], hf.pay, hf.payFull, fun hd => ⟨hf.snk hd, hf.snkFail hd⟩⟩

/-- Settles O26: a shape word is balanced at its end only. -/
theorem shapeWordProperties : Obligations.ShapeWordProperties := by
  intro t
  have hsize := t.size_succ
  rw [← t.nleaves_eq] at hsize
  exact ⟨t.shapeBits_length, by rw [t.shapeBits_length]; omega, t.count_shapeBits, fun n => t.count_take_shapeBits,
    fun u => Tree.shapeBits_eq_of_prefix⟩
end

section
/-! PROOFS. The leaves and the codewords of a tree (`43_tree_serial.md` R143, R146, R147, `30_encoding.md` R70). -/

namespace Sys2Proof

/-! ### Leaves -/

@[simp] theorem Tree.symbols_length (t : Tree) : t.symbols.length = t.nleaves := by
  induction t with
  | leaf w x => rfl
  | node w l r ihl ihr => rw [Tree.symbols, List.length_append, ihl, ihr, Tree.nleaves]

theorem Tree.nleaves_pos (t : Tree) : 0 < t.nleaves := by
  rw [t.nleaves_eq]; exact Nat.zero_lt_of_lt t.depth_lt_leaves

/-! ### Codewords -/

/-- R70: below a node codewords are those of its children behind the bit of the child. -/
theorem Tree.codes_node (w : Weight) (l r : Tree) :
    (Tree.node w l r).codes [] =
      (l.codes []).map (fun e => (e.1, [false] ++ e.2)) ++ (r.codes []).map fun e => (e.1, [true] ++ e.2) := by
  rw [← Tree.codes_append, ← Tree.codes_append]; rfl

/-- R147: a codeword leads from the root to its leaf. -/
theorem Tree.nodeAt_of_mem_codes {t : Tree} {e : Option Byte × List Bool} (he : e ∈ t.codes []) :
    ∃ w, t.nodeAt e.2 = some (.leaf w e.1) := by
  induction t generalizing e with
  | leaf w x => obtain rfl := List.mem_singleton.1 he; exact ⟨w, rfl⟩
  | node w l r ihl ihr =>
    rw [Tree.codes_node, List.mem_append, List.mem_map, List.mem_map] at he
    rcases he with ⟨e, he, rfl⟩ | ⟨e, he, rfl⟩
    · exact ihl he
    · exact ihr he

/-- Of the codewords of two leaves neither begins with the other. -/
def PrefixFree (a b : Option Byte × List Bool) : Prop := ¬ a.2 <+: b.2 ∧ ¬ b.2 <+: a.2

/-- R70: below different children of a node codewords differ in the node's bit, below the same child by induction. -/
theorem Tree.codes_prefixFree (t : Tree) : (t.codes []).Pairwise PrefixFree := by
  induction t with
  | leaf w x => exact List.pairwise_singleton _ _
  | node w l r ihl ihr =>
    rw [Tree.codes_node, List.pairwise_append, List.pairwise_map, List.pairwise_map]
    refine ⟨ihl.imp ?_, ihr.imp ?_, ?_⟩
    · exact fun h => ⟨mt (List.prefix_append_right_inj _).1 h.1, mt (List.prefix_append_right_inj _).1 h.2⟩
    · exact fun h => ⟨mt (List.prefix_append_right_inj _).1 h.1, mt (List.prefix_append_right_inj _).1 h.2⟩
    · simp only [List.mem_map]
      rintro _ ⟨a, -, rfl⟩ _ ⟨b, -, rfl⟩
      simp [PrefixFree]

/-- The codewords of the leaves of `c`, in preorder, with `q` passed to the root. -/
def Tree.codesFor (t : Tree) (q : List Bool) (c : Byte) : List (List Bool) :=
  (t.codes q).filterMap fun (s, p) => if s = some c then some p else none

theorem Tree.codeOf_eq (t : Tree) (c : Byte) : t.codeOf c = (t.codesFor [] c).getLast? := rfl

theorem Tree.codesFor_node (w : Weight) (l r : Tree) (q : List Bool) (c : Byte) :
    (Tree.node w l r).codesFor q c = l.codesFor (q ++ [false]) c ++ r.codesFor (q ++ [true]) c := by
  simp only [Tree.codesFor, Tree.codes, List.filterMap_append]

/-- A codeword is no longer than the tree is deep. -/
theorem Tree.length_le_depth_of_codeOf {t : Tree} {c : Byte} {q : List Bool} (h : t.codeOf c = some q) :
    q.length ≤ t.depth := by
  obtain ⟨e, he, hq⟩ := List.mem_filterMap.1 (List.mem_of_getLast? h)
  have hlen := (t.codes_fill [] (D := t.depth) (by simp)).1 e he
  simp only [Option.ite_none_right_eq_some, Option.some.injEq] at hq
  exact hq.2 ▸ hlen

namespace Machine

/-! ### T.writeLeaves -/

/-- R105, R168: a PAY without room for all the bytes. -/
theorem payAppendAll_full {vs : List Byte} (hne : vs ≠ []) {s : State} (h : ¬ s.payRoom vs.length) :
    ∃ t, payAppendAll vs s = .raise .io t := by
  induction vs generalizing s with
  | nil => exact absurd rfl hne
  | cons v vs ih =>
    by_cases h1 : s.payRoom 1
    · rw [payAppendAll, payAppend_run h1, Res.bind_ok]
      refine ih (fun h0 => h (by rw [h0]; exact h1)) fun hroom => h fun c hc => ?_
      have := hroom c hc
      simp at this ⊢; omega
    · rw [payAppendAll, payAppend_full h1]; exact ⟨s, rfl⟩

/-- R143: symbols that are all set are bytes appended to PAY. -/
theorem putSymbols_map_some (vs : List Byte) (s : State) : putSymbols (vs.map some) s = payAppendAll vs s := by
  induction vs generalizing s with
  | nil => rfl
  | cons v vs ih => simp only [List.map_cons, putSymbols, payAppendAll, needSymbol, Res.bind_ok, ih]

theorem exec_tWriteLeaves_of_symbols {s : State} {t : Tree} {vs : List Byte} (ht : s.tree = some t)
    (hvs : t.symbols = vs.map some) : exec .tWriteLeaves s = settle s (payAppendAll vs s) := by
  simp only [exec, execTWriteLeaves, needTree_some ht, Res.bind_ok, writeLeaves_eq_putSymbols, hvs, putSymbols_map_some]

/-! ### T.buildTable -/

theorem State.cwAt_set (s : State) (v c : Byte) (x : BitSlice) :
    State.cwAt { s with cwacc := x, cw := s.cw.set v.toNat (some x) } c = if v = c then some x else s.cwAt c := by
  simp only [State.cwAt, Vector.getElem_set, BitVec.toNat_inj]

/-- R146: each entry of the table built is the codeword of the last leaf of its symbol, and where there is none the entry
is as it was. -/
theorem table_cwAt {t : Tree} {q : List Bool} {s u : State} (h : table t (BitSlice.ofBits q) s = .ok () u) (c : Byte) :
    u.cwAt c = ((t.codesFor q c).getLast?.map BitSlice.ofBits).or (s.cwAt c) := by
  induction t generalizing q s u with
  | leaf w x =>
    cases x with
    | none => cases h
    | some v =>
      cases h
      rw [State.cwAt_set]
      by_cases hv : v = c
      · simp [Tree.codesFor, Tree.codes, hv]
      · simp [Tree.codesFor, Tree.codes, hv]
  | node w l r ihl ihr =>
    by_cases hq : q.length < 64
    · rw [table_node hq] at h
      obtain ⟨_, m, hl, hr⟩ := Res.bind_eq_ok.1 h
      rw [ihr hr, ihl hl, Tree.codesFor_node, List.getLast?_append, Option.map_or, Option.or_assoc]
    · simp only [table, BitSlice.appendBit_ofBits, if_neg hq] at h; cases h

/-- R146: a node at depth 65 has no codeword. -/
theorem table_too_deep {t : Tree} (hc : t.complete = true) {q : List Bool} (hq : q.length ≤ 64)
    (hd : 64 < q.length + t.depth) (s : State) : ∃ u, table t (BitSlice.ofBits q) s = .raise .capacity u := by
  induction t generalizing q s with
  | leaf w x => simp only [Tree.depth] at hd; omega
  | node w l r ihl ihr =>
    simp only [Tree.complete, Bool.and_eq_true] at hc
    simp only [Tree.depth] at hd
    by_cases hlt : q.length < 64
    · rw [table_node hlt]
      by_cases hl : q.length + 1 + l.depth ≤ 64
      · obtain ⟨u, hu⟩ := table_complete hc.1 (q := q ++ [false]) (by simpa using hl) s
        rw [hu, Res.bind_ok]
        exact ihr hc.2 (by simpa using hlt) (by simp; omega) u
      · obtain ⟨u, hu⟩ := ihl hc.1 (q := q ++ [false]) (by simpa using hlt) (by simp; omega) s
        exact ⟨u, by rw [hu, Res.bind_raise]⟩
    · exact ⟨s, by simp only [table, BitSlice.appendBit_ofBits, if_neg hlt]⟩

theorem exec_tBuildTable_of_tree {s : State} {t : Tree} (ht : s.tree = some t) :
    exec .tBuildTable s = settle s (table t (BitSlice.ofBits []) { s with cw := Vector.replicate 256 none }) := by
  simp only [exec, execTBuildTable, needTree_some ht, Res.bind_ok, BitSlice.ofBits_nil]

end Machine
end Sys2Proof

/-! ### The settled statements -/

open Sys2Proof Sys2Proof.Machine

/-- Settles O27: the leaves are their bytes, appended one after another. -/
theorem writeLeavesResult : Obligations.WriteLeavesResult := by
  intro s t vs ht hvs
  rw [exec_tWriteLeaves_of_symbols ht hvs]
  refine ⟨fun hroom => by rw [payAppendAll_run vs s hroom, settle_ok], fun hroom => ?_⟩
  have hlen : t.nleaves = vs.length := by rw [← t.symbols_length, hvs, List.length_map]
  have hne : vs ≠ [] := List.ne_nil_of_length_pos (hlen ▸ t.nleaves_pos)
  exact settle_raise_io (payAppendAll_full hne hroom)

/-- Settles O28: the table is cleared, and the leaves give their codewords to it in preorder. -/
theorem buildTableResult : Obligations.BuildTableResult := by
  intro s t ht hc
  rw [exec_tBuildTable_of_tree ht]
  refine ⟨fun hd => ?_, fun hd => ?_⟩
  · obtain ⟨u, hu⟩ := table_complete hc (q := []) (by simpa using hd) { s with cw := Vector.replicate 256 none }
    have hsat := table_sat t [] (Nat.zero_le _) { s with cw := Vector.replicate 256 none }
    rw [hu] at hsat ⊢
    obtain ⟨hframe, -, -⟩ := hsat
    refine ⟨u.cw, u.cwacc, congrArg Host.Outcome.next hframe, fun c => ?_⟩
    have hclear : State.cwAt { s with cw := Vector.replicate 256 none } c = none := by simp [State.cwAt]
    have hentry := table_cwAt hu c
    rw [← Tree.codeOf_eq, hclear, Option.or_none] at hentry
    refine ⟨fun q hq => ?_, fun hq => ?_⟩
    · have h64 := (Tree.length_le_depth_of_codeOf hq).trans hd
      rw [hq] at hentry
      exact ⟨BitSlice.ofBits q, hentry, BitSlice.ofBits_wf h64, BitSlice.seq_ofBits h64⟩
    · rw [hq] at hentry; exact hentry
  · obtain ⟨u, hu⟩ := table_too_deep hc (q := []) (Nat.zero_le _) (by simpa using hd)
      { s with cw := Vector.replicate 256 none }
    rw [hu, settle_raise]
    exact ⟨_, rfl, State.raise_st _ u, State.raise_err _ u⟩

/-- Settles O29: by induction on the tree, codewords from the root being those of the children behind a bit. -/
theorem codewordsAreAPrefixCode : Obligations.CodewordsAreAPrefixCode :=
  fun t => ⟨fun _ => Tree.nodeAt_of_mem_codes, t.codes_prefixFree⟩
end

section
/-! PROOFS. Reading a shape word (`43_tree_serial.md` R148 to R150) over a reader bound to PAY: from the bits of the word,
and where the bits end before the grammar is satisfied. -/

namespace Sys2Proof

@[simp] theorem Tree.shapeBits_leaf (w : Weight) (x : Option Byte) : (Tree.leaf w x).shapeBits = [false] := rfl

@[simp] theorem Tree.shapeBits_node (w : Weight) (l r : Tree) :
    (Tree.node w l r).shapeBits = true :: (l.shapeBits ++ r.shapeBits) := rfl

/-- The bits begin with a shape word. -/
def BeginsShape (bits : List Bool) : Prop := ∃ t : Tree, t.shapeBits <+: bits

theorem BeginsShape.leaf (bits : List Bool) : BeginsShape (false :: bits) := ⟨.leaf 0 none, by simp⟩

theorem BeginsShape.node {l r : Tree} {bits : List Bool} (h : l.shapeBits ++ r.shapeBits <+: bits) :
    BeginsShape (true :: bits) := ⟨.node 0 l r, by simpa using h⟩

namespace Machine

/-- A reader bound to PAY, with these bits ahead. -/
structure Reads (s : State) (bits : List Bool) : Prop where
  origin : ∃ p, s.br.origin = .pay p
  bits   : s.readerBits = bits

theorem Reads.readBit {s : State} {b : Bool} {bits : List Bool} (h : Reads s (b :: bits)) :
    ∃ br, readBit s = .ok b { s with br := br } ∧ Reads { s with br := br } bits := by
  obtain ⟨p, ho⟩ := h.origin
  obtain ⟨br, p', hread, ho', hbits⟩ := readBit_run ho h.bits
  exact ⟨br, hread, ⟨p', ho'⟩, hbits⟩

theorem Reads.readBit_end {s : State} (h : Reads s []) : Machine.readBit s = .raise .truncated s := by
  obtain ⟨p, ho⟩ := h.origin
  exact readBit_empty ho h.bits

theorem Reads.bitsAhead {s : State} {bits : List Bool} (h : Reads s bits) : s.bitsAhead = bits.length := by
  obtain ⟨p, ho⟩ := h.origin
  rw [bitsAhead_eq ho, h.bits]

theorem State.nodeRoom_mono {s : State} {m n : Nat} (h : s.nodeRoom n) (hm : m ≤ n) : s.nodeRoom m :=
  fun c hc => hm.trans (h c hc)

/-- R168: a further node, where the tree store has room for it. -/
theorem countNode_run {s : State} {m n : Nat} (h : s.nodeRoom m) (hn : n < m) : countNode n s = .ok (n + 1) s := by
  rw [countNode, if_pos (roomFor_iff.2 fun c hc => hn.trans_le (h c hc))]

/-- R150: after the bit 1 a left and then a right subtree are read. -/
theorem Reads.readSubtree_internal {fuel m n : Nat} {s : State} {bits : List Bool} (h : Reads s (true :: bits))
    (hroom : s.nodeRoom m) (hn : n < m) :
    ∃ br, Reads { s with br := br } bits ∧
      readSubtree (fuel + 1) n s = (readSubtree fuel (n + 1) { s with br := br }).bind fun x u =>
        (readSubtree fuel x.2 u).bind fun y v => .ok (.node 0 x.1 y.1, y.2) v := by
  obtain ⟨br, hread, h⟩ := h.readBit
  refine ⟨br, h, ?_⟩
  rw [readSubtree, hread, Res.bind_ok, countNode_run (s := { s with br := br }) hroom hn]; rfl

theorem shapeInternal_eq {m : Nat} {s : State} (hroom : s.nodeRoom m) (hm : 0 < m) :
    shapeInternal s = (readSubtree (s.bitsAhead + 1) 1 s).bind fun x t =>
      (readSubtree (t.bitsAhead + 1) x.2 t).bind fun y u => .ok (.node 0 x.1 y.1) u := by
  rw [shapeInternal, countNode_run hroom hm]; rfl

/-- R148: the subtree of a shape word ahead, and the reader just after the word. -/
theorem Reads.readSubtree {t : Tree} {fuel n : Nat} {s : State} {rest : List Bool} (h : Reads s (t.shapeBits ++ rest))
    (hfuel : t.size ≤ fuel) (hroom : s.nodeRoom (n + t.size)) :
    ∃ br, readSubtree fuel n s = .ok (t.skeleton, n + t.size) { s with br := br } ∧ Reads { s with br := br } rest := by
  induction t generalizing fuel n s rest with
  | leaf w x =>
    obtain ⟨fuel, rfl⟩ := Nat.exists_eq_add_one_of_ne_zero (Nat.ne_zero_of_lt hfuel)
    obtain ⟨br, hread, h⟩ := h.readBit
    have hcount := countNode_run (s := { s with br := br }) hroom (Nat.lt_succ_self n)
    refine ⟨br, ?_, h⟩
    rw [Machine.readSubtree, hread, Res.bind_ok, hcount, Res.bind_ok]; rfl
  | node w l r ihl ihr =>
    simp only [Tree.size] at hfuel hroom
    obtain ⟨fuel, rfl⟩ := Nat.exists_eq_add_one_of_ne_zero (n := fuel) (by omega)
    rw [Tree.shapeBits_node, List.cons_append, List.append_assoc] at h
    obtain ⟨br, h, hrun⟩ := h.readSubtree_internal (fuel := fuel) (n := n) hroom (by omega)
    obtain ⟨brl, hl, h⟩ := ihl (n := n + 1) (fuel := fuel) h (by omega) (State.nodeRoom_mono hroom (by omega))
    obtain ⟨brr, hr, h⟩ := ihr (n := n + 1 + l.size) (fuel := fuel) h (by omega) (State.nodeRoom_mono hroom (by omega))
    refine ⟨brr, ?_, h⟩
    rw [hrun, hl, Res.bind_ok, hr, Res.bind_ok, Tree.skeleton, Tree.size, ← Nat.add_assoc, ← Nat.add_assoc]

/-- Two subtrees are to be read where the bits ahead hold no two shape words one after the other: the first of them
finds no word, or it finds one and the second finds none. -/
theorem Reads.missing {bits : List Bool} {fuel n : Nat} {s : State} (h : Reads s bits)
    (hno : ∀ l r : Tree, ¬ l.shapeBits ++ r.shapeBits <+: bits) (hfuel : bits.length < fuel)
    (hroom : s.nodeRoom (n + bits.length)) :
    ¬ BeginsShape bits ∨ ∃ (l : Tree) (rest : List Bool) (br : BitReader), bits = l.shapeBits ++ rest ∧
      Machine.readSubtree fuel n s = .ok (l.skeleton, n + l.size) { s with br := br } ∧
      Reads { s with br := br } rest ∧ ¬ BeginsShape rest := by
  refine or_iff_not_imp_left.2 fun hl => ?_
  obtain ⟨l, rest, rfl⟩ := not_not.1 hl
  rw [List.length_append, Tree.shapeBits_length] at hfuel hroom
  obtain ⟨br, hrun, h⟩ := h.readSubtree (n := n) (fuel := fuel) (by omega) (State.nodeRoom_mono hroom (by omega))
  exact ⟨l, rest, br, rfl, hrun, h, fun ⟨r, hr⟩ => hno l r ((List.prefix_append_right_inj _).2 hr)⟩

/-- R148: with no shape word ahead the bits end before the grammar is satisfied. -/
theorem Reads.readSubtree_truncated {bits : List Bool} {fuel n : Nat} {s : State} (h : Reads s bits)
    (hno : ¬ BeginsShape bits) (hfuel : bits.length < fuel) (hroom : s.nodeRoom (n + bits.length)) :
    ∃ u, Machine.readSubtree fuel n s = .raise .truncated u := by
  induction fuel generalizing n s bits with
  | zero => exact absurd hfuel (Nat.not_lt_zero _)
  | succ fuel ih =>
    match bits with
    | [] => exact ⟨s, by rw [Machine.readSubtree, h.readBit_end, Res.bind_raise]⟩
    | false :: bits => exact absurd (BeginsShape.leaf bits) hno
    | true :: bits =>
      have hfuel : bits.length < fuel := Nat.lt_of_succ_lt_succ hfuel
      have hroom : s.nodeRoom (n + 1 + bits.length) := by
        rwa [List.length_cons, ← Nat.add_assoc, Nat.add_right_comm] at hroom
      obtain ⟨br, h, hrun⟩ := h.readSubtree_internal (fuel := fuel) (n := n) hroom (by omega)
      rw [hrun]
      rcases h.missing (fun l r hp => hno (.node hp)) hfuel hroom with hl | ⟨l, rest, br', rfl, hl, h, hr⟩
      · obtain ⟨u, hu⟩ := ih h hl hfuel hroom
        exact ⟨u, by rw [hu, Res.bind_raise]⟩
      · rw [List.length_append, Tree.shapeBits_length] at hfuel hroom
        obtain ⟨u, hu⟩ := ih (n := n + 1 + l.size) h hr (by omega) (by rwa [Nat.add_assoc (n + 1)])
        exact ⟨u, by rw [hl, Res.bind_ok, hu, Res.bind_raise]⟩

/-- R150: a left and a right subtree of shape words ahead. -/
theorem Reads.shapeInternal {l r : Tree} {s : State} {rest : List Bool}
    (h : Reads s (l.shapeBits ++ (r.shapeBits ++ rest))) (hroom : s.nodeRoom (1 + l.size + r.size)) :
    ∃ br, shapeInternal s = .ok (.node 0 l.skeleton r.skeleton) { s with br := br } ∧ Reads { s with br := br } rest := by
  have hahead := h.bitsAhead
  obtain ⟨brl, hl, h⟩ := h.readSubtree (n := 1) (fuel := s.bitsAhead + 1) (by simp [hahead]; omega)
    (State.nodeRoom_mono hroom (by omega))
  have hahead := h.bitsAhead
  obtain ⟨brr, hr, h⟩ := h.readSubtree (n := 1 + l.size) (fuel := State.bitsAhead { s with br := brl } + 1)
    (by simp [hahead]; omega) hroom
  refine ⟨brr, ?_, h⟩
  rw [shapeInternal_eq hroom (by omega), hl, Res.bind_ok, hr, Res.bind_ok]

/-- R150: a subtree that is missing. -/
theorem Reads.shapeInternal_truncated {bits : List Bool} {s : State} (h : Reads s bits)
    (hno : ∀ l r : Tree, ¬ l.shapeBits ++ r.shapeBits <+: bits) (hroom : s.nodeRoom (1 + bits.length)) :
    ∃ u, Machine.shapeInternal s = .raise .truncated u := by
  have hfuel : bits.length < s.bitsAhead + 1 := by rw [h.bitsAhead]; omega
  rw [shapeInternal_eq hroom (by omega)]
  rcases h.missing (n := 1) hno hfuel hroom with hl | ⟨l, rest, br, rfl, hl, h', hr⟩
  · obtain ⟨u, hu⟩ := h.readSubtree_truncated (n := 1) hl hfuel hroom
    exact ⟨u, by rw [hu, Res.bind_raise]⟩
  · rw [List.length_append, Tree.shapeBits_length] at hroom
    have hahead := h'.bitsAhead
    obtain ⟨u, hu⟩ := h'.readSubtree_truncated (n := 1 + l.size) (fuel := State.bitsAhead { s with br := br } + 1) hr
      (by omega) (by rwa [Nat.add_assoc 1])
    exact ⟨u, by rw [hl, Res.bind_ok, hu, Res.bind_raise]⟩

/-- R149: a leaf reads nothing. -/
theorem shapeLeaf_run {s : State} (hroom : s.nodeRoom 1) : shapeLeaf s = .ok (.leaf 0 none) s := by
  rw [shapeLeaf, countNode_run hroom Nat.zero_lt_one, Res.bind_ok]

/-- R148: the tree of a shape word ahead. -/
theorem Reads.readShape {t : Tree} {s : State} {rest : List Bool} (h : Reads s (t.shapeBits ++ rest))
    (hroom : s.nodeRoom t.size) :
    ∃ br, readShape s = .ok t.skeleton { s with br := br } ∧ Reads { s with br := br } rest := by
  cases t with
  | leaf w x =>
    obtain ⟨br, hread, h⟩ := h.readBit
    refine ⟨br, ?_, h⟩
    rw [Machine.readShape, hread, Res.bind_ok]
    exact shapeLeaf_run (s := { s with br := br }) hroom
  | node w l r =>
    rw [Tree.shapeBits_node, List.cons_append, List.append_assoc] at h
    obtain ⟨br, hread, h⟩ := h.readBit
    obtain ⟨br', hrun, h⟩ := h.shapeInternal hroom
    refine ⟨br', ?_, h⟩
    rw [Machine.readShape, hread, Res.bind_ok, if_pos rfl, hrun, Tree.skeleton]

theorem Reads.readShape_truncated {bits : List Bool} {s : State} (h : Reads s bits) (hno : ¬ BeginsShape bits)
    (hroom : s.nodeRoom bits.length) : ∃ u, Machine.readShape s = .raise .truncated u := by
  rw [Machine.readShape]
  match bits with
  | [] => exact ⟨s, by rw [h.readBit_end, Res.bind_raise]⟩
  | false :: bits => exact absurd (BeginsShape.leaf bits) hno
  | true :: bits =>
    obtain ⟨br, hread, h⟩ := h.readBit
    rw [hread, Res.bind_ok, if_pos rfl]
    exact h.shapeInternal_truncated (fun l r hp => hno (.node hp)) (by rwa [Nat.add_comm])

end Machine
end Sys2Proof

/-! ### The settled statements -/

open Sys2Proof Sys2Proof.Machine

/-- Settles O30: by induction on the tree of the word, and on the bits where they begin with no word. -/
theorem readShapeResult : Obligations.ReadShapeResult := by
  intro s p ho
  refine ⟨fun t rest hroom hbits => ?_, fun hroom hno => ?_⟩
  · have h : Reads s (t.shapeBits ++ rest) := ⟨⟨p, ho⟩, hbits⟩
    obtain ⟨br, hrun, h⟩ := h.readShape hroom
    exact ⟨br, by simp only [exec, execTReadShape, hrun, Res.bind_ok, settle_ok, State.setTree], h.bits⟩
  · have h : Reads s s.readerBits := ⟨⟨p, ho⟩, rfl⟩
    obtain ⟨u, hrun⟩ := h.readShape_truncated (fun ⟨t, ht⟩ => hno t ht) hroom
    exact ⟨_, by simp only [exec, execTReadShape, hrun, Res.bind_raise, settle_raise], State.raise_st _ u,
      State.raise_err _ u⟩

/-- Settles O31: the two rules that `T.readShape` follows after its first bit. -/
theorem shapeBitRows : Obligations.ShapeBitRows := by
  intro s
  refine ⟨fun hroom => ?_, fun p ho => ⟨fun l r rest hroom hbits => ?_, fun hroom hno => ?_⟩⟩
  · simp only [exec, execSLeaf, shapeLeaf_run hroom, Res.bind_ok, settle_ok, State.setTree]
  · have h : Reads s (l.shapeBits ++ (r.shapeBits ++ rest)) := ⟨⟨p, ho⟩, hbits⟩
    obtain ⟨br, hrun, h⟩ := h.shapeInternal hroom
    exact ⟨br, by simp only [exec, execSInternal, hrun, Res.bind_ok, settle_ok, State.setTree], h.bits⟩
  · have h : Reads s s.readerBits := ⟨⟨p, ho⟩, rfl⟩
    obtain ⟨u, hrun⟩ := h.shapeInternal_truncated hno hroom
    exact ⟨_, by simp only [exec, execSInternal, hrun, Res.bind_raise, settle_raise], State.raise_st _ u,
      State.raise_err _ u⟩
end

section
/-! PROOFS. The symbols of a tree read back (`43_tree_serial.md` R151, R152): `T.assignLeaves` gives the one tree of the
shape and weights of TREE whose symbols are the bytes of PAY. -/

namespace Sys2Proof

/-! ### What does not depend on the symbols -/

@[simp] theorem Tree.shapeBits_dropSymbols (t : Tree) : t.dropSymbols.shapeBits = t.shapeBits := by
  induction t with
  | leaf w x => rfl
  | node w l r ihl ihr => simp only [Tree.dropSymbols, Tree.shapeBits_node, ihl, ihr]

@[simp] theorem Tree.nleaves_dropSymbols (t : Tree) : t.dropSymbols.nleaves = t.nleaves := by
  induction t with
  | leaf w x => rfl
  | node w l r ihl ihr => simp only [Tree.dropSymbols, Tree.nleaves, ihl, ihr]

/-- Trees of one shape and weights have equally many leaves. -/
theorem Tree.nleaves_of_dropSymbols {t u : Tree} (h : u.dropSymbols = t.dropSymbols) : u.nleaves = t.nleaves := by
  rw [← u.nleaves_dropSymbols, h, t.nleaves_dropSymbols]

/-- A list with one entry per leaf is the list of symbols of a tree of the given shape and weights. -/
theorem Tree.exists_symbols {t : Tree} {xs : List (Option Byte)} (h : xs.length = t.nleaves) :
    ∃ u : Tree, u.symbols = xs ∧ u.dropSymbols = t.dropSymbols := by
  induction t generalizing xs with
  | leaf w x =>
    obtain ⟨y, rfl⟩ := List.length_eq_one_iff.1 h
    exact ⟨.leaf w y, rfl, rfl⟩
  | node w l r ihl ihr =>
    simp only [Tree.nleaves] at h
    obtain ⟨l', hl, hl'⟩ := ihl (xs := xs.take l.nleaves) (by simp; omega)
    obtain ⟨r', hr, hr'⟩ := ihr (xs := xs.drop l.nleaves) (by simp; omega)
    exact ⟨.node w l' r', by rw [Tree.symbols, hl, hr, List.take_append_drop], by simp only [Tree.dropSymbols, hl', hr']⟩

/-! ### The assignment -/

theorem Tree.assign_node {w : Weight} {l r : Tree} {bs rest : List Byte} {u : Tree} :
    (Tree.node w l r).assign bs = some (u, rest) ↔
      ∃ l' r' mid, l.assign bs = some (l', mid) ∧ r.assign mid = some (r', rest) ∧ u = .node w l' r' := by
  rw [Tree.assign]
  constructor
  · intro h
    split at h
    · cases h
    · split at h
      · cases h
      · cases h; exact ⟨_, _, _, ‹_›, ‹_›, rfl⟩
  · rintro ⟨l', r', mid, hl, hr, rfl⟩
    simp only [hl, hr]

/-- R151: the assignment takes the bytes that are the symbols of its result. -/
theorem Tree.symbols_of_assign {t u : Tree} {bs rest : List Byte} (h : t.assign bs = some (u, rest)) :
    ∃ vs, bs = vs ++ rest ∧ u.symbols = vs.map some ∧ u.dropSymbols = t.dropSymbols := by
  induction t generalizing bs rest u with
  | leaf w x =>
    cases bs with
    | nil => cases h
    | cons b bs => cases h; exact ⟨[b], rfl, rfl, rfl⟩
  | node w l r ihl ihr =>
    obtain ⟨l', r', mid, hl, hr, rfl⟩ := Tree.assign_node.1 h
    obtain ⟨vs, rfl, hvs, hl'⟩ := ihl hl
    obtain ⟨ws, rfl, hws, hr'⟩ := ihr hr
    exact ⟨vs ++ ws, by rw [List.append_assoc], by rw [Tree.symbols, hvs, hws, List.map_append],
      by simp only [Tree.dropSymbols, hl', hr']⟩

/-- R151: bytes that are the symbols of a tree of the given shape and weights give that tree. -/
theorem Tree.assign_symbols {t u : Tree} {vs : List Byte} (hu : u.symbols = vs.map some)
    (hd : u.dropSymbols = t.dropSymbols) (rest : List Byte) : t.assign (vs ++ rest) = some (u, rest) := by
  induction t generalizing vs u rest with
  | leaf w x =>
    cases u with
    | node w' l r => cases hd
    | leaf w' y =>
      cases hd
      obtain ⟨v, rfl, hv⟩ := List.map_eq_singleton_iff.1 hu.symm
      rw [← hv]; rfl
  | node w l r ihl ihr =>
    cases u with
    | leaf w' y => cases hd
    | node w' l' r' =>
      simp only [Tree.dropSymbols, Tree.node.injEq] at hd
      obtain ⟨rfl, hl, hr⟩ := hd
      obtain ⟨ls, rs, rfl, hls, hrs⟩ := List.map_eq_append_iff.1 hu.symm
      refine Tree.assign_node.2 ⟨l', r', rs ++ rest, ?_, ihr hrs.symm hr rest, rfl⟩
      rw [List.append_assoc]; exact ihl hls.symm hl (rs ++ rest)

/-! ### Without weights -/

@[simp] theorem Tree.symbols_dropWeights (t : Tree) : t.dropWeights.symbols = t.symbols := by
  induction t with
  | leaf w x => rfl
  | node w l r ihl ihr => simp only [Tree.dropWeights, Tree.symbols, ihl, ihr]

theorem Tree.dropSymbols_dropWeights (t : Tree) : t.dropWeights.dropSymbols = t.skeleton := by
  induction t with
  | leaf w x => rfl
  | node w l r ihl ihr => simp only [Tree.dropWeights, Tree.dropSymbols, Tree.skeleton, ihl, ihr]

@[simp] theorem Tree.dropSymbols_skeleton (t : Tree) : t.skeleton.dropSymbols = t.skeleton := by
  induction t with
  | leaf w x => rfl
  | node w l r ihl ihr => simp only [Tree.skeleton, Tree.dropSymbols, ihl, ihr]

namespace Machine

/-- R151: PAY holds the symbols of a tree of the shape and weights of TREE. -/
theorem exec_tAssignLeaves_of_symbols {s : State} {t u : Tree} (ht : s.tree = some t) (hu : u.symbols = s.pay.map some)
    (hd : u.dropSymbols = t.dropSymbols) : exec .tAssignLeaves s = .next (s.setTree u) := by
  have hassign : t.assign s.pay = some (u, []) := by simpa using Tree.assign_symbols hu hd []
  simp only [exec, execTAssignLeaves, assignLeaves, needTree_some ht, Res.bind_ok, hassign, settle_ok]

/-- R151: PAY holds too few bytes or too many. -/
theorem exec_tAssignLeaves_of_length {s : State} {t : Tree} (ht : s.tree = some t) (hlen : s.pay.length ≠ t.nleaves) :
    exec .tAssignLeaves s = .next (s.raise .leafCount) := by
  have hassign : ∀ u, t.assign s.pay ≠ some (u, []) := fun u h => by
    obtain ⟨vs, hpay, hvs, hd⟩ := Tree.symbols_of_assign h
    apply hlen
    rw [← Tree.nleaves_of_dropSymbols hd, ← u.symbols_length, hvs, hpay, List.append_nil, List.length_map]
  have hraise : assignLeaves s = .raise .leafCount s := by
    rw [assignLeaves, needTree_some ht, Res.bind_ok]
    split
    · exact absurd ‹_› (hassign _)
    · rfl
  simp only [exec, execTAssignLeaves, hraise, settle_raise]

end Machine
end Sys2Proof

/-! ### The settled statements -/

open Sys2Proof Sys2Proof.Machine

/-- Settles O32: the tree of TREE's shape and weights with the bytes of PAY as symbols is what the assignment gives. -/
theorem assignLeavesResult : Obligations.AssignLeavesResult := by
  intro s t ht
  refine ⟨fun hlen => ?_, fun hlen => ⟨_, exec_tAssignLeaves_of_length ht hlen, State.raise_st _ s, State.raise_err _ s⟩⟩
  obtain ⟨u, hu, hd⟩ := Tree.exists_symbols (t := t) (xs := s.pay.map some) (by rw [List.length_map, hlen])
  exact ⟨u, exec_tAssignLeaves_of_symbols ht hu hd, hu, by rw [← u.shapeBits_dropSymbols, hd, t.shapeBits_dropSymbols], hd⟩

/-- Settles O33: the tree without its weights has the symbols given and the shape read. -/
theorem serializationRoundTrip : Obligations.SerializationRoundTrip := by
  intro s p t vs rest ho hroom hbits hvs
  obtain ⟨hread, -⟩ := readShapeResult s p ho
  obtain ⟨br, hrun, -⟩ := hread t rest hroom hbits
  exact ⟨_, _, hrun, exec_tAssignLeaves_of_symbols (u := t.dropWeights) rfl (by rw [t.symbols_dropWeights, hvs])
    (by rw [t.dropSymbols_dropWeights, t.dropSymbols_skeleton]), rfl⟩
end

section
/-! PROOFS. The block framer (`44_block_framer.md` R160, R163 to R165): the bytes an operation takes from the source, one
after another, and what it does where the source ends or fails before the last of them. -/

namespace Sys2Proof

/-- R44: a byte put at its place below the bytes of a little-endian number. -/
theorem ofNat_or_leNat (v : Byte) (bs : List Byte) (k : Nat) :
    BitVec.ofNat 64 (v.toNat * 2 ^ (8 * k)) ||| BitVec.ofNat 64 (leNat bs * 2 ^ (8 * (k + 1))) =
      BitVec.ofNat 64 (leNat (v :: bs) * 2 ^ (8 * k)) := by
  have hdisjoint : v.toNat ||| leNat bs <<< 8 = leNat (v :: bs) := by
    rw [Nat.lor_comm, ← Nat.shiftLeft_add_eq_or_of_lt v.isLt, Nat.shiftLeft_eq, leNat, Nat.add_comm, Nat.mul_comm]
  rw [← BitVec.ofNat_or, ← hdisjoint, ← Nat.shiftLeft_eq, ← Nat.shiftLeft_eq, ← Nat.shiftLeft_eq,
    Nat.shiftLeft_or_distrib, ← Nat.shiftLeft_add, Nat.mul_succ, Nat.add_comm 8]

namespace Machine

/-! ### Taking bytes from the source -/

/-- R41, R164: the answers that stop an operation which needs a byte, and the errors that they are. -/
def SrcAns.Stops (x : SrcAns) (e : Err) : Prop := x = .eos ∧ e = .truncated ∨ x = .ioFail ∧ e = .io

/-- The source stopped the operation with this error; it is at EOS if it has ended. -/
def Res.StoppedBy {α : Type} (r : Res α) (e : Err) : Prop := ∃ u, r = .raise e u ∧ (e = .truncated → u.srcEos = true)

theorem Res.StoppedBy.bind {α β : Type} {r : Res α} {e : Err} (h : r.StoppedBy e) (k : α → State → Res β) :
    (r.bind k).StoppedBy e := by
  obtain ⟨u, rfl, hu⟩ := h
  exact ⟨u, rfl, hu⟩

theorem Res.StoppedBy.next {α : Type} {r : Res α} {e : Err} (h : r.StoppedBy e) (s : State) :
    ∃ t, settle s r = .next t ∧ t.st = .fault ∧ t.err = e ∧ (e = .truncated → t.srcEos = true) := by
  obtain ⟨u, rfl, hu⟩ := h
  exact ⟨_, rfl, State.raise_st e u, State.raise_err e u, by rwa [State.raise_srcEos]⟩

/-- From `s`, whatever its source, the operation takes the bytes `bs` and ends in `t` with `a`; where the source stops
before the last of them, so does the operation. -/
structure Takes {α : Type} (f : Act α) (s : State) (bs : List Byte) (a : α) (t : State) : Prop where
  all : ∀ r, f { s with src := bs.map .byte ++ r } = .ok a { t with src := r }
  cut : ∀ k r x e, k < bs.length → SrcAns.Stops x e → (f { s with src := (bs.take k).map .byte ++ x :: r }).StoppedBy e

section
variable {α β : Type} {s t u : State} {a : α} {b : β}

theorem Takes.nothing {f : Act α} (h : ∀ r, f { s with src := r } = .ok a { t with src := r }) : Takes f s [] a t where
  all := h
  cut _ _ _ _ hk := absurd hk (Nat.not_lt_zero _)

theorem Takes.bind {f : Act α} {g : α → Act β} {bs cs : List Byte} (h : Takes f s bs a t) (hg : Takes (g a) t cs b u) :
    Takes (fun s => (f s).bind g) s (bs ++ cs) b u where
  all r := by rw [List.map_append, List.append_assoc, h.all, Res.bind_ok, hg.all]
  cut k r x e hk hx := by
    by_cases hkb : k < bs.length
    · rw [List.take_append_of_le_length hkb.le]
      exact (h.cut k r x e hkb hx).bind g
    · rw [List.length_append] at hk
      rw [List.take_append, List.take_of_length_le (Nat.le_of_not_lt hkb), List.map_append, List.append_assoc, h.all,
        Res.bind_ok]
      exact hg.cut _ r x e (by omega) hx

/-- The same bytes are taken by an operation that is this one on every source, from its own start. -/
theorem Takes.of_eq {f g : Act α} {s' : State} {bs : List Byte} (h : Takes f s' bs a t)
    (hg : ∀ r, g { s with src := r } = f { s' with src := r }) : Takes g s bs a t where
  all r := by rw [hg, h.all]
  cut k r x e hk hx := by rw [hg]; exact h.cut k r x e hk hx

/-- The operation on a source that holds the bytes. -/
theorem Takes.run {f : Act α} {bs : List Byte} {r : List SrcAns} (h : Takes f s bs a t) (hsrc : s.src = bs.map .byte ++ r) :
    f s = .ok a { t with src := r } := by
  have hall := h.all r
  rwa [← hsrc] at hall

/-- The operation on a source that stops before the last byte. -/
theorem Takes.stopped {f : Act α} {bs : List Byte} {k : Nat} {r : List SrcAns} {x : SrcAns} {e : Err} (h : Takes f s bs a t)
    (hk : k < bs.length) (hx : x.Stops e) (hsrc : s.src = (bs.take k).map .byte ++ x :: r) : (f s).StoppedBy e := by
  have hcut := h.cut k r x e hk hx
  rwa [← hsrc] at hcut

end

/-- R163: one required byte. -/
theorem nextByte_takes {s : State} (he : s.srcEos = false) (v : Byte) : Takes nextByte s [v] v s where
  all r := nextByte_run he rfl
  cut k r x e hk hx := by
    obtain rfl : k = 0 := by simpa using hk
    rcases hx with ⟨rfl, rfl⟩ | ⟨rfl, rfl⟩
    · exact ⟨_, nextByte_eos he rfl, fun _ => rfl⟩
    · exact ⟨_, nextByte_ioFail he rfl, nofun⟩

/-! ### BLK.read -/

/-- R163, R67: the bytes of the length field from byte `k` on. -/
theorem readLen_takes (bs : List Byte) (k : Nat) {s : State} {w : Word} (he : s.srcEos = false)
    (hw : s.blkLen ||| BitVec.ofNat 64 (leNat bs * 2 ^ (8 * k)) = w) :
    Takes (readLen bs.length k) s bs () { s with blkLen := w } := by
  induction bs generalizing k s with
  | nil =>
    rw [leNat, Nat.zero_mul, BitVec.or_zero] at hw
    exact .nothing fun _ => hw ▸ rfl
  | cons v bs ih =>
    have hbyte : Takes (readLenByte k) s [v] () { s with blkLen := s.blkLen ||| BitVec.ofNat 64 (v.toNat * 2 ^ (8 * k)) } :=
      (nextByte_takes he v).bind (.nothing fun _ => rfl)
    rw [← ofNat_or_leNat, ← BitVec.or_assoc] at hw
    exact hbyte.bind (g := fun _ => readLen bs.length (k + 1)) (ih (k + 1) he hw)

/-- R168: each byte appended takes room for one. -/
theorem State.payRoom_pay_append {s : State} {v : Byte} {n : Nat} :
    State.payRoom { s with pay := s.pay ++ [v] } n ↔ s.payRoom (n + 1) := State.payRoom_append (u := s.bw.acc)

/-- R163: the payload, where PAY has room for it. -/
theorem readPayload_takes (bs : List Byte) {s : State} (he : s.srcEos = false) (hroom : s.payRoom bs.length) :
    Takes (readPayload bs.length) s bs () { s with pay := s.pay ++ bs } := by
  induction bs generalizing s with
  | nil =>
    rw [List.append_nil]
    exact .nothing fun _ => rfl
  | cons v bs ih =>
    have hone : s.payRoom 1 := State.payRoom_mono hroom (Nat.succ_le_succ (Nat.zero_le _))
    have happend : Takes (payAppend v) s [] () { s with pay := s.pay ++ [v] } :=
      .nothing fun r => payAppend_run (s := { s with src := r }) hone v
    have hrest := happend.bind (g := fun _ => readPayload bs.length) (ih he (State.payRoom_pay_append.2 hroom))
    rw [List.append_assoc] at hrest
    exact (nextByte_takes he v).bind (g := fun v s => (payAppend v s).bind fun _ s => readPayload bs.length s) hrest

/-- R105, R168: PAY has no room for the bytes there; as many are to be read, or more. -/
theorem readPayload_full {bs : List Byte} {n : Nat} {s : State} (r : List SrcAns) (he : s.srcEos = false)
    (hn : bs.length ≤ n) (hne : bs ≠ []) (hroom : ¬ s.payRoom bs.length) :
    ∃ u, readPayload n { s with src := bs.map .byte ++ r } = .raise .io u := by
  induction bs generalizing n s with
  | nil => exact absurd rfl hne
  | cons v bs ih =>
    obtain ⟨n, rfl⟩ := Nat.exists_eq_add_one_of_ne_zero (Nat.ne_zero_of_lt hn)
    have hbyte : nextByte { s with src := (v :: bs).map .byte ++ r } = .ok v { s with src := bs.map .byte ++ r } :=
      (nextByte_takes he v).all (bs.map .byte ++ r)
    rw [readPayload, hbyte, Res.bind_ok]
    by_cases hone : s.payRoom 1
    · rw [payAppend_run (s := { s with src := bs.map .byte ++ r }) hone, Res.bind_ok]
      exact ih (s := { s with pay := s.pay ++ [v] }) he (Nat.le_of_succ_le_succ hn) (fun h0 => hroom (by rw [h0]; exact hone))
        (mt State.payRoom_pay_append.1 hroom)
    · rw [payAppend_full (s := { s with src := bs.map .byte ++ r }) hone]
      exact ⟨_, rfl⟩

/-- `BLK.read` up to its payload (R163, R165): the id, compared before anything follows it, and the length field. -/
def blockHead (expected : BlockId) : Act Unit := fun s =>
  (nextByte s).bind fun v t =>
    if v = expected.code then readLen 8 0 { t with blkId := v, blkLen := 0 } else .raise .blockId { t with blkId := v }

/-- R163: as many payload bytes as BLK_LEN says, to an empty PAY. -/
def readBody : Act Unit := fun s => readPayload s.blkLen.toNat s.clearPay

theorem blockRead_eq (id : BlockId) (s : State) : blockRead id s = (blockHead id s).bind fun _ => readBody := by
  rw [blockRead, blockHead, Res.bind_assoc]
  congr 1
  funext v t
  dsimp only
  split
  · rfl
  · rfl

/-- R165: another id is an error before anything that follows it is read. -/
theorem blockHead_otherId {id : BlockId} {s : State} {v : Byte} {r : List SrcAns} (he : s.srcEos = false)
    (hsrc : s.src = .byte v :: r) (hv : v ≠ id.code) :
    blockHead id s = .raise .blockId { s with src := r, blkId := v } := by
  rw [blockHead, nextByte_run he hsrc, Res.bind_ok, if_neg hv]

/-- R163: the expected id and eight bytes of length. -/
theorem blockHead_takes (id : BlockId) {s : State} {len : List Byte} (he : s.srcEos = false) (hlen : len.length = 8) :
    Takes (blockHead id) s (id.code :: len) () { s with blkId := id.code, blkLen := unle64 len } := by
  have hread : Takes (readLen 8 0) { s with blkId := id.code, blkLen := 0 } len ()
      { s with blkId := id.code, blkLen := unle64 len } :=
    hlen ▸ readLen_takes len 0 (s := { s with blkId := id.code, blkLen := 0 }) he (by simp [unle64])
  exact (nextByte_takes he id.code).bind (hread.of_eq fun r => if_pos rfl)

/-- R163: the expected block whole. -/
theorem blockRead_takes (id : BlockId) {s : State} {len payload : List Byte} (he : s.srcEos = false) (hlen : len.length = 8)
    (hpay : leNat len = payload.length) (hroom : s.clearPay.payRoom payload.length) :
    Takes (blockRead id) s (id.code :: (len ++ payload)) ()
      { s with blkId := id.code, blkLen := unle64 len, pay := payload } := by
  have hbody : Takes readBody { s with blkId := id.code, blkLen := unle64 len } payload ()
      { s with blkId := id.code, blkLen := unle64 len, pay := payload } :=
    (readPayload_takes payload (s := { s with blkId := id.code, blkLen := unle64 len, pay := [] }) he hroom).of_eq fun r => by
      rw [readBody, unle64_toNat hlen, hpay]; rfl
  exact ((blockHead_takes id he hlen).bind hbody).of_eq fun r => blockRead_eq id _

/-- R168: PAY has no room for the payload there, of which BLK_LEN says no less. -/
theorem blockRead_full (id : BlockId) {s : State} {len payload : List Byte} {r : List SrcAns} (he : s.srcEos = false)
    (hlen : len.length = 8) (hpay : payload.length ≤ leNat len) (hne : payload ≠ [])
    (hroom : ¬ s.clearPay.payRoom payload.length) (hsrc : s.src = (id.code :: (len ++ payload)).map .byte ++ r) :
    ∃ u, blockRead id s = .raise .io u := by
  have hhead := (blockHead_takes id he hlen).run (r := payload.map .byte ++ r) (by simpa using hsrc)
  rw [blockRead_eq, hhead, Res.bind_ok, readBody, unle64_toNat hlen]
  exact readPayload_full (s := { s with blkId := id.code, blkLen := unle64 len, pay := [] }) r he hpay hne hroom

end Machine
end Sys2Proof

/-! ### The settled statements -/

open Sys2Proof Sys2Proof.Machine

/-- Settles O34: the block is its bytes, given to the sink one after another. -/
theorem blockWriteResult : Obligations.BlockWriteResult := by
  intro id s hpay bytes
  have hexec : exec (.blkWrite id) s = settle s (emitAll bytes s) := by
    simp only [exec, execBlkWrite, blockWrite, lengthWord, if_pos hpay, bytes]
  rw [hexec]
  refine ⟨fun r hsnk => ?_, fun k r hk hsnk => ?_, fun k hk hsnk => ?_⟩
  · rw [emitAll_run bytes s r hsnk, settle_ok]
  · obtain ⟨u, hu, -, hout⟩ := emitAll_fail bytes s k r hk hsnk
    rw [hu, settle_raise]
    exact ⟨_, rfl, State.raise_st _ u, State.raise_err _ u, by rwa [State.raise_out]⟩
  · rw [emitAll_wait bytes s k hk hsnk, settle_wait]
    exact ⟨_, rfl, rfl, rfl, rfl⟩

/-- Settles O35: the block is its bytes, taken from the source one after another. -/
theorem blockReadResult : Obligations.BlockReadResult := by
  intro id s he
  have hexec : exec (.blkRead id) s = settle s (blockRead id s) := rfl
  rw [hexec]
  refine ⟨fun v r hsrc hv => ?_, fun len payload hlen hpay hroom => ?_⟩
  · rw [blockRead_eq, blockHead_otherId he hsrc hv, Res.bind_raise, settle_raise]
    exact ⟨_, rfl, State.raise_st _ _, State.raise_err _ _, State.raise_blkId _ _⟩
  · have htakes := blockRead_takes id he hlen hpay hroom
    refine ⟨fun r hsrc => by rw [htakes.run hsrc, settle_ok], fun k r hk => ?_⟩
    have hk : k < (id.code :: (len ++ payload)).length := by simp only [List.length_cons, List.length_append, hlen]; omega
    refine ⟨fun hsrc => ?_, fun hsrc => ?_⟩
    · obtain ⟨t, ht, hst, herr, heos⟩ := (htakes.stopped hk (.inl ⟨rfl, rfl⟩) hsrc).next s
      exact ⟨t, ht, hst, herr, heos rfl⟩
    · obtain ⟨t, ht, hst, herr, -⟩ := (htakes.stopped hk (.inr ⟨rfl, rfl⟩) hsrc).next s
      exact ⟨t, ht, hst, herr⟩
end

section
/-! PROOFS. The finite capacities of an implementation (`44_block_framer.md` R168): what a further node, payload byte or input
byte does where there is no room for it. -/

namespace Sys2Proof.Machine

/-! ### The tree store -/

section
variable {s : State} {c : Nat}

theorem State.nodeRoom_of_cap (hc : s.params.nodeCap = some c) : s.nodeRoom c := fun d hd => by
  rw [hc] at hd; cases hd; exact Nat.le_refl c

theorem countNode_full {n : Nat} (hc : s.params.nodeCap = some c) (hn : c ≤ n) : countNode n s = .raise .io s := by
  rw [countNode, if_neg fun h => Nat.not_lt_of_le hn (roomFor_iff.1 h c hc)]

theorem Reads.readSubtree_root_full {b : Bool} {bits : List Bool} {fuel n : Nat} (h : Reads s (b :: bits))
    (hc : s.params.nodeCap = some c) (hn : c ≤ n) : ∃ u, Machine.readSubtree (fuel + 1) n s = .raise .io u := by
  obtain ⟨br, hread, -⟩ := h.readBit
  rw [Machine.readSubtree, hread, Res.bind_ok, countNode_full (s := { s with br := br }) hc hn]
  exact ⟨_, rfl⟩

/-- R148, R168: a subtree that does not fit: its root does not, or else its left subtree, or else its right one. -/
theorem Reads.readSubtree_full {t : Tree} {fuel n : Nat} {rest : List Bool} (h : Reads s (t.shapeBits ++ rest))
    (hc : s.params.nodeCap = some c) (hfuel : t.size ≤ fuel) (hn : c < n + t.size) :
    ∃ u, Machine.readSubtree fuel n s = .raise .io u := by
  induction t generalizing fuel n s rest with
  | leaf w x =>
    obtain ⟨fuel, rfl⟩ := Nat.exists_eq_add_one_of_ne_zero (Nat.ne_zero_of_lt hfuel)
    exact h.readSubtree_root_full hc (Nat.le_of_lt_succ hn)
  | node w l r ihl ihr =>
    simp only [Tree.size] at hfuel hn
    obtain ⟨fuel, rfl⟩ := Nat.exists_eq_add_one_of_ne_zero (n := fuel) (by omega)
    rw [Tree.shapeBits_node, List.cons_append, List.append_assoc] at h
    by_cases hroot : c ≤ n
    · exact h.readSubtree_root_full hc hroot
    · have hroom := State.nodeRoom_of_cap hc
      obtain ⟨br, h, hrun⟩ := h.readSubtree_internal (fuel := fuel) hroom (Nat.lt_of_not_le hroot)
      rw [hrun]
      by_cases hleft : c < n + 1 + l.size
      · obtain ⟨u, hu⟩ := ihl (fuel := fuel) h hc (by omega) hleft
        exact ⟨u, by rw [hu, Res.bind_raise]⟩
      · obtain ⟨brl, hl, h⟩ := h.readSubtree (n := n + 1) (fuel := fuel) (by omega)
          (State.nodeRoom_mono hroom (Nat.le_of_not_lt hleft))
        obtain ⟨u, hu⟩ := ihr (n := n + 1 + l.size) (fuel := fuel) h hc (by omega) (by omega)
        exact ⟨u, by rw [hl, Res.bind_ok, hu, Res.bind_raise]⟩

/-- R150, R168: an internal node whose subtrees do not fit with it. -/
theorem Reads.shapeInternal_full {l r : Tree} {rest : List Bool} (h : Reads s (l.shapeBits ++ (r.shapeBits ++ rest)))
    (hc : s.params.nodeCap = some c) (hn : c < 1 + l.size + r.size) :
    ∃ u, Machine.shapeInternal s = .raise .io u := by
  by_cases hroot : c ≤ 0
  · exact ⟨s, by rw [Machine.shapeInternal, countNode_full hc hroot, Res.bind_raise]⟩
  · have hroom := State.nodeRoom_of_cap hc
    have hahead := h.bitsAhead
    rw [shapeInternal_eq hroom (Nat.lt_of_not_le hroot)]
    by_cases hleft : c < 1 + l.size
    · obtain ⟨u, hu⟩ := h.readSubtree_full (fuel := s.bitsAhead + 1) hc (by simp [hahead]; omega) hleft
      exact ⟨u, by rw [hu, Res.bind_raise]⟩
    · obtain ⟨brl, hl, h⟩ := h.readSubtree (n := 1) (fuel := s.bitsAhead + 1) (by simp [hahead]; omega)
        (State.nodeRoom_mono hroom (Nat.le_of_not_lt hleft))
      have hahead := h.bitsAhead
      obtain ⟨u, hu⟩ := h.readSubtree_full (n := 1 + l.size) (fuel := State.bitsAhead { s with br := brl } + 1) hc
        (by simp [hahead]; omega) hn
      exact ⟨u, by rw [hl, Res.bind_ok, hu, Res.bind_raise]⟩

theorem shapeLeaf_full (hc : s.params.nodeCap = some 0) : shapeLeaf s = .raise .io s := by
  rw [shapeLeaf, countNode_full hc (Nat.le_refl 0), Res.bind_raise]

/-- R148, R168: a tree that does not fit. -/
theorem Reads.readShape_full {t : Tree} {rest : List Bool} (h : Reads s (t.shapeBits ++ rest))
    (hc : s.params.nodeCap = some c) (hn : c < t.size) : ∃ u, Machine.readShape s = .raise .io u := by
  cases t with
  | leaf w x =>
    obtain rfl : c = 0 := Nat.lt_one_iff.1 hn
    obtain ⟨br, hread, -⟩ := h.readBit
    exact ⟨_, by rw [Machine.readShape, hread, Res.bind_ok]; exact shapeLeaf_full (s := { s with br := br }) hc⟩
  | node w l r =>
    rw [Tree.shapeBits_node, List.cons_append, List.append_assoc] at h
    obtain ⟨br, hread, h⟩ := h.readBit
    rw [Machine.readShape, hread, Res.bind_ok, if_pos rfl]
    exact h.shapeInternal_full hc hn

/-- R122, R168: the tree built does not fit. -/
theorem exec_tBuild_full (hc : s.params.nodeCap = some c) (hn : c < (buildTree s.params s.freq).size) :
    exec .tBuild s = .next (s.raise .io) := by
  have hfull : ¬ roomFor s.params.nodeCap ((buildTree s.params s.freq).size - 1) = true := fun h => by
    have := roomFor_iff.1 h c hc
    omega
  simp only [exec, execTBuild, if_neg hfull, settle_raise]

/-! ### The payload buffer and the input buffer -/

theorem State.not_payRoom_of_cap {n : Nat} (hc : s.params.payloadCap = some c) (hn : c < s.pay.length + n) : ¬ s.payRoom n :=
  fun h => Nat.not_lt_of_le (h c hc) hn

/-- R178, R168: no room for the place of the padding count. -/
theorem beginData_full (hc : s.params.payloadCap = some 0) : beginData s = .raise .io s.clearPay := by
  have hfull : ¬ s.clearPay.payRoom 1 := State.not_payRoom_of_cap hc Nat.zero_lt_one
  rw [beginData, payAppend_full hfull, Res.bind_raise]

/-- R171, R168: no room for the input byte read. -/
theorem readInput_full {v : Byte} {r : List SrcAns} (hc : s.params.inbufCap = some c) (hlen : c ≤ s.inbuf.length)
    (hmax : s.inbuf.length < maxInput) (he : s.srcEos = false) (hsrc : s.src = .byte v :: r) :
    readInput s = .raise .io { s with src := r } := by
  have hfull : ¬ roomFor s.params.inbufCap s.inbuf.length = true := fun h => Nat.not_lt_of_le hlen (roomFor_iff.1 h c hc)
  simp only [readInput, srcRead_byte he hsrc, Res.bind_ok, if_neg (Nat.not_le_of_lt hmax), if_neg hfull]

/-! ### The end with ERR_IO -/

theorem exec_of_raise_io {α : Type} {i : Instr} {r : Res α} {k : α → State → Res Unit} (hi : exec i s = settle s (r.bind k))
    (h : ∃ u, r = .raise .io u) : ∃ u, exec i s = .next u ∧ u.st = .fault ∧ u.err = .io := by
  obtain ⟨u, rfl⟩ := h
  rw [hi]
  exact settle_raise_io ⟨u, Res.bind_raise _ u k⟩

/-- R13: where nothing waits, the step of a call at a place that issues no operation of the table. -/
theorem step_of_ownAction (hh : s.host = []) (hb : s.st = .busy) (hd : s.held = none) (hop : nextOp s = none) :
    step s = settle s (ownAction s) := by
  have hrejoin : s.rejoin = id := funext fun t => State.rejoin_of_none hd t
  have hid : ∀ o : Outcome, mapNext id o = o := fun o => by cases o <;> rfl
  rw [step, stepOnce, hh]
  simp only [goOn, hd, Option.bind_none, sequencerStep, (State.busy_iff s).2 hb, if_true, State.takeUp_of_none hd, hop,
    hrejoin, hid]

end

end Sys2Proof.Machine

/-! ### The settled statement -/

open Sys2Proof Sys2Proof.Machine

/-- Settles O43: each place checks before it adds, and stops with ERR_IO at the state it has reached. -/
theorem capacityExceededIsIoError : Obligations.CapacityExceededIsIoError := by
  intro s c
  refine ⟨fun hc => ⟨exec_tBuild_full hc, fun p t rest ho hn hbits => ?_, fun t rest hn hpay => ?_, ?_,
    fun p l r rest ho hn hbits => ?_⟩, fun hc => ⟨fun t vs ht hvs hn => ?_,
    fun id len payload r he hlen hpay hn hsrc => ?_, ?_⟩, fun hc hlen hmax hb hp hh hd he v r hsrc => ?_⟩
  · have h : Reads s (t.shapeBits ++ rest) := ⟨⟨p, ho⟩, hbits⟩
    exact exec_of_raise_io rfl (h.readShape_full hc hn)
  · have hbits : (s.newReader (.pay 0)).readerBits = unpack s.pay := readerBits_of_empty (p := 0) rfl rfl
    have h : Reads (s.newReader (.pay 0)) (t.shapeBits ++ rest) := ⟨⟨0, rfl⟩, hbits.trans hpay⟩
    exact exec_of_raise_io rfl (h.readShape_full hc hn)
  · rintro rfl
    simp only [exec, execSLeaf, shapeLeaf_full hc, Res.bind_raise, settle_raise]
  · have h : Reads s (l.shapeBits ++ (r.shapeBits ++ rest)) := ⟨⟨p, ho⟩, hbits⟩
    exact exec_of_raise_io rfl (h.shapeInternal_full hc hn)
  · exact (writeLeavesResult s t vs ht hvs).2 (State.not_payRoom_of_cap hc hn)
  · exact settle_raise_io (blockRead_full id he hlen hpay (List.ne_nil_of_length_pos (Nat.zero_lt_of_lt hn))
      (State.not_payRoom_of_cap (s := s.clearPay) hc (by simpa using hn)) hsrc)
  · rintro rfl hb hp hpos hh hd
    rw [step_of_ownAction hh hb hd (by rw [nextOp, hp]; exact if_pos hpos), ownAction, hp]
    exact settle_raise_io ⟨_, beginData_full hc⟩
  · rw [step_of_ownAction hh hb hd (by rw [nextOp, hp]), ownAction, hp]
    exact settle_raise_io ⟨_, readInput_full hc hlen hmax he hsrc⟩
end

section
/-! PROOFS. What a step runs: the operation a request decodes to, the one that waits, or the one that the present place of
the sequence issues (`45_encode.md` R170, `46_decode.md` R185, `10_state.md` R13). -/

namespace Sys2Proof.Machine

/-! ### The branches of a step -/

theorem step_no_event {s : State} (hh : s.host = []) : step s = goOn s := by simp only [step, stepOnce, hh]

theorem step_request {s : State} {frame : List Byte} {rest : List HostEvent} (hh : s.host = .request frame :: rest) :
    step s = request s frame rest := by simp only [step, stepOnce, hh]

theorem goOn_of_job {s : State} {h : Held} {i : Instr} (hs : s.held = some h) (hi : h.job = some i) :
    goOn s = runJob i s := by simp only [goOn, hs, Option.bind_some, hi]

theorem goOn_of_noJob {s : State} (hj : s.noJob) : goOn s = sequencerStep s := by
  have hn : s.held.bind Held.job = none := Option.bind_eq_none_iff.2 hj
  simp only [goOn, hn]

/-- Where nothing waits, a requested operation runs from the present state. -/
theorem runJob_of_none {s : State} (hd : s.held = none) (i : Instr) :
    runJob i s = mapNext (State.keepJob i) (exec i s) := by
  have hrejoin : (fun t => s.rejoin (t.keepJob i)) = State.keepJob i := funext fun t => State.rejoin_of_none hd _
  rw [runJob, State.takeUp_of_none hd, hrejoin]

/-! ### A request -/

section
variable {s : State} {frame r : List Byte} {i : Instr} (hd : decode frame = .ok (i, r))
include hd

theorem request_command (hi : i.isCommand = true) (rest : List HostEvent) :
    request s frame rest = exec i { s with host := rest } := by
  simp only [request, hd, hi, if_true]

theorem request_unit (hi : i.isCommand = false) (hn : s.held = none) (rest : List HostEvent) :
    request s frame rest = runJob i { s with host := rest } := by
  simp [request, hd, hi, hn]

theorem request_waits (hi : i.isCommand = false) (hw : s.held.isSome = true) (rest : List HostEvent) :
    request s frame rest = goOn s := by
  simp [request, hd, hi, hw]

end

/-! ### The end of the operation of a place -/

theorem State.retired_of_held {t : State} (h : t.held.isSome = true) : t.retired = t := by
  rw [State.retired, if_pos h]

theorem State.retired_of_busy {t : State} (h : t.held = none) (hb : t.st = .busy) : t.retired = advance t := by
  simp [State.retired, h, hb]

theorem State.retired_of_not_busy {t : State} (h : t.held = none) (hb : t.st ≠ .busy) : t.retired = t := by
  simp [State.retired, h, hb]

/-- R170, R185: the line of the present place, around its operation. -/
theorem sequencerStep_of_nextOp {s : State} {i : Instr} (hb : s.st = .busy) (hi : nextOp s.takeUp = some i) :
    sequencerStep s = mapNext s.rejoin (mapNext State.retired (exec i (prepare s.takeUp))) := by
  simp only [sequencerStep, (State.busy_iff s).2 hb, if_true, hi]

end Sys2Proof.Machine

/-! ### The settled statement -/

open Sys2Proof Sys2Proof.Machine

/-- Settles O47: the branches of `request`, `goOn` and `sequencerStep` one by one. -/
theorem stepRunsDecodedOperation : Obligations.StepRunsDecodedOperation := by
  refine ⟨fun s frame rest i r hh hd => ?_, fun s h i hh hs hi => ?_, fun s i hh hb hj hi => ?_⟩
  · rw [step_request hh]
    exact ⟨fun hi => request_command hd hi rest,
      fun hi hn => (request_unit hd hi hn rest).trans (runJob_of_none (s := { s with host := rest }) hn i),
      fun hi hw => request_waits hd hi hw rest⟩
  · rw [step_no_event hh, goOn_of_job hs hi, runJob]
  · rw [step_no_event hh, goOn_of_noJob hj, sequencerStep_of_nextOp hb hi]
    refine ⟨fun t ht => ?_, fun f hf => by rw [hf]; rfl, fun f hf => by rw [hf]; rfl⟩
    rw [ht, mapNext_next, mapNext_next]
    exact ⟨fun hw => by rw [State.retired_of_held hw], fun hn hbt => by rw [State.retired_of_busy hn hbt],
      fun hn hbt => by rw [State.retired_of_not_busy hn hbt]⟩
end

section
/-! PROOFS. The tree of an input (`45_encode.md` R172, R173): every leaf has its symbol, and every symbol of the input has a
codeword (R178). -/

namespace Sys2Proof

/-! ### Leaves and their codewords -/

theorem Tree.map_snd_leafList (t : Tree) : t.leafList.map Prod.snd = t.symbols := by
  induction t with
  | leaf w x => rfl
  | node w l r ihl ihr => rw [Tree.leafList, List.map_append, ihl, ihr, Tree.symbols]

theorem Tree.complete_iff {t : Tree} : t.complete = true ↔ ∀ x ∈ t.symbols, x.isSome = true := by
  induction t with
  | leaf w x => simp [Tree.complete, Tree.symbols]
  | node w l r ihl ihr =>
    rw [Tree.complete, Bool.and_eq_true, ihl, ihr, Tree.symbols]
    exact List.forall_mem_append.symm

/-- The symbols of a tree that has them all are the bytes of its LEAVES payload. -/
theorem Tree.symbols_of_complete {t : Tree} (h : t.complete = true) :
    t.symbols = (t.symbols.map fun x => x.getD 0).map some := by
  rw [List.map_map]
  refine (List.map_id _).symm.trans (List.map_congr_left fun x hx => ?_)
  obtain ⟨v, rfl⟩ := Option.isSome_iff_exists.1 (Tree.complete_iff.1 h x hx)
  rfl

/-- R146: the symbol of a leaf has a codeword. -/
theorem Tree.exists_codeOf {t : Tree} {c : Byte} (h : some c ∈ t.symbols) : ∃ q, t.codeOf c = some q := by
  rw [← t.codes_fst [], List.mem_map] at h
  obtain ⟨⟨x, q⟩, he, rfl⟩ := h
  have hq : q ∈ t.codesFor [] c := List.mem_filterMap.2 ⟨_, he, if_pos rfl⟩
  exact ⟨_, List.getLast?_eq_some_getLast (List.ne_nil_of_mem hq)⟩

/-! ### The leaves of the tree built -/

theorem mem_observed {f : Vector Weight 256} {c : Byte} : c ∈ observed f ↔ f[c.toNat]?.getD 0 ≠ 0 := by
  rw [observed_eq, List.mem_map]
  constructor
  · rintro ⟨i, hi, rfl⟩
    obtain ⟨hlt, hne⟩ := List.mem_filter.1 hi
    rw [BitVec.toNat_ofNat, Nat.mod_eq_of_lt (List.mem_range.1 hlt)]
    exact of_decide_eq_true hne
  · intro hne
    exact ⟨c.toNat, List.mem_filter.2 ⟨List.mem_range.2 c.isLt, decide_eq_true hne⟩, by simp⟩

/-- R122: every observed symbol has its leaf, and no leaf is without a symbol. -/
theorem symbols_buildTree (p : Params) (f : Vector Weight 256) :
    (∀ c ∈ observed f, some c ∈ (buildTree p f).symbols) ∧ (buildTree p f).complete = true := by
  rw [Tree.complete_iff]
  match ho : observed f with
  | []          => rw [buildTree_none ho]; simp [Tree.symbols]
  | [c]         => rw [buildTree_one ho]; simp [Tree.symbols]
  | c :: d :: l =>
    have hperm := (leafList_buildTree p (f := f) (by rw [ho]; simp)).map Prod.snd
    rw [Tree.map_snd_leafList, List.map_map, ho] at hperm
    refine ⟨fun b hb => hperm.mem_iff.2 (List.mem_map_of_mem hb), fun x hx => ?_⟩
    obtain ⟨b, -, rfl⟩ := List.mem_map.1 (hperm.mem_iff.1 hx)
    rfl

theorem complete_treeOf (p : Params) (input : List Byte) : (treeOf p input).complete = true :=
  (symbols_buildTree p (countBytes input)).2

/-- R128: up to MAX_INPUT no counter wraps to 0. -/
theorem mem_observed_countBytes {input : List Byte} (hlen : input.length ≤ Machine.maxInput) {c : Byte} (hc : c ∈ input) :
    c ∈ observed (countBytes input) := by
  have hpos := List.count_pos_iff.2 hc
  have hle := List.count_le_length (a := c) (l := input)
  rw [mem_observed, Vector.getElem?_eq_getElem c.isLt, Option.getD_some, countBytes_get]
  intro h0
  have h0 := congrArg BitVec.toNat h0
  unfold Machine.maxInput at hlen
  rw [BitVec.toNat_ofNat, Nat.mod_eq_of_lt (by omega)] at h0
  exact hpos.ne' h0

/-- R178: every byte of the input has a codeword. -/
theorem exists_codeOf_treeOf (p : Params) {input : List Byte} (hlen : input.length ≤ Machine.maxInput) {c : Byte}
    (hc : c ∈ input) : ∃ q, (treeOf p input).codeOf c = some q :=
  Tree.exists_codeOf ((symbols_buildTree p _).1 c (mem_observed_countBytes hlen hc))

end Sys2Proof
end

section
/-! PROOFS. Runs of the machine, and a call at a place of its sequence (`10_state.md` R13) with no host event, nothing
waiting, and a sink that has answered OK so far. -/

namespace Sys2Proof.Machine

/-! ### Runs -/

/-- The machine comes from `s` to a state of which `P` holds. -/
def Comes (P : State → Prop) (s : State) : Prop := ∃ k t, Host.Core.run core k s = .next t ∧ P t

theorem Comes.here {P : State → Prop} {s : State} (h : P s) : Comes P s := ⟨0, s, rfl, h⟩

theorem Comes.step {P : State → Prop} {s t : State} (hs : step s = .next t) (h : Comes P t) : Comes P s := by
  obtain ⟨k, u, hk, hu⟩ := h
  refine ⟨k + 1, u, ?_, hu⟩
  simp only [Host.Core.run, show core.step s = .next t from hs, hk]

/-! ### A call at a place -/

/-- The call started in `s₀` is at the place `n` of the phase `ph`; it has given the bytes `given` to the sink, which
answered OK for each. -/
structure CallAt (s₀ : State) (ph : Phase) (n : Nat) (given : List Byte) (t : State) : Prop where
  host   : t.host = []
  st     : t.st = .busy
  held   : t.held = none
  phase  : t.phase = ph
  pos    : t.pos = n
  params : t.params = s₀.params
  out    : t.out = s₀.out ++ given
  sink   : s₀.snk = List.replicate given.length .ok ++ t.snk

section
variable {s₀ t u : State} {ph : Phase} {n : Nat} {given : List Byte}

/-- A change of none of the elements that `CallAt` names, but for the place. -/
theorem CallAt.of_eq (h : CallAt s₀ ph n given t) {ph' : Phase} {n' : Nat}
    (hu : u = { u with
      host := t.host, st := t.st, held := t.held, phase := ph', pos := n', params := t.params, out := t.out,
      snk := t.snk }) : CallAt s₀ ph' n' given u := by
  rw [hu]
  exact ⟨h.host, h.st, h.held, rfl, rfl, h.params, h.out, h.sink⟩

/-- What of the sink's answers is still there, if there were `m` of them. -/
theorem CallAt.snk_eq (h : CallAt s₀ ph n given t) {m : Nat} (hm : s₀.snk = List.replicate m .ok) :
    t.snk = List.replicate (m - given.length) .ok := by
  have hdrop := congrArg (List.drop given.length) h.sink
  rw [hm, List.drop_replicate, List.drop_left' List.length_replicate] at hdrop
  exact hdrop.symm

/-- R13, at a place that issues an operation: the sequence goes on behind it, unless it ended the call. -/
theorem CallAt.step_of_op (h : CallAt s₀ ph n given t) {i : Instr} (hop : nextOp t = some i)
    (hx : exec i (prepare t) = .next u) (hd : u.held = none) :
    (u.st = .busy → step t = .next (advance u)) ∧ (u.st ≠ .busy → step t = .next u) := by
  have hj : t.noJob := fun x hx => by rw [h.held] at hx; cases hx
  obtain ⟨-, -, hplace⟩ := stepRunsDecodedOperation
  rw [← State.takeUp_of_none h.held] at hop hx
  obtain ⟨hnext, -, -⟩ := hplace t i h.host h.st hj hop
  obtain ⟨-, hgo, hend⟩ := hnext u hx
  simp only [State.rejoin_of_none h.held] at hgo hend
  exact ⟨hgo hd, hend hd⟩

/-- A run through a place: what the phase does first, the operation, and the next place. -/
theorem CallAt.comes_of_op {P : State → Prop} {given' : List Byte} {t' v : State} {i : Instr}
    (h : CallAt s₀ ph n given t) (hop : nextOp t = some i) (hprep : prepare t = t') (hx : exec i t' = .next u)
    (hu : CallAt s₀ ph n given' u) (hadv : advance u = v) (hnext : Comes P v) : Comes P t := by
  subst hprep hadv
  exact .step ((h.step_of_op hop hx hu.held).1 hu.st) hnext

/-- A run to a place whose operation raises an error. -/
theorem CallAt.comes_of_raise {P : State → Prop} {i : Instr} {e : Err} (h : CallAt s₀ ph n given t)
    (hop : nextOp t = some i) (hprep : prepare t = t) (hx : exec i t = .next (u.raise e)) (hend : P (u.raise e)) :
    Comes P t := by
  have hst : (u.raise e).st ≠ .busy := by rw [State.raise_st]; exact fun hc => nomatch hc
  exact .step ((h.step_of_op hop (hprep.symm ▸ hx) (State.raise_held e u)).2 hst) (.here hend)

/-- A place that issues no operation of the table. -/
theorem CallAt.step_of_own (h : CallAt s₀ ph n given t) (hop : nextOp t = none) (hx : ownAction t = .ok () u) :
    step t = .next u := by
  rw [step_of_ownAction h.host h.st h.held hop, hx, settle_ok]

end

/-! ### After the only operation of a phase -/

theorem advance_eCount {t : State} (h : t.phase = .eCount) : advance t = t.enter .eBuild := by simp only [advance, h]

theorem advance_eBuild {t : State} (h : t.phase = .eBuild) : advance t = t.enter .eShape := by simp only [advance, h]

theorem advance_eTable {t : State} (h : t.phase = .eTable) : advance t = t.enter .eData := by simp only [advance, h]

/-! ### The start -/

/-- R11: a request of ENCODE outside a call starts one. -/
theorem step_request_encode {s : State} (hh : s.host = [.request (encode .encode)]) (hb : s.st ≠ .busy) :
    step s = .next (State.startCall 0 .eRead { s with host := [] }) := by
  have hd : decode (encode .encode) = .ok (.encode, []) := decodeOfEncode .encode [] rfl
  rw [step_request hh, request_command hd rfl, exec_encode, if_neg (mt (State.busy_iff { s with host := [] }).1 hb)]

end Sys2Proof.Machine
end

section
/-! PROOFS. An ENCODE call over a source that answers the input and then EOS and a sink that answers OK, without finite
capacities (`45_encode.md` R170 to R183). A lemma per place says that a run from there comes to the end of the call. They
stand in the reverse order of the sequence, since each goes on with the one for the next place. -/

namespace Sys2Proof

/-! ### The parts of a container -/

def shapeBlock (p : Params) (input : List Byte) : List Byte := blockBytes .shape (padPack (treeOf p input).shapeBits)

/-- R175: the symbols of the leaves of the tree. -/
def leafBytes (p : Params) (input : List Byte) : List Byte := (treeOf p input).symbols.map fun x => x.getD 0

def leavesBlock (p : Params) (input : List Byte) : List Byte := blockBytes .leaves (leafBytes p input)

def dataBlock (p : Params) (input : List Byte) : List Byte := blockBytes .data (dataPayload (codeBits p input))

theorem container_eq (p : Params) (input : List Byte) :
    container p input = shapeBlock p input ++ leavesBlock p input ++ dataBlock p input := rfl

/-- R178: the bits that stand for a byte of the input. -/
def codeword (p : Params) (input : List Byte) (c : Byte) : List Bool := ((treeOf p input).codeOf c).getD []

theorem codeBits_eq (p : Params) (input : List Byte) : codeBits p input = input.flatMap (codeword p input) := rfl

theorem codeword_length_le (p : Params) (input : List Byte) (c : Byte) :
    (codeword p input c).length ≤ (treeOf p input).depth := by
  cases hc : (treeOf p input).codeOf c with
  | none => rw [codeword, hc]; exact Nat.zero_le _
  | some q => rw [codeword, hc]; exact Tree.length_le_depth_of_codeOf hc

namespace Machine

/-! ### What the call is granted -/

/-- What the host and the implementation grant the call: no finite capacity, an input the model speaks of, and a sink that
answers OK `m` times, for each byte of the container. -/
structure EncodeGrants (s₀ : State) (input : List Byte) (m : Nat) : Prop where
  unbounded : s₀.unbounded
  short     : input.length ≤ maxInput
  sink      : s₀.snk = List.replicate m .ok
  room      : (container s₀.params input).length ≤ m

section
variable {s₀ t : State} {input : List Byte} {m : Nat}

theorem EncodeGrants.payRoom (hg : EncodeGrants s₀ input m) (hp : t.params = s₀.params) {n : Nat} :
    t.payRoom n := fun c hc => by
  obtain ⟨-, hpay, -⟩ := hg.unbounded
  cases hpay.symm.trans (hp ▸ hc)

theorem EncodeGrants.nodeRoom (hg : EncodeGrants s₀ input m) (hp : t.params = s₀.params) {n : Nat} :
    t.nodeRoom n := fun c hc => by
  obtain ⟨-, -, hnode⟩ := hg.unbounded
  cases hnode.symm.trans (hp ▸ hc)

theorem EncodeGrants.inbufCap (hg : EncodeGrants s₀ input m) (hp : t.params = s₀.params) : t.params.inbufCap = none := by
  obtain ⟨hinbuf, -, -⟩ := hg.unbounded
  rw [hp, hinbuf]

theorem EncodeGrants.room_shape (hg : EncodeGrants s₀ input m) : ([] ++ shapeBlock s₀.params input).length ≤ m := by
  have hlen := hg.room
  rw [container_eq, List.append_assoc, List.length_append] at hlen
  exact Nat.le_of_add_right_le hlen

theorem EncodeGrants.room_leaves (hg : EncodeGrants s₀ input m) :
    (shapeBlock s₀.params input ++ leavesBlock s₀.params input).length ≤ m := by
  have hlen := hg.room
  rw [container_eq, List.length_append] at hlen
  exact Nat.le_of_add_right_le hlen

end

/-! ### Places of the call -/

/-- The call over `input`, started in `s₀`, at a place after the tree is built. -/
structure EncodeAt (s₀ : State) (input : List Byte) (ph : Phase) (n : Nat) (given : List Byte) (t : State) : Prop
    extends CallAt s₀ ph n given t where
  inbuf : t.inbuf = input
  tree  : t.tree = some (treeOf s₀.params input)

/-- What the call ends with (R181, R183): DONE with the container written, or ERR_CAPACITY for a tree deeper than 57. -/
def EncodeEnd (s₀ : State) (input : List Byte) (t : State) : Prop :=
  t.host = [] ∧
    ((t.st = .done ∧ t.err = .ok ∧ t.out = s₀.out ++ container s₀.params input) ∨
      (t.st = .fault ∧ t.err = .capacity ∧ 57 < (treeOf s₀.params input).depth))

section
variable {s₀ t u : State} {input given : List Byte} {ph : Phase} {n : Nat}

theorem EncodeAt.of_eq (h : EncodeAt s₀ input ph n given t) {ph' : Phase} {n' : Nat}
    (hu : u = { u with
      host := t.host, st := t.st, held := t.held, phase := ph', pos := n', params := t.params, out := t.out,
      snk := t.snk, inbuf := t.inbuf, tree := t.tree }) : EncodeAt s₀ input ph' n' given u where
  toCallAt := h.toCallAt.of_eq (by rw [hu])
  inbuf    := by rw [hu]; exact h.inbuf
  tree     := by rw [hu]; exact h.tree

/-- What the bit writer does on PAY moves the call to no other place. -/
theorem EncodeAt.of_writer (h : EncodeAt s₀ input ph n given t) (hw : WriterStep t u) (hd : t.bw.dest = .pay) :
    EncodeAt s₀ input ph n given u := by
  obtain ⟨hu, -, -, hpay, -⟩ := hw
  obtain ⟨hsnk, hout, -⟩ := hpay hd
  refine h.of_eq ?_
  rw [hu, hsnk, hout, h.phase, h.pos]

theorem EncodeAt.comes_of_capacity (h : EncodeAt s₀ input ph n given t) {i : Instr} (hop : nextOp t = some i)
    (hprep : prepare t = t) (hx : exec i t = .next (u.raise .capacity)) (hu : u.host = [])
    (hdepth : 57 < (treeOf s₀.params input).depth) : Comes (EncodeEnd s₀ input) t :=
  h.comes_of_raise hop hprep hx
    ⟨(State.raise_host _ u).trans hu, .inr ⟨State.raise_st _ u, State.raise_err _ u, hdepth⟩⟩

/-- R160: a block written to a sink that answers OK for it. -/
theorem EncodeAt.exec_blkWrite (h : EncodeAt s₀ input ph n given t) {m : Nat} (hm : s₀.snk = List.replicate m .ok)
    {id : BlockId} {payload : List Byte} (hpay : t.pay = payload)
    (hroom : (given ++ blockBytes id payload).length ≤ m) :
    ∃ u, exec (.blkWrite id) t = .next u ∧ EncodeAt s₀ input ph n (given ++ blockBytes id payload) u := by
  subst hpay
  rw [List.length_append] at hroom
  have hsnk : t.snk = List.replicate (blockBytes id t.pay).length .ok ++
      List.replicate (m - (given ++ blockBytes id t.pay).length) .ok := by
    rw [h.snk_eq hm, List.replicate_append_replicate, List.length_append]; congr 1; omega
  refine ⟨_, congrArg (settle t) (emitAll_run (blockBytes id t.pay) t _ hsnk), ?_⟩
  exact {
    host := h.host, st := h.st, held := h.held, phase := h.phase, pos := h.pos, params := h.params
    out := by rw [← List.append_assoc, ← h.out]
    sink := by rw [hm, List.replicate_append_replicate, List.length_append]; congr 1; omega
    inbuf := h.inbuf, tree := h.tree }

/-- R109: the padding of the bits written since PAY held `p`. -/
theorem EncodeAt.exec_pad (h : EncodeAt s₀ input ph n given t) (hcap : s₀.unbounded) {p : List Byte} {q : List Bool}
    (hw : Wrote { s₀ with pay := p } q t) :
    ∃ u, exec .bwWritePaddingBits t = .next u ∧ EncodeAt s₀ input ph n given u ∧ u.pay = p ++ padPack q := by
  obtain ⟨-, hpayCap, -⟩ := hcap
  obtain ⟨u, hu, hpay, -⟩ := hw.pad fun c hc => by cases hpayCap.symm.trans hc
  have hsat := writePaddingBits_sat t
  rw [hu] at hsat
  exact ⟨u, congrArg (settle t) hu, h.of_writer hsat.1 hw.dest, hpay⟩

end

/-! ### E_END and E_DATA -/

/-- R181: the call ends DONE. -/
theorem EncodeAt.eEnd {s₀ t : State} {input : List Byte} (h : EncodeAt s₀ input .eEnd 0 (container s₀.params input) t) :
    Comes (EncodeEnd s₀ input) t := by
  have hstep := h.step_of_own (u := t.endCall) (by simp only [nextOp, h.phase]) (by simp only [ownAction, h.phase])
  exact .step hstep (.here ⟨h.host, .inl ⟨rfl, rfl, h.out⟩⟩)

/-- The place of E_DATA at which the bytes `done` of the input have been given to the writer (R178). -/
structure DataAt (s₀ : State) (input done : List Byte) (t : State) : Prop
    extends EncodeAt s₀ input .eData 1 (shapeBlock s₀.params input ++ leavesBlock s₀.params input) t where
  idx   : t.idx = done.length
  table : ∀ c ∈ input, t.cwAt c = some (BitSlice.ofBits (codeword s₀.params input c))
  wrote : Wrote { s₀ with pay := [0] } (done.flatMap (codeword s₀.params input)) t

section
variable {s₀ t : State} {input : List Byte} {m : Nat} (hg : EncodeGrants s₀ input m)
include hg

/-- R180: the DATA block is written. -/
theorem EncodeAt.eData_write
    (h : EncodeAt s₀ input .eData 3 (shapeBlock s₀.params input ++ leavesBlock s₀.params input) t)
    (hpay : t.pay = dataPayload (codeBits s₀.params input)) : Comes (EncodeEnd s₀ input) t := by
  obtain ⟨u, hx, hu⟩ := h.exec_blkWrite hg.sink (id := .data) hpay (container_eq s₀.params input ▸ hg.room)
  exact h.comes_of_op (by simp [nextOp, h.phase, h.pos]) (by simp only [prepare, h.phase]) hx hu.toCallAt
    (by simp [advance, hu.phase, hu.pos]) (EncodeAt.eEnd (hu.of_eq (u := u.enter .eEnd) rfl))

/-- R179: the padding. -/
theorem EncodeAt.eData_pad
    (h : EncodeAt s₀ input .eData 2 (shapeBlock s₀.params input ++ leavesBlock s₀.params input) t)
    (hw : Wrote { s₀ with pay := [BitVec.ofNat 8 (padlen (codeBits s₀.params input).length)] }
      (codeBits s₀.params input) t) : Comes (EncodeEnd s₀ input) t := by
  obtain ⟨u, hx, hu, hpay⟩ := h.exec_pad hg.unbounded hw
  exact h.comes_of_op (by simp [nextOp, h.phase, h.pos]) (by simp only [prepare, h.phase]) hx hu.toCallAt
    (by simp [advance, hu.phase, hu.pos])
    (EncodeAt.eData_write (t := { u with pos := 3 }) hg (hu.of_eq (by rw [hu.phase])) hpay)

/-- R179: behind the last codeword the padding count is stored, in PADCNT and as the first byte of PAY. -/
theorem DataAt.count (h : DataAt s₀ input input t) : Comes (EncodeEnd s₀ input) t := by
  have hend : t.inbuf[t.idx]? = none := by rw [h.inbuf, h.idx]; exact List.getElem?_eq_none (Nat.le_refl _)
  generalize hv : BitVec.ofNat 8 (padlen (codeBits s₀.params input).length) = v
  have hx : exec .bwCountPaddingBits t = .next (t.setRes v) := by
    rw [← hv, codeBits_eq, ← h.wrote.acc_padlen]; rfl
  have hadv : advance (t.setRes v) = { t.setRes v with padcnt := v, pay := t.pay.set 0 v, pos := 2 } := by
    simp [advance, h.phase, h.pos, h.idx, h.inbuf]
  have hu : EncodeAt s₀ input .eData 1 _ (t.setRes v) := h.of_eq (by rw [← h.phase, ← h.pos]; rfl)
  refine h.comes_of_op (by simp [nextOp, h.phase, h.pos, hend]) (by simp only [prepare, h.phase]) hx hu.toCallAt hadv
    (EncodeAt.eData_pad hg (h.of_eq (by rw [← h.phase]; rfl)) ?_)
  obtain ⟨hdest, hparams, bytes, r, h7, hr, hpay, hbits⟩ := h.wrote
  exact ⟨hdest, hparams, bytes, r, h7, hr, by simp only [hpay, hv]; rfl, hbits⟩

/-- R178: the codeword of the next byte is written, and the index moves on; or it does not fit beside the pending bits,
of which there are at most seven, and then it is longer than 57. -/
theorem DataAt.codeword_step {c : Byte} {rest done : List Byte} (hin : input = done ++ c :: rest)
    (h : DataAt s₀ input done t) (hnext : ∀ v, DataAt s₀ input (done ++ [c]) v → Comes (EncodeEnd s₀ input) v) :
    Comes (EncodeEnd s₀ input) t := by
  have hidx : t.inbuf[t.idx]? = some c := by rw [h.inbuf, h.idx, hin]; simp
  have hop : nextOp t = some (.bwWriteSlice (.cw c)) := by simp [nextOp, h.phase, h.pos, hidx]
  have hprep : prepare t = t := by simp only [prepare, h.phase]
  have hx := exec_bwWriteSlice_reads (s := t) (.inr (.inr ⟨c, rfl, h.table c (by simp [hin])⟩))
  obtain ⟨r, h7, hr⟩ := h.wrote.pending
  by_cases hfit : (r ++ codeword s₀.params input c).length ≤ 64
  · obtain ⟨u, hu, hwrote⟩ := h.wrote.flush hr h7 hfit (hg.payRoom (t := { s₀ with pay := [0] }) rfl)
    have hsat := writeSlice_sat (BitSlice.ofBits (codeword s₀.params input c)) t
    rw [← writeSlice_ofBits hr hfit] at hu
    rw [hu] at hx hsat
    have hat := h.of_writer hsat.1 h.wrote.dest
    obtain ⟨⟨hframe, -⟩, -⟩ := hsat
    have huidx : u.idx = done.length := by rw [hframe]; exact h.idx
    have hucw : u.cw = t.cw := by rw [hframe]
    have hlt : u.idx < u.inbuf.length := by rw [huidx, hat.inbuf, hin]; simp
    refine h.comes_of_op hop hprep hx hat.toCallAt (v := { u with idx := u.idx + 1 })
      (by simp [advance, hat.phase, hat.pos, hlt]) (hnext _ ?_)
    exact {
      toEncodeAt := hat.of_eq (by rw [← hat.phase, ← hat.pos])
      idx := by simp [huidx]
      table := fun b hb => by rw [← h.table b hb]; simp only [State.cwAt, hucw]
      wrote := by rw [List.flatMap_append, List.flatMap_singleton]; exact ⟨hwrote.dest, hwrote.params, hwrote.bits⟩ }
  · have hdepth := codeword_length_le s₀.params input c
    rw [List.length_append] at hfit
    rw [writeSlice_of_gt (by rw [hr]; simpa using hfit), settle_raise] at hx
    exact h.comes_of_capacity hop hprep hx h.host (by omega)

/-- R178: the codewords of the input, byte by byte. -/
theorem DataAt.codewords (rest done : List Byte) (hin : input = done ++ rest) (h : DataAt s₀ input done t) :
    Comes (EncodeEnd s₀ input) t := by
  induction rest generalizing done t with
  | nil =>
    rw [List.append_nil] at hin
    subst hin
    exact h.count hg
  | cons c rest ih => exact h.codeword_step hg hin fun v hv => ih (done ++ [c]) (by simp [hin]) hv

/-- R178: E_DATA begins with the place of the padding count and a new writer. -/
theorem EncodeAt.eData (h : EncodeAt s₀ input .eData 0 (shapeBlock s₀.params input ++ leavesBlock s₀.params input) t)
    (htable : ∀ c ∈ input, t.cwAt c = some (BitSlice.ofBits (codeword s₀.params input c))) :
    Comes (EncodeEnd s₀ input) t := by
  have hown : ownAction t = .ok () { State.newWriter .pay { t.clearPay with pay := [0] } with pos := 1, idx := 0 } := by
    simp only [ownAction, h.phase, beginData, payAppend_run (hg.payRoom (t := t.clearPay) h.params), Res.bind_ok]; rfl
  refine .step (h.step_of_own (by simp [nextOp, h.phase, h.pos]) hown) (DataAt.codewords hg input [] rfl ?_)
  exact {
    toEncodeAt := h.of_eq (by rw [← h.phase]; rfl)
    idx := rfl
    table := htable
    wrote := ⟨rfl, h.params, [], [], Nat.zero_le 7, rfl, rfl, rfl⟩ }

/-! ### E_TABLE, E_LEAVES and E_SHAPE -/

/-- R176: the table is built, unless the tree is deeper than a codeword can be long. -/
theorem EncodeAt.eTable (h : EncodeAt s₀ input .eTable 0 (shapeBlock s₀.params input ++ leavesBlock s₀.params input) t) :
    Comes (EncodeEnd s₀ input) t := by
  have hop : nextOp t = some .tBuildTable := by simp only [nextOp, h.phase]
  have hprep : prepare t = t := by simp only [prepare, h.phase]
  have hcomplete := complete_treeOf s₀.params input
  by_cases hd : (treeOf s₀.params input).depth ≤ 64
  · obtain ⟨cw, last, hx, hcw⟩ := (buildTableResult t _ h.tree hcomplete).1 hd
    have hu : EncodeAt s₀ input .eTable 0 _ { t with cw := cw, cwacc := last } := h.of_eq (by rw [← h.phase, ← h.pos])
    refine h.comes_of_op hop hprep hx hu.toCallAt (advance_eTable hu.phase)
      (EncodeAt.eData hg (hu.of_eq rfl) fun c hc => ?_)
    obtain ⟨q, hq⟩ := exists_codeOf_treeOf s₀.params hg.short hc
    obtain ⟨x, hx, hwf, rfl⟩ := (hcw c).1 q hq
    rw [codeword, hq, Option.getD_some, BitSlice.ofBits_seq hwf]
    exact hx
  · obtain ⟨u, hu⟩ := table_too_deep hcomplete (q := []) (Nat.zero_le 64) (by simpa using hd)
      { t with cw := Vector.replicate 256 none }
    have hsat := table_sat (treeOf s₀.params input) [] (Nat.zero_le 64) { t with cw := Vector.replicate 256 none }
    rw [hu] at hsat
    have hx : exec .tBuildTable t = .next (u.raise .capacity) := by
      rw [exec_tBuildTable_of_tree h.tree, hu, settle_raise]
    exact h.comes_of_capacity hop hprep hx (by rw [hsat.1]; exact h.host) (by omega)

/-- R175: the LEAVES block is written. -/
theorem EncodeAt.eLeaves_write (h : EncodeAt s₀ input .eLeaves 1 (shapeBlock s₀.params input) t)
    (hpay : t.pay = leafBytes s₀.params input) : Comes (EncodeEnd s₀ input) t := by
  obtain ⟨u, hx, hu⟩ := h.exec_blkWrite hg.sink (id := .leaves) hpay hg.room_leaves
  exact h.comes_of_op (by simp [nextOp, h.phase, h.pos]) (by simp [prepare, h.phase, h.pos]) hx hu.toCallAt
    (by simp [advance, hu.phase, hu.pos]) (EncodeAt.eTable hg (hu.of_eq (u := u.enter .eTable) rfl))

/-- R175: the symbols of the leaves, from an empty PAY. -/
theorem EncodeAt.eLeaves (h : EncodeAt s₀ input .eLeaves 0 (shapeBlock s₀.params input) t) :
    Comes (EncodeEnd s₀ input) t := by
  have hsymbols := Tree.symbols_of_complete (complete_treeOf s₀.params input)
  have hx : exec .tWriteLeaves t.clearPay = .next { t with pay := leafBytes s₀.params input } :=
    (writeLeavesResult t.clearPay _ _ h.tree hsymbols).1 (hg.payRoom (t := t.clearPay) h.params)
  have hu : EncodeAt s₀ input .eLeaves 0 _ { t with pay := leafBytes s₀.params input } :=
    h.of_eq (by rw [← h.phase, ← h.pos])
  exact h.comes_of_op (by simp [nextOp, h.phase, h.pos]) (by simp [prepare, h.phase, h.pos]) hx hu.toCallAt
    (by simp [advance, h.phase, h.pos])
    (EncodeAt.eLeaves_write (t := { t with pay := leafBytes s₀.params input, pos := 1 }) hg
      (h.of_eq (by rw [← h.phase])) rfl)

/-- R174: the SHAPE block is written. -/
theorem EncodeAt.eShape_write (h : EncodeAt s₀ input .eShape 2 [] t)
    (hpay : t.pay = padPack (treeOf s₀.params input).shapeBits) : Comes (EncodeEnd s₀ input) t := by
  obtain ⟨u, hx, hu⟩ := h.exec_blkWrite hg.sink (id := .shape) hpay hg.room_shape
  exact h.comes_of_op (by simp [nextOp, h.phase, h.pos]) (by simp [prepare, h.phase, h.pos]) hx hu.toCallAt
    (by simp [advance, hu.phase, hu.pos]) (EncodeAt.eLeaves hg (hu.of_eq (u := u.enter .eLeaves) rfl))

/-- R174: the padding of the shape word. -/
theorem EncodeAt.eShape_pad (h : EncodeAt s₀ input .eShape 1 [] t)
    (hw : Wrote { s₀ with pay := [] } (treeOf s₀.params input).shapeBits t) : Comes (EncodeEnd s₀ input) t := by
  obtain ⟨u, hx, hu, hpay⟩ := h.exec_pad hg.unbounded hw
  exact h.comes_of_op (by simp [nextOp, h.phase, h.pos]) (by simp [prepare, h.phase, h.pos]) hx hu.toCallAt
    (by simp [advance, hu.phase, hu.pos])
    (EncodeAt.eShape_write (t := { u with pos := 2 }) hg (hu.of_eq (by rw [hu.phase])) hpay)

/-- R174: the shape word, to a new writer on an empty PAY. -/
theorem EncodeAt.eShape (h : EncodeAt s₀ input .eShape 0 [] t) : Comes (EncodeEnd s₀ input) t := by
  obtain ⟨bytes, x, hwf, h7, hbits, hrun, -⟩ :=
    writeShapeResult (t.clearPay.newWriter .pay) _ h.tree ⟨rfl, Nat.zero_le 7⟩
  have hx := hrun rfl (hg.payRoom (t := t.clearPay.newWriter .pay) h.params)
  generalize hv : { (t.clearPay.newWriter .pay).setAcc x with
    pay := (t.clearPay.newWriter .pay).pay ++ bytes } = u at hx
  have hu : EncodeAt s₀ input .eShape 0 [] u := h.of_eq (by rw [← hv, ← h.phase, ← h.pos]; rfl)
  refine h.comes_of_op (by simp [nextOp, h.phase, h.pos]) (by simp [prepare, h.phase, h.pos]) hx hu.toCallAt
    (v := { u with pos := 1 }) (by simp [advance, hu.phase, hu.pos])
    (EncodeAt.eShape_pad hg (hu.of_eq (by rw [hu.phase])) ?_)
  subst hv
  exact ⟨rfl, h.params, bytes, x.seq, by simpa using h7, (BitSlice.ofBits_seq hwf).symm, rfl, hbits.symm⟩

/-! ### E_BUILD, E_COUNT and E_READ -/

/-- R173: the tree of the input is built. -/
theorem CallAt.eBuild (h : CallAt s₀ .eBuild 0 [] t) (hin : t.inbuf = input) (hfreq : t.freq = countBytes input) :
    Comes (EncodeEnd s₀ input) t := by
  have hx := exec_tBuild_of_room (s := t) (hg.nodeRoom h.params)
  have htree : buildTree t.params t.freq = treeOf s₀.params input := by rw [h.params, hfreq, treeOf]
  rw [htree] at hx
  refine h.comes_of_op (by simp only [nextOp, h.phase]) (by simp only [prepare, h.phase]) hx
    (h.of_eq (by rw [← h.phase, ← h.pos])) (advance_eBuild h.phase) (EncodeAt.eShape hg ?_)
  exact { toCallAt := h.of_eq rfl, inbuf := hin, tree := rfl }

/-- R172: the input is counted. -/
theorem CallAt.eCount (h : CallAt s₀ .eCount 0 [] t) (hin : t.inbuf = input) : Comes (EncodeEnd s₀ input) t := by
  have hx : exec .tCount t = .next { t with freq := countBytes t.inbuf } := rfl
  exact h.comes_of_op (by simp only [nextOp, h.phase]) (by simp only [prepare, h.phase]) hx
    (h.of_eq (by rw [← h.phase, ← h.pos])) (advance_eCount h.phase)
    (CallAt.eBuild hg (h.of_eq rfl) hin (congrArg countBytes hin))

/-- R171: the input is read, byte by byte, and EOS met. -/
theorem CallAt.eRead (rest : List Byte) (h : CallAt s₀ .eRead 0 [] t) (hin : t.inbuf ++ rest = input)
    (he : t.srcEos = false) (hsrc : t.src = rest.map .byte ++ [.eos]) : Comes (EncodeEnd s₀ input) t := by
  have hop : nextOp t = none := by simp only [nextOp, h.phase]
  have hown : ownAction t = readInput t := by simp only [ownAction, h.phase]
  induction rest generalizing t with
  | nil =>
    have hread : readInput t = .ok () (State.enter .eCount { t with srcEos := true }) := by
      rw [readInput, srcRead_eos he hsrc, Res.bind_ok]
    rw [List.append_nil] at hin
    exact .step (h.step_of_own hop (hown.trans hread)) (CallAt.eCount hg (h.of_eq rfl) hin)
  | cons v rest ih =>
    have hlt : ¬ maxInput ≤ t.inbuf.length := by
      have hlen := hg.short
      rw [← hin, List.length_append, List.length_cons] at hlen
      omega
    have hread : readInput t = .ok () { t with src := rest.map .byte ++ [.eos], inbuf := t.inbuf ++ [v] } := by
      have hbyte : t.src = .byte v :: (rest.map .byte ++ [.eos]) := hsrc
      rw [readInput, srcRead_byte he hbyte, Res.bind_ok]
      simp only [if_neg hlt, hg.inbufCap h.params, roomFor, if_true]
    refine .step (h.step_of_own hop (hown.trans hread)) (ih (h.of_eq (by rw [← h.phase, ← h.pos])) ?_ he rfl ?_ ?_)
    · rw [← hin]; simp
    · simp only [nextOp, h.phase]
    · simp only [ownAction, h.phase]

end

end Machine
end Sys2Proof

/-! ### The settled statement -/

open Sys2Proof Sys2Proof.Machine

/-- Settles O58: the request starts the call, and the places of the sequence follow one another to the end. -/
theorem encodeWritesContainer : Obligations.EncodeWritesContainer := by
  intro s input n hb hh hcap hmax hsrc hsnk hroom
  have hstart : CallAt s .eRead 0 [] (State.startCall 0 .eRead { s with host := [] }) :=
    ⟨rfl, rfl, rfl, rfl, rfl, rfl, (List.append_nil _).symm, rfl⟩
  exact Comes.step (step_request_encode hh hb) (hstart.eRead ⟨hcap, hmax, hsnk, hroom⟩ input rfl rfl hsrc)
end

section
/-! PROOFS. The moves of the walk, its steps, and the processing of a DATA block (`46_decode.md` R195 to R204), with the
path bits and the padding count as operations of their own. -/

namespace Sys2Proof

theorem Tree.exists_node_of_isNode {t : Tree} (h : t.isNode = true) : ∃ w l r, t = .node w l r := by
  cases t with
  | leaf w x => cases h
  | node w l r => exact ⟨w, l, r, rfl⟩

theorem Tree.exists_leaf_of_not_isNode {t : Tree} (h : t.isNode = false) : ∃ w x, t = .leaf w x := by
  cases t with
  | leaf w x => exact ⟨w, x, rfl⟩
  | node w l r => cases h

/-- R190: no leaf below a node is without its symbol where none of the tree is. -/
theorem Tree.complete_nodeAt {t n : Tree} {p : List Bool} (hc : t.complete = true) (hn : t.nodeAt p = some n) :
    n.complete = true := by
  induction p generalizing t with
  | nil => rw [Tree.nodeAt_nil] at hn; cases hn; exact hc
  | cons b p ih =>
    cases t with
    | leaf w x => rw [Tree.nodeAt_below_leaf] at hn; cases hn
    | node w l r =>
      simp only [Tree.complete, Bool.and_eq_true] at hc
      obtain ⟨hl, hr⟩ := hc
      cases b with
      | false => exact ih hl hn
      | true => exact ih hr hn

/-- CUR names an internal node: the walk can go on from it. -/
def Tree.Branches (t : Tree) (cur : List Bool) : Prop := ∃ w l r, t.nodeAt cur = some (.node w l r)

theorem Tree.Branches.root {t : Tree} (h : t.isNode = true) : t.Branches [] := by
  obtain ⟨w, l, r, rfl⟩ := t.exists_node_of_isNode h
  exact ⟨w, l, r, Tree.nodeAt_nil _⟩

theorem Tree.Branches.isNode {t : Tree} {cur : List Bool} (h : t.Branches cur) : t.isNode = true := by
  obtain ⟨w, l, r, hn⟩ := h
  obtain ⟨w', l', r', rfl⟩ := Tree.root_of_nodeAt hn
  rfl

/-! ### The padding count -/

/-- R197, R203: the packed bits that mean something: all but as many as the padding count says. -/
def meaningfulBits (packed : List Byte) (pad : Byte) : List Bool := (unpack packed).take (8 * packed.length - pad.toNat)

theorem length_meaningfulBits (packed : List Byte) (pad : Byte) :
    (meaningfulBits packed pad).length = 8 * packed.length - pad.toNat := by
  rw [meaningfulBits, List.length_take, unpack_length]; exact Nat.min_eq_left (Nat.sub_le _ _)

/-- The bits that mean something stand in front of the padding. -/
theorem exists_padding (packed : List Byte) (pad : Byte) : ∃ q, unpack packed = meaningfulBits packed pad ++ q :=
  ⟨_, (List.take_append_drop _ _).symm⟩

/-- R208: a tree that the walk over these bits needs: with children, unless there are none. -/
theorem meaningfulBits_eq_nil_or_branches {t : Tree} {packed : List Byte} {pad : Byte}
    (h : t.isNode = true ∨ 8 * packed.length = pad.toNat) : meaningfulBits packed pad = [] ∨ t.Branches [] :=
  h.symm.imp (fun h => by rw [meaningfulBits, h, Nat.sub_self, List.take_zero]) .root

namespace Machine

theorem padHeader_empty {s : State} (h : s.pay = []) (v : Byte) : padHeader v s = .raise .truncated s := by
  rw [padHeader, if_pos (by rw [h]; rfl)]

section
variable {s : State} {v : Byte} (hne : s.pay ≠ [])
include hne

theorem padHeader_fits (h7 : v.toNat ≤ 7) (hfit : v.toNat ≤ 8 * (s.pay.length - 1)) :
    padHeader v s = .ok () { s with padcnt := v, remaining := 8 * (s.pay.length - 1) - v.toNat } := by
  rw [padHeader, if_neg (mt List.length_eq_zero_iff.1 hne)]
  exact if_neg (not_or.2 ⟨Nat.not_lt_of_le h7, Nat.not_lt_of_le hfit⟩)

theorem padHeader_bad (hbad : 7 < v.toNat ∨ 8 * (s.pay.length - 1) < v.toNat) :
    padHeader v s = .raise .badPadding { s with padcnt := v } := by
  rw [padHeader, if_neg (mt List.length_eq_zero_iff.1 hne)]
  exact if_pos hbad

end

/-! ### The moves of the walk -/

section
variable {t : Tree} {s : State} (hv : s.treeValid = true) (ht : s.tree = some t)
include hv ht

/-- R199: at a leaf there is no child to move to. -/
theorem walkTo_mismatch {w : Weight} {x : Option Byte} (hn : t.nodeAt s.cur = some (.leaf w x)) (b : Bool) :
    walkTo b s = .raise .treeMismatch s := by
  simp only [walkTo, requireTree_some hv ht, Res.bind_ok, hn]

/-- R200: the sink fails to take the symbol of the leaf reached. -/
theorem walkTo_ioFail {w u : Weight} {l r : Tree} {b : Bool} {v : Byte} (hn : t.nodeAt s.cur = some (.node w l r))
    (hc : (if b then r else l) = .leaf u (some v)) {k : List SnkAns} (hk : s.snk = .ioFail :: k) :
    ∃ x, walkTo b s = .raise .io x := by
  simp only [walkTo, requireTree_some hv ht, Res.bind_ok, hn, hc, needSymbol, emit_ioFail v hk, Res.bind_raise]
  exact ⟨_, rfl⟩

/-- R196, R197: the header byte of a DATA payload with a tree. -/
theorem bodyHeader_raise {e : Err} {u : State} (h : padHeader (s.pay.headD 0) s = .raise e u) :
    bodyHeader s = .raise e u := by
  rw [bodyHeader, requireTree_some hv ht, Res.bind_ok, h, Res.bind_raise]

end

/-! ### Steps of the walk -/

/-- One step of the walk for the bit `b`, from `s` to `u`: it leaves the walk at an internal node, and gives to the sink what
`walkOutput` says of the bit. -/
structure WalkStep (t : Tree) (b : Bool) (s u : State) : Prop where
  frame     : u = { s with cur := u.cur, remaining := s.remaining - 1, br := u.br, snk := u.snk, out := u.out }
  branches  : t.Branches u.cur
  given     : ∃ given : List Byte, u.out = s.out ++ given ∧ s.snk = List.replicate given.length .ok ++ u.snk ∧
    ∀ bs, walkOutput t s.cur (b :: bs) = (given ++ (walkOutput t u.cur bs).1, (walkOutput t u.cur bs).2)

/-- R199 to R202: a step from an internal node of a tree with its symbols, over a sink that answers OK for the symbols of the
bits ahead that mean something. -/
theorem Walking.walkBit_run {t : Tree} {b : Bool} {bits bs : List Bool} {k : List SnkAns} {s : State}
    (h : Walking t (b :: bits) s) (hc : t.complete = true) (hcur : t.Branches s.cur) (hr : 0 < s.remaining)
    (hsnk : s.snk = List.replicate (walkOutput t s.cur (b :: bs)).1.length .ok ++ k) :
    ∃ u, Machine.walkBit s = .ok () u ∧ Walking t bits u ∧ WalkStep t b s u := by
  obtain ⟨w, l, r, hn⟩ := id hcur
  have hnext := Tree.nodeAt_append_bit hn b
  obtain ⟨br, hw, hstep⟩ := h.walkBit hr
  obtain ⟨hvalid, htree, horigin, hbits⟩ := hw
  rw [hstep]
  cases hx : if b then r else l with
  | leaf u x =>
    rw [hx] at hnext
    obtain ⟨v, rfl⟩ := Option.isSome_iff_exists.1 (Tree.complete_nodeAt hc hnext)
    have hout := walkOutput_leaf hnext
    rw [hout, List.length_cons, List.replicate_succ, List.cons_append] at hsnk
    rw [walkTo_leaf (s := { s with br := br }) h.valid h.tree hn hx hsnk]
    exact ⟨_, rfl, ⟨hvalid, htree, horigin, hbits⟩, rfl, .root hcur.isNode, [v], rfl, hsnk, hout⟩
  | node u l' r' =>
    rw [hx] at hnext
    rw [walkTo_node (s := { s with br := br }) h.valid h.tree hn hx]
    exact ⟨_, rfl, ⟨hvalid, htree, horigin, hbits⟩, rfl, ⟨u, l', r', hnext⟩, [], (List.append_nil _).symm, rfl,
      walkOutput_node hnext⟩

/-- What is left of the sink's answers after a step. -/
theorem WalkStep.snk_eq {t : Tree} {b : Bool} {bs : List Bool} {k : List SnkAns} {s u : State} (h : WalkStep t b s u)
    (hsnk : s.snk = List.replicate (walkOutput t s.cur (b :: bs)).1.length .ok ++ k) :
    u.snk = List.replicate (walkOutput t u.cur bs).1.length .ok ++ k := by
  obtain ⟨given, -, hgiven, hout⟩ := h.given
  rw [hgiven, hout, List.length_append, ← List.replicate_append_replicate, List.append_assoc] at hsnk
  exact List.append_cancel_left hsnk

/-- R203: the walk over the bits that mean something. -/
theorem Walking.walkSteps_run {t : Tree} (bits : List Bool) {ahead : List Bool} {k : List SnkAns} {s : State}
    (h : Walking t (bits ++ ahead) s) (hc : t.complete = true) (hcur : bits = [] ∨ t.Branches s.cur)
    (hrem : s.remaining = bits.length) (hsnk : s.snk = List.replicate (walkOutput t s.cur bits).1.length .ok ++ k) :
    ∃ br, walkSteps bits.length s = .ok () { s with
      br := br, remaining := 0, snk := k, cur := (walkOutput t s.cur bits).2,
      out := s.out ++ (walkOutput t s.cur bits).1 } := by
  induction bits generalizing s with
  | nil =>
    have hk : s.snk = k := hsnk
    have h0 : s.remaining = 0 := hrem
    refine ⟨s.br, congrArg (Res.ok ()) ?_⟩
    simp only [walkOutput, List.append_nil, ← hk, ← h0]
  | cons b bits ih =>
    obtain ⟨u, hu, hw, hstep⟩ := h.walkBit_run hc (hcur.resolve_left nofun) (by rw [hrem]; exact Nat.succ_pos _) hsnk
    have hremu : u.remaining = bits.length := by rw [hstep.frame, hrem]; rfl
    obtain ⟨br, hrun⟩ := ih hw (.inr hstep.branches) hremu (hstep.snk_eq hsnk)
    obtain ⟨given, hout, -, hemit⟩ := hstep.given
    refine ⟨br, ?_⟩
    rw [List.length_cons, walkSteps, hu, Res.bind_ok, hrun, hemit, hout, ← List.append_assoc, hstep.frame]

/-- R199: the walk stops at a leaf while a bit that means something is left. -/
theorem Walking.walkSteps_mismatch {t : Tree} {b : Bool} {bits : List Bool} {s : State} (h : Walking t (b :: bits) s)
    (hr : 0 < s.remaining) {w : Weight} {x : Option Byte} (hn : t.nodeAt s.cur = some (.leaf w x)) :
    ∃ u, walkSteps s.remaining s = .raise .treeMismatch u := by
  obtain ⟨n, hrem⟩ := Nat.exists_eq_add_one_of_ne_zero hr.ne'
  have hfirst : walkSteps s.remaining s = (Machine.walkBit s).bind fun _ u => walkSteps n u := by rw [hrem, walkSteps]
  obtain ⟨br, -, hstep⟩ := h.walkBit hr
  refine ⟨{ s with br := br }, ?_⟩
  rw [hfirst, hstep, walkTo_mismatch (s := { s with br := br }) h.valid h.tree hn, Res.bind_raise, Res.bind_raise]

/-! ### BLK_DATA -/

/-- R198: behind its header byte the walk has the packed bits ahead. -/
theorem walking_after_header {t : Tree} {s : State} {pad : Byte} {packed : List Byte} (hv : s.treeValid = true)
    (ht : s.tree = some t) (hpay : s.pay = pad :: packed) (n : Nat) :
    Walking t (unpack packed)
      { s with padcnt := pad, remaining := n, br := BitReader.fresh (.pay 1), cur := [] } where
  valid  := hv
  tree   := ht
  origin := ⟨1, rfl⟩
  bits   := by rw [readerBits_of_empty (p := 1) rfl rfl, hpay]; rfl

end Machine
end Sys2Proof

/-! ### The settled statements -/

open Sys2Proof Sys2Proof.Machine

/-- Settles O38: the bit is read, and the walk moves by it: to an internal node, to a leaf, or nowhere. -/
theorem walkBitResult : Obligations.WalkBitResult := by
  intro s t p b bits hv ht ho hbits hrem
  have h : Walking t (b :: bits) s := ⟨hv, ht, ⟨p, ho⟩, hbits⟩
  obtain ⟨br, hw, hstep⟩ := h.walkBit hrem
  have hexec : exec .dWalkBit s = settle s ((walkTo b { s with br := br }).bind fun _ u =>
      .ok () { u with remaining := u.remaining - 1 }) := congrArg (settle s) hstep
  rw [hexec]
  refine ⟨br, hw.bits, fun w l r hn => ⟨fun cw cl cr hc => ?_, fun cw v hc => ⟨fun k hk => ?_, fun k hk => ?_⟩⟩,
    fun w x hn => ?_⟩
  · rw [walkTo_node (s := { s with br := br }) hv ht hn hc]; rfl
  · rw [walkTo_leaf (s := { s with br := br }) hv ht hn hc hk]; rfl
  · obtain ⟨x, hx⟩ := walkTo_ioFail (s := { s with br := br }) hv ht hn hc hk
    rw [hx]
    exact ⟨_, rfl, State.raise_st _ x, State.raise_err _ x⟩
  · rw [walkTo_mismatch (s := { s with br := br }) hv ht hn]; rfl

/-- Settles O40: the header byte is checked, and the walk goes over as many bits as it leaves. -/
theorem dataBlock : Obligations.DataBlock := by
  intro s
  have hexec : exec .blkData s = settle s ((bodyHeader s).bind fun _ u => walkSteps u.remaining u) := rfl
  refine ⟨fun hv => exec_of_no_valid_tree (.inl hv) (by simp), fun t hv ht hc => ⟨fun hpay => ?_, ?_⟩⟩
  · rw [hexec, bodyHeader_raise hv ht (padHeader_empty hpay _)]; rfl
  intro pad packed hpay
  have hne : s.pay ≠ [] := by rw [hpay]; exact List.cons_ne_nil _ _
  have hlen : s.pay.length - 1 = packed.length := by rw [hpay]; rfl
  have hhead : s.pay.headD 0 = pad := by rw [hpay]; rfl
  refine ⟨fun hbad => ?_, fun h7 hfit => ?_⟩
  · rw [hexec, bodyHeader_raise hv ht (by rw [hhead]; exact padHeader_bad hne (by rwa [hlen]))]; rfl
  have hwalk := walking_after_header hv ht hpay (8 * packed.length - pad.toNat)
  rw [hexec, bodyHeader_run hv ht hpay h7 hfit, Res.bind_ok]
  refine ⟨fun hnode r hsnk => ?_, fun hleaf hpos => ?_⟩
  · obtain ⟨q, hq⟩ := exists_padding packed pad
    rw [hq] at hwalk
    have hlen := length_meaningfulBits packed pad
    obtain ⟨br, hrun⟩ := hwalk.walkSteps_run _ hc (meaningfulBits_eq_nil_or_branches hnode) hlen.symm hsnk
    rw [hlen] at hrun
    exact ⟨br, congrArg (settle s) hrun⟩
  · obtain ⟨w, x, rfl⟩ := t.exists_leaf_of_not_isNode hleaf
    obtain ⟨b, bits, hb⟩ : ∃ b bits, unpack packed = b :: bits :=
      List.exists_cons_of_length_pos (by rw [unpack_length]; omega)
    rw [hb] at hwalk
    obtain ⟨u, hu⟩ := hwalk.walkSteps_mismatch (Nat.sub_pos_of_lt hpos) (Tree.nodeAt_nil _)
    exact ⟨_, congrArg (settle s) hu, State.raise_st _ u, State.raise_err _ u⟩

/-- Settles O37: a path bit is the move of the walk alone, and PADCNT is the header byte of R197 alone. -/
theorem pathBitAndPadcntRows : Obligations.PathBitAndPadcntRows := by
  have hleft : ∀ s, exec .pLeft s = settle s (walkTo false s) := fun _ => rfl
  have hright : ∀ s, exec .pRight s = settle s (walkTo true s) := fun _ => rfl
  refine ⟨fun s t hv ht => ⟨fun w l r hn => ⟨?_, ?_, ?_, ?_⟩, fun w x hn => ?_⟩, fun p s => ?_⟩
  · intro lw ll lr hl
    rw [hleft, walkTo_node hv ht hn (b := false) hl, settle_ok]
  · intro rw rl rr hr
    rw [hright, walkTo_node hv ht hn (b := true) hr, settle_ok]
  · intro lw v k hl hk
    rw [hleft, walkTo_leaf hv ht hn (b := false) hl hk, settle_ok]
  · intro rw v k hr hk
    rw [hright, walkTo_leaf hv ht hn (b := true) hr hk, settle_ok]
  · rw [hleft, hright, walkTo_mismatch hv ht hn, walkTo_mismatch hv ht hn, settle_raise]
    exact ⟨rfl, rfl⟩
  · have hexec : exec (.padcnt p) s = settle s (padHeader (p.setWidth 8) s) := rfl
    have hp : (p.setWidth 8).toNat = p.toNat := by have := p.isLt; simp; omega
    have h7 : p.toNat ≤ 7 := Nat.le_of_lt_succ p.isLt
    rw [hexec]
    refine ⟨fun hpay => ?_, fun hne hfit => ?_, fun hne hbad => ?_⟩
    · rw [padHeader_empty hpay, settle_raise]
    · rw [padHeader_fits hne (hp.symm ▸ h7) (hp.symm ▸ hfit), settle_ok, hp]
    · rw [padHeader_bad hne (.inr (hp.symm ▸ hbad)), settle_raise]
end

section
/-! PROOFS. The processing of the SHAPE and LEAVES blocks (`46_decode.md` R187 to R190) and the end probe (R205). -/

namespace Sys2Proof

/-- R151: only as many bytes as there are leaves can all be assigned. -/
theorem Tree.assign_ne_of_length {t : Tree} {bs : List Byte} (h : bs.length ≠ t.nleaves) (u : Tree) :
    t.assign bs ≠ some (u, []) := fun hu => by
  obtain ⟨vs, rfl, hvs, hd⟩ := Tree.symbols_of_assign hu
  apply h
  rw [← Tree.nleaves_of_dropSymbols hd, ← u.symbols_length, hvs, List.append_nil, List.length_map]

namespace Machine

/-! ### The SHAPE block -/

/-- R188: a new reader has the whole payload ahead. -/
theorem reads_newReader (s : State) : Reads (s.newReader (.pay 0)) (unpack s.pay) where
  origin := ⟨0, rfl⟩
  bits   := readerBits_of_empty (p := 0) rfl rfl

/-- R187, R188: the tree of the payload's leading shape word; the reader is discarded. -/
theorem exec_blkShape_of_word {s : State} {t : Tree} {rest : List Bool} (hroom : s.nodeRoom t.size)
    (hpay : unpack s.pay = t.shapeBits ++ rest) :
    exec .blkShape s = .next { s with br := BitReader.fresh (.pay 0), tree := some t.skeleton } := by
  have h := reads_newReader s
  rw [hpay] at h
  obtain ⟨br, hrun, -⟩ := h.readShape hroom
  simp only [exec, execBlkShape, hrun, Res.bind_ok, settle_ok]
  rfl

theorem exec_blkShape_of_no_word {s : State} (hroom : s.nodeRoom (8 * s.pay.length))
    (hno : ∀ t : Tree, ¬ t.shapeBits <+: unpack s.pay) :
    ∃ u : State, exec .blkShape s = .next (u.raise .truncated) := by
  obtain ⟨u, hrun⟩ := (reads_newReader s).readShape_truncated (fun ⟨t, ht⟩ => hno t ht) (by rwa [unpack_length])
  exact ⟨u, by simp only [exec, execBlkShape, hrun, Res.bind_raise, settle_raise]⟩

/-! ### The LEAVES block -/

section
variable {s : State} {t : Tree} (ht : s.tree = some t)
include ht

/-- R190: PAY holds the symbols of a tree of the shape and weights of TREE. -/
theorem exec_blkLeaves_of_symbols {u : Tree} (hu : u.symbols = s.pay.map some) (hd : u.dropSymbols = t.dropSymbols) :
    exec .blkLeaves s = .next { s with tree := some u, treeValid := true } := by
  have hassign : t.assign s.pay = some (u, []) := by simpa using Tree.assign_symbols hu hd []
  simp only [exec, execBlkLeaves, assignLeaves, needTree_some ht, Res.bind_ok, hassign, settle_ok, State.setTree]

theorem exec_blkLeaves_of_length (hlen : s.pay.length ≠ t.nleaves) : exec .blkLeaves s = .next (s.raise .leafCount) := by
  have hraise : assignLeaves s = .raise .leafCount s := by
    rw [assignLeaves, needTree_some ht, Res.bind_ok]
    split
    · exact absurd ‹_› (Tree.assign_ne_of_length hlen _)
    · rfl
  simp only [exec, execBlkLeaves, hraise, Res.bind_raise, settle_raise]

end

/-! ### The end probe -/

section
variable {s t : State}

theorem endProbe_eos (h : srcRead s = .ok .eos t) : endProbe s = .ok () (t.enter .dEnd) := by
  rw [endProbe, h, Res.bind_ok]

theorem endProbe_byte {v : Byte} (h : srcRead s = .ok (.byte v) t) : endProbe s = .raise .blockId t := by
  rw [endProbe, h, Res.bind_ok]

theorem endProbe_ioFail (h : srcRead s = .ok .ioFail t) : endProbe s = .raise .io t := by
  rw [endProbe, h, Res.bind_ok]

theorem endProbe_wait (h : srcRead s = .wait t) : endProbe s = .wait t := by
  rw [endProbe, h, Res.bind_wait]

theorem ownAction_dTail (h : s.phase = .dTail) : ownAction s = endProbe s := by simp only [ownAction, h]

theorem nextOp_dTail (h : s.phase = .dTail) : nextOp s = none := by simp only [nextOp, h]

end

end Machine
end Sys2Proof

/-! ### The settled statements -/

open Sys2Proof Sys2Proof.Machine

/-- Settles O39: the shape word is read by a new reader over PAY, and the leaves take the bytes of PAY. -/
theorem shapeAndLeavesBlocks : Obligations.ShapeAndLeavesBlocks := by
  intro s
  refine ⟨⟨fun t rest hroom hpay => ⟨_, exec_blkShape_of_word hroom hpay, rfl⟩, fun hroom hno => ?_⟩,
    fun t ht => ⟨fun hlen => ?_, fun hlen => ⟨_, exec_blkLeaves_of_length ht hlen, State.raise_st _ s, State.raise_err _ s⟩⟩⟩
  · obtain ⟨u, hu⟩ := exec_blkShape_of_no_word hroom hno
    exact ⟨_, hu, State.raise_st _ u, State.raise_err _ u⟩
  · obtain ⟨u, hu, hd⟩ := Tree.exists_symbols (t := t) (xs := s.pay.map some) (by rw [List.length_map, hlen])
    exact ⟨u, exec_blkLeaves_of_symbols ht hu hd, hu, by rw [← u.shapeBits_dropSymbols, hd, t.shapeBits_dropSymbols], hd⟩

/-- Settles O41: the step is the end probe, which goes by the source's answer. -/
theorem endProbe : Obligations.EndProbe := by
  intro s hh hb hp hd
  have hstep : step s = settle s (Machine.endProbe s) := by
    rw [step_of_ownAction hh hb hd (nextOp_dTail hp), ownAction_dTail hp]
  rw [hstep]
  refine ⟨fun hend => ?_, fun he => ⟨fun v r hs => ?_, fun r hs => ?_, fun hs => ?_⟩⟩
  · cases he : s.srcEos with
    | true =>
      rw [endProbe_eos (srcRead_srcEos he), settle_ok]
      exact ⟨_, rfl, hb, rfl, he, rfl⟩
    | false =>
      obtain ⟨r, hs⟩ := hend.resolve_left (by simp [he])
      rw [endProbe_eos (srcRead_eos he hs), settle_ok]
      exact ⟨_, rfl, hb, rfl, rfl, rfl⟩
  · rw [endProbe_byte (srcRead_byte he hs), settle_raise]
    exact ⟨_, rfl, State.raise_st _ _, State.raise_err _ _, by rw [State.raise_out]⟩
  · rw [endProbe_ioFail (srcRead_ioFail he hs), settle_raise]
    exact ⟨_, rfl, State.raise_st _ _, State.raise_err _ _, by rw [State.raise_out]⟩
  · have hwait : srcRead s = .wait s := by simp [srcRead, he, hs]
    rw [endProbe_wait hwait, settle_wait]
    exact ⟨_, rfl, hb, hp, rfl⟩
end

section
/-! PROOFS. TIE_RULE and SYN_SYM play no part in DECODE (`46_decode.md` R185, `70_reset_and_hazards.md` R255): no operation
of a DECODE call asks for either, so each passes other values of them through. -/

namespace Sys2Proof.Machine

/-! ### What passes other values through -/

section
variable {α β : Type}

/-- Under other values of TIE_RULE and SYN_SYM the operation has the same end, with those values. -/
def TieFree (f : Act α) : Prop := ∀ tie syn s, f (s.withTie tie syn) = (f s).map (State.withTie tie syn)

theorem TieFree.bind {f : Act α} {k : α → Act β} (h : TieFree f) (hk : ∀ x, TieFree (k x)) :
    TieFree fun s => (f s).bind k := fun tie syn s => by
  simp only [h tie syn s]
  cases f s with
  | ok x t => exact hk x tie syn t
  | _ => rfl

/-- A change of elements by what the elements hold. -/
theorem TieFree.update (x : α) (g : State → State)
    (hg : ∀ tie syn s, g (s.withTie tie syn) = (g s).withTie tie syn := by intros; rfl) : TieFree fun s => .ok x (g s) :=
  fun tie syn s => congrArg (Res.ok x) (hg tie syn s)

theorem TieFree.raise (e : Err) (g : State → State)
    (hg : ∀ tie syn s, g (s.withTie tie syn) = (g s).withTie tie syn := by intros; rfl) :
    TieFree fun s => (.raise e (g s) : Res α) :=
  fun tie syn s => congrArg (Res.raise e) (hg tie syn s)

theorem TieFree.wait : TieFree fun s => (.wait s : Res α) := fun _ _ _ => rfl

theorem TieFree.fault (x : Fault) : TieFree fun _ => (.fault x : Res α) := fun _ _ _ => rfl

theorem TieFree.refuse (x : Refusal) : TieFree fun _ => (.refuse x : Res α) := fun _ _ _ => rfl

/-- An operation that begins with a change. -/
theorem TieFree.comp {f : Act α} (h : TieFree f) (g : State → State)
    (hg : ∀ tie syn s, g (s.withTie tie syn) = (g s).withTie tie syn := by intros; rfl) : TieFree fun s => f (g s) :=
  (TieFree.update () g hg).bind fun _ => h

/-- An operation that does one thing or another by what the state holds apart from the two parameters. -/
theorem TieFree.cases {γ : Type} {f : Act α} (h : State → γ) (hf : ∀ c, ∃ g : Act α, TieFree g ∧ ∀ s, h s = c → f s = g s)
    (hh : ∀ tie syn s, h (s.withTie tie syn) = h s := by intros; rfl) : TieFree f := fun tie syn s => by
  obtain ⟨g, hg, e⟩ := hf (h s)
  rw [e s rfl, e _ (hh tie syn s), hg]

/-- An operation that begins with a test. -/
theorem TieFree.ite {f g : Act α} (p : State → Prop) [DecidablePred p] (hf : TieFree f) (hg : TieFree g)
    (hp : ∀ tie syn s, p (s.withTie tie syn) = p s := by intros; rfl) : TieFree fun s => if p s then f s else g s := by
  refine .cases p (fun c => ?_) hp
  by_cases hc : c
  · exact ⟨f, hf, fun s h => if_pos (h.mpr hc)⟩
  · exact ⟨g, hg, fun s h => if_neg (h ▸ hc)⟩

end

/-! ### The streams, the payload buffer and the bit reader -/

theorem srcRead_tieFree : TieFree srcRead := by
  refine .ite (fun s => s.srcEos = true) (.update SrcAns.eos id) (.cases (fun s => s.src) fun c => ?_)
  rcases c with _ | ⟨v | _ | _, r⟩
  · exact ⟨_, .wait, fun s h => by simp only [h]⟩
  · exact ⟨_, .update (.byte v) fun s => { s with src := r }, fun s h => by simp only [h]⟩
  · exact ⟨_, .update .eos fun s => { s with srcEos := true }, fun s h => by simp only [h]⟩
  · exact ⟨_, .update .ioFail fun s => { s with src := r }, fun s h => by simp only [h]⟩

theorem nextByte_tieFree : TieFree nextByte := by
  refine srcRead_tieFree.bind fun a => ?_
  cases a with
  | byte v => exact .update v id
  | eos => exact .raise .truncated id
  | ioFail => exact .raise .io id

theorem emit_tieFree (v : Byte) : TieFree (emit v) := by
  refine .cases (fun s => s.snk) fun c => ?_
  rcases c with _ | ⟨_ | _, r⟩
  · exact ⟨_, .wait, fun s => emit_nil v⟩
  · exact ⟨_, .update () fun s => { s with snk := r, out := s.out ++ [v] }, fun s => emit_ok v⟩
  · exact ⟨_, .raise .io _, fun s => emit_ioFail v⟩

theorem payAppend_tieFree (v : Byte) : TieFree (payAppend v) :=
  .ite (fun s => roomFor s.params.payloadCap s.pay.length = true) (.update () fun s => { s with pay := s.pay ++ [v] })
    (.raise .io id)

theorem readBit_tieFree : TieFree readBit := by
  refine .cases (fun s => (s.br, s.pay)) fun ⟨br, pay⟩ => ?_
  by_cases h0 : br.rem = 0
  · cases ho : br.origin with
    | src =>
      refine ⟨_, nextByte_tieFree.bind fun v =>
        .update (v.getLsbD 7) fun t => { t with br := { t.br with buf := v, rem := 7 } }, fun s h => ?_⟩
      cases h; exact readBit_of_src h0 ho
    | pay p =>
      cases hp : pay[p]? with
      | none =>
        refine ⟨_, .raise .truncated id, fun s h => ?_⟩
        cases h; exact readBit_pay_end h0 ho (List.getElem?_eq_none_iff.1 hp)
      | some v =>
        refine ⟨_, .update (v.getLsbD 7) fun s => { s with br := ⟨v, 7, .pay (p + 1)⟩ }, fun s h => ?_⟩
        cases h; exact readBit_pay_byte h0 ho hp
  · refine ⟨_, .update (br.buf.getLsbD (br.rem - 1)) fun s => { s with br := { br with rem := br.rem - 1 } }, fun s h => ?_⟩
    cases h; exact if_neg h0

/-! ### The shape of a tree -/

theorem countNode_tieFree (n : Nat) : TieFree (countNode n) :=
  .ite (fun s => roomFor s.params.nodeCap n = true) (.update (n + 1) id) (.raise .io id)

theorem readSubtree_tieFree (fuel n : Nat) : TieFree (readSubtree fuel n) := by
  induction fuel generalizing n with
  | zero => exact .raise .truncated id
  | succ fuel ih =>
    refine readBit_tieFree.bind fun b => (countNode_tieFree n).bind fun m => ?_
    cases b with
    | false => exact .update (Tree.leaf 0 none, m) id
    | true => exact (ih m).bind fun x => (ih x.2).bind fun y => .update (Tree.node 0 x.1 y.1, y.2) id

/-- R150: a subtree of an internal node, on as much fuel as there are bits ahead. -/
theorem readSubtree_bitsAhead_tieFree (n : Nat) : TieFree fun s => readSubtree (s.bitsAhead + 1) n s :=
  .cases State.bitsAhead fun k => ⟨_, readSubtree_tieFree (k + 1) n, fun s h => by rw [h]⟩

theorem shapeInternal_tieFree : TieFree shapeInternal :=
  (countNode_tieFree 0).bind fun n => (readSubtree_bitsAhead_tieFree n).bind fun x =>
    (readSubtree_bitsAhead_tieFree x.2).bind fun y => .update (Tree.node 0 x.1 y.1) id

theorem readShape_tieFree : TieFree readShape := by
  refine readBit_tieFree.bind fun b => ?_
  cases b with
  | false => exact (countNode_tieFree 0).bind fun _ => .update (Tree.leaf 0 none) id
  | true => exact shapeInternal_tieFree

/-! ### The blocks -/

theorem needTree_tieFree : TieFree needTree := by
  refine .cases (fun s => s.tree) fun x => ?_
  cases x with
  | none => exact ⟨_, .raise .noTree id, fun s => needTree_none⟩
  | some t => exact ⟨_, .update t id, fun s => needTree_some⟩

theorem assignLeaves_tieFree : TieFree assignLeaves := by
  refine needTree_tieFree.bind fun t => .cases (fun s => t.assign s.pay) fun x => ?_
  rcases x with _ | ⟨u, _ | ⟨b, bs⟩⟩
  · exact ⟨_, .raise .leafCount id, fun s h => by simp only [h, id]⟩
  · exact ⟨_, .update () (State.setTree u), fun s h => by simp only [h]⟩
  · exact ⟨_, .raise .leafCount id, fun s h => by simp only [h, id]⟩

theorem readLenByte_tieFree (k : Nat) : TieFree (readLenByte k) :=
  nextByte_tieFree.bind fun v =>
    .update () fun s => { s with blkLen := s.blkLen ||| BitVec.ofNat 64 (v.toNat * 2 ^ (8 * k)) }

theorem readLen_tieFree (n k : Nat) : TieFree (readLen n k) := by
  induction n generalizing k with
  | zero => exact .update () id
  | succ n ih => exact (readLenByte_tieFree k).bind fun _ => ih (k + 1)

theorem readPayload_tieFree (n : Nat) : TieFree (readPayload n) := by
  induction n with
  | zero => exact .update () id
  | succ n ih => exact nextByte_tieFree.bind fun v => (payAppend_tieFree v).bind fun _ => ih

/-- R163: the payload, of the length read. -/
theorem readBody_tieFree : TieFree readBody :=
  .cases (fun s => s.blkLen) fun n => ⟨_, (readPayload_tieFree n.toNat).comp State.clearPay, fun s h => by rw [readBody, h]⟩

theorem blockHead_tieFree (id : BlockId) : TieFree (blockHead id) := by
  refine nextByte_tieFree.bind fun v => ?_
  by_cases hv : v = id.code
  · simp only [if_pos hv]
    exact (readLen_tieFree 8 0).comp fun s => { s with blkId := v, blkLen := 0 }
  · simp only [if_neg hv]
    exact .raise .blockId fun s => { s with blkId := v }

theorem blockRead_tieFree (id : BlockId) : TieFree (blockRead id) := by
  rw [show blockRead id = _ from funext (blockRead_eq id)]
  exact (blockHead_tieFree id).bind fun _ => readBody_tieFree

/-! ### The walk and the end probe -/

theorem requireTree_tieFree : TieFree requireTree :=
  .ite (fun s => s.treeValid = true) needTree_tieFree (.raise .noTree id)

theorem needSymbol_tieFree (x : Option Byte) : TieFree (needSymbol x) := by
  cases x with
  | none => exact .fault .unsetSymbol
  | some v => exact .update v id

theorem walkTo_tieFree (b : Bool) : TieFree (walkTo b) := by
  refine requireTree_tieFree.bind fun t => .cases (fun s => t.nodeAt s.cur) fun x => ?_
  rcases x with _ | _ | ⟨w, l, r⟩
  · exact ⟨_, .fault .danglingCursor, fun s h => by simp only [h]⟩
  · exact ⟨_, .raise .treeMismatch id, fun s h => by simp only [h, id]⟩
  · cases hc : if b then r else l with
    | leaf w x =>
      exact ⟨_, (needSymbol_tieFree x).bind fun v => (emit_tieFree v).bind fun _ =>
        .update () fun s => { s with cur := [] }, fun s h => by simp only [h, hc]⟩
    | node w l' r' => exact ⟨_, .update () fun s => { s with cur := s.cur ++ [b] }, fun s h => by simp only [h, hc]⟩

theorem walkBit_tieFree : TieFree walkBit :=
  requireTree_tieFree.bind fun _ => .ite (fun s => s.remaining = 0) (.refuse .noBitsRemaining)
    (readBit_tieFree.bind fun b => (walkTo_tieFree b).bind fun _ =>
      .update () fun s => { s with remaining := s.remaining - 1 })

theorem padHeader_tieFree (v : Byte) : TieFree (padHeader v) :=
  .ite (fun s => s.pay.length = 0) (.raise .truncated id)
    (.ite (fun s => 7 < v.toNat ∨ 8 * (s.pay.length - 1) < v.toNat) (.raise .badPadding fun s => { s with padcnt := v })
      (.update () fun s => { s with padcnt := v, remaining := 8 * (s.pay.length - 1) - v.toNat }))

theorem bodyHeader_tieFree : TieFree bodyHeader :=
  requireTree_tieFree.bind fun _ =>
    (TieFree.cases (fun s => s.pay.headD 0) fun v => ⟨_, padHeader_tieFree v, fun s h => by rw [h]⟩).bind fun _ =>
      .update () fun s => { s.newReader (.pay 1) with cur := [] }

theorem endProbe_tieFree : TieFree endProbe := by
  refine srcRead_tieFree.bind fun a => ?_
  cases a with
  | eos => exact .update () (State.enter .dEnd)
  | byte v => exact .raise .blockId id
  | ioFail => exact .raise .io id

/-! ### The sequence of DECODE -/

section
variable (tie : List (List Tree × (Nat × Nat))) (syn : Byte) (s : State)

theorem State.raise_withTie (e : Err) : (s.withTie tie syn).raise e = (s.raise e).withTie tie syn := by
  cases hb : s.busy with
  | true => rw [State.raise_of_busy e s hb]; exact State.raise_of_busy e (s.withTie tie syn) hb
  | false => rw [State.raise_of_not_busy e s hb]; exact State.raise_of_not_busy e (s.withTie tie syn) hb

theorem settle_withTie {α : Type} (r : Res α) :
    settle (s.withTie tie syn) (r.map (State.withTie tie syn)) = mapNext (State.withTie tie syn) (settle s r) := by
  cases r with
  | raise e t => exact congrArg Host.Outcome.next (State.raise_withTie tie syn t e)
  | _ => rfl

theorem TieFree.settle {α : Type} {f : Act α} (h : TieFree f) :
    settle (s.withTie tie syn) (f (s.withTie tie syn)) = mapNext (State.withTie tie syn) (settle s (f s)) := by
  rw [h, settle_withTie]

theorem takeUp_withTie : (s.withTie tie syn).takeUp = s.takeUp.withTie tie syn := by
  cases hs : s.held with
  | none => rw [State.takeUp_of_none hs]; exact State.takeUp_of_none hs
  | some h => rw [State.takeUp_of_some hs]; exact State.takeUp_of_some hs

theorem rejoin_withTie (t : State) : (s.withTie tie syn).rejoin (t.withTie tie syn) = (s.rejoin t).withTie tie syn := by
  cases hs : s.held with
  | none => rw [State.rejoin_of_none hs]; exact State.rejoin_of_none hs _
  | some h => rw [State.rejoin_of_some hs]; exact State.rejoin_of_some hs _

omit tie syn in
/-- The operations that DECODE issues. -/
theorem nextOp_isDecode (hp : s.phase.isDecode = true) {i : Instr} (hi : nextOp s = some i) :
    (∃ id, i = .blkRead id) ∨ i = .blkShape ∨ i = .blkLeaves ∨ i = .dWalkBit := by
  cases hs : s.phase <;> rw [hs] at hp <;> simp only [nextOp, hs, Option.some.injEq, reduceCtorEq] at hi
  case dBlk0 | dBlk1 | dBlk2 => exact .inl ⟨_, hi.symm⟩
  case dShape => exact .inr (.inl hi.symm)
  case dLeaves => exact .inr (.inr (.inl hi.symm))
  case dBody =>
    split at hi
    · cases hi
    · split at hi
      · cases hi
      · exact .inr (.inr (.inr (Option.some.inj hi).symm))
  all_goals cases hp

omit tie syn in
theorem prepare_isDecode (hp : s.phase.isDecode = true) : prepare s = s := by
  cases hs : s.phase <;> rw [hs] at hp <;> simp only [prepare, hs] <;> cases hp

variable {s}

theorem exec_withTie (hp : s.phase.isDecode = true) {i : Instr} (hi : nextOp s = some i) :
    exec i (s.withTie tie syn) = mapNext (State.withTie tie syn) (exec i s) := by
  rcases nextOp_isDecode s hp hi with ⟨id, rfl⟩ | rfl | rfl | rfl
  · exact (blockRead_tieFree id).settle tie syn s
  · exact ((readShape_tieFree.comp (State.newReader (.pay 0))).bind fun t =>
      .update () fun u => (u.setTree t).dropReader).settle tie syn s
  · exact (assignLeaves_tieFree.bind fun _ => .update () fun u => { u with treeValid := true }).settle tie syn s
  · exact walkBit_tieFree.settle tie syn s

theorem ownAction_withTie (hp : s.phase.isDecode = true) :
    ownAction (s.withTie tie syn) = (ownAction s).map (State.withTie tie syn) := by
  have hphase : (s.withTie tie syn).phase = s.phase := rfl
  cases hs : s.phase <;> rw [hs] at hp <;> simp only [ownAction, hphase, hs]
  case dBody =>
    have hbody : TieFree fun s => if s.pos = 0 then (bodyHeader s).bind fun _ u => .ok () { u with pos := 1 } else
        .ok () (s.enter .dTail) :=
      .ite (fun s => s.pos = 0) (bodyHeader_tieFree.bind fun _ => .update () fun u => { u with pos := 1 })
        (.update () (State.enter .dTail))
    exact hbody tie syn s
  case dTail => exact endProbe_tieFree tie syn s
  case dEnd | dBlk0 | dShape | dBlk1 | dLeaves | dBlk2 => rfl
  all_goals cases hp

theorem retired_withTie (hp : s.phase.isDecode = true) :
    (s.withTie tie syn).retired = s.retired.withTie tie syn := by
  have hadvance : advance (s.withTie tie syn) = (advance s).withTie tie syn := by
    have hphase : (s.withTie tie syn).phase = s.phase := rfl
    cases hs : s.phase <;> rw [hs] at hp <;> simp only [advance, hphase, hs]
    case dBlk0 | dShape | dBlk1 | dLeaves | dBlk2 => rfl
    all_goals cases hp
  cases hd : s.held with
  | some h =>
    have hw : s.held.isSome = true := by rw [hd]; rfl
    rw [State.retired_of_held hw, State.retired_of_held (t := s.withTie tie syn) hw]
  | none =>
    by_cases hb : s.st = .busy
    · rw [State.retired_of_busy hd hb, State.retired_of_busy (t := s.withTie tie syn) hd hb, hadvance]
    · rw [State.retired_of_not_busy hd hb, State.retired_of_not_busy (t := s.withTie tie syn) hd hb]

omit tie syn in
/-- A place that issues no operation of the table. -/
theorem sequencerStep_of_own (hb : s.st = .busy) (hn : nextOp s.takeUp = none) :
    sequencerStep s = mapNext s.rejoin (settle s.takeUp (ownAction s.takeUp)) := by
  simp only [sequencerStep, (State.busy_iff s).2 hb, if_true, hn]

theorem mapNext_rejoin_withTie (o : Outcome) :
    mapNext (s.withTie tie syn).rejoin (mapNext (State.withTie tie syn) o) =
      mapNext (State.withTie tie syn) (mapNext s.rejoin o) := by
  rw [mapNext_mapNext, mapNext_mapNext]
  exact mapNext_congr fun t _ => rejoin_withTie tie syn s t

theorem sequencerStep_withTie (hb : s.st = .busy) (hp : s.phase.isDecode = true) :
    sequencerStep (s.withTie tie syn) = mapNext (State.withTie tie syn) (sequencerStep s) := by
  have hp' : s.takeUp.phase.isDecode = true := by rw [State.takeUp_phase]; exact hp
  have htake := takeUp_withTie tie syn s
  have hsame : nextOp (s.withTie tie syn).takeUp = nextOp s.takeUp := by rw [htake]; rfl
  cases hn : nextOp s.takeUp with
  | none =>
    rw [sequencerStep_of_own hb hn, sequencerStep_of_own (s := s.withTie tie syn) hb (hsame.trans hn), htake,
      ownAction_withTie tie syn hp', settle_withTie, mapNext_rejoin_withTie]
  | some i =>
    rw [sequencerStep_of_nextOp hb hn, sequencerStep_of_nextOp (s := s.withTie tie syn) hb (hsame.trans hn), htake,
      prepare_isDecode _ hp', prepare_isDecode (s.takeUp.withTie tie syn) hp', exec_withTie tie syn hp' hn,
      ← mapNext_rejoin_withTie, mapNext_mapNext State.retired, mapNext_mapNext (State.withTie tie syn)]
    congr 1
    refine mapNext_congr fun t ht => retired_withTie tie syn ?_
    obtain ⟨-, hphase⟩ := exec_out_phase ht
    rw [hphase (by rw [State.takeUp_st]; exact hb)]
    exact hp'

end

end Sys2Proof.Machine

/-! ### The settled statement -/

open Sys2Proof Sys2Proof.Machine

/-- Settles O57: the operation of the present place passes the two values through, and so do waiting and going on. -/
theorem decodeIgnoresTieRule : Obligations.DecodeIgnoresTieRule := by
  intro s tie syn hb hp hh hj
  rw [step_no_event hh, goOn_of_noJob hj, step_no_event (s := s.withTie tie syn) hh,
    goOn_of_noJob (s := s.withTie tie syn) hj]
  exact sequencerStep_withTie tie syn hb hp
end

section
/-! PROOFS. No step of a call stops the model (`46_decode.md` R198, `45_encode.md` R178, `10_state.md` R35): which operations
can stop at all, and that at each place of a call what the others need is there. -/

namespace Sys2Proof

/-- The operations that stop the model in some states: those that take a byte that a slice must hold, a slice that may be
none, or a symbol that may be unset, and the moves of the walk (log 20). -/
def Instr.mayStop : Instr → Bool
  | .bsPopByte _ | .bsAppendSlice _ _ | .bwWriteSlice _ | .tWriteLeaves | .tBuildTable | .dWalkBit | .pLeft | .pRight
  | .blkData => true
  | _ => false

namespace Machine

/-! ### Ends that are no stops -/

/-- The operation does not stop the model: it ends with a value or an error, or it waits. -/
def Res.Ends {α : Type} (r : Res α) : Prop :=
  match r with
  | .ok _ _ | .raise _ _ | .wait _ => True
  | .fault _ | .refuse _ => False

section
variable {α β : Type}

theorem Res.Ends.bind {r : Res α} {k : α → State → Res β} (h : r.Ends) (hk : ∀ a t, r = .ok a t → (k a t).Ends) :
    (r.bind k).Ends := by
  cases r with
  | ok a t => exact hk a t rfl
  | _ => exact h

/-- A last change of the state. -/
theorem Res.Ends.finish {r : Res α} (h : r.Ends) (b : α → State → β) (g : α → State → State) :
    (r.bind fun a t => .ok (b a t) (g a t)).Ends := h.bind fun _ _ _ => trivial

theorem Res.Ends.next {r : Res α} (h : r.Ends) (s : State) : ∃ t, settle s r = .next t := by
  cases r with
  | ok _ _ | raise _ _ | wait _ => exact ⟨_, rfl⟩
  | fault _ | refuse _ => exact h.elim

end

/-! ### Operations that never stop -/

theorem srcRead_ends (s : State) : (srcRead s).Ends := by
  unfold srcRead; split
  · trivial
  · split <;> trivial

theorem nextByte_ends (s : State) : (nextByte s).Ends :=
  (srcRead_ends s).bind fun a _ _ => by cases a <;> trivial

theorem emit_ends (v : Byte) (s : State) : (emit v s).Ends := by
  unfold emit; split <;> trivial

theorem emitAll_ends (vs : List Byte) (s : State) : (emitAll vs s).Ends := by
  induction vs generalizing s with
  | nil => trivial
  | cons v vs ih => exact (emit_ends v s).bind fun _ t _ => ih t

theorem payAppend_ends (v : Byte) (s : State) : (payAppend v s).Ends := by
  unfold payAppend; split <;> trivial

theorem payAppendAll_ends (vs : List Byte) (s : State) : (payAppendAll vs s).Ends := by
  induction vs generalizing s with
  | nil => trivial
  | cons v vs ih => exact (payAppend_ends v s).bind fun _ t _ => ih t

theorem destWrite_ends (v : Byte) (s : State) : (destWrite v s).Ends := by
  unfold destWrite; split
  · exact emit_ends v s
  · exact payAppend_ends v s

theorem flushBytes_ends (n : Nat) (s : State) : (flushBytes n s).Ends := by
  induction n generalizing s with
  | zero => trivial
  | succ n ih =>
    rw [flushBytes]; split
    · trivial
    · exact (destWrite_ends _ _).bind fun _ t _ => ih t

theorem writeBit_ends (b : Bool) (s : State) : (writeBit b s).Ends := by
  unfold writeBit; split
  · trivial
  · exact flushBytes_ends _ _

theorem writeSlice_ends (x : BitSlice) (s : State) : (writeSlice x s).Ends := by
  unfold writeSlice; split
  · trivial
  · exact flushBytes_ends _ _

theorem writePaddingBits_ends (s : State) : (writePaddingBits s).Ends := flushBytes_ends _ _

theorem readBit_ends (s : State) : (readBit s).Ends := by
  unfold readBit originRead
  split
  · split
    · exact (srcRead_ends s).bind fun a _ _ => by cases a <;> trivial
    · split <;> trivial
  · trivial

theorem countNode_ends (n : Nat) (s : State) : (countNode n s).Ends := by
  unfold countNode; split <;> trivial

theorem readSubtree_ends (fuel n : Nat) (s : State) : (readSubtree fuel n s).Ends := by
  induction fuel generalizing n s with
  | zero => trivial
  | succ fuel ih =>
    refine (readBit_ends s).bind fun b t _ => (countNode_ends n t).bind fun m u _ => ?_
    split
    · exact (ih m u).bind fun x v _ => (ih x.2 v).bind fun _ _ _ => trivial
    · trivial

theorem shapeLeaf_ends (s : State) : (shapeLeaf s).Ends := (countNode_ends 0 s).bind fun _ _ _ => trivial

theorem shapeInternal_ends (s : State) : (shapeInternal s).Ends :=
  (countNode_ends 0 s).bind fun m t _ => (readSubtree_ends _ m t).bind fun x u _ =>
    (readSubtree_ends _ x.2 u).bind fun _ _ _ => trivial

theorem readShape_ends (s : State) : (readShape s).Ends := by
  refine (readBit_ends s).bind fun b t _ => ?_
  split
  · exact shapeInternal_ends t
  · exact shapeLeaf_ends t

theorem needTree_ends (s : State) : (needTree s).Ends := by
  unfold needTree; split <;> trivial

theorem requireTree_ends (s : State) : (requireTree s).Ends := by
  unfold requireTree; split
  · exact needTree_ends s
  · trivial

theorem writeShape_ends (t : Tree) (s : State) : (writeShape t s).Ends := by
  induction t generalizing s with
  | leaf w x => exact writeBit_ends false s
  | node w l r ihl ihr => exact (writeBit_ends true s).bind fun _ u _ => (ihl u).bind fun _ v _ => ihr v

theorem assignLeaves_ends (s : State) : (assignLeaves s).Ends := by
  refine (needTree_ends s).bind fun t u _ => ?_
  split <;> trivial

theorem readLen_ends (n k : Nat) (s : State) : (readLen n k s).Ends := by
  induction n generalizing k s with
  | zero => trivial
  | succ n ih => exact Res.Ends.bind ((nextByte_ends s).bind fun _ _ _ => trivial) fun _ t _ => ih (k + 1) t

theorem readPayload_ends (n : Nat) (s : State) : (readPayload n s).Ends := by
  induction n generalizing s with
  | zero => trivial
  | succ n ih => exact (nextByte_ends s).bind fun v t _ => (payAppend_ends v t).bind fun _ u _ => ih u

theorem blockRead_ends (id : BlockId) (s : State) : (blockRead id s).Ends := by
  refine (nextByte_ends s).bind fun v t _ => ?_
  dsimp only; split
  · exact (readLen_ends 8 0 _).bind fun _ u _ => readPayload_ends _ _
  · trivial

theorem padHeader_ends (v : Byte) (s : State) : (padHeader v s).Ends := by
  unfold padHeader; split
  · trivial
  · dsimp only; split <;> trivial

theorem bodyHeader_ends (s : State) : (bodyHeader s).Ends :=
  (requireTree_ends s).bind fun _ u _ => (padHeader_ends _ u).bind fun _ _ _ => trivial

/-! ### Every operation -/

/-- Outside the operations that may stop the model, each answers a next state. -/
theorem exec_next {i : Instr} (hi : i.mayStop = false) (s : State) : ∃ t, exec i s = .next t := by
  cases i with
  | encode => exact ⟨_, exec_encode s⟩
  | decode => exact ⟨_, exec_decode s⟩
  | blkShape => exact ((readShape_ends _).finish _ _).next s
  | blkLeaves => exact ((assignLeaves_ends s).finish _ _).next s
  | sLeaf => exact ((shapeLeaf_ends s).finish _ _).next s
  | sInternal => exact ((shapeInternal_ends s).finish _ _).next s
  | padcnt p => exact (padHeader_ends _ s).next s
  | bsAppendBit r b =>
    refine Res.Ends.next ?_ s
    split <;> trivial
  | bsPadToByte r => exact ⟨_, rfl⟩
  | brReadBit => exact ((readBit_ends s).finish _ _).next s
  | brCountUnflushedBits | brFlushBits | bwCountPaddingBits | tCount => exact ⟨_, rfl⟩
  | bwWriteBit b => exact (writeBit_ends b s).next s
  | bwWritePaddingBits => exact (writePaddingBits_ends s).next s
  | tBuild =>
    refine Res.Ends.next ?_ s
    split <;> trivial
  | tWriteShape => exact Res.Ends.next ((needTree_ends s).bind fun t u _ => writeShape_ends t u) s
  | tReadShape => exact ((readShape_ends s).finish _ _).next s
  | tAssignLeaves => exact (assignLeaves_ends s).next s
  | blkWrite id => exact (emitAll_ends _ s).next s
  | blkRead id => exact (blockRead_ends id s).next s
  | bsPopByte r | bsAppendSlice r x | bwWriteSlice x | tWriteLeaves | tBuildTable | dWalkBit | pLeft | pRight | blkData =>
    cases hi

/-- R143 on a tree with its symbols. -/
theorem exec_tWriteLeaves_next {s : State} {t : Tree} (ht : s.tree = some t) (hc : t.complete = true) :
    ∃ u, exec .tWriteLeaves s = .next u := by
  rw [exec_tWriteLeaves_of_symbols ht (Tree.symbols_of_complete hc)]
  exact (payAppendAll_ends _ s).next s

/-- R146 on a tree with its symbols: a table, or ERR_CAPACITY. -/
theorem exec_tBuildTable_next {s : State} {t : Tree} (ht : s.tree = some t) (hc : t.complete = true) :
    ∃ u, exec .tBuildTable s = .next u := by
  obtain ⟨hfits, hdeep⟩ := buildTableResult s t ht hc
  by_cases hd : t.depth ≤ 64
  · obtain ⟨cw, last, hx, -⟩ := hfits hd
    exact ⟨_, hx⟩
  · obtain ⟨u, hx, -⟩ := hdeep (Nat.lt_of_not_le hd)
    exact ⟨u, hx⟩

/-- R178: a codeword that is there. -/
theorem exec_bwWriteSlice_next {s : State} {c : Byte} (h : (s.cwAt c).isSome = true) :
    ∃ u, exec (.bwWriteSlice (.cw c)) s = .next u := by
  obtain ⟨x, hx⟩ := Option.isSome_iff_exists.1 h
  rw [exec_bwWriteSlice_reads (.inr (.inr ⟨c, rfl, hx⟩))]
  exact (writeSlice_ends x s).next s

/-- R199 to R202: a move of the walk from a node of a tree with its symbols. -/
theorem walkTo_ends {s : State} {t n : Tree} (hv : s.treeValid = true) (ht : s.tree = some t) (hc : t.complete = true)
    (hn : t.nodeAt s.cur = some n) (b : Bool) : (walkTo b s).Ends := by
  cases n with
  | leaf w x => rw [walkTo_mismatch hv ht hn]; trivial
  | node w l r =>
    cases hx : if b then r else l with
    | node u l' r' => rw [walkTo_node hv ht hn hx]; trivial
    | leaf u x =>
      have hleaf := Tree.nodeAt_append_bit hn b
      rw [hx] at hleaf
      obtain ⟨v, rfl⟩ := Option.isSome_iff_exists.1 (Tree.complete_nodeAt hc hleaf)
      simp only [walkTo, requireTree_some hv ht, Res.bind_ok, hn, hx, needSymbol]
      exact (emit_ends v s).bind fun _ _ _ => trivial

/-- R199: a step of the walk with a bit left. -/
theorem walkBit_ends {s : State} (ht : s.treeReady) (hc : s.cursorReady) (hr : s.remaining ≠ 0) : (walkBit s).Ends := by
  obtain ⟨hv, t, ht, hcomplete⟩ := ht
  obtain ⟨t', n, ht', hn, -⟩ := hc
  cases ht.symm.trans ht'
  rw [walkBit, requireTree_some hv ht, Res.bind_ok, if_neg hr]
  refine (readBit_ends s).bind fun b u hu => Res.Ends.bind ?_ fun _ _ _ => trivial
  have hsat := readBit_sat s
  rw [hu] at hsat
  obtain ⟨⟨hframe, -⟩, -⟩ := hsat
  exact walkTo_ends (n := n) (by rw [hframe]; exact hv) (by rw [hframe]; exact ht) hcomplete (by rw [hframe]; exact hn) b

/-! ### The places of a call -/

theorem prepare_tree (s : State) : (prepare s).tree = s.tree := by
  obtain ⟨p, b, h⟩ := prepare_eq s; rw [h]

theorem prepare_eq_self {s : State} (h : s.phase ≠ .eShape ∧ s.phase ≠ .eLeaves) : prepare s = s := by
  obtain ⟨hshape, hleaves⟩ := h
  cases hp : s.phase <;> simp only [prepare, hp]
  case eShape => exact absurd hp hshape
  case eLeaves => exact absurd hp hleaves

/-- At a place of a call the operation issued there answers a next state. -/
theorem exec_nextOp {s : State} (h : s.phaseReady) {i : Instr} (hi : nextOp s = some i) :
    ∃ t, exec i (prepare s) = .next t := by
  cases hp : s.phase <;> simp only [State.phaseReady, hp] at h <;>
    simp only [nextOp, hp, Option.some.injEq, reduceCtorEq] at hi
  case eCount | eBuild | dBlk0 | dShape | dBlk1 | dLeaves | dBlk2 => subst hi; exact exec_next rfl _
  case eShape =>
    subst hi
    refine exec_next ?_ _
    split
    · rfl
    · split <;> rfl
  case eLeaves =>
    obtain ⟨-, -, ht⟩ := h
    subst hi
    split
    · exact exec_tWriteLeaves_next ((prepare_tree s).trans ht) (complete_treeOf _ _)
    · exact exec_next rfl _
  case eTable =>
    obtain ⟨-, -, ht⟩ := h
    subst hi
    exact exec_tBuildTable_next ((prepare_tree s).trans ht) (complete_treeOf _ _)
  case eData =>
    obtain ⟨-, -, -, hcw, -⟩ := h
    rw [prepare_eq_self (by rw [hp]; decide)]
    split at hi
    · cases hi
    · split at hi
      · split at hi
        · cases hi; exact exec_bwWriteSlice_next (hcw _ (List.mem_of_getElem? ‹_›))
        · cases hi; exact exec_next rfl _
      · cases hi
        refine exec_next ?_ _
        split <;> rfl
  case dBody =>
    obtain ⟨-, htree, -, hstart⟩ := h
    rw [prepare_eq_self (by rw [hp]; decide)]
    split at hi
    · cases hi
    · obtain ⟨hcur, -⟩ := hstart.resolve_left ‹_›
      split at hi
      · cases hi
      · cases hi; exact (walkBit_ends htree hcur ‹_›).next s

/-- R171: a turn of the input loop stops only at a byte beyond MAX_INPUT. -/
theorem readInput_ends (s : State) :
    (readInput s).Ends ∨ (readInput s = .fault .inputTooLong ∧ maxInput ≤ s.inbuf.length) := by
  have hsat := srcRead_sat s
  have hends := srcRead_ends s
  rw [readInput]
  cases hr : srcRead s with
  | ok a t =>
    rw [hr, Res.sat_ok, SourceStep] at hsat
    have hin : t.inbuf = s.inbuf := by rw [hsat]
    cases a with
    | eos | ioFail => exact .inl trivial
    | byte v =>
      rw [Res.bind_ok]
      by_cases hmax : maxInput ≤ t.inbuf.length
      · exact .inr ⟨if_pos hmax, hin ▸ hmax⟩
      · left
        simp only [if_neg hmax]
        split <;> trivial
  | raise _ _ | wait _ => exact .inl trivial
  | fault _ | refuse _ => rw [hr] at hends; exact hends.elim

/-- The places that issue no operation of the table stop only in E_READ. -/
theorem ownAction_ends (s : State) :
    (ownAction s).Ends ∨ (ownAction s = .fault .inputTooLong ∧ s.phase = .eRead ∧ maxInput ≤ s.inbuf.length) := by
  cases hp : s.phase <;> simp only [ownAction, hp]
  case eRead => exact (readInput_ends s).imp_right fun h => ⟨h.1, trivial, h.2⟩
  case eData => exact .inl ((payAppend_ends 0 _).bind fun _ _ _ => trivial)
  case dBody =>
    left
    split
    · exact (bodyHeader_ends s).bind fun _ _ _ => trivial
    · trivial
  case dTail => exact .inl ((srcRead_ends s).bind fun a _ _ => by cases a <;> trivial)
  all_goals exact .inl trivial

/-! ### A step -/

/-- What a step of a call answers, apart from a fault for input that is too long. -/
def NextOrTooLong (s : State) (o : Outcome) : Prop :=
  (∃ t, o = .next t) ∨ (o = .fault .inputTooLong ∧ s.phase = .eRead ∧ maxInput ≤ s.inbuf.length)

theorem NextOrTooLong.mapNext {s : State} {o : Outcome} (h : NextOrTooLong s o) (f : State → State) :
    NextOrTooLong s (mapNext f o) := by
  rcases h with ⟨t, rfl⟩ | ⟨rfl, h⟩
  · exact .inl ⟨_, rfl⟩
  · exact .inr ⟨rfl, h⟩

theorem sequencerStep_nextOrTooLong {s : State} (h : s.busy = true → s.takeUp.phaseReady) :
    NextOrTooLong s (sequencerStep s) := by
  by_cases hb : s.st = .busy
  · have hready := h ((State.busy_iff s).2 hb)
    cases hn : nextOp s.takeUp with
    | none =>
      rw [sequencerStep_of_own hb hn]
      refine NextOrTooLong.mapNext ?_ _
      rcases ownAction_ends s.takeUp with h | ⟨h, hp, hlen⟩
      · exact .inl (h.next _)
      · rw [State.takeUp_phase] at hp
        rw [State.takeUp_inbuf] at hlen
        exact .inr ⟨by rw [h, settle_fault], hp, hlen⟩
    | some i =>
      rw [sequencerStep_of_nextOp hb hn]
      exact NextOrTooLong.mapNext (.mapNext (.inl (exec_nextOp hready hn)) _) _
  · exact .inl ⟨s, by simp [sequencerStep, hb]⟩

/-- R13: what the block does by itself, whatever events are still to come. -/
theorem goOn_nextOrTooLong {s : State} (h : s.CallInv) (hs : List HostEvent) :
    NextOrTooLong s (goOn { s with host := hs }) := by
  obtain ⟨-, hj, hready⟩ := h
  rw [goOn_of_noJob (s := { s with host := hs }) hj]
  refine sequencerStep_nextOrTooLong (s := { s with host := hs }) fun hb => ?_
  have htake : State.takeUp { s with host := hs } = { s.takeUp with host := hs } := by
    rcases Option.eq_none_or_eq_some s.held with hd | ⟨d, hd⟩
    · rw [State.takeUp_of_none hd]; exact State.takeUp_of_none (s := { s with host := hs }) hd
    · rw [State.takeUp_of_some hd]; exact State.takeUp_of_some (s := { s with host := hs }) hd
  rw [htake]
  exact hready hb

end Machine
end Sys2Proof

/-! ### The settled statement -/

open Sys2Proof Sys2Proof.Machine

/-- Settles O54: the host's commands and its other events always have a next state, and at each place of a call the
invariant gives the operation what it needs. -/
theorem callsNeverStop : Obligations.CallsNeverStop := by
  intro s h hlegal
  show NextOrTooLong s (step s)
  have hself := goOn_nextOrTooLong h s.host
  rw [step, stepOnce]
  cases hh : s.host with
  | nil => exact hself
  | cons e rest =>
    cases e with
    | request f =>
      have hcmd : isCmdFrame f = true := by
        simp only [State.hostLegal, hh, List.all_cons, Bool.and_eq_true] at hlegal
        exact hlegal.1
      unfold isCmdFrame at hcmd
      split at hcmd
      · rename_i i r hd
        have hmay : i.mayStop = false := by rcases isCommand_iff.1 hcmd with rfl | rfl <;> rfl
        show NextOrTooLong s (request s f rest)
        rw [request_command hd hcmd]
        exact .inl (exec_next hmay _)
      · cases hcmd
    | bind a b => exact .inl ⟨_, rfl⟩
    | reset => exact .inl ⟨_, rfl⟩
    | tick => exact goOn_nextOrTooLong h rest
    | await =>
      dsimp only; split
      · exact hself
      · exact .inl ⟨_, rfl⟩
end

section
/-! PROOFS. A DECODE call over a source that answers a well-formed container and a sink that answers OK, without finite
capacities (`46_decode.md` R185 to R208): a lemma per place says how a run from there comes to the next, up to the end
probe. -/

namespace Sys2Proof

/-! ### Trees and walks without weights -/

theorem Tree.nodeAt_dropWeights (t : Tree) (p : List Bool) :
    t.dropWeights.nodeAt p = (t.nodeAt p).map Tree.dropWeights := by
  induction p generalizing t with
  | nil => rw [Tree.nodeAt_nil, Tree.nodeAt_nil]; rfl
  | cons b p ih =>
    cases t with
    | leaf w x => rw [Tree.dropWeights, Tree.nodeAt_below_leaf, Tree.nodeAt_below_leaf]; rfl
    | node w l r =>
      cases b with
      | false => exact ih l
      | true => exact ih r

@[simp] theorem Tree.isNode_dropWeights (t : Tree) : t.dropWeights.isNode = t.isNode := by cases t <;> rfl

@[simp] theorem Tree.complete_dropWeights (t : Tree) : t.dropWeights.complete = t.complete := by
  rw [Bool.eq_iff_iff, Tree.complete_iff, Tree.complete_iff, Tree.symbols_dropWeights]

/-- R199: the walk goes by children and symbols alone. -/
theorem walkOutput_dropWeights (t : Tree) (cur bits : List Bool) :
    walkOutput t.dropWeights cur bits = walkOutput t cur bits := by
  induction bits generalizing cur with
  | nil => rfl
  | cons b bits ih =>
    rw [walkOutput, walkOutput, Tree.nodeAt_dropWeights]
    match t.nodeAt (cur ++ [b]) with
    | none | some (.leaf _ none) => rfl
    | some (.leaf _ (some v)) => simp only [Option.map_some, Tree.dropWeights, ih]
    | some (.node _ _ _) => simp only [Option.map_some, Tree.dropWeights, ih]

/-- The walk gives at most one symbol per bit. -/
theorem walkOutput_length_le (t : Tree) (cur bits : List Bool) : (walkOutput t cur bits).1.length ≤ bits.length := by
  induction bits generalizing cur with
  | nil => exact Nat.le_refl 0
  | cons b bits ih =>
    rw [walkOutput]
    match t.nodeAt (cur ++ [b]) with
    | none | some (.leaf _ none) => exact Nat.zero_le _
    | some (.leaf _ (some v)) => exact Nat.succ_le_succ (ih [])
    | some (.node _ _ _) => exact (ih _).trans (Nat.le_succ _)

/-! ### Containers -/

/-- R208: the payloads of a container that DECODE accepts, and the tree that they describe. -/
structure Payloads (t : Tree) (shape leaves packed : List Byte) (pad : Byte) : Prop where
  shapeLen  : shape.length < 2 ^ 64
  leavesLen : leaves.length < 2 ^ 64
  dataLen   : (pad :: packed).length < 2 ^ 64
  word      : ∃ rest, unpack shape = t.shapeBits ++ rest
  symbols   : t.symbols = leaves.map some
  padLe     : pad.toNat ≤ 7
  padFits   : pad.toNat ≤ 8 * packed.length
  walkable  : t.isNode = true ∨ 8 * packed.length = pad.toNat

/-- R61: the three blocks. -/
def containerBytes (shape leaves packed : List Byte) (pad : Byte) : List Byte :=
  blockBytes .shape shape ++ blockBytes .leaves leaves ++ blockBytes .data (pad :: packed)

theorem Payloads.complete {t : Tree} {shape leaves packed : List Byte} {pad : Byte}
    (h : Payloads t shape leaves packed pad) : t.complete = true := by
  rw [Tree.complete_iff, h.symbols]
  intro x hx
  obtain ⟨v, -, rfl⟩ := List.mem_map.1 hx
  rfl

/-- R60, R67: the length field of a payload reads back as its length. -/
theorem leNat_le64_lengthWord {n : Nat} (h : n < 2 ^ 64) : leNat (le64 (Machine.lengthWord n)) = n := by
  rw [← unle64_toNat (le64_length _), unle64_le64, Machine.lengthWord, if_pos h, BitVec.toNat_ofNat, Nat.mod_eq_of_lt h]

namespace Machine

theorem State.unbounded.payRoom {s₀ s : State} (h : s₀.unbounded) (hp : s.params = s₀.params) {n : Nat} :
    s.payRoom n := fun c hc => by
  obtain ⟨-, hpay, -⟩ := h
  cases hpay.symm.trans (hp ▸ hc)

theorem State.unbounded.nodeRoom {s₀ s : State} (h : s₀.unbounded) (hp : s.params = s₀.params) {n : Nat} :
    s.nodeRoom n := fun c hc => by
  obtain ⟨-, -, hnode⟩ := h
  cases hnode.symm.trans (hp ▸ hc)

/-- The first step of a run. -/
theorem run_succ {s t : State} {k : Nat} (h : Host.Core.run core (k + 1) s = .next t) :
    ∃ u, step s = .next u ∧ Host.Core.run core k u = .next t := by
  simp only [Host.Core.run] at h
  cases hs : core.step s with
  | next u => rw [hs] at h; exact ⟨u, hs, h⟩
  | _ => rw [hs] at h; cases h

theorem Comes.trans {P Q : State → Prop} {s : State} (h : Comes Q s) (hQ : ∀ t, Q t → Comes P t) : Comes P s := by
  obtain ⟨k, t, hk, ht⟩ := h
  induction k generalizing s with
  | zero => cases hk; exact hQ t ht
  | succ k ih =>
    obtain ⟨u, hu, hk⟩ := run_succ hk
    exact .step hu (ih hk)

/-! ### Places of the call -/

/-- A DECODE call, started in `s₀`, at a place before the end probe: of the container the bytes `todo` are still to be read,
and then the source answers `after`. -/
structure DecodeAt (s₀ : State) (ph : Phase) (n : Nat) (given todo : List Byte) (after : List SrcAns) (u : State) : Prop
    extends CallAt s₀ ph n given u where
  srcEos : u.srcEos = false
  src    : u.src = todo.map .byte ++ after

section
variable {s₀ u v : State} {ph : Phase} {n : Nat} {given todo : List Byte} {after : List SrcAns}

/-- A change of none of the elements that `DecodeAt` names, but for the place. -/
theorem DecodeAt.of_eq (h : DecodeAt s₀ ph n given todo after u) {ph' : Phase} {n' : Nat}
    (hv : v = { v with
      host := u.host, st := u.st, held := u.held, phase := ph', pos := n', params := u.params, out := u.out,
      snk := u.snk, srcEos := u.srcEos, src := u.src }) : DecodeAt s₀ ph' n' given todo after v where
  toCallAt := h.toCallAt.of_eq (by rw [hv])
  srcEos   := by rw [hv]; exact h.srcEos
  src      := by rw [hv]; exact h.src

/-- R185: the one operation of a phase, and the next phase entered. -/
theorem DecodeAt.enters {i : Instr} {ph' : Phase} {todo' : List Byte} (h : DecodeAt s₀ ph n given todo after u)
    (hop : nextOp u = some i) (hprep : prepare u = u) (hx : exec i u = .next v)
    (hv : DecodeAt s₀ ph n given todo' after v) (hadv : ∀ v, v.phase = ph → advance v = v.enter ph') :
    step u = .next (v.enter ph') ∧ DecodeAt s₀ ph' 0 given todo' after (v.enter ph') := by
  obtain ⟨hgo, -⟩ := h.step_of_op hop (hprep.symm ▸ hx) hv.held
  rw [hadv v hv.phase] at hgo
  exact ⟨hgo hv.st, hv.of_eq rfl⟩

/-- R163: a block is read, and the next phase entered. -/
theorem DecodeAt.readBlock {id : BlockId} {payload : List Byte} {ph' : Phase}
    (h : DecodeAt s₀ ph n given (blockBytes id payload ++ todo) after u) (hcap : s₀.unbounded)
    (hlen : payload.length < 2 ^ 64) (hop : nextOp u = some (.blkRead id)) (hprep : prepare u = u)
    (hadv : ∀ v, v.phase = ph → advance v = v.enter ph') :
    ∃ v, step u = .next v ∧ DecodeAt s₀ ph' 0 given todo after v ∧ v.pay = payload ∧ v.tree = u.tree ∧
      v.treeValid = u.treeValid := by
  have hsrc : u.src =
      (id.code :: (le64 (lengthWord payload.length) ++ payload)).map .byte ++ (todo.map .byte ++ after) := by
    rw [h.src, List.map_append, List.append_assoc]; rfl
  obtain ⟨-, hread⟩ := blockReadResult id u h.srcEos
  obtain ⟨hrun, -⟩ := hread _ payload (le64_length _) (leNat_le64_lengthWord hlen)
    (hcap.payRoom (s := u.clearPay) h.params)
  have hv : DecodeAt s₀ ph n given todo after
      { u with src := todo.map .byte ++ after, blkId := id.code, blkLen := unle64 (le64 (lengthWord payload.length)),
               pay := payload } :=
    { toCallAt := h.toCallAt.of_eq (by rw [← h.phase, ← h.pos]), srcEos := h.srcEos, src := rfl }
  obtain ⟨hstep, hat⟩ := h.enters hop hprep (hrun _ hsrc) hv hadv
  exact ⟨_, hstep, hat, rfl, rfl, rfl⟩

/-- R199: a step of the walk moves the call to no other place. -/
theorem DecodeAt.of_walkStep (h : DecodeAt s₀ ph n given todo after u) {t : Tree} {b : Bool} (hv : WalkStep t b u v)
    {g : List Byte} (hout : v.out = u.out ++ g) (hsnk : u.snk = List.replicate g.length .ok ++ v.snk) :
    DecodeAt s₀ ph n (given ++ g) todo after v := by
  have hsink : s₀.snk = List.replicate (given ++ g).length .ok ++ v.snk := by
    rw [h.sink, hsnk, List.length_append, ← List.replicate_append_replicate, List.append_assoc]
  have hlog : v.out = s₀.out ++ (given ++ g) := by rw [hout, h.out, List.append_assoc]
  rw [hv.frame]
  exact {
    host := h.host, st := h.st, held := h.held, phase := h.phase, pos := h.pos, params := h.params, out := hlog
    sink := hsink, srcEos := h.srcEos, src := h.src }

/-- R203: the walk over the bits that mean something, a step per bit, and then D_TAIL. -/
theorem DecodeAt.walk {t : Tree} (bits : List Bool) {ahead : List Bool} {m : Nat}
    (h : DecodeAt s₀ .dBody 1 given [] after u) (hw : Walking t (bits ++ ahead) u) (hc : t.complete = true)
    (hcur : bits = [] ∨ t.Branches u.cur) (hrem : u.remaining = bits.length) (hm : s₀.snk = List.replicate m .ok)
    (hroom : given.length + (walkOutput t u.cur bits).1.length ≤ m) :
    Comes (DecodeAt s₀ .dTail 0 (given ++ (walkOutput t u.cur bits).1) [] after) u := by
  induction bits generalizing u given with
  | nil =>
    have hop : nextOp u = none := by simp [nextOp, h.phase, h.pos, hrem]
    have hown : ownAction u = .ok () (u.enter .dTail) := by simp [ownAction, h.phase, h.pos]
    refine .step (h.step_of_own hop hown) (.here ?_)
    rw [walkOutput, List.append_nil]
    exact h.of_eq rfl
  | cons b bits ih =>
    have hop : nextOp u = some .dWalkBit := by simp [nextOp, h.phase, h.pos, hrem]
    have hprep : prepare u = u := by simp only [prepare, h.phase]
    have hsnk : u.snk = List.replicate (walkOutput t u.cur (b :: bits)).1.length .ok ++
        List.replicate (m - given.length - (walkOutput t u.cur (b :: bits)).1.length) .ok := by
      rw [h.snk_eq hm, List.replicate_append_replicate]; congr 1; omega
    obtain ⟨v, hv, hwv, hstep⟩ := hw.walkBit_run hc (hcur.resolve_left nofun) (by rw [hrem]; exact Nat.succ_pos _) hsnk
    obtain ⟨g, hout, hgiven, hemit⟩ := hstep.given
    have hx : exec .dWalkBit (prepare u) = .next v := by
      rw [hprep]; exact congrArg (settle u) hv
    have hat := h.of_walkStep hstep hout hgiven
    obtain ⟨hgo, -⟩ := h.step_of_op hop hx hat.held
    have hadv : advance v = v := by simp only [advance, hat.phase]
    rw [hadv] at hgo
    rw [hemit] at hroom ⊢
    have hremv : v.remaining = bits.length := by rw [hstep.frame, hrem]; rfl
    have hnext := ih hat hwv (.inr hstep.branches) hremv (by simpa [Nat.add_assoc] using hroom)
    rw [List.append_assoc] at hnext
    exact .step (hgo hat.st) hnext

end

/-! ### From the request to the end probe -/

/-- R11: a request of DECODE outside a call starts one. -/
theorem step_request_decode {s : State} (hh : s.host = [.request (encode .decode)]) (hb : s.st ≠ .busy) :
    step s = .next (State.startCall 1 .dBlk0 { s with host := [] }) := by
  have hd : decode (encode .decode) = .ok (.decode, []) := decodeOfEncode .decode [] rfl
  rw [step_request hh, request_command hd rfl, exec_decode, if_neg (mt (State.busy_iff { s with host := [] }).1 hb)]

/-- What the host and the implementation grant a DECODE call: no finite capacity, and a sink that answers OK `m` times. -/
structure DecodeGrants (s₀ : State) (m : Nat) : Prop where
  idle      : s₀.st ≠ .busy
  request   : s₀.host = [.request (encode .decode)]
  unbounded : s₀.unbounded
  sink      : s₀.snk = List.replicate m .ok

section
variable {s₀ u : State} {t : Tree} {shape leaves packed : List Byte} {pad : Byte} {after : List SrcAns} {m : Nat}
  (hg : DecodeGrants s₀ m) (hp : Payloads t shape leaves packed pad)
include hg hp

/-- R195 to R204: the processing of the DATA block. -/
theorem DecodeAt.dBody (h : DecodeAt s₀ .dBody 0 [] [] after u) (hpay : u.pay = pad :: packed)
    (htree : u.tree = some t.dropWeights) (hvalid : u.treeValid = true)
    (hroom : (walkOutput t [] (meaningfulBits packed pad)).1.length ≤ m) :
    Comes (DecodeAt s₀ .dTail 0 (walkOutput t [] (meaningfulBits packed pad)).1 [] after) u := by
  have hheader := bodyHeader_run hvalid htree hpay hp.padLe hp.padFits
  have hwalk := walking_after_header hvalid htree hpay (8 * packed.length - pad.toNat)
  obtain ⟨q, hq⟩ := exists_padding packed pad
  rw [hq] at hwalk
  have hown : ownAction u = .ok () { u with
      padcnt := pad, remaining := 8 * packed.length - pad.toNat, br := BitReader.fresh (.pay 1), cur := [], pos := 1 } := by
    simp [ownAction, h.phase, h.pos, hheader]
  have hcur : meaningfulBits packed pad = [] ∨ t.dropWeights.Branches [] :=
    meaningfulBits_eq_nil_or_branches (by rw [Tree.isNode_dropWeights]; exact hp.walkable)
  rw [← walkOutput_dropWeights] at hroom ⊢
  refine .step (h.step_of_own (by simp [nextOp, h.phase, h.pos]) hown) (DecodeAt.walk (ahead := q) _
    (h.of_eq (by rw [← h.phase])) ⟨hwalk.valid, hwalk.tree, hwalk.origin, hwalk.bits⟩
    (by rw [Tree.complete_dropWeights]; exact hp.complete) hcur (length_meaningfulBits packed pad).symm hg.sink
    (by simpa using hroom))

/-- R185 to R204: the three blocks are read and processed, and the call stands at the end probe with the walk's symbols
written. -/
theorem decode_comes_to_endProbe (hsrc : s₀.src = (containerBytes shape leaves packed pad).map .byte ++ after)
    (hroom : (walkOutput t [] (meaningfulBits packed pad)).1.length ≤ m) :
    Comes (DecodeAt s₀ .dTail 0 (walkOutput t [] (meaningfulBits packed pad)).1 [] after) s₀ := by
  have hat : DecodeAt s₀ .dBlk0 0 []
      (blockBytes .shape shape ++ (blockBytes .leaves leaves ++ (blockBytes .data (pad :: packed) ++ []))) after
      (State.startCall 1 .dBlk0 { s₀ with host := [] }) :=
    { host := rfl, st := rfl, held := rfl, phase := rfl, pos := rfl, params := rfl, out := (List.append_nil _).symm
      sink := rfl, srcEos := rfl, src := by rw [List.append_nil, ← List.append_assoc]; exact hsrc }
  refine .step (step_request_decode hg.request hg.idle) ?_
  obtain ⟨a, ha, hat, hpay, -⟩ := hat.readBlock (ph' := .dShape) hg.unbounded hp.shapeLen rfl rfl
    (fun v hv => by simp only [advance, hv])
  refine .step ha ?_
  obtain ⟨rest, hword⟩ := hp.word
  obtain ⟨ha', hat⟩ := hat.enters (ph' := .dBlk1) (by simp only [nextOp, hat.phase])
    (by simp only [prepare, hat.phase]) (exec_blkShape_of_word (hg.unbounded.nodeRoom hat.params) (hpay ▸ hword))
    (hat.of_eq (by rw [← hat.phase, ← hat.pos])) (fun v hv => by simp only [advance, hv])
  refine .step ha' ?_
  obtain ⟨b, hb, hat, hpay, htree, -⟩ := hat.readBlock (ph' := .dLeaves) hg.unbounded hp.leavesLen
    (by simp only [nextOp, hat.phase]) (by simp only [prepare, hat.phase]) (fun v hv => by simp only [advance, hv])
  refine .step hb ?_
  have hleaves := exec_blkLeaves_of_symbols (u := t.dropWeights) htree
    (by rw [t.symbols_dropWeights, hpay]; exact hp.symbols) (by rw [t.dropSymbols_dropWeights, t.dropSymbols_skeleton])
  obtain ⟨hb', hat⟩ := hat.enters (ph' := .dBlk2) (by simp only [nextOp, hat.phase])
    (by simp only [prepare, hat.phase]) hleaves
    (hat.of_eq (by rw [← hat.phase, ← hat.pos])) (fun v hv => by simp only [advance, hv])
  refine .step hb' ?_
  obtain ⟨c, hc, hat, hpay, htree, hvalid⟩ := hat.readBlock (ph' := .dBody) hg.unbounded hp.dataLen
    (by simp only [nextOp, hat.phase]) (by simp only [prepare, hat.phase]) (fun v hv => by simp only [advance, hv])
  exact .step hc (hat.dBody hg hp hpay htree hvalid hroom)

end

/-! ### From the end probe on -/

section
variable {s₀ u v : State} {given : List Byte} {after : List SrcAns} (h : DecodeAt s₀ .dTail 0 given [] after u)
include h

theorem DecodeAt.step_endProbe : step u = settle u (endProbe u) := by
  rw [step_of_ownAction h.host h.st h.held (nextOp_dTail h.phase), ownAction_dTail h.phase]

/-- R205, R206: the source has ended, and so does the call. -/
theorem DecodeAt.end_of_eos {r : List SrcAns} (ha : after = .eos :: r) :
    Comes (fun v => v.host = [] ∧ v.st = .done ∧ v.err = .ok ∧ v.out = s₀.out ++ given) u := by
  have hprobe := h.step_endProbe
  rw [endProbe_eos (srcRead_eos h.srcEos (h.src.trans ha)), settle_ok] at hprobe
  have hend : CallAt s₀ .dEnd 0 given (State.enter .dEnd { u with srcEos := true }) := h.toCallAt.of_eq rfl
  exact .step hprobe (.step (hend.step_of_own (u := State.endCall _) rfl rfl) (.here ⟨h.host, rfl, rfl, h.out⟩))

/-- R205: a byte is there, or the source fails. -/
theorem DecodeAt.end_of_raise {e : Err} (he : endProbe u = .raise e v) (hv : v.host = []) :
    Comes (fun w => w.host = [] ∧ w.st = .fault ∧ w.err = e) u := by
  have hprobe := h.step_endProbe
  rw [he, settle_raise] at hprobe
  exact .step hprobe (.here ⟨(State.raise_host e v).trans hv, State.raise_st e v, State.raise_err e v⟩)

end

end Machine
end Sys2Proof

/-! ### The settled statement -/

open Sys2Proof Sys2Proof.Machine

/-- Settles O59: the call comes to the end probe, and ends by what the source answers there. -/
theorem decodeAcceptsContainer : Obligations.DecodeAcceptsContainer := by
  intro s t shape leaves packed pad rest n after hb hh hcap hs hl hd hword hsym h7 hfit hnode hsrc hsnk hn
  have hroom : (walkOutput t [] (meaningfulBits packed pad)).1.length ≤ n := by
    have hle := walkOutput_length_le t [] (meaningfulBits packed pad)
    rw [length_meaningfulBits] at hle
    omega
  have hcomes := decode_comes_to_endProbe ⟨hb, hh, hcap, hsnk⟩ ⟨hs, hl, hd, ⟨rest, hword⟩, hsym, h7, hfit, hnode⟩ hsrc hroom
  refine ⟨fun r ha => ?_, fun v r ha => ?_, fun r ha => ?_⟩
  · exact hcomes.trans fun u hu => hu.end_of_eos ha
  · exact hcomes.trans fun u hu => hu.end_of_raise (endProbe_byte (srcRead_byte hu.srcEos (hu.src.trans ha))) hu.host
  · exact hcomes.trans fun u hu => hu.end_of_raise (endProbe_ioFail (srcRead_ioFail hu.srcEos (hu.src.trans ha))) hu.host
end

section
/-! PROOFS. An ENCODE call whose streams have further answers behind those that it uses: it runs in the same way as long as
it does not wait for an answer (`20_memory.md` R41 to R43), and a call that waits for an answer that never comes does not
end. -/

namespace Sys2Proof

namespace Machine

theorem Phase.Follows.isDecode {p q : Phase} (h : p.Follows q) : q.isDecode = p.isDecode := by
  rcases h with rfl | h
  · rfl
  · cases p <;> cases h <;> rfl

/-! ### Operations with further answers -/

section
variable {α β : Type}

/-- Where the operation ends without an error, it ends so with further answers too, and leaves them. -/
def MoreOk (f : Act α) : Prop :=
  ∀ a b s x t, f s = .ok x t → f (s.moreAnswers a b) = .ok x (t.moreAnswers a b)

theorem Resumable.moreOk {f : Act α} (h : Resumable f) : MoreOk f := fun a b s x t hf => by
  have hgo := h.goesOn a b s
  rw [hf] at hgo
  exact hgo

theorem MoreOk.update (x : α) (g : State → State)
    (hg : ∀ a b s, g (s.moreAnswers a b) = (g s).moreAnswers a b := by intros; rfl) :
    MoreOk fun s => .ok x (g s) := fun a b s y t h => by
  cases h
  exact congrArg (Res.ok x) (hg a b s)

theorem MoreOk.bind {f : Act α} {k : α → Act β} (h : MoreOk f) (hk : ∀ x, MoreOk (k x)) :
    MoreOk fun s => (f s).bind k := fun a b s y u hu => by
  cases hf : f s with
  | ok x t =>
    simp only [hf, Res.bind_ok] at hu
    simp only [h a b s x t hf, Res.bind_ok]
    exact hk x a b t y u hu
  | _ => simp only [hf] at hu; cases hu

theorem MoreOk.raise (e : Err) (g : State → State) : MoreOk fun s => (.raise e (g s) : Res α) :=
  fun _ _ _ _ _ h => nomatch h

theorem MoreOk.fault (x : Fault) : MoreOk fun _ => (.fault x : Res α) := fun _ _ _ _ _ h => nomatch h

/-- An operation that does one thing or another by what the state holds apart from the streams. -/
theorem MoreOk.ite {f g : Act α} (p : State → Prop) [DecidablePred p] (hf : MoreOk f) (hg : MoreOk g)
    (hp : ∀ a b s, p (s.moreAnswers a b) ↔ p s := by intros; exact Iff.rfl) :
    MoreOk fun s => if p s then f s else g s := fun a b s x t h => by
  by_cases hs : p s
  · simp only [if_pos hs] at h
    simp only [if_pos ((hp a b s).2 hs)]
    exact hf a b s x t h
  · simp only [if_neg hs] at h
    simp only [if_neg (mt (hp a b s).1 hs)]
    exact hg a b s x t h

end

theorem srcRead_moreOk : MoreOk srcRead := fun a b s x t h => by
  unfold srcRead at *
  have heos : (s.moreAnswers a b).srcEos = s.srcEos := rfl
  rw [heos]
  split at h
  · next he => rw [if_pos he]; cases h; rfl
  · next he =>
    rw [if_neg he]
    cases hs : s.src with
    | nil => rw [hs] at h; cases h
    | cons v r =>
      have hs' : (s.moreAnswers a b).src = v :: (r ++ a) := by simp [State.moreAnswers, hs]
      rw [hs] at h
      rw [hs']
      cases v <;> cases h <;> rfl

theorem readInput_moreOk : MoreOk readInput :=
  srcRead_moreOk.bind fun x => match x with
    | .eos    => .update () (State.enter .eCount)
    | .ioFail => .raise .io id
    | .byte v =>
      .ite (fun t => maxInput ≤ t.inbuf.length) (.fault .inputTooLong)
        (.ite (fun t => roomFor t.params.inbufCap t.inbuf.length = true)
          (.update () fun t => { t with inbuf := t.inbuf ++ [v] }) (.raise .io id))

theorem beginData_moreOk : MoreOk beginData :=
  (((payAppend_resumable 0).comp State.clearPay).moreOk).bind fun _ =>
    .update () fun t => { t.newWriter .pay with pos := 1, idx := 0 }

theorem writeLeaves_moreOk (t : Tree) : MoreOk (writeLeaves t) := by
  induction t with
  | leaf w x => exact ((needSymbol_resumable x).bind payAppend_resumable).moreOk
  | node w l r ihl ihr => exact ihl.bind fun _ => ihr

theorem table_moreOk (t : Tree) (c : BitSlice) : MoreOk (table t c) := by
  induction t generalizing c with
  | leaf w x =>
    exact (needSymbol_resumable x).moreOk.bind fun v =>
      .update () fun s => { s with cwacc := c, cw := s.cw.set v.toNat (some c) }
  | node w l r ihl ihr =>
    intro a b s x t h
    simp only [table] at h ⊢
    cases h0 : c.appendBit false with
    | none => simp only [h0] at h; cases h
    | some c0 =>
      cases h1 : c.appendBit true with
      | none => simp only [h0, h1] at h; cases h
      | some c1 =>
        simp only [h0, h1] at h ⊢
        exact ((ihl c0).bind fun _ => ihr c1) a b s x t h

/-- The operations that ENCODE issues. -/
theorem nextOp_moreOk {s : State} (hp : s.phase.isDecode = false) {i : Instr} (hi : nextOp s = some i) :
    i.isCommand = false ∧ ∃ f : Act Unit, MoreOk f ∧ ∀ t, exec i t = settle t (f t) := by
  have hpad : ∃ f : Act Unit, MoreOk f ∧ ∀ t, exec .bwWritePaddingBits t = settle t (f t) :=
    ⟨_, writePaddingBits_resumable.moreOk, fun _ => rfl⟩
  have hblk (id : BlockId) : ∃ f : Act Unit, MoreOk f ∧ ∀ t, exec (.blkWrite id) t = settle t (f t) :=
    ⟨_, (blockWrite_resumable id).moreOk, fun _ => rfl⟩
  cases hs : s.phase <;> rw [hs] at hp <;> simp only [nextOp, hs, Option.some.injEq, reduceCtorEq] at hi
  case eCount => subst hi; exact ⟨rfl, _, .update () fun s => { s with freq := countBytes s.inbuf }, fun _ => rfl⟩
  case eBuild =>
    subst hi
    exact ⟨rfl, _, .ite (fun s => roomFor s.params.nodeCap ((buildTree s.params s.freq).size - 1) = true)
      (.update () fun s =>
        { s with wl := finalWL s.params s.freq, tree := some (buildTree s.params s.freq), treeValid := true })
      (.raise .io id), fun _ => rfl⟩
  case eShape =>
    split at hi
    · subst hi; exact ⟨rfl, _, (needTree_resumable.bind writeShape_resumable).moreOk, fun _ => rfl⟩
    · split at hi <;> subst hi
      · exact ⟨rfl, hpad⟩
      · exact ⟨rfl, hblk .shape⟩
  case eLeaves =>
    split at hi <;> subst hi
    · exact ⟨rfl, _, needTree_resumable.moreOk.bind writeLeaves_moreOk, fun _ => rfl⟩
    · exact ⟨rfl, hblk .leaves⟩
  case eTable =>
    subst hi
    exact ⟨rfl, _, needTree_resumable.moreOk.bind fun t => (MoreOk.update () fun s =>
      { s with cw := Vector.replicate 256 none }).bind fun _ => table_moreOk t BitSlice.empty, fun _ => rfl⟩
  case eData =>
    split at hi
    · cases hi
    · split at hi
      · split at hi <;> cases hi
        · exact ⟨rfl, _, ((sliceOperand_resumable _).bind writeSlice_resumable).moreOk, fun _ => rfl⟩
        · exact ⟨rfl, _, .update () fun s => s.setRes (BitVec.ofNat 8 (padlen s.bw.acc.length)), fun _ => rfl⟩
      · cases hi
        split
        · exact ⟨rfl, hpad⟩
        · exact ⟨rfl, hblk .data⟩
  all_goals cases hp

theorem ownAction_moreOk {a : List SrcAns} {b : List SnkAns} {s t : State} (hp : s.phase.isDecode = false)
    (h : ownAction s = .ok () t) : ownAction (s.moreAnswers a b) = .ok () (t.moreAnswers a b) := by
  have hphase : (s.moreAnswers a b).phase = s.phase := rfl
  cases hs : s.phase <;> rw [hs] at hp <;> simp only [ownAction, hphase, hs] at h ⊢
  case eRead => exact readInput_moreOk a b s () t h
  case eData => exact beginData_moreOk a b s () t h
  case eEnd | eCount | eBuild | eShape | eLeaves | eTable => cases h; rfl
  all_goals cases hp

/-! ### Steps with further answers -/

section
variable (a : List SrcAns) (b : List SnkAns) (s : State)

theorem prepare_moreAnswers : prepare (s.moreAnswers a b) = (prepare s).moreAnswers a b := by
  have hphase : (s.moreAnswers a b).phase = s.phase := rfl
  cases hs : s.phase <;> simp only [prepare, hphase, hs, apply_ite (State.moreAnswers a b)] <;> rfl

theorem advance_moreAnswers : advance (s.moreAnswers a b) = (advance s).moreAnswers a b := by
  have hphase : (s.moreAnswers a b).phase = s.phase := rfl
  cases hs : s.phase <;> simp only [advance, hphase, hs, apply_ite (State.moreAnswers a b)] <;> rfl

end

/-- R13: where nothing waits, the step of a call at a place that issues an operation. -/
theorem step_of_nextOp {s : State} (hh : s.host = []) (hb : s.st = .busy) (hd : s.held = none) {i : Instr}
    (hop : nextOp s = some i) : step s = mapNext State.retired (exec i (prepare s)) := by
  have hj : s.noJob := fun x hx => by rw [hd] at hx; cases hx
  have hid : ∀ o, mapNext s.rejoin o = o := fun o => by cases o <;> simp [mapNext, State.rejoin_of_none hd]
  rw [step_no_event hh, goOn_of_noJob hj, sequencerStep_of_nextOp hb (by rw [State.takeUp_of_none hd]; exact hop),
    State.takeUp_of_none hd, hid]

theorem srcRead_host_held (s : State) :
    (srcRead s).Sat (fun _ t => t.host = s.host ∧ t.held = s.held)
      fun e t => t.host = s.host ∧ (e = none → t = s) := by
  unfold srcRead
  split
  · exact ⟨rfl, rfl⟩
  · split
    · exact ⟨rfl, fun _ => rfl⟩
    all_goals exact ⟨rfl, rfl⟩

/-- What an ENCODE place that issues no operation leaves alone; it waits only before it has done anything. -/
theorem ownAction_host_held {s : State} (hp : s.phase.isDecode = false) :
    (ownAction s).Sat (fun _ t => t.host = s.host ∧ t.held = s.held)
      fun e t => t.host = s.host ∧ (e = none → t = s) := by
  cases hs : s.phase <;> rw [hs] at hp <;> simp only [ownAction, hs]
  case eRead =>
    refine Res.Sat.bind (srcRead_host_held s) (fun x t ht => ?_) fun _ _ => id
    obtain ⟨hhost, hheld⟩ := ht
    cases x with
    | eos => exact ⟨hhost, hheld⟩
    | ioFail => exact ⟨hhost, nofun⟩
    | byte v =>
      simp only
      split
      · trivial
      · split
        · exact ⟨hhost, hheld⟩
        · exact ⟨hhost, nofun⟩
  case eData =>
    rw [beginData, payAppend]
    split
    · exact ⟨rfl, rfl⟩
    · exact ⟨rfl, nofun⟩
  case eEnd | eCount | eBuild | eShape | eLeaves | eTable => exact ⟨rfl, rfl⟩
  all_goals cases hp

/-! ### Where a call stays -/

/-- Nothing is left of the machine's work but an ENCODE call at a place of its sequence, if one is in progress. -/
structure Quiet (s : State) : Prop where
  host   : s.host = []
  held   : s.held = none
  encode : s.st = .busy → s.phase.isDecode = false

/-- The machine stays in this state, which is not the end of a call. -/
def Stuck (s : State) : Prop := s.st ≠ .done ∧ step s = .next s

theorem step_of_idle {s : State} (hh : s.host = []) (hd : s.held = none) (hb : s.st ≠ .busy) : step s = .next s := by
  rw [step_no_event hh]
  exact goOn_idle (fun x hx => by rw [hd] at hx; cases hx) hb

theorem run_of_step_self {s : State} (h : step s = .next s) (k : Nat) : Host.Core.run core k s = .next s := by
  induction k with
  | zero => rfl
  | succ k ih => simp only [Host.Core.run, show core.step s = .next s from h, ih]

theorem stuck_of_raise {u : State} {e : Err} (hh : u.host = []) : Stuck (u.raise e) := by
  have hst := State.raise_st e u
  have hidle := step_of_idle ((State.raise_host e u).trans hh) (State.raise_held e u) (by rw [hst]; nofun)
  exact ⟨by rw [hst]; nofun, hidle⟩

/-- An operation that comes to wait does not mark itself as a requested one (`keepJob` does). -/
theorem noJob_of_waiting {i : Instr} {s u : State} {x : Held} (hi : i.isCommand = false) (hd : s.held = none)
    (hx : exec i s = .next u) (hu : u.held = some x) : x.job = none := by
  obtain ⟨f, hf, hrun⟩ := exec_suspends hi hd hx hu
  obtain ⟨t, -, -, rfl⟩ := hf.wait_of_held hd (hrun s ▸ hx) hu
  cases hu
  rfl

theorem State.moreAnswers_nil (s : State) : s.moreAnswers [] [] = s := by simp [State.moreAnswers]

/-- R43: without further answers, the operation taken up again waits in the same state. -/
theorem takeUp_of_waiting {i : Instr} {s u : State} {x : Held} (hd : s.held = none) (hx : exec i s = .next u)
    (hu : u.held = some x) : u.takeUp = { s with out := u.out } ∧ mapNext u.rejoin (exec i u.takeUp) = .next u := by
  obtain ⟨-, -, -, -, -, -, hagain⟩ := waitingKeepsWhatIsDone i s u x hd hx hu
  have h : (u.moreAnswers [] []).takeUp = { s.moreAnswers [] [] with out := u.out } ∧
      mapNext (u.moreAnswers [] []).rejoin (exec i (u.moreAnswers [] []).takeUp) = exec i (s.moreAnswers [] []) :=
    hagain [] []
  rwa [State.moreAnswers_nil, State.moreAnswers_nil, hx] at h

@[simp] theorem prepare_host (s : State) : (prepare s).host = s.host := by
  obtain ⟨p, b, h⟩ := prepare_eq s
  rw [h]

@[simp] theorem prepare_held (s : State) : (prepare s).held = s.held := by
  obtain ⟨p, b, h⟩ := prepare_eq s
  rw [h]

theorem nextOp_prepare (s : State) : nextOp (prepare s) = nextOp s := by
  obtain ⟨p, b, h⟩ := prepare_eq s
  rw [h]
  rfl

theorem prepare_prepare (s : State) (o : List Byte) :
    prepare { prepare s with out := o } = { prepare s with out := o } := by
  cases hs : s.phase <;> by_cases h0 : s.pos = 0 <;>
    simp [prepare, hs, h0, State.clearPay, State.newWriter]

theorem exec_host {i : Instr} {s u : State} (hi : i.isCommand = false) (hx : exec i s = .next u) : u.host = s.host := by
  obtain ⟨-, hhost, -⟩ := operationFrame i s u (by rintro rfl; cases hi) (by rintro rfl; cases hi) hx
  exact hhost

/-- An operation of the sequence that waits for an answer that does not come is taken up again and waits as before. -/
theorem stuck_of_waiting_op {s u : State} (h : Quiet s) (hb : s.st = .busy) {i : Instr} (hop : nextOp s = some i)
    (hi : i.isCommand = false) (hx : exec i (prepare s) = .next u) {x : Held} (hu : u.held = some x) : Stuck u := by
  have hd : (prepare s).held = none := (prepare_held s).trans h.held
  have hhost : u.host = [] := by rw [exec_host hi hx, prepare_host, h.host]
  obtain ⟨-, -, -, hst, -, -, -⟩ := waitingKeepsWhatIsDone i _ u x hd hx hu
  have hbu : u.st = .busy := by rw [hst, prepare_st, hb]
  obtain ⟨htake, hrun⟩ := takeUp_of_waiting hd hx hu
  have hjob : u.noJob := fun y hy => noJob_of_waiting hi hd hx hy
  have hop' : nextOp u.takeUp = some i := by rw [htake]; exact (nextOp_prepare s).trans hop
  refine ⟨by rw [hbu]; nofun, ?_⟩
  rw [step_no_event hhost, goOn_of_noJob hjob, sequencerStep_of_nextOp hbu hop', htake, prepare_prepare]
  rw [htake] at hrun
  cases he : exec i { prepare s with out := u.out } with
  | next w =>
    rw [he] at hrun
    have hw : u.rejoin w = u := Host.Outcome.next.inj hrun
    have hheld : w.held.isSome = true := by rw [← State.rejoin_held u w, hw, hu]; rfl
    simp only [mapNext, State.retired_of_held hheld, hw]
  | _ => rw [he] at hrun; cases hrun

/-- A place that issues no operation, where it waits for an answer that does not come. -/
theorem stuck_of_waiting_read {s : State} (h : Quiet s) (hb : s.st = .busy) (hop : nextOp s = none)
    (hx : ownAction s = .wait s) : Stuck (s.suspend s) := by
  have htake : (s.suspend s).takeUp = s := (Went.refl s).takeUp_suspend h.held rfl
  have hjoin : (s.suspend s).rejoin (s.suspend s) = s.suspend s := by
    rw [State.rejoin_of_some rfl]; simp [State.suspend]
  have hjob : (s.suspend s).noJob := fun x hx => by cases hx; rfl
  refine ⟨by rw [State.suspend_st, hb]; nofun, ?_⟩
  rw [step_no_event (s := s.suspend s) h.host, goOn_of_noJob hjob,
    sequencerStep_of_own (s := s.suspend s) hb (by rw [htake]; exact hop), htake, hx, settle_wait]
  simp only [mapNext, hjoin]

/-! ### A run with further answers -/

theorem advance_host_held (s : State) : (advance s).host = s.host ∧ (advance s).held = s.held := by
  rcases advance_cases s with h | ⟨q, -, h⟩ | ⟨n, k, c, p, h⟩ <;> rw [h] <;> exact ⟨rfl, rfl⟩

theorem eq_next_of_mapNext {f : State → State} {o : Outcome} {t : State} (h : mapNext f o = .next t) :
    ∃ u, o = .next u ∧ f u = t := by
  cases o with
  | next u => exact ⟨u, rfl, Host.Outcome.next.inj h⟩
  | _ => cases h

/-- An operation of an ENCODE call does the same with further answers, unless it ends the call with an error or waits. -/
theorem Quiet.retired_or_stuck {s u : State} (h : Quiet s) (hb : s.st = .busy) {i : Instr} (hop : nextOp s = some i)
    (hx : exec i (prepare s) = .next u) (hencode : u.retired.st = .busy → u.retired.phase.isDecode = false) :
    (Quiet u.retired ∧ ∀ a b, step (s.moreAnswers a b) = .next (u.retired.moreAnswers a b)) ∨ Stuck u.retired := by
  obtain ⟨hi, f, hf, hrun⟩ := nextOp_moreOk (h.encode hb) hop
  have hhost : u.host = [] := by rw [exec_host hi hx, prepare_host, h.host]
  cases hd : u.held with
  | some x =>
    rw [State.retired_of_held (by rw [hd]; rfl)]
    exact .inr (stuck_of_waiting_op h hb hop hi hx hd)
  | none =>
    by_cases hbu : u.st = .busy
    case neg =>
      have hst : u.st = .fault := by
        obtain ⟨-, -, -, -, -, -, -, -, -, hst | hst, -⟩ :=
          operationFrame i _ u (by rintro rfl; cases hi) (by rintro rfl; cases hi) hx
        · rw [prepare_st, hb] at hst; exact absurd hst hbu
        · exact hst
      rw [State.retired_of_not_busy hd hbu]
      exact .inr ⟨by rw [hst]; nofun, step_of_idle hhost hd hbu⟩
    rw [State.retired_of_busy hd hbu] at hencode ⊢
    obtain ⟨hahost, haheld⟩ := advance_host_held u
    refine .inl ⟨⟨hahost.trans hhost, haheld.trans hd, hencode⟩, fun a b => ?_⟩
    rcases settle_eq_next.1 (hrun (prepare s) ▸ hx) with ⟨x, hok⟩ | ⟨e, v, -, rfl⟩ | ⟨v, -, rfl⟩
    · rw [step_of_nextOp (s := s.moreAnswers a b) h.host hb h.held hop, prepare_moreAnswers, hrun, hf a b _ _ _ hok,
        settle_ok, mapNext_next, State.retired_of_busy (t := u.moreAnswers a b) hd hbu, advance_moreAnswers]
    · rw [State.raise_st] at hbu; cases hbu
    · cases hd

/-- A step of an ENCODE call does the same with further answers, unless it ends the call with an error or waits. -/
theorem Quiet.step_or_stuck {s t : State} (h : Quiet s) (hs : step s = .next t) :
    (Quiet t ∧ ∀ a b, step (s.moreAnswers a b) = .next (t.moreAnswers a b)) ∨ Stuck t := by
  by_cases hb : s.st = .busy
  case neg =>
    cases (step_of_idle h.host h.held hb).symm.trans hs
    exact .inl ⟨h, fun a b => step_of_idle (s := s.moreAnswers a b) h.host h.held hb⟩
  have hp := h.encode hb
  have hencode (ht : t.st = .busy) : t.phase.isDecode = false := by
    obtain ⟨-, hphase⟩ := step_out_phase hs
    rw [(hphase hb ht).isDecode, hp]
  cases hop : nextOp s with
  | none =>
    have hsat := ownAction_host_held hp
    rw [step_of_ownAction h.host hb h.held hop] at hs
    rcases settle_eq_next.1 hs with ⟨x, hx⟩ | ⟨e, u, hx, rfl⟩ | ⟨u, hx, rfl⟩ <;> rw [hx] at hsat <;>
      obtain ⟨hhost, hheld⟩ := hsat
    · refine .inl ⟨⟨hhost.trans h.host, hheld.trans h.held, hencode⟩, fun a b => ?_⟩
      rw [step_of_ownAction (s := s.moreAnswers a b) h.host hb h.held hop, ownAction_moreOk hp hx, settle_ok]
    · exact .inr (stuck_of_raise (hhost.trans h.host))
    · cases hheld rfl
      exact .inr (stuck_of_waiting_read h hb hop hx)
  | some i =>
    rw [step_of_nextOp h.host hb h.held hop] at hs
    obtain ⟨u, hx, rfl⟩ := eq_next_of_mapNext hs
    exact h.retired_or_stuck hb hop hx hencode

/-- If an ENCODE call ends DONE, then a run with further answers that has come to the end of the call has come to the same
state. -/
theorem Quiet.run_moreAnswers {s t u : State} {k j : Nat} {a : List SrcAns} {b : List SnkAns} (h : Quiet s)
    (ht : Host.Core.run core k s = .next t) (hdone : t.st = .done)
    (hu : Host.Core.run core j (s.moreAnswers a b) = .next u) (hend : u.st ≠ .busy) : u = t.moreAnswers a b := by
  induction k generalizing s j with
  | zero =>
    obtain rfl : s = t := Host.Outcome.next.inj ht
    have hidle : step (s.moreAnswers a b) = .next (s.moreAnswers a b) :=
      step_of_idle (s := s.moreAnswers a b) h.host h.held (by rw [show (s.moreAnswers a b).st = _ from hdone]; nofun)
    rw [run_of_step_self hidle] at hu
    cases hu
    rfl
  | succ k ih =>
    obtain ⟨v, hv, ht⟩ := run_succ ht
    rcases h.step_or_stuck hv with ⟨hq, hmore⟩ | ⟨hne, hstuck⟩
    · cases j with
      | zero =>
        cases hu
        cases (step_of_idle h.host h.held hend).symm.trans hv
        exact ih h (j := 0) ht rfl
      | succ j =>
        obtain ⟨w, hw, hu⟩ := run_succ hu
        cases (hmore a b).symm.trans hw
        exact ih hq ht hu
    · rw [run_of_step_self hstuck] at ht
      cases ht
      exact absurd hdone hne

/-! ### What an ENCODE call that ended DONE has written -/

/-- D6: a call over more than MAX_INPUT bytes does not come to its end. -/
theorem busy_of_tooLong {s t : State} {k : Nat} {rest : List Byte} (h : Quiet s) (hb : s.st = .busy)
    (hp : s.phase = .eRead) (he : s.srcEos = false) (hc : s.params.inbufCap = none)
    (hsrc : s.src = rest.map .byte ++ [.eos]) (hle : s.inbuf.length ≤ maxInput)
    (hgt : maxInput < s.inbuf.length + rest.length) (ht : Host.Core.run core k s = .next t) : t.st = .busy := by
  induction k generalizing s rest with
  | zero => cases ht; exact hb
  | succ k ih =>
    obtain ⟨u, hu, ht⟩ := run_succ ht
    rw [step_of_ownAction h.host hb h.held (by simp only [nextOp, hp])] at hu
    simp only [ownAction, hp] at hu
    cases rest with
    | nil => exact absurd hgt (Nat.not_lt_of_le hle)
    | cons v rest =>
      have hbyte : s.src = .byte v :: (rest.map .byte ++ [.eos]) := hsrc
      rw [readInput, srcRead_byte he hbyte, Res.bind_ok] at hu
      by_cases hfull : maxInput ≤ s.inbuf.length
      · simp only [if_pos hfull] at hu; cases hu
      · simp only [if_neg hfull, hc, roomFor, if_true, settle_ok] at hu
        cases hu
        rw [List.length_cons] at hgt
        refine ih (s := { s with src := rest.map .byte ++ [.eos], inbuf := s.inbuf ++ [v] }) (rest := rest)
          ⟨h.host, h.held, h.encode⟩ hb hp he hc rfl ?_ ?_ ht
        · simp only [List.length_append, List.length_singleton]; omega
        · simp only [List.length_append, List.length_singleton]; omega

/-- A run from a request of ENCODE goes on from the start of the call. -/
theorem run_of_request {s t : State} {k : Nat} (hb : s.st ≠ .busy) (hh : s.host = [.request (encode .encode)])
    (hrun : Host.Core.run core k s = .next t) (hhost : t.host = []) :
    ∃ j, Host.Core.run core j (State.startCall 0 .eRead { s with host := [] }) = .next t := by
  cases k with
  | zero => cases hrun; cases hh.symm.trans hhost
  | succ k =>
    obtain ⟨u, hu, hrun⟩ := run_succ hrun
    cases (step_request_encode hh hb).symm.trans hu
    exact ⟨k, hrun⟩

theorem quiet_startCall (s : State) : Quiet (State.startCall 0 .eRead { s with host := [] }) := ⟨rfl, rfl, fun _ => rfl⟩

section
variable {s t : State} {input : List Byte} {k : Nat} (hb : s.st ≠ .busy) (hh : s.host = [.request (encode .encode)])
  (hcap : s.unbounded) (hsrc : s.src = input.map .byte ++ [.eos]) (hrun : Host.Core.run core k s = .next t)
  (hhost : t.host = []) (hdone : t.st = .done)
include hb hh hcap hsrc hrun hhost hdone

theorem length_le_of_done : input.length ≤ maxInput := by
  obtain ⟨j, hrun⟩ := run_of_request hb hh hrun hhost
  obtain ⟨hinbuf, -, -⟩ := hcap
  by_contra hlt
  have hlong : maxInput < ([] : List Byte).length + input.length := by simpa using hlt
  have hbusy := busy_of_tooLong (quiet_startCall s) rfl rfl rfl hinbuf hsrc (Nat.zero_le _) hlong hrun
  exact nomatch hdone.symm.trans hbusy

/-- R181, R182: an ENCODE call that ends DONE has written the container of its input. With as many more answers of the sink
as the container has bytes the call would end, and it has come to the same end without them. -/
theorem out_of_done {n : Nat} (hsnk : s.snk = List.replicate n .ok) : t.out = s.out ++ container s.params input := by
  have hlen := length_le_of_done hb hh hcap hsrc hrun hhost hdone
  obtain ⟨k', hrun⟩ := run_of_request hb hh hrun hhost
  generalize hm : (container s.params input).length = m
  obtain ⟨j, v, hv, hvhost, hend⟩ := encodeWritesContainer (s.moreAnswers [] (List.replicate m .ok)) input (n + m) hb hh
    hcap hlen (by rw [← hsrc]; exact List.append_nil _)
    (by rw [← List.replicate_append_replicate, ← hsnk]; rfl) (hm.trans_le (Nat.le_add_left m n))
  obtain ⟨j', hv⟩ := run_of_request (s := s.moreAnswers [] _) hb hh hv hvhost
  have hnotBusy : v.st ≠ .busy := by
    rcases hend with ⟨hst, -⟩ | ⟨hst, -⟩ <;> rw [hst] <;> nofun
  obtain rfl : v = t.moreAnswers [] _ := (quiet_startCall s).run_moreAnswers hrun hdone hv hnotBusy
  rcases hend with ⟨-, -, hlog⟩ | ⟨hst, -⟩
  · exact hlog
  · exact nomatch hdone.symm.trans hst

end

end Machine
end Sys2Proof
end

section
/-! PROOFS. What ENCODE writes is what DECODE reads (`46_decode.md` R207): the parts of the container of an input are
payloads that DECODE accepts, and the walk over the codewords gives the input. -/

namespace Sys2Proof

/-! ### Walks over codewords -/

/-- R199: a path from `cur` down to a leaf gives that leaf's symbol, and the walk goes on from the root. -/
theorem walkOutput_path {t : Tree} {cur q : List Bool} {w : Weight} {v : Byte} (hq : q ≠ [])
    (hn : t.nodeAt (cur ++ q) = some (.leaf w (some v))) (bits : List Bool) :
    walkOutput t cur (q ++ bits) = (v :: (walkOutput t [] bits).1, (walkOutput t [] bits).2) := by
  induction q generalizing cur with
  | nil => exact absurd rfl hq
  | cons b q ih =>
    have hsplit : cur ++ b :: q = (cur ++ [b]) ++ q := by simp
    rw [hsplit, Tree.nodeAt_append] at hn
    obtain ⟨n, hb, hn⟩ := Option.bind_eq_some_iff.1 hn
    cases n with
    | leaf w' x =>
      obtain ⟨rfl, hleaf⟩ := Tree.nodeAt_leaf hn
      rw [← hleaf] at hb
      exact walkOutput_leaf hb bits
    | node w' l r =>
      have hne : q ≠ [] := by
        rintro rfl
        rw [Tree.nodeAt_nil] at hn
        cases hn
      rw [List.cons_append, walkOutput_node hb]
      exact ih hne (by rw [Tree.nodeAt_append, hb]; exact hn)

/-- R146: the codeword of a symbol leads from the root to a leaf of that symbol. -/
theorem Tree.nodeAt_of_codeOf {t : Tree} {c : Byte} {q : List Bool} (h : t.codeOf c = some q) :
    ∃ w, t.nodeAt q = some (.leaf w (some c)) := by
  obtain ⟨⟨x, p⟩, he, hp⟩ := List.mem_filterMap.1 (List.mem_of_getLast? h)
  obtain ⟨rfl, rfl⟩ : x = some c ∧ p = q := by simpa using hp
  exact Tree.nodeAt_of_mem_codes he

/-- R207: the walk over the codewords of a sequence of symbols gives the sequence. -/
theorem walkOutput_codewords {t : Tree} (ht : t.isNode = true) (code : Byte → List Bool) (input : List Byte)
    (hcode : ∀ c ∈ input, t.codeOf c = some (code c)) : walkOutput t [] (input.flatMap code) = (input, []) := by
  induction input with
  | nil => rfl
  | cons c input ih =>
    obtain ⟨w, hw⟩ := Tree.nodeAt_of_codeOf (hcode c List.mem_cons_self)
    have hne : code c ≠ [] := by
      intro h0
      rw [h0, Tree.nodeAt_nil, Option.some.injEq] at hw
      rw [hw] at ht
      cases ht
    rw [List.flatMap_cons, walkOutput_path hne hw, ih fun b hb => hcode b (List.mem_cons_of_mem c hb)]

/-! ### The tree of an input -/

theorem length_observed_le (f : Vector Weight 256) : (observed f).length ≤ 256 := by
  rw [observed_eq, List.length_map]
  exact (List.length_filter_le _ _).trans (by simp)

/-- R122: at most one leaf per byte value. -/
theorem nleaves_buildTree_le (p : Params) (f : Vector Weight 256) : (buildTree p f).nleaves ≤ 256 := by
  match ho : observed f with
  | []          => rw [buildTree_none ho]; exact (by decide : 1 ≤ 256)
  | [c]         => rw [buildTree_one ho]; exact (by decide : 2 ≤ 256)
  | c :: d :: l =>
    rw [Tree.nleaves_eq, (leafList_buildTree p (f := f) (by rw [ho]; simp)).length_eq, List.length_map]
    exact length_observed_le f

/-- R122: where a symbol is observed the tree has children. -/
theorem isNode_buildTree (p : Params) {f : Vector Weight 256} (h : observed f ≠ []) : (buildTree p f).isNode = true := by
  match ho : observed f with
  | []          => exact absurd ho h
  | [c]         => rw [buildTree_one ho]; rfl
  | c :: d :: l =>
    have hlen : 2 ≤ (observed f).length := by rw [ho]; simp
    refine Tree.isNode_of_leaves ?_
    rwa [(leafList_buildTree p hlen).length_eq, List.length_map]

theorem isNode_treeOf (p : Params) {input : List Byte} (hlen : input.length ≤ Machine.maxInput) (hne : input ≠ []) :
    (treeOf p input).isNode = true := by
  obtain ⟨c, hc⟩ := List.exists_mem_of_ne_nil input hne
  exact isNode_buildTree p (List.ne_nil_of_mem (mem_observed_countBytes hlen hc))

/-- R207: the walk over the bits of the input gives the input. -/
theorem walkOutput_codeBits (p : Params) {input : List Byte} (hlen : input.length ≤ Machine.maxInput) :
    walkOutput (treeOf p input) [] (codeBits p input) = (input, []) := by
  by_cases hne : input = []
  · subst hne; rfl
  · refine walkOutput_codewords (isNode_treeOf p hlen hne) (codeword p input) input fun c hc => ?_
    obtain ⟨q, hq⟩ := exists_codeOf_treeOf p hlen hc
    rw [codeword, hq, Option.getD_some]

/-! ### The payloads of the container -/

/-- R68: the padded bits and the padding are whole bytes. -/
theorem length_padPack (q : List Bool) : 8 * (padPack q).length = q.length + padlen q.length := by
  rw [← unpack_length, Machine.unpack_padPack, List.length_append]
  simp [zeros]

theorem toNat_padlen (n : Nat) : (BitVec.ofNat 8 (padlen n)).toNat = padlen n := by
  rw [BitVec.toNat_ofNat, Nat.mod_eq_of_lt ((padlen_lt n).trans_lt (by decide))]

theorem meaningfulBits_padPack (q : List Bool) :
    meaningfulBits (padPack q) (BitVec.ofNat 8 (padlen q.length)) = q := by
  rw [meaningfulBits, toNat_padlen, length_padPack, Nat.add_sub_cancel, Machine.unpack_padPack, List.take_left]

/-- R208: the container of an input is one that DECODE accepts. -/
theorem payloads_container (p : Params) {input : List Byte} (hlen : input.length ≤ Machine.maxInput)
    (hdata : (dataPayload (codeBits p input)).length < 2 ^ 64) :
    Payloads (treeOf p input) (padPack (treeOf p input).shapeBits) (leafBytes p input) (padPack (codeBits p input))
      (BitVec.ofNat 8 (padlen (codeBits p input).length)) := by
  have hleaves : (treeOf p input).nleaves ≤ 256 := nleaves_buildTree_le p (countBytes input)
  have hsize := (treeOf p input).size_succ
  rw [← Tree.nleaves_eq] at hsize
  have hshape := length_padPack (treeOf p input).shapeBits
  rw [Tree.shapeBits_length] at hshape
  have hpad := padlen_lt (treeOf p input).size
  exact {
    shapeLen  := by omega
    leavesLen := by rw [leafBytes, List.length_map, Tree.symbols_length]; omega
    dataLen   := hdata
    word      := ⟨_, Machine.unpack_padPack _⟩
    symbols   := Tree.symbols_of_complete (complete_treeOf p input)
    padLe     := by rw [toNat_padlen]; exact padlen_lt _
    padFits   := by rw [toNat_padlen, length_padPack]; exact Nat.le_add_left _ _
    walkable  := by
      by_cases hne : input = []
      · subst hne; exact .inr (by rw [length_padPack, toNat_padlen]; exact Nat.zero_add _)
      · exact .inl (isNode_treeOf p hlen hne) }

theorem container_eq_containerBytes (p : Params) (input : List Byte) :
    container p input = containerBytes (padPack (treeOf p input).shapeBits) (leafBytes p input) (padPack (codeBits p input))
      (BitVec.ofNat 8 (padlen (codeBits p input).length)) := rfl

end Sys2Proof

/-! ### The settled statement -/

open Sys2Proof Sys2Proof.Machine

/-- Settles O60: an ENCODE call that ended DONE has written the container of its input, whose payloads DECODE accepts, and
whose bits lead the walk through the symbols of the input. -/
theorem roundTrip : Obligations.RoundTrip := by
  intro s t d input written k n m hb hh hcap hsrc hsnk hdata hrun hhost hdone hout hdb hdh hdcap hdsrc hdsnk hm
  have hlen := length_le_of_done hb hh hcap hsrc hrun hhost hdone
  obtain rfl : written = container s.params input :=
    List.append_cancel_left (hout.symm.trans (out_of_done hb hh hcap hsrc hrun hhost hdone hsnk))
  have hwalk : (walkOutput (treeOf s.params input) [] (meaningfulBits (padPack (codeBits s.params input))
      (BitVec.ofNat 8 (padlen (codeBits s.params input).length)))).1 = input := by
    rw [meaningfulBits_padPack, walkOutput_codeBits s.params hlen]
  rw [container_eq_containerBytes] at hdsrc
  have hcomes := decode_comes_to_endProbe ⟨hdb, hdh, hdcap, hdsnk⟩ (payloads_container s.params hlen hdata) hdsrc
    (by rw [hwalk]; exact hm)
  rw [hwalk] at hcomes
  exact hcomes.trans fun u hu => hu.end_of_eos rfl
end

section
/-! PROOFS. Errors (`60_exceptions.md` R219 to R223): how FAULT is left, which errors a step of each command can raise, and
what raising one does. -/

namespace Sys2Proof.Machine

/-! ### Leaving FAULT -/

/-- R223: a unit operation run in FAULT ends in FAULT. -/
theorem exec_st_fault {i : Instr} {s t : State} (hi : i.isCommand = false) (hs : s.st = .fault)
    (h : exec i s = .next t) : t.st = .fault := by
  obtain ⟨u, hu, -, ⟨e, rfl⟩ | rfl | rfl⟩ := exec_eq_next hi h
  · exact State.raise_st e u
  · exact hu.st.trans hs
  · exact hu.st.trans hs

theorem runJob_st_fault {i : Instr} {s t : State} (hi : i.isCommand = false) (hs : s.st = .fault)
    (h : runJob i s = .next t) : t.st = .fault := by
  obtain ⟨u, hu, rfl⟩ := mapNext_eq_next.1 h
  rw [State.rejoin_st, State.keepJob_st]
  exact exec_st_fault hi ((State.takeUp_st s).trans hs) hu

/-- R11: a requested operation that waits is no command. -/
theorem State.Inv.isCommand_job {s : State} (h : s.Inv) {i : Instr} (hj : s.held.bind Held.job = some i) :
    i.isCommand = false := by
  obtain ⟨d, hd, hdj⟩ := Option.bind_eq_some_iff.1 hj
  obtain ⟨-, -, -, -, -, -, hheld⟩ := h
  have hwf := hheld d hd
  simp only [Held.wf, hdj, Option.all_some, Bool.and_eq_true, Bool.not_eq_true'] at hwf
  obtain ⟨-, -, hi⟩ := hwf
  exact hi

/-- R223: in FAULT only a requested operation that waits is gone on with; the sequencer does nothing outside a call. -/
theorem goOn_st_fault {s t : State} (hinv : s.Inv) (hs : s.st = .fault) (h : goOn s = .next t) : t.st = .fault := by
  unfold goOn at h
  split at h
  · rename_i i hj
    exact runJob_st_fault (hinv.isCommand_job hj) hs h
  · have hb : s.busy = false := (State.busy_eq_false s).2 (by rw [hs]; nofun)
    rw [sequencerStep, hb] at h
    cases h
    exact hs

/-! ### The errors of an operation -/

/-- R219: an error that ENCODE can raise. -/
def Err.ofEncode (e : Err) : Prop := e = .io ∨ e = .capacity

/-- R219: an error that DECODE can raise. -/
def Err.ofDecode (e : Err) : Prop :=
  e = .truncated ∨ e = .blockId ∨ e = .treeMismatch ∨ e = .leafCount ∨ e = .io ∨ e = .badPadding

/-- R219: the errors of the command that a phase belongs to. -/
def Phase.raises (p : Phase) : Err → Prop := bif p.isDecode then Err.ofDecode else Err.ofEncode

/-- The operation brings the block into FAULT only by raising one of the errors `E`. -/
def Res.FaultsBy {α : Type} (E : Err → Prop) (r : Res α) : Prop :=
  r.Sat (fun _ u => u.st ≠ .fault) fun e u => u.st ≠ .fault ∧ ∀ x, e = some x → E x

/-- A next state in FAULT has one of the errors `E`. -/
def FaultsBy (E : Err → Prop) (o : Outcome) : Prop := ∀ t, o = .next t → t.st = .fault → E t.err

section
variable {α β : Type} {E : Err → Prop}

theorem Res.FaultsBy.settle {r : Res α} (h : r.FaultsBy E) (s : State) : Machine.FaultsBy E (settle s r) := by
  intro t ht hf
  rcases Res.Sat.next h ht with ⟨_, hne⟩ | ⟨e, u, ⟨-, he⟩, rfl⟩ | ⟨u, ⟨hne, -⟩, rfl⟩
  · exact absurd hf hne
  · rw [State.raise_err]; exact he e rfl
  · exact absurd hf hne

theorem FaultsBy.of_next {t : State} (h : t.st ≠ .fault) : FaultsBy E (.next t) := by
  intro u hu hf
  cases hu
  exact absurd hf h

theorem FaultsBy.mapNext {o : Outcome} {f : State → State} (h : FaultsBy E o) (hst : ∀ u, (f u).st = u.st)
    (herr : ∀ u, (f u).err = u.err) : FaultsBy E (mapNext f o) := by
  intro t ht hf
  obtain ⟨u, hu, rfl⟩ := mapNext_eq_next.1 ht
  rw [herr]
  exact h u hu ((hst u).symm.trans hf)

theorem Res.FaultsBy.bind {r : Res α} {k : α → State → Res β} (h : r.FaultsBy E)
    (hk : ∀ a u, u.st ≠ .fault → (k a u).FaultsBy E) : (r.bind k).FaultsBy E :=
  Res.Sat.bind h hk fun _ _ => id

theorem Res.FaultsBy.raise {e : Err} {s : State} (hs : s.st ≠ .fault) (he : E e) : (Res.raise e s : Res α).FaultsBy E :=
  ⟨hs, fun _ hx => Option.some.inj hx ▸ he⟩

/-- A unit step leaves STATE alone: what remains to be known of an operation is the errors it raises. -/
theorem Res.Keeps.faultsBy {r : Res α} {s : State} {P : α → State → Prop} {Q : Option Err → State → Prop} (hk : r.Keeps s)
    (hs : s.st ≠ .fault) (h : r.Sat P Q) (hE : ∀ x u, Q (some x) u → E x) : r.FaultsBy E := by
  have hst : ∀ u, UnitStep s u → u.st ≠ .fault := fun u hu => hu.st ▸ hs
  cases r with
  | ok a u => exact hst u hk
  | raise e u => exact .raise (hst u hk) (hE e u h)
  | wait u => exact ⟨hst u hk, nofun⟩
  | fault _ | refuse _ => trivial

end

section
variable {s : State} (hs : s.st ≠ .fault)
include hs

theorem srcRead_faultsBy (E : Err → Prop) : (srcRead s).FaultsBy E :=
  (srcRead_keeps s).faultsBy hs (srcRead_sat s) fun _ _ h => nomatch h.2

/-! ### The operations of ENCODE -/

/-- R171, R168: the source fails, or INBUF is full. -/
theorem readInput_faultsBy : (readInput s).FaultsBy Err.ofEncode := by
  refine (srcRead_faultsBy hs _).bind fun a u hu => ?_
  cases a with
  | eos => exact hu
  | ioFail => exact .raise hu (.inl rfl)
  | byte v =>
    dsimp only; split
    · trivial
    · split
      · exact hu
      · exact .raise hu (.inl rfl)

theorem beginData_faultsBy : (beginData s).FaultsBy Err.ofEncode := by
  refine Res.FaultsBy.bind (r := payAppend 0 s.clearPay) ?_ fun _ _ hu => hu
  exact (payAppend_keeps 0 _).faultsBy hs (payAppend_sat 0 _) (by grind [Err.ofEncode])

theorem exec_tBuild_faultsBy : FaultsBy Err.ofEncode (exec .tBuild s) := by
  refine Res.FaultsBy.settle ?_ s
  split
  · exact hs
  · exact .raise hs (.inl rfl)

theorem exec_tWriteShape_faultsBy {w : Tree} (hw : s.tree = some w) : FaultsBy Err.ofEncode (exec .tWriteShape s) := by
  simp only [exec, execTWriteShape, needTree_some hw, Res.bind_ok]
  exact ((writeShape_keeps w s).faultsBy hs (writeShape_sat w s) (by grind [Err.ofEncode])).settle s

theorem exec_tWriteLeaves_faultsBy {w : Tree} (hw : s.tree = some w) : FaultsBy Err.ofEncode (exec .tWriteLeaves s) := by
  simp only [exec, execTWriteLeaves, needTree_some hw, Res.bind_ok]
  exact ((writeLeaves_keeps w s).faultsBy hs (writeLeaves_sat w s) (by grind [Err.ofEncode])).settle s

theorem exec_tBuildTable_faultsBy {w : Tree} (hw : s.tree = some w) : FaultsBy Err.ofEncode (exec .tBuildTable s) := by
  rw [exec_tBuildTable_of_tree hw]
  refine Res.FaultsBy.settle ?_ s
  exact (table_keeps w _ _).faultsBy (by exact hs) (table_sat w [] (Nat.zero_le _) _) (by grind [Err.ofEncode])

theorem exec_bwWriteSlice_faultsBy (x : SliceSrc) : FaultsBy Err.ofEncode (exec (.bwWriteSlice x) s) := by
  refine Res.FaultsBy.settle (Res.FaultsBy.bind ?_ fun y u hu => ?_) s
  · cases x with
    | reg r => exact hs
    | imm y => exact hs
    | cw c =>
      simp only [sliceOperand]; split
      · exact hs
      · trivial
  · exact (writeSlice_keeps y u).faultsBy hu (writeSlice_sat y u) (by grind [Err.ofEncode])

theorem exec_bwWritePaddingBits_faultsBy : FaultsBy Err.ofEncode (exec .bwWritePaddingBits s) :=
  ((writePaddingBits_keeps s).faultsBy hs (writePaddingBits_sat s) (by grind [Err.ofEncode])).settle s

theorem exec_blkWrite_faultsBy (id : BlockId) : FaultsBy Err.ofEncode (exec (.blkWrite id) s) :=
  ((emitAll_keeps _ s).faultsBy hs (emitAll_sat _ s) (by grind [Err.ofEncode])).settle s

/-! ### The operations of DECODE -/

/-- R205: a byte after the container, or a source that fails. -/
theorem endProbe_faultsBy : (endProbe s).FaultsBy Err.ofDecode := by
  refine (srcRead_faultsBy hs _).bind fun a u hu => ?_
  cases a with
  | eos => exact hu
  | ioFail => exact .raise hu (by simp [Err.ofDecode])
  | byte v => exact .raise hu (by simp [Err.ofDecode])

theorem bodyHeader_faultsBy (ht : s.treeReady) : (bodyHeader s).FaultsBy Err.ofDecode := by
  obtain ⟨hv, w, hw, -⟩ := ht
  exact (bodyHeader_keeps s).faultsBy hs (bodyHeader_sat s) (by grind [Err.ofDecode])

theorem exec_blkRead_faultsBy (id : BlockId) : FaultsBy Err.ofDecode (exec (.blkRead id) s) :=
  ((blockRead_keeps id s).faultsBy hs (blockRead_sat id s) (by grind [Err.ofDecode])).settle s

theorem exec_blkShape_faultsBy : FaultsBy Err.ofDecode (exec .blkShape s) := by
  refine Res.FaultsBy.settle (Res.FaultsBy.bind ?_ fun _ _ hu => ?_) s
  · exact (readShape_keeps _).faultsBy hs (readShape_sat _) (by grind [Err.ofDecode, ReadErr])
  · exact hu

theorem exec_blkLeaves_faultsBy (ht : s.tree.isSome = true) : FaultsBy Err.ofDecode (exec .blkLeaves s) := by
  refine Res.FaultsBy.settle (Res.FaultsBy.bind ?_ fun _ _ hu => ?_) s
  · exact (assignLeaves_keeps s).faultsBy hs (assignLeaves_sat s) (by grind [Err.ofDecode])
  · exact hu

theorem exec_dWalkBit_faultsBy (ht : s.treeReady) : FaultsBy Err.ofDecode (exec .dWalkBit s) := by
  obtain ⟨hv, w, hw, -⟩ := ht
  exact ((walkBit_keeps s).faultsBy hs (walkBit_sat s) (by grind [Err.ofDecode])).settle s

end

/-! ### The places of a call

`State.phaseReady` shuts out ERR_NO_TREE (R218): at each place whose operation needs a tree, it is there. -/

/-- R219: at a place of a call, the operation issued there. -/
theorem exec_nextOp_faultsBy {s : State} (hs : s.st ≠ .fault) (h : s.phaseReady) {i : Instr} (hi : nextOp s = some i) :
    FaultsBy s.phase.raises (exec i (prepare s)) := by
  have hst : (prepare s).st ≠ .fault := by rw [prepare_st]; exact hs
  have htree := prepare_tree s
  cases hp : s.phase <;> simp only [State.phaseReady, hp] at h <;>
    simp only [nextOp, hp, Option.some.injEq, reduceCtorEq] at hi
  case eCount => subst hi; exact .of_next hst
  case eBuild => subst hi; exact exec_tBuild_faultsBy hst
  case eShape =>
    obtain ⟨-, -, ht, -⟩ := h
    subst hi
    split
    · exact exec_tWriteShape_faultsBy hst (htree.trans ht)
    · split
      · exact exec_bwWritePaddingBits_faultsBy hst
      · exact exec_blkWrite_faultsBy hst _
  case eLeaves =>
    obtain ⟨-, -, ht⟩ := h
    subst hi
    split
    · exact exec_tWriteLeaves_faultsBy hst (htree.trans ht)
    · exact exec_blkWrite_faultsBy hst _
  case eTable =>
    obtain ⟨-, -, ht⟩ := h
    subst hi
    exact exec_tBuildTable_faultsBy hst (htree.trans ht)
  case eData =>
    split at hi
    · cases hi
    · split at hi
      · split at hi <;> cases hi
        · exact exec_bwWriteSlice_faultsBy hst _
        · exact .of_next hst
      · cases hi
        split
        · exact exec_bwWritePaddingBits_faultsBy hst
        · exact exec_blkWrite_faultsBy hst _
  case dBlk0 | dBlk1 | dBlk2 => subst hi; exact exec_blkRead_faultsBy hst _
  case dShape => subst hi; exact exec_blkShape_faultsBy hst
  case dLeaves =>
    obtain ⟨-, ht⟩ := h
    subst hi
    exact exec_blkLeaves_faultsBy hst (by rw [htree]; exact ht)
  case dBody =>
    obtain ⟨-, ht, -⟩ := h
    split at hi
    · cases hi
    · split at hi <;> cases hi
      rw [prepare_eq_self (by rw [hp]; decide)]
      exact exec_dWalkBit_faultsBy hs ht

/-- R219: at a place of a call that issues no operation of the table. -/
theorem ownAction_faultsBy {s : State} (hs : s.st ≠ .fault) (h : s.phaseReady) : (ownAction s).FaultsBy s.phase.raises := by
  cases hp : s.phase <;> simp only [State.phaseReady, hp] at h <;> simp only [ownAction, hp]
  case eRead => exact readInput_faultsBy hs
  case eData => exact beginData_faultsBy hs
  case eEnd | dEnd => exact CallState.noConfusion
  case dBody =>
    obtain ⟨-, ht, -⟩ := h
    split
    · exact (bodyHeader_faultsBy hs ht).bind fun _ _ hu => hu
    · exact hs
  case dTail => exact endProbe_faultsBy hs
  all_goals exact hs

/-- Moving on in the sequence leaves STATUS alone. -/
theorem advance_status (s : State) : (advance s).st = s.st ∧ (advance s).err = s.err := by
  rcases advance_cases s with h | ⟨q, -, h⟩ | ⟨n, k, c, p, h⟩ <;> rw [h] <;> exact ⟨rfl, rfl⟩

theorem retired_status (s : State) : s.retired.st = s.st ∧ s.retired.err = s.err := by
  unfold State.retired; split
  · exact ⟨rfl, rfl⟩
  · split
    · exact advance_status s
    · exact ⟨rfl, rfl⟩

/-- R219: a step of the block by itself in a call. -/
theorem sequencerStep_faultsBy {s : State} (hb : s.st = .busy) (h : s.takeUp.phaseReady) :
    FaultsBy s.phase.raises (sequencerStep s) := by
  have hs : s.takeUp.st ≠ .fault := by rw [State.takeUp_st, hb]; exact CallState.noConfusion
  rw [← State.takeUp_phase s]
  cases hn : nextOp s.takeUp with
  | none =>
    rw [sequencerStep_of_own hb hn]
    exact ((ownAction_faultsBy hs h).settle _).mapNext (State.rejoin_st s) (State.rejoin_err s)
  | some i =>
    rw [sequencerStep_of_nextOp hb hn]
    exact ((exec_nextOp_faultsBy hs h hn).mapNext (fun u => (retired_status u).1) fun u => (retired_status u).2).mapNext
      (State.rejoin_st s) (State.rejoin_err s)

/-- The host's events play no part in what is taken up again. -/
theorem takeUp_withHost (s : State) (hs : List HostEvent) :
    State.takeUp { s with host := hs } = { s.takeUp with host := hs } := by
  rcases Option.eq_none_or_eq_some s.held with hd | ⟨d, hd⟩
  · rw [State.takeUp_of_none hd]; exact State.takeUp_of_none (s := { s with host := hs }) hd
  · rw [State.takeUp_of_some hd]; exact State.takeUp_of_some (s := { s with host := hs }) hd

/-- R227: what a host that keeps to its ports requests next is a write to CMD. -/
theorem isCmdFrame_of_hostLegal {s : State} {f : List Byte} {hs : List HostEvent} (h : s.hostLegal = true)
    (hh : s.host = .request f :: hs) : isCmdFrame f = true := by
  simp only [State.hostLegal, hh, List.all_cons, Bool.and_eq_true] at h
  exact h.1

theorem isCmdFrame_of_decode {f r : List Byte} {i : Instr} (hd : decode f = .ok (i, r)) : isCmdFrame f = i.isCommand := by
  simp only [isCmdFrame, hd]

/-- R219: of the ways a step can go in a call, only the block's own step leads to FAULT. -/
theorem step_faultsBy {s : State} (h : s.CallInv) (hlegal : s.hostLegal = true) (hb : s.st = .busy) :
    FaultsBy s.phase.raises (step s) := by
  intro t ht hf
  have hbusy : s.st ≠ .fault := by rw [hb]; exact CallState.noConfusion
  obtain ⟨-, hj, hready⟩ := h
  cases step_stepTo ht with
  | goesOn hs _ ht =>
    rw [goOn_of_noJob (s := { s with host := hs }) hj] at ht
    refine sequencerStep_faultsBy (s := { s with host := hs }) hb ?_ t ht hf
    rw [takeUp_withHost]
    exact hready ((State.busy_iff s).2 hb)
  | command f r i hs _ _ hi ht =>
    obtain ⟨-, hstays⟩ := cmdWriteStartsCallUnlessBusy { s with host := hs }
    obtain ⟨henc, hdec⟩ := hstays hb
    rcases isCommand_iff.1 hi with rfl | rfl
    · cases henc.symm.trans ht; exact absurd hf hbusy
    · cases hdec.symm.trans ht; exact absurd hf hbusy
  | unit f r i hs hh hd hi _ _ =>
    have hcmd := isCmdFrame_of_hostLegal hlegal hh
    rw [isCmdFrame_of_decode hd, hi] at hcmd
    cases hcmd
  | bind a b hs _ ht => subst ht; exact absurd hf hbusy
  | reset hs _ ht => subst ht; cases hf
  | await hs _ hb' _ => exact absurd hb hb'

end Sys2Proof.Machine

/-! ### The settled statements -/

open Sys2Proof Sys2Proof.Machine

/-- Settles O5: the fields of the state that `State.raise` makes; outside a call, and with nothing waiting, the block does
nothing by itself. -/
theorem raiseEndsTheCall : Obligations.RaiseEndsTheCall := by
  intro e s t
  have hst : t.st = .fault := State.raise_st e s
  have herr : t.err = e := State.raise_err e s
  have hheld : t.held = none := State.raise_held e s
  refine ⟨hst, herr, hheld, ?_, State.raise_src e s, State.raise_snk e s, State.raise_out e s, State.raise_host e s,
    fun hb => ?_, fun hh => step_of_idle hh hheld (by rw [hst]; exact CallState.noConfusion)⟩
  · rw [State.statusWord, hst, herr]
    cases e <;> rfl
  · simp [t, State.freqAt, State.cwAt, (State.busy_iff s).2 hb, BitWriter.fresh]

/-- Settles O6: in FAULT the block goes on with a requested unit operation at most, which ends in FAULT. -/
theorem faultIsLeftByCommandOrReset : Obligations.FaultIsLeftByCommandOrReset := by
  intro s t hinv hs h ht
  cases step_stepTo h with
  | goesOn hs' _ h => exact absurd (goOn_st_fault (s := { s with host := hs' }) (hinv.of_eq rfl) hs h) ht
  | command f r i rest hh hd hi h =>
    refine .inr ⟨f, rest, hh, (isCmdFrame_of_decode hd).trans hi, ?_⟩
    obtain ⟨hstarts, -⟩ := cmdWriteStartsCallUnlessBusy { s with host := rest }
    obtain ⟨henc, hdec⟩ := hstarts (by rw [hs]; exact CallState.noConfusion)
    rcases isCommand_iff.1 hi with rfl | rfl
    · cases henc.symm.trans h; exact ⟨rfl, rfl, .inl rfl⟩
    · cases hdec.symm.trans h; exact ⟨rfl, rfl, .inr rfl⟩
  | unit f r i rest _ _ hi _ h => exact absurd (runJob_st_fault (s := { s with host := rest }) hi hs h) ht
  | bind a b rest _ h => subst h; exact absurd hs ht
  | reset rest hh h => subst h; exact .inl ⟨rest, hh, rfl, rfl⟩
  | await rest _ _ h => subst h; exact absurd hs ht

/-- Settles O56: a call comes to FAULT only by the block's own step, and at each place of it what is issued there raises
only errors of its command, since the tree it needs is there. -/
theorem errorsOfEachCommand : Obligations.ErrorsOfEachCommand := by
  intro s t h hlegal hb ht hf
  have herr := step_faultsBy h hlegal hb t ht hf
  refine ⟨fun hp => ?_, fun hp => ?_⟩ <;> rw [Phase.raises, hp] at herr <;> exact herr
end

section
/-! PROOFS. What the operations of a call give where they have their value, so far as the call goes on to rely on it: at most
seven bits pending (`41_bitio.md` R110), a bit ahead for each step of the walk (`46_decode.md` R198), a tree with its symbols
(R190), a table that covers the input (`45_encode.md` R178). -/

namespace Sys2Proof

/-- R151: no leaf is left without a symbol. -/
theorem Tree.complete_of_assign {t u : Tree} {bs rest : List Byte} (h : t.assign bs = some (u, rest)) :
    u.complete = true := by
  obtain ⟨vs, -, hu, -⟩ := Tree.symbols_of_assign h
  rw [Tree.complete_iff, hu]
  simp

namespace Machine

/-! ### Values -/

/-- Two descriptions of one operation. -/
theorem Res.Sat.and {α : Type} {r : Res α} {P P' : α → State → Prop} {Q Q' : Option Err → State → Prop} (h : r.Sat P Q)
    (h' : r.Sat P' Q') : r.Sat (fun a s => P a s ∧ P' a s) fun e s => Q e s ∧ Q' e s := by
  cases r with
  | ok a s | raise e s | wait s => exact ⟨h, h'⟩
  | fault f | refuse f => trivial

/-- A call in which nothing waits after an operation has got its value. -/
theorem eq_ok_of_next {α : Type} {r : Res α} {s u : State} (h : settle s r = .next u) (hd : u.held = none)
    (hb : u.st = .busy) : ∃ a, r = .ok a u := by
  rcases settle_eq_next.1 h with ha | ⟨e, v, -, rfl⟩ | ⟨v, -, rfl⟩
  · exact ha
  · rw [State.raise_st] at hb; cases hb
  · cases hd

/-! ### The bit writer

R110: behind each of its operations at most seven bits are pending. -/

theorem flushBytes_ready (n : Nat) {s : State} (hw : s.bw.acc.wf = true) (hn : s.bw.acc.length ≤ 8 * n + 7) :
    (flushBytes n s).Sat (fun _ u => u.writerReady) fun _ _ => True := by
  induction n generalizing s with
  | zero => exact ⟨hw, hn⟩
  | succ n ih =>
    rw [flushBytes]
    by_cases h8 : 8 ≤ s.bw.acc.length
    · obtain ⟨⟨v, t⟩, hpop⟩ : ∃ x, s.bw.acc.popByte = some x := ⟨_, BitSlice.popByte_of_le h8⟩
      obtain ⟨ht, hseq⟩ := BitSlice.popByte_eq_some hw hpop
      have hlen : s.bw.acc.length = 8 + t.length := by simpa using congrArg List.length hseq
      rw [hpop]
      refine Res.Sat.bind (destWrite_sat v (s.setAcc t)) (fun _ u hu => ?_) fun _ _ _ => trivial
      obtain ⟨-, hbw, -⟩ := hu
      have ht7 : t.length ≤ 8 * n + 7 := by omega
      exact ih (by rw [hbw]; exact ht) (by rw [hbw]; exact ht7)
    · rw [BitSlice.popByte_short (Nat.lt_of_not_le h8)]
      exact ⟨hw, by omega⟩

theorem flushWriter_ready {s : State} (hw : s.bw.acc.wf = true) :
    (flushWriter s).Sat (fun _ u => u.writerReady) fun _ _ => True :=
  flushBytes_ready _ hw (by omega)

theorem writeBit_ready (b : Bool) {s : State} (hw : s.bw.acc.wf = true) :
    (writeBit b s).Sat (fun _ u => u.writerReady) fun _ _ => True := by
  unfold writeBit; split
  · trivial
  · exact flushWriter_ready (BitSlice.appendBit_wf hw ‹_›)

theorem writeSlice_ready {x : BitSlice} (hx : x.wf = true) {s : State} (hw : s.bw.acc.wf = true) :
    (writeSlice x s).Sat (fun _ u => u.writerReady) fun _ _ => True := by
  unfold writeSlice; split
  · trivial
  · exact flushWriter_ready (BitSlice.appendSlice_wf hw hx ‹_›)

theorem writePaddingBits_ready {s : State} (hw : s.bw.acc.wf = true) :
    (writePaddingBits s).Sat (fun _ u => u.writerReady) fun _ _ => True :=
  flushWriter_ready (BitSlice.padToByte_wf hw)

theorem writeShape_ready (t : Tree) {s : State} (hw : s.bw.acc.wf = true) :
    (writeShape t s).Sat (fun _ u => u.writerReady) fun _ _ => True := by
  induction t generalizing s with
  | leaf w x => exact writeBit_ready false hw
  | node w l r ihl ihr =>
    exact Res.Sat.bind (writeBit_ready true hw)
      (fun _ _ hu => Res.Sat.bind (ihl hu.1) (fun _ _ hv => ihr hv.1) fun _ _ => id) fun _ _ => id

/-! ### The walk -/

/-- What the walk relies on between two of its steps (R198): CUR at a node, the reader bound to PAY, and a bit ahead for
each step left. -/
def State.walkReady (s : State) : Prop :=
  s.cursorReady ∧ (∃ p, s.br.origin = .pay p) ∧ s.remaining ≤ s.readerBits.length ∧ s.remaining < 2 ^ 67

/-- R196 to R198: behind the header byte. -/
theorem bodyHeader_ready {s : State} (hlen : s.pay.length < 2 ^ 64) :
    (bodyHeader s).Sat (fun _ u => u.walkReady) fun _ _ => True := by
  refine (bodyHeader_sat s).mono (fun _ u hu => ?_) fun _ _ _ => trivial
  obtain ⟨hu, -, -, htree⟩ := hu
  obtain ⟨t, ht⟩ := Option.isSome_iff_exists.1 htree
  rw [hu]
  refine ⟨⟨t, t, ht, t.nodeAt_nil, .inl rfl⟩, ⟨1, rfl⟩, ?_, ?_⟩
  · rw [readerBits_of_empty (p := 1) rfl rfl, unpack_length, List.length_drop]
    exact Nat.sub_le _ _
  · dsimp only; omega

/-- R199 to R202: a step takes one of the bits ahead, and comes to an internal node or back to the root. -/
theorem walkBit_ready {s : State} (ht : s.treeReady) (h : s.walkReady) :
    (walkBit s).Sat (fun _ u => u.walkReady) fun _ _ => True := by
  obtain ⟨hv, t, ht, -⟩ := ht
  obtain ⟨-, horigin, hbits, hmax⟩ := h
  by_cases h0 : s.remaining = 0
  · rw [walkBit, requireTree_some hv ht, Res.bind_ok, if_pos h0]; trivial
  obtain ⟨b, bits, hb⟩ := List.exists_cons_of_length_pos (Nat.lt_of_lt_of_le (Nat.pos_of_ne_zero h0) hbits)
  obtain ⟨br, hw, hstep⟩ := Walking.walkBit ⟨hv, ht, horigin, hb⟩ (Nat.pos_of_ne_zero h0)
  rw [hstep]
  refine Res.Sat.bind (walkTo_sat b _) (fun _ u hu => ?_) fun _ _ _ => trivial
  obtain ⟨hu, -, -, t', w, l, r, ht', hn, hcur⟩ := hu
  obtain ⟨n, hn', hnode⟩ : ∃ n, t'.nodeAt u.cur = some n ∧ (u.cur = [] ∨ n.isNode = true) := by
    rcases hcur with hc | ⟨hc, hnode⟩
    · exact ⟨t', by rw [hc, Tree.nodeAt_nil], .inl hc⟩
    · exact ⟨_, by rw [hc, Tree.nodeAt_append_bit hn], .inr hnode⟩
  rw [hb, List.length_cons] at hbits
  rw [← hw.bits] at hbits
  rw [hu]
  refine ⟨⟨t', n, ht', hn', hnode⟩, hw.origin, ?_, ?_⟩
  · exact Nat.sub_le_of_le_add hbits
  · exact Nat.lt_of_le_of_lt (Nat.sub_le _ _) hmax

/-! ### What an operation gives -/

/-- `P` holds of the state of a call in which an operation has got its value. -/
def Gives (P : State → Prop) (o : Outcome) : Prop := ∀ u, o = .next u → u.held = none → u.st = .busy → P u

theorem Res.Sat.gives {α : Type} {r : Res α} {s : State} {P : State → Prop} {Q : Option Err → State → Prop}
    (h : r.Sat (fun _ => P) Q) : Gives P (settle s r) := by
  intro u hu hd hb
  obtain ⟨a, rfl⟩ := eq_ok_of_next hu hd hb
  exact h

theorem Gives.mono {P P' : State → Prop} {o : Outcome} (h : Gives P o) (hP : ∀ u, P u → P' u) : Gives P' o :=
  fun u hu hd hb => hP u (h u hu hd hb)

section
variable {s : State}

/-- A write leaves the writer ready for the next one. -/
def Written (s u : State) : Prop := WriterStep s u ∧ u.writerReady

theorem Written.of_sat {r : Res Unit} {Q Q' : Option Err → State → Prop}
    (h : r.Sat (fun _ u => WriterStep s u ∧ u.freeCtr = s.freeCtr) Q) (hw : r.Sat (fun _ u => u.writerReady) Q') :
    Gives (Written s) (settle s r) :=
  ((h.and hw).mono (fun _ _ ⟨⟨hstep, _⟩, hready⟩ => ⟨hstep, hready⟩) fun _ _ => id).gives

theorem exec_tWriteShape_written {t : Tree} (ht : s.tree = some t) (hw : s.bw.acc.wf = true) :
    Gives (Written s) (exec .tWriteShape s) := by
  simp only [exec, execTWriteShape, needTree_some ht, Res.bind_ok]
  exact .of_sat (writeShape_sat t s) (writeShape_ready t hw)

theorem exec_bwWritePaddingBits_written (hw : s.bw.acc.wf = true) :
    Gives (Written s) (exec .bwWritePaddingBits s) :=
  .of_sat (writePaddingBits_sat s) (writePaddingBits_ready hw)

theorem exec_bwWriteSlice_written {c : Byte} {x : BitSlice} (hc : s.cwAt c = some x) (hx : x.wf = true)
    (hw : s.bw.acc.wf = true) : Gives (Written s) (exec (.bwWriteSlice (.cw c)) s) := by
  rw [exec_bwWriteSlice_reads (.inr (.inr ⟨c, rfl, hc⟩))]
  exact .of_sat (writeSlice_sat x s) (writeSlice_ready hx hw)

theorem exec_blkWrite_gives (b : BlockId) : Gives (SinkStep s) (exec (.blkWrite b) s) :=
  ((emitAll_sat _ s).mono (fun _ _ hu => hu.1) fun _ _ => id).gives

/-- R163: PAY holds as many bytes as BLK_LEN says. -/
theorem exec_blkRead_gives (b : BlockId) :
    Gives (fun u =>
      u = { s with src := u.src, srcEos := u.srcEos, blkId := u.blkId, blkLen := u.blkLen, pay := u.pay } ∧
        u.pay.length < 2 ^ 64) (exec (.blkRead b) s) :=
  ((blockRead_sat b s).mono (fun _ u hu => ⟨hu.1, by rw [hu.2]; exact u.blkLen.isLt⟩) fun _ _ => id).gives

/-- R187: a tree has been read. -/
theorem exec_blkShape_gives :
    Gives (fun u => u.phase = s.phase ∧ u.inbuf = s.inbuf ∧ u.tree.isSome = true) (exec .blkShape s) :=
  Res.Sat.gives (Q := fun _ _ => True) <|
    Res.Sat.bind (readShape_keeps (s.newReader (.pay 0))) (fun _ _ hv => ⟨hv.phase, hv.inbuf, rfl⟩) fun _ _ _ => trivial

/-- R190: every leaf has its symbol. -/
theorem exec_blkLeaves_gives :
    Gives (fun u => ∃ t : Tree, t.complete = true ∧ u = { s with tree := some t, treeValid := true })
      (exec .blkLeaves s) := by
  refine (Res.Sat.bind (assignLeaves_sat s) (fun _ u hu => ?_) fun _ _ => id).gives
  obtain ⟨_, t, -, ht, rfl⟩ := hu
  exact ⟨t, Tree.complete_of_assign ht, rfl⟩

/-- R178, R250: the table built from the tree of an input covers the input. -/
theorem exec_tBuildTable_gives {input : List Byte} (hlen : input.length ≤ maxInput) {p : Params}
    (ht : s.tree = some (treeOf p input)) :
    Gives (fun u => u = { s with cw := u.cw, cwacc := u.cwacc } ∧ ∀ c ∈ input, (u.cwAt c).isSome = true)
      (exec .tBuildTable s) := by
  rw [exec_tBuildTable_of_tree ht]
  intro u hu hd hb
  obtain ⟨a, hok⟩ := eq_ok_of_next hu hd hb
  have hsat := table_sat (treeOf p input) [] (Nat.zero_le _) { s with cw := Vector.replicate 256 none }
  rw [hok] at hsat
  obtain ⟨hframe, -⟩ := hsat
  refine ⟨hframe, fun c hc => ?_⟩
  obtain ⟨q, hq⟩ := exists_codeOf_treeOf p hlen hc
  rw [table_cwAt hok, ← Tree.codeOf_eq, hq]
  rfl

end

end Machine
end Sys2Proof
end

section
/-! PROOFS. What every step of a call keeps (`70_reset_and_hazards.md` R245, R247, R250): the operation issued at each place
of the sequence leads to the facts of the next place. And a reset (R240). -/

namespace Sys2Proof.Machine

/-! ### The facts of a place -/

/-- A change of none of the elements that the facts of a place speak of. -/
theorem State.phaseReady.of_eq {s t : State} (h : s.phaseReady)
    (ht : t = { t with
      phase := s.phase, pos := s.pos, params := s.params, inbuf := s.inbuf, freq := s.freq, treeValid := s.treeValid,
      tree := s.tree, cw := s.cw, bw := s.bw, br := s.br, pay := s.pay, cur := s.cur, remaining := s.remaining }) :
    t.phaseReady := by
  rw [ht]; exact h

/-- R174, R175: what a phase does before its operation. -/
theorem prepare_ready {s : State} (h : s.phaseReady) : (prepare s).phaseReady := by
  by_cases h0 : s.pos = 0
  · cases hp : s.phase <;> simp only [prepare, hp, if_pos h0]
    case eShape =>
      simp only [State.phaseReady, hp] at h
      obtain ⟨hlen, hv, ht, -⟩ := h
      simp only [State.phaseReady, State.newWriter_phase, State.clearPay_phase, hp]
      exact ⟨hlen, hv, ht, .inl h0⟩
    case eLeaves =>
      simp only [State.phaseReady, hp] at h
      simp only [State.phaseReady, State.clearPay_phase, hp]
      exact h
    all_goals exact h
  · cases hp : s.phase <;> simp only [prepare, hp, if_neg h0] <;> exact h

/-- Nothing waits, and in a call the facts of its place hold. -/
def State.Ready (s : State) : Prop := s.held = none ∧ (s.st = .busy → s.phaseReady)

/-- The call invariant without `State.Inv`. -/
def State.InPlace (s : State) : Prop := s.noJob ∧ (s.busy = true → s.takeUp.phaseReady)

theorem State.Ready.inPlace {s : State} (h : s.Ready) : s.InPlace := by
  obtain ⟨hd, hready⟩ := h
  refine ⟨fun x hx => (nomatch hd.symm.trans hx), fun hb => ?_⟩
  rw [State.takeUp_of_none hd]
  exact hready ((State.busy_iff s).1 hb)

theorem raise_inPlace (e : Err) (s : State) : (s.raise e).InPlace :=
  State.Ready.inPlace ⟨State.raise_held e s, fun hb => by rw [State.raise_st] at hb; cases hb⟩

/-- The streams, the events and the output log of what is taken up again. -/
theorem takeUp_of_eq {s t : State} (ht : t = { s with src := t.src, snk := t.snk, out := t.out, host := t.host }) :
    t.takeUp = { s.takeUp with src := t.takeUp.src, snk := t.takeUp.snk, out := t.out, host := t.host } := by
  have hheld : t.held = s.held := by rw [ht]
  rcases Option.eq_none_or_eq_some s.held with hd | ⟨d, hd⟩
  · rw [State.takeUp_of_none hd, State.takeUp_of_none (hheld.trans hd)]
    exact ht
  · rw [State.takeUp_of_some hd, State.takeUp_of_some (hheld.trans hd), ht]

/-- What the host does to the streams and the events, and what is written, play no part in it. -/
theorem State.InPlace.of_eq {s t : State} (h : s.InPlace)
    (ht : t = { s with src := t.src, snk := t.snk, out := t.out, host := t.host }) : t.InPlace := by
  obtain ⟨hj, hready⟩ := h
  refine ⟨by rw [ht]; exact hj, fun hb => ?_⟩
  rw [ht] at hb
  rw [takeUp_of_eq ht]
  exact (hready hb).of_eq rfl

theorem State.InPlace.rejoin {t : State} (h : t.InPlace) (s : State) : (s.rejoin t).InPlace := by
  unfold State.rejoin; split
  · exact h
  · exact h.of_eq rfl

/-! ### The places of the sequence -/

section
variable {s u : State}

/-- R174: within E_SHAPE the writer has to be ready. -/
theorem advance_ready_eShape (hp : u.phase = .eShape) (h : u.phaseReady)
    (hw : u.pos < 2 → u.bw.dest = .pay ∧ u.writerReady) : (advance u).phaseReady := by
  simp only [State.phaseReady, hp] at h
  obtain ⟨hlen, hv, ht, -⟩ := h
  simp only [advance, hp]
  split
  · exact ⟨hlen, hv, ht, .inr (hw ‹_›)⟩
  · exact ⟨hlen, hv, ht⟩

theorem advance_ready_eLeaves (hp : u.phase = .eLeaves) (h : u.phaseReady) : (advance u).phaseReady := by
  simp only [State.phaseReady, hp] at h
  simp only [advance, hp]
  split <;> exact h

/-- R178 to R180: once E_DATA has begun. -/
theorem advance_ready_eData (hp : u.phase = .eData) (h0 : u.pos ≠ 0) (h : u.phaseReady) : (advance u).phaseReady := by
  simp only [State.phaseReady, hp] at h
  obtain ⟨hlen, hv, ht, hcw, hbegun⟩ := h
  obtain ⟨hd, hw, hpay⟩ := hbegun.resolve_left h0
  simp only [advance, hp]
  split
  · split
    · exact ⟨hlen, hv, ht, hcw, .inr ⟨hd, hw, hpay⟩⟩
    · exact ⟨hlen, hv, ht, hcw, .inr ⟨hd, hw, mt (List.set_eq_nil_iff _ _).1 hpay⟩⟩
  · split
    · exact ⟨hlen, hv, ht, hcw, .inr ⟨hd, hw, hpay⟩⟩
    · exact ⟨hlen, trivial⟩

theorem SinkStep.phaseReady (hu : SinkStep s u) (h : s.phaseReady) : u.phaseReady := by
  obtain ⟨hu, -⟩ := hu
  rw [hu]
  exact h.of_eq rfl

/-- R174: a write in E_SHAPE. -/
theorem Written.ready_eShape (hu : Written s u) (hp : s.phase = .eShape) (h : s.phaseReady)
    (hd : s.bw.dest = .pay) : (advance u).phaseReady := by
  obtain ⟨hstep, hw⟩ := hu
  obtain ⟨hu, -⟩ := hstep
  simp only [State.phaseReady, hp] at h
  obtain ⟨hlen, hv, ht, -⟩ := h
  rw [hu] at hw ⊢
  refine advance_ready_eShape hp ?_ fun _ => ⟨hd, hw⟩
  simp only [State.phaseReady, hp]
  exact ⟨hlen, hv, ht, .inr ⟨hd, hw⟩⟩

/-- R178, R179: a write in E_DATA, where PAY only grows. -/
theorem Written.ready_eData (hu : Written s u) (hp : s.phase = .eData) (h0 : s.pos ≠ 0) (h : s.phaseReady) :
    (advance u).phaseReady := by
  simp only [State.phaseReady, hp] at h
  obtain ⟨hlen, hv, ht, hcw, hbegun⟩ := h
  obtain ⟨hd, -, hpay⟩ := hbegun.resolve_left h0
  obtain ⟨hstep, hw⟩ := hu
  obtain ⟨hu, hgrows, -⟩ := hstep
  have hpayu : u.pay ≠ [] := fun hnil => hpay (List.prefix_nil.1 (hnil ▸ hgrows))
  rw [hu] at hw ⊢
  refine advance_ready_eData hp h0 ?_
  simp only [State.phaseReady, hp]
  exact ⟨hlen, hv, ht, hcw, .inr ⟨hd, hw, hpayu⟩⟩

end
/-! ### The operation of each place -/

/-- Where the operation has its value, the facts of the next place hold. -/
def AdvancesReady (o : Outcome) : Prop := Gives (fun u => (advance u).phaseReady) o

section
variable {s : State} (hs : s.Inv) (h : s.phaseReady)

include h in
/-- R172: the whole input is counted. -/
theorem eCount_ready (hp : s.phase = .eCount) : AdvancesReady (exec .tCount s) := by
  intro u hu _ _
  cases hu
  obtain ⟨hlen, -⟩ := h
  simp only [advance, hp]
  exact ⟨hlen, rfl⟩

include h in
/-- R173, R245: the tree is that of the whole input. -/
theorem eBuild_ready (hp : s.phase = .eBuild) : AdvancesReady (exec .tBuild s) := by
  simp only [State.phaseReady, hp] at h
  obtain ⟨hlen, hfreq⟩ := h
  refine Res.Sat.gives (Q := fun _ _ => True) ?_
  split
  · simp only [Res.sat_ok, advance, hp]
    exact ⟨hlen, rfl, congrArg (fun f => some (buildTree s.params f)) hfreq, .inl rfl⟩
  · trivial

include hs h in
/-- R174: the shape word and its padding to the writer, then the SHAPE block. -/
theorem eShape_ready (hp : s.phase = .eShape) {i : Instr} (hi : nextOp s = some i) :
    AdvancesReady (exec i (prepare s)) := by
  have hsp := prepare_ready h
  have hpp := (prepare_phase s).trans hp
  have hwf := (prepare_inv hs).slice_wf .acc
  have hfacts := h
  simp only [State.phaseReady, hp] at hfacts
  obtain ⟨-, -, ht, hwriter⟩ := hfacts
  simp only [nextOp, hp, Option.some.injEq] at hi
  split at hi
  · subst hi
    have hd : (prepare s).bw.dest = .pay := by simp only [prepare, hp, if_pos ‹s.pos = 0›]; rfl
    exact (exec_tWriteShape_written ((prepare_tree s).trans ht) hwf).mono fun u hu => hu.ready_eShape hpp hsp hd
  · rename_i h0
    have hself : prepare s = s := by simp only [prepare, hp, if_neg h0]
    rw [hself] at hwf ⊢
    obtain ⟨hd, -⟩ := hwriter.resolve_left h0
    split at hi
    · subst hi
      exact (exec_bwWritePaddingBits_written hwf).mono fun u hu => hu.ready_eShape hp h hd
    · subst hi
      refine (exec_blkWrite_gives .shape).mono fun u hu => ?_
      have hpos : u.pos = s.pos := by rw [hu.1]
      exact advance_ready_eShape (by rw [hu.1]; exact hp) (hu.phaseReady h) fun hlt => by omega

include h in
/-- R175: the symbols to PAY, then the LEAVES block. -/
theorem eLeaves_ready (hp : s.phase = .eLeaves) {i : Instr} (hi : nextOp s = some i) :
    AdvancesReady (exec i (prepare s)) := by
  have hsp := prepare_ready h
  have hpp := (prepare_phase s).trans hp
  simp only [nextOp, hp, Option.some.injEq] at hi
  split at hi
  · subst hi
    refine Res.Sat.gives (Q := fun _ _ => True)
      (Res.Sat.bind (needTree_sat (prepare s)) (fun t v hv => ?_) fun _ _ _ => trivial)
    obtain ⟨rfl, -⟩ := hv
    refine (writeLeaves_sat t _).mono (fun _ u hu => ?_) fun _ _ _ => trivial
    obtain ⟨hu, -⟩ := hu
    simp only [State.phaseReady, hpp] at hsp
    rw [hu]
    refine advance_ready_eLeaves hpp ?_
    simp only [State.phaseReady, hpp]
    exact hsp
  · subst hi
    refine (exec_blkWrite_gives .leaves).mono fun u hu => advance_ready_eLeaves ?_ (hu.phaseReady hsp)
    rw [hu.1]; exact hpp

include h in
/-- R176, R250: the table covers the input. -/
theorem eTable_ready (hp : s.phase = .eTable) : AdvancesReady (exec .tBuildTable s) := by
  simp only [State.phaseReady, hp] at h
  obtain ⟨hlen, hv, ht⟩ := h
  refine (exec_tBuildTable_gives hlen ht).mono fun u hu => ?_
  obtain ⟨hu, hcw⟩ := hu
  rw [hu] at hcw ⊢
  simp only [advance, hp]
  exact ⟨hlen, hv, ht, hcw, .inl rfl⟩

include hs h in
/-- R178 to R180: the codewords, the padding count and the padding, then the DATA block. -/
theorem eData_ready (hp : s.phase = .eData) {i : Instr} (hi : nextOp s = some i) : AdvancesReady (exec i s) := by
  have hwf := hs.slice_wf .acc
  have hfacts := h
  simp only [State.phaseReady, hp] at hfacts
  obtain ⟨-, -, -, hcw, -⟩ := hfacts
  simp only [nextOp, hp] at hi
  split at hi
  · cases hi
  rename_i h0
  split at hi
  · split at hi <;> cases hi
    · rename_i c hc
      obtain ⟨x, hx⟩ := Option.isSome_iff_exists.1 (hcw c (List.mem_of_getElem? hc))
      obtain ⟨-, -, htable, -⟩ := hs
      exact (exec_bwWriteSlice_written hx (htable c x hx) hwf).mono fun u hu => hu.ready_eData hp h0 h
    · intro u hu _ _
      cases hu
      exact advance_ready_eData hp h0 (h.of_eq rfl)
  · cases hi
    split
    · exact (exec_bwWritePaddingBits_written hwf).mono fun u hu => hu.ready_eData hp h0 h
    · refine (exec_blkWrite_gives .data).mono fun u hu => advance_ready_eData ?_ ?_ (hu.phaseReady h)
      · rw [hu.1]; exact hp
      · rw [hu.1]; exact h0

include h in
/-- R186, R189, R191: a block is read before its processing. -/
theorem blkRead_ready {b : BlockId}
    (hp : s.phase = .dBlk0 ∨ s.phase = .dBlk1 ∨ s.phase = .dBlk2) : AdvancesReady (exec (.blkRead b) s) := by
  refine (exec_blkRead_gives b).mono fun u hu => ?_
  obtain ⟨hu, hpay⟩ := hu
  rw [hu] at hpay ⊢
  rcases hp with hp | hp | hp
  all_goals
    simp only [State.phaseReady, hp] at h
    obtain ⟨hlen, htree⟩ := h
    simp only [advance, hp]
  · exact ⟨hlen, trivial⟩
  · exact ⟨hlen, htree⟩
  · exact ⟨hlen, htree, hpay, .inl rfl⟩

include h in
/-- R187: the shape becomes TREE. -/
theorem dShape_ready (hp : s.phase = .dShape) : AdvancesReady (exec .blkShape s) := by
  obtain ⟨hlen, -⟩ := h
  refine exec_blkShape_gives.mono fun u hu => ?_
  obtain ⟨hphase, hin, htree⟩ := hu
  simp only [advance, hphase.trans hp]
  exact ⟨by rw [State.enter_inbuf, hin]; exact hlen, htree⟩

include h in
/-- R190, R247: the leaves get their symbols. -/
theorem dLeaves_ready (hp : s.phase = .dLeaves) : AdvancesReady (exec .blkLeaves s) := by
  obtain ⟨hlen, -⟩ := h
  refine exec_blkLeaves_gives.mono fun u hu => ?_
  obtain ⟨t, ht, rfl⟩ := hu
  simp only [advance, hp]
  exact ⟨hlen, rfl, t, rfl, ht⟩

include h in
/-- R198 to R203: a step of the walk. -/
theorem dBody_ready (hp : s.phase = .dBody) (h0 : s.pos ≠ 0) : AdvancesReady (exec .dWalkBit s) := by
  simp only [State.phaseReady, hp] at h
  obtain ⟨hlen, htree, hpay, hwalk⟩ := h
  refine Res.Sat.gives (((walkBit_sat s).and (walkBit_ready htree (hwalk.resolve_left h0))).mono (fun _ u hu => ?_)
    fun _ _ => id)
  obtain ⟨⟨hu, -⟩, hready⟩ := hu
  rw [hu] at hready ⊢
  simp only [advance, hp, State.phaseReady]
  exact ⟨hlen, htree, hpay, .inr hready⟩

include hs h in
/-- At each place of a call, the operation issued there leads to the facts of the next place. -/
theorem exec_nextOp_ready {i : Instr} (hi : nextOp s = some i) : AdvancesReady (exec i (prepare s)) := by
  by_cases hprep : s.phase = .eShape ∨ s.phase = .eLeaves
  · rcases hprep with hp | hp
    · exact eShape_ready hs h hp hi
    · exact eLeaves_ready h hp hi
  rw [prepare_eq_self (not_or.1 hprep)]
  cases hp : s.phase
  case eData => exact eData_ready hs h hp hi
  case dBody =>
    simp only [nextOp, hp] at hi
    split at hi
    · cases hi
    · split at hi <;> cases hi
      exact dBody_ready h hp ‹_›
  case eShape | eLeaves => simp [hp] at hprep
  all_goals simp only [nextOp, hp, Option.some.injEq, reduceCtorEq] at hi
  all_goals subst hi
  case eCount => exact eCount_ready h hp
  case eBuild => exact eBuild_ready h hp
  case eTable => exact eTable_ready h hp
  case dBlk0 => exact blkRead_ready h (.inl hp)
  case dBlk1 => exact blkRead_ready h (.inr (.inl hp))
  case dBlk2 => exact blkRead_ready h (.inr (.inr hp))
  case dShape => exact dShape_ready h hp
  case dLeaves => exact dLeaves_ready h hp

/-! ### The places that issue no operation -/

/-- What such a place leads to; it waits only before it has done anything. -/
def LeadsOn (s : State) (r : Res Unit) : Prop :=
  r.Sat (fun _ t => t.host = s.host ∧ t.held = s.held ∧ (t.st = .busy → t.phaseReady))
    fun e t => t.host = s.host ∧ (e = none → t = s)

include h in
/-- R171: INBUF stays within MAX_INPUT. -/
theorem readInput_leadsOn (hp : s.phase = .eRead) : LeadsOn s (readInput s) := by
  obtain ⟨hlen, -⟩ := h
  refine Res.Sat.bind (srcRead_sat s) (fun a t ht => ?_) fun e t ht => ⟨by rw [ht.1], fun _ => ht.1⟩
  rw [SourceStep] at ht
  cases a with
  | eos => rw [ht]; exact ⟨rfl, rfl, fun _ => ⟨hlen, trivial⟩⟩
  | ioFail => exact ⟨by rw [ht], nofun⟩
  | byte v =>
    rw [ht]
    dsimp only
    split
    · trivial
    · rename_i hmax
      split
      · refine ⟨rfl, rfl, fun _ => ?_⟩
        simp only [State.phaseReady, hp, List.length_append, List.length_singleton, and_true]
        omega
      · exact ⟨rfl, nofun⟩

include h in
/-- R178: the place of the padding count, and a new writer. -/
theorem beginData_leadsOn (hp : s.phase = .eData) : LeadsOn s (beginData s) := by
  simp only [State.phaseReady, hp] at h
  obtain ⟨hlen, hv, ht, hcw, -⟩ := h
  rw [beginData, payAppend]
  split
  · refine ⟨rfl, rfl, fun _ => ?_⟩
    simp only [State.phaseReady, State.newWriter_phase, State.clearPay_phase, hp]
    exact ⟨hlen, hv, ht, hcw, .inr ⟨rfl, ⟨rfl, Nat.zero_le 7⟩, nofun⟩⟩
  · exact ⟨rfl, nofun⟩

include h in
/-- R196 to R198, and R203 where no bit is left. -/
theorem dBody_leadsOn (hp : s.phase = .dBody) : LeadsOn s (ownAction s) := by
  simp only [State.phaseReady, hp] at h
  obtain ⟨hlen, htree, hpay, -⟩ := h
  simp only [ownAction, hp]
  split
  · refine Res.Sat.bind ((bodyHeader_sat s).and (bodyHeader_ready hpay)) (fun _ u hu => ?_) fun e u hu => ?_
    · obtain ⟨⟨hu, -⟩, hready⟩ := hu
      rw [hu] at hready ⊢
      refine ⟨rfl, rfl, fun _ => ?_⟩
      simp only [State.phaseReady, hp]
      exact ⟨hlen, htree, hpay, .inr hready⟩
    · obtain ⟨⟨hu, he⟩, -⟩ := hu
      exact ⟨by rw [hu], by rintro rfl; simp at he⟩
  · exact ⟨rfl, rfl, fun _ => ⟨hlen, trivial⟩⟩

include h in
/-- R205: the end probe. -/
theorem endProbe_leadsOn : LeadsOn s (endProbe s) := by
  obtain ⟨hlen, -⟩ := h
  refine Res.Sat.bind (srcRead_sat s) (fun a t ht => ?_) fun e t ht => ⟨by rw [ht.1], fun _ => ht.1⟩
  rw [SourceStep] at ht
  cases a with
  | eos => rw [ht]; exact ⟨rfl, rfl, fun _ => ⟨hlen, trivial⟩⟩
  | ioFail | byte v => exact ⟨by rw [ht], nofun⟩

include h in
theorem ownAction_leadsOn : LeadsOn s (ownAction s) := by
  cases hp : s.phase
  case dBody => exact dBody_leadsOn h hp
  all_goals simp only [ownAction, hp]
  case eRead => exact readInput_leadsOn h hp
  case eData => exact beginData_leadsOn h hp
  case dTail => exact endProbe_leadsOn h
  case eEnd | dEnd => exact ⟨rfl, rfl, nofun⟩
  all_goals exact ⟨rfl, rfl, fun _ => h⟩

end

/-! ### A step -/

section
variable {s t : State}

/-- From a place that issues no operation. -/
theorem settle_ownAction_inPlace (hd : s.held = none) (h : s.phaseReady) (ht : settle s (ownAction s) = .next t) :
    t.InPlace ∧ t.host = s.host := by
  rcases Res.Sat.next (ownAction_leadsOn h) ht with
    ⟨_, hhost, hheld, hready⟩ | ⟨e, u, ⟨hhost, -⟩, rfl⟩ | ⟨u, ⟨-, hu⟩, rfl⟩
  · exact ⟨State.Ready.inPlace ⟨hheld.trans hd, hready⟩, hhost⟩
  · exact ⟨raise_inPlace e u, (State.raise_host e u).trans hhost⟩
  · rw [hu rfl]
    refine ⟨⟨fun x hx => by cases hx; rfl, fun _ => ?_⟩, rfl⟩
    rw [(Went.refl s).takeUp_suspend hd rfl]
    exact h

theorem exec_host_eq {i : Instr} (h : exec i s = .next t) : t.host = s.host := by
  cases hi : i.isCommand with
  | false => exact exec_host hi h
  | true =>
    obtain ⟨mode, first, hx⟩ := exec_command hi s
    cases hx.symm.trans h
    split <;> rfl

/-- From a place that issues an operation: it waits there, has ended the call, or the sequence has moved on. -/
theorem retired_inPlace (hs : s.Inv) (hd : s.held = none) (h : s.phaseReady) {i : Instr} (hi : nextOp s = some i)
    (ht : exec i (prepare s) = .next t) : t.retired.InPlace := by
  have hdp : (prepare s).held = none := (prepare_held s).trans hd
  rcases Option.eq_none_or_eq_some t.held with hdt | ⟨x, hx⟩
  · by_cases hb : t.st = .busy
    · rw [State.retired_of_busy hdt hb]
      exact State.Ready.inPlace ⟨(advance_host_held t).2.trans hdt, fun _ => exec_nextOp_ready hs h hi t ht hdt hb⟩
    · rw [State.retired_of_not_busy hdt hb]
      exact State.Ready.inPlace ⟨hdt, fun hb' => absurd hb' hb⟩
  · rw [State.retired_of_held (by rw [hx]; rfl)]
    have hcmd := isCommand_of_held hdp ht hx
    refine ⟨fun y hy => noJob_of_waiting hcmd hdp ht hy, fun _ => ?_⟩
    rw [(takeUp_of_waiting hdp ht hx).1]
    exact (prepare_ready h).of_eq rfl

theorem retired_host (s : State) : s.retired.host = s.host := by
  unfold State.retired; split
  · rfl
  · split
    · exact (advance_host_held s).1
    · rfl

/-- R13: a step of the block by itself. -/
theorem sequencerStep_inPlace (hs : s.Inv) (h : s.InPlace) (ht : sequencerStep s = .next t) :
    t.InPlace ∧ t.host = s.host := by
  by_cases hb : s.st = .busy
  case neg =>
    rw [sequencerStep, (State.busy_eq_false s).2 hb] at ht
    cases ht
    exact ⟨h, rfl⟩
  have hready := h.2 ((State.busy_iff s).2 hb)
  have hd := State.takeUp_held s
  have hhost := State.takeUp_host s
  cases hn : nextOp s.takeUp with
  | none =>
    rw [sequencerStep_of_own hb hn] at ht
    obtain ⟨u, hu, rfl⟩ := mapNext_eq_next.1 ht
    obtain ⟨hplace, hu⟩ := settle_ownAction_inPlace hd hready hu
    exact ⟨hplace.rejoin s, (State.rejoin_host s u).trans (hu.trans hhost)⟩
  | some i =>
    rw [sequencerStep_of_nextOp hb hn] at ht
    obtain ⟨v, hv, rfl⟩ := mapNext_eq_next.1 ht
    obtain ⟨u, hu, rfl⟩ := mapNext_eq_next.1 hv
    refine ⟨(retired_inPlace (takeUp_inv hs) hd hready hn hu).rejoin s, ?_⟩
    rw [State.rejoin_host, retired_host, exec_host_eq hu, prepare_host, hhost]

/-- R11: a write to CMD starts a call at its first phase, or changes nothing. -/
theorem exec_command_inPlace (h : s.InPlace) {i : Instr} (hi : i.isCommand = true) (ht : exec i s = .next t) :
    t.InPlace := by
  rcases isCommand_iff.1 hi with rfl | rfl
  · cases (exec_encode s).symm.trans ht
    split
    · exact h
    · exact State.Ready.inPlace ⟨rfl, fun _ => ⟨Nat.zero_le _, trivial⟩⟩
  · cases (exec_decode s).symm.trans ht
    split
    · exact h
    · exact State.Ready.inPlace ⟨rfl, fun _ => ⟨Nat.zero_le _, trivial⟩⟩

/-- The host's events are used up in order. -/
theorem step_inPlace (hs : s.Inv) (h : s.InPlace) (hlegal : s.hostLegal = true) (ht : step s = .next t) :
    t.InPlace ∧ t.host <:+ s.host := by
  cases step_stepTo ht with
  | goesOn hs' hh ht =>
    have h' : State.InPlace { s with host := hs' } := h.of_eq rfl
    rw [goOn_of_noJob h'.1] at ht
    obtain ⟨hplace, hhost⟩ := sequencerStep_inPlace (s := { s with host := hs' }) (hs.of_eq rfl) h' ht
    exact ⟨hplace, hhost ▸ hh⟩
  | command f r i hs' hh _ hi ht =>
    have h' : State.InPlace { s with host := hs' } := h.of_eq rfl
    exact ⟨exec_command_inPlace h' hi ht, by rw [exec_host_eq ht, hh]; exact List.suffix_cons _ hs'⟩
  | unit f r i hs' hh hd hi _ _ =>
    have hcmd := isCmdFrame_of_hostLegal hlegal hh
    rw [isCmdFrame_of_decode hd, hi] at hcmd
    cases hcmd
  | bind a b hs' hh ht => subst ht; exact ⟨h.of_eq rfl, by rw [hh]; exact List.suffix_cons _ hs'⟩
  | reset hs' hh ht => subst ht; exact ⟨State.Ready.inPlace ⟨rfl, nofun⟩, by rw [hh]; exact List.suffix_cons _ hs'⟩
  | await hs' hh _ ht => subst ht; exact ⟨h.of_eq rfl, by rw [hh]; exact List.suffix_cons _ hs'⟩

theorem hostLegal_of_suffix (h : t.host <:+ s.host) (hlegal : s.hostLegal = true) : t.hostLegal = true := by
  rw [State.hostLegal, List.all_eq_true] at hlegal ⊢
  exact fun e he => hlegal e (h.subset he)

end

end Sys2Proof.Machine

/-! ### The settled statements -/

open Sys2Proof Sys2Proof.Machine

/-- Settles O3: the step is `State.resetBlock`, after which no call is in progress and nothing waits. -/
theorem resetAbandonsEverything : Obligations.ResetAbandonsEverything := by
  intro s rest hh
  refine ⟨State.resetBlock { s with host := rest }, by simp only [step, stepOnce, hh], rfl, rfl, rfl, rfl, rfl, rfl, rfl,
    rfl, rfl, rfl, fun hrest => step_of_idle hrest rfl CallState.noConfusion⟩

/-- Settles O53: the block's own step leads from the facts of a place to those of the next (`exec_nextOp_ready`,
`ownAction_leadsOn`) or waits at its place, and the host's events leave them alone or start a call. -/
theorem stepKeepsCallInvariant : Obligations.StepKeepsCallInvariant := by
  intro s t h hlegal ht
  obtain ⟨hs, hplace⟩ := h
  obtain ⟨hplace', hhost⟩ := step_inPlace hs hplace hlegal ht
  exact ⟨⟨stepKeepsInvariant s t hs ht, hplace'⟩, hostLegal_of_suffix hhost hlegal⟩
end
